-- ==== Sys2Proof/Word.lean ====
section
/-! DEFINITION. The words the part computes on, at the widths the manual gives them (spec/00, R4). -/

namespace Sys2Proof

/-- One byte of memory. -/
abbrev Byte := BitVec 8
/-- A vector register of one lane. -/
abbrev Word32 := BitVec 32
/-- A uniform register, an address, a special register. -/
abbrev Word64 := BitVec 64
/-- One bit per lane of a warp (R17: 64 lanes). -/
abbrev Lanes := BitVec 64
/-- One instruction word (R53). -/
abbrev Word96 := BitVec 96

end Sys2Proof
end

