-- ==== Sys2Proof/Syntax.lean ====
section
/-! DEFINITION. The syntax of the part's steps: one constructor of `Instr` for every row of
spec/opcode_table.json. Rows with an opcode carry the fields of their format (spec/02, R53 to R58) with every
specifier decoded; rows without one are events of the part (spec/95) and carry what the event names. -/

namespace Sys2Proof

/-- Special registers of R67. -/
inductive Special where
  | laneid | warpid | wgid | packid | wid | launch | ctx | clk | amask
  | widf (n : Fin 6)
  | fpmode | fpflags | xcause | xaddr | xpc | xstat | xvec | mseq | bankmap
deriving DecidableEq, Repr

/-- A register specifier (R62): vector, scalar, shared, handle and arrival registers, inline constants by index
(R64) and special registers. -/
inductive Spec where
  | v (n : BitVec 8) | s (n : BitVec 6) | k (n : BitVec 6) | h (n : BitVec 3) | a (n : BitVec 3)
  | const (index : BitVec 8) | special (r : Special)
deriving DecidableEq, Repr

/-- A source field (R61): a bypass latch or a register, with NEG and ABS. -/
inductive Src where
  | latch (n : BitVec 3) (neg abs : Bool)
  | reg (r : Spec) (neg abs : Bool)
deriving DecidableEq, Repr

/-- The guard field (R76). In the uniform form `pred n` names q`n`. -/
inductive Guard where
  | pred (n : BitVec 3) (neg : Bool) | always | never
deriving DecidableEq, Repr

/-- The TYPE codes of R77. -/
inductive Ty where
  | i32 | u32 | i64 | u64 | i16x2 | i8x4 | f32 | f16x2 | bf16x2 | f64
deriving DecidableEq, Repr

/-- The RM codes of R78. -/
inductive Rm where
  | mode | rne | rtz | rup | rdn | stoch
deriving DecidableEq, Repr

/-- Format A (R54). `ext` is bits [17:0], whose meaning each entry gives. -/
structure FmtA where
  guard : Guard
  dst : Spec
  wbs : Bool
  clamp : BitVec 2
  scl : BitVec 3
  a : Src
  b : Src
  c : Src
  ty : Ty
  rm : Rm
  ext : BitVec 18
deriving DecidableEq, Repr

/-- PLOP, which is format A with a table in bits [63:56] (R135). `mid` is bits [55:25]. -/
structure FmtP where
  guard : Guard
  dst : Spec
  wbs : Bool
  clamp : BitVec 2
  scl : BitVec 3
  table : BitVec 8
  mid : BitVec 31
  ty : Ty
  rm : Rm
  ext : BitVec 18
deriving DecidableEq, Repr

/-- Format I (R55). `low` is bits [50:32]. -/
structure FmtI where
  guard : Guard
  dst : Spec
  wbs : Bool
  clamp : BitVec 2
  scl : BitVec 3
  a : Src
  low : BitVec 19
  imm : Word32
deriving DecidableEq, Repr

/-- Format M (R56). -/
structure FmtM where
  guard : Guard
  data : Spec
  size : BitVec 3
  scope : BitVec 3
  base : Src
  order : BitVec 3
  hint : BitVec 3
  index : Src
  offset : Word32
deriving DecidableEq, Repr

/-- Format B (R57): `mid` is bits [69:64], `mask` the source field [63:51], `target` the source field [50:38]
(R137), `low` bits [37:32], `disp` the slot displacement. -/
structure FmtB where
  guard : Guard
  link : Spec
  mid : BitVec 6
  mask : Src
  target : Src
  low : BitVec 6
  disp : Word32
deriving DecidableEq, Repr

/-- TRAP, which is format B with a code in bits [47:32] (R419). `high` is bits [63:48]. -/
structure FmtT where
  guard : Guard
  link : Spec
  mid : BitVec 6
  high : BitVec 16
  code : BitVec 16
  disp : Word32
deriving DecidableEq, Repr

/-- Format E (R58). `mid` is bits [69:64]. -/
structure FmtE where
  guard : Guard
  token : Spec
  mid : BitVec 6
  s1 : Src
  s2 : Src
  s3 : Src
  params : BitVec 25
deriving DecidableEq, Repr

/-- Operand widths: 32 and 64 bits, and 128 bits for four vector registers or a scalar pair (R60, R63). -/
inductive Width where
  | w32 | w64 | w128
deriving DecidableEq, Repr

/-- How LEA reads source B (R130). -/
inductive LeaMode where
  | x64 | s32 | u32
deriving DecidableEq, Repr

/-- The comparisons of WAITC (R352). -/
inductive WaitCmp where
  | eq | ne | lts | ges | ltu | geu
deriving DecidableEq, Repr

/-- What the world outside the part answers to a service call (R325, R326): the code of R326, the peer's own
status, the result, and the bytes a read call delivers. -/
structure ExtReply where
  code : BitVec 8
  detail : BitVec 24
  result : Word32
  bytes : List Byte
deriving DecidableEq, Repr

/-- An access that a host or a peer makes (R245, R450): a read of `len` bytes, a write of `bytes`, or an atomic of 4 or
8 bytes (`op` in the order of the ATOM entries of R214, 10 for ACAS). -/
inductive OuterAccess where
  | read (pa len : Nat)
  | write (pa : Nat) (bytes : List Byte)
  | atomic (pa : Nat) (wide : Bool) (op : Nat) (x cmp : BitVec 64)
deriving DecidableEq, Repr

/-- A range of addresses here that a remote package may reach over a link (R450). -/
structure Grant where
  link : Nat
  package : Nat
  base : Nat
  size : Nat
deriving DecidableEq, Repr

/-- What arrives over a peer link (R450, R452): an access of a remote package, a malformed flit, or its request to open a
window, with the answer of the service firmware. -/
inductive PeerFlit where
  | access (package : Nat) (acc : OuterAccess)
  | malformed
  | request (package base size : Nat) (accepted : Bool)
deriving DecidableEq, Repr

/-- What the service firmware binds a window to (R206, R450): a logical device and a home die, or a link and a remote
package. -/
inductive Window where
  | host (ld : Nat) (home : Nat)
  | peer (link : Nat) (package : Nat)
deriving DecidableEq, Repr

/-- A signed firmware image (R453): the SHA-384 digests of the keys that its two signatures carry, whether each signature
verifies, its version and its measurement. -/
structure SignedImage where
  rsaKey : BitVec 384
  slhKey : BitVec 384
  rsaOk : Bool
  slhOk : Bool
  version : Nat
  measure : BitVec 384
deriving DecidableEq, Repr

/-- What the stages of bring-up meet (R455): stages 1 and 2, the firmware image, and the self-test of each die. -/
structure BringUp where
  power : Bool
  boot : Bool
  image : SignedImage
  selfTest : BitVec 8
deriving DecidableEq, Repr

/-- What an attestation report states (R453): the nonce, the part's identity, the security version, the measurements of the
loaded images, the dies online and the enabled functions. -/
structure Attested where
  nonce : BitVec 256
  identity : BitVec 384
  version : Nat
  images : List (BitVec 384)
  dies : List Nat
  functions : List Nat
deriving DecidableEq, Repr
/-- The report, with its two signatures. -/
structure Report where
  body : Attested
  rsa : List Byte
  slh : List Byte
deriving DecidableEq, Repr

/-- Where a soft error strikes (R209, R51): a granule of a copy in DRAM, L2 or the L1 of a cluster, of a scratchpad of a
pack, or of the memory of a sequence slot (R377), or a fetch line on its way into an instruction cache. -/
inductive Strike where
  | dram (granule : Nat) (unc : Bool)
  | l2 (granule : Nat) (unc : Bool)
  | l1 (cluster granule : Nat) (unc : Bool)
  | spad (pack wg granule : Nat) (unc : Bool)
  | slot (slot : Nat)
  | fetch (cluster line : Nat)
deriving DecidableEq, Repr

/-- What happens around the part that no row of spec/opcode_table.json names: a launch by the service firmware (R303), the
place and the size that it gives a fault ring (R299), a store at a remote package (R450), a soft error (R209). -/
inductive Outer where
  | firmwareLaunch (die root : Nat) (packet : BitVec 1024)
  | faultRing (die base log : Nat)
  | peerStore (pa : Nat) (bytes : List Byte)
  | strike (x : Strike)
deriving DecidableEq, Repr

/-- Every step of the part: an instruction (R79) or an event (spec/95), in the order of spec/opcode_table.json,
those that no definition of the model builds last. -/
inductive Instr where
  | nop (o : FmtA)
  | mov (o : FmtA)
  | movi (o : FmtI)
  | moviSx (o : FmtI)
  | moviZx (o : FmtI)
  | moviHi (o : FmtI)
  | iadd (o : FmtA)
  | isub (o : FmtA)
  | imul (o : FmtA)
  | imulh (o : FmtA)
  | imad (o : FmtA)
  | imin (o : FmtA)
  | imax (o : FmtA)
  | iabsd (o : FmtA)
  | and (o : FmtA)
  | or (o : FmtA)
  | xor (o : FmtA)
  | andn (o : FmtA)
  | lut3 (o : FmtA)
  | shl (o : FmtA)
  | shr (o : FmtA)
  | sar (o : FmtA)
  | rot (o : FmtA)
  | bfx (sx : Bool) (o : FmtA)
  | bfi (o : FmtA)
  | popc (o : FmtA)
  | clz (o : FmtA)
  | brev (o : FmtA)
  | icmp (o : FmtA)
  | sel (o : FmtA)
  | lea (m : LeaMode) (o : FmtA)
  | xtnd (sx : Bool) (o : FmtA)
  | plop (o : FmtP)
  | pmovPack (o : FmtA)
  | pmovLoad (o : FmtA)
  | idivQ (o : FmtA)
  | idivR (o : FmtA)
  | bra (o : FmtB)
  | brx (o : FmtB)
  | call (o : FmtB)
  | callIndirect (o : FmtB)
  | ret (o : FmtB)
  | yield (o : FmtB)
  | exit (o : FmtB)
  | loops (o : FmtB)
  | wsync (o : FmtB)
  | bar (o : FmtB)
  | fadd (o : FmtA)
  | fsub (o : FmtA)
  | fmul (o : FmtA)
  | ffma (o : FmtA)
  | fmin (o : FmtA)
  | fmax (o : FmtA)
  | fcmp (o : FmtA)
  | frcp (o : FmtA)
  | frsq (o : FmtA)
  | fsqrt (o : FmtA)
  | fdiv (o : FmtA)
  | fexp2 (o : FmtA)
  | flog2 (o : FmtA)
  | fsinp (o : FmtA)
  | fcosp (o : FmtA)
  | ftanh (o : FmtA)
  | fcvtF (o : FmtA)
  | fcvtI (o : FmtA)
  | fcvtRint (o : FmtA)
  | icvt (o : FmtA)
  | fclass (o : FmtA)
  | pfma2 (o : FmtA)
  | fdot2 (o : FmtA)
  | idot4 (o : FmtA)
  | bqnt (o : FmtA)
  | bdeq (o : FmtA)
  | shflMap (o : FmtA)
  | shflRot (o : FmtA)
  | shflGath (o : FmtA)
  | voteTest (o : FmtA)
  | voteMask (o : FmtA)
  | voteSum (o : FmtA)
  | wredAdd (o : FmtA)
  | wredMin (o : FmtA)
  | wredMax (o : FmtA)
  | wredAnd (o : FmtA)
  | wredOr (o : FmtA)
  | wredXor (o : FmtA)
  | wscanAdd (o : FmtA)
  | wscanMin (o : FmtA)
  | wscanMax (o : FmtA)
  | wscanAnd (o : FmtA)
  | wscanOr (o : FmtA)
  | wscanXor (o : FmtA)
  | rdlane (o : FmtA)
  | rdlaneRank (o : FmtA)
  | wrlane (o : FmtA)
  | wrlaneRank (o : FmtA)
  | matchClass (o : FmtA)
  | matchPeers (o : FmtA)
  | elect (o : FmtA)
  | kput (o : FmtA)
  | kget (o : FmtA)
  | kpeek (o : FmtA)
  | karm (o : FmtA)
  | kred (o : FmtA)
  | kclr (o : FmtA)
  | kstat (o : FmtA)
  | rdep (o : FmtA)
  | rdepLanding (pack : Nat)
  | ld (sx : Bool) (o : FmtM)
  | st (o : FmtM)
  | lds (sx : Bool) (o : FmtM)
  | sts (o : FmtM)
  | smarkE (o : FmtM)
  | smarkF (o : FmtM)
  | atomAdd (o : FmtM)
  | atomUmin (o : FmtM)
  | atomUmax (o : FmtM)
  | atomSmin (o : FmtM)
  | atomSmax (o : FmtM)
  | atomAnd (o : FmtM)
  | atomOr (o : FmtM)
  | atomXor (o : FmtM)
  | atomExch (o : FmtM)
  | atomFadd (o : FmtM)
  | acas (o : FmtM)
  | fence (o : FmtM)
  | cmaintWbL1 (o : FmtM)
  | cmaintWbiL1 (o : FmtM)
  | cmaintWbMem (o : FmtM)
  | prefL1 (o : FmtM)
  | prefL2 (o : FmtM)
  | icinv (o : FmtM)
  | ifence (o : FmtM)
  | bankcfgCache (o : FmtA)
  | bankcfgSpad (o : FmtA)
  | bankcfgFifo (o : FmtA)
  | bankSwitchDone (cluster bank : Nat)
  | lcopy (t : BitVec 3) (o : FmtM)
  | lcopyLanding (pack idx : Nat)
  | scopy (o : FmtE)
  | scpmxCopy (o : FmtE)
  | scpmxArm (o : FmtE)
  | sgath (o : FmtE)
  | sscat (o : FmtE)
  | scancel (o : FmtE)
  | sprobe (o : FmtE)
  | streamerLanding (cluster entry piece : Nat)
  | streamerCopyCompletion (cluster entry : Nat)
  | followOnMplaneEntry (cluster slot : Nat)
  | mplane (o : FmtE)
  | mplaneBc (o : FmtE)
  | mscale (o : FmtE)
  | mepil (o : FmtE)
  | mzero (o : FmtE)
  | mplaneStep (cluster core : Nat)
  | mscaleStep (cluster core : Nat)
  | mepilStep (cluster core : Nat)
  | mzeroStep (cluster core : Nat)
  | engineCommandCompletion (cluster core : Nat)
  | btake (o : FmtE)
  | bpass (o : FmtE)
  | btakeService (pack who : Nat)
  | launch (o : FmtE)
  | taskq (o : FmtE)
  | taskd (o : FmtE)
  | tdone (o : FmtE)
  | spillMove (die : Nat)
  | fenq (o : FmtA)
  | fdeq (o : FmtA)
  | bqpostJoin (o : FmtE)
  | bqpostRow (o : FmtE)
  | bqpostStep (o : FmtE)
  | bqpostLeave (o : FmtE)
  | bqget (o : FmtE)
  | bqdone (o : FmtE)
  | kelpieStatusWrite (die : Nat)
  | svc (o : FmtE)
  | svcCompletion (cluster : Nat)
  | gopen (o : FmtA)
  | gjoin (o : FmtA)
  | gleave (o : FmtA)
  | gbar (o : FmtA)
  | gvoteAny (o : FmtA)
  | gvoteAll (o : FmtA)
  | gvoteCount (o : FmtA)
  | gredAdd (o : FmtA)
  | gredMin (o : FmtA)
  | gredMax (o : FmtA)
  | gredAnd (o : FmtA)
  | gredOr (o : FmtA)
  | gredXor (o : FmtA)
  | gstat (o : FmtA)
  | gclose (o : FmtA)
  | waitc (cmp : WaitCmp) (o : FmtM)
  | warpEviction (pack who : Nat)
  | waitx (o : FmtA)
  | xlate (o : FmtM)
  | sqopen (o : FmtA)
  | sqapp (o : FmtA)
  | rebuildComplete (slot : Nat)
  | sqmatch (o : FmtA)
  | sqmatchLen (o : FmtA)
  | sqsave (o : FmtA)
  | sqload (o : FmtA)
  | sqclose (o : FmtA)
  | heapClr (o : FmtA)
  | heapPush (o : FmtA)
  | heapMerge (o : FmtA)
  | heapRead (o : FmtA)
  | heapDraw (o : FmtA)
  | draw (o : FmtA)
  | lcwait (o : FmtA)
  | lcwaitOldest (o : FmtA)
  | aset (o : FmtA)
  | awaitGe (o : FmtA)
  | awaitEq (o : FmtA)
  | xexp (o : FmtM)
  | xwait (o : FmtM)
  | pcnt (o : FmtA)
  | trap (o : FmtT)
  | rte (o : FmtB)
  | rteNext (o : FmtB)
  | mfs (o : FmtA)
  | mts (o : FmtA)
  | migrate (o : FmtM)
  | migrateLanding (die : Nat)
  | tlbinvPage (o : FmtM)
  | tlbinvCtx (o : FmtM)
  | tlbinvAll (o : FmtM)
  | snap (o : FmtA)
  | skipCountForce (pack who : Nat)
  | yieldCountdownExpiry (pack who lane : Nat)
  | port1Reissue (pack who : Nat)
  | killRecordWrite (die : Nat)
  | faultQueueEntryWrite (die : Nat)
  | dispatcherLaunchService (ctx : Nat)
  | layoutSet (ctx : Nat)
  | layoutInval (ctx : Nat)
  | packPlacement (pack cluster : Nat)
  | packResume (pack cluster : Nat)
  | priorityPreemption (pack : Nat)
  | packDrainComplete (pack : Nat)
  | launchCompletionWrite (launch : Nat)
  | drainComplete (die : Nat)
  | arithmeticClockCycle (cluster : Nat)
  | sliceExpiry (cluster : Nat)
  | blkrd (cluster : Nat) (reply : ExtReply)
  | blkwr (cluster : Nat) (reply : ExtReply)
  | fopen (cluster : Nat) (reply : ExtReply)
  | fread (cluster : Nat) (reply : ExtReply)
  | fclose (cluster : Nat) (reply : ExtReply)
  | nconn (cluster : Nat) (reply : ExtReply)
  | nread (cluster : Nat) (reply : ExtReply)
  | nwrite (cluster : Nat) (reply : ExtReply)
  | nclose (cluster : Nat) (reply : ExtReply)
  | notify (cluster : Nat) (reply : ExtReply)
  | faultService (die : Nat) (entry : Option (BitVec 64))
  | ownershipFlip (ctx : Nat) (va : Nat) (entry : BitVec 64)
  | hostSnoop (pa : Nat)
  | hostMemoryAccess (acc : OuterAccess)
  | hostSubmissionPost (ctx : Nat) (value : BitVec 64)
  | layoutRingPost (ctx : Nat) (value : BitVec 64)
  | hostControlWordWrite (ctx offset : Nat) (value : BitVec 64)
  | virtualFunctionReset (ctx : Nat)
  | setSliceLength (die log2 : Nat)
  | setBatchThreshold (die t : Nat)
  | setShareGroup (ctx group : Nat)
  | orderlyOfflineRequest (die : Nat)
  | evacuationFailed (die : Nat)
  | offlineRequestCancel (die : Nat)
  | forcedOffline (die : Nat)
  | dieReadmission (die : Nat)
  | dieReset (die : Nat)
  | packageReset (outcome : BringUp)
  | borrowRequest (borrower lender units : Nat)
  | loanRecall (lender borrower units : Nat)
  | loanRepayment (lender borrower units : Nat)
  | powerGuardTrip (cluster : Nat)
  | peerAccess (link : Nat) (flit : PeerFlit)
  | peerLinkDown (link : Nat)
  | linkRetrain (link : Nat)
  | attestationRequest (nonce : BitVec 256)
  | debugPortTrigger
  | snapshotReadout
  | softErrorCounterClear (cluster number : Nat)
  | virtualFunctionEnable (ctx area root : Nat)
  | pageTableUpdate (pa : Nat) (entry : BitVec 64)
  | windowDefinition (window : Nat) (binding : Option Window)
  | pageEvacuation (pa log newPa : Nat)
  | snapshotEnable (ctx : Nat) (on : Bool)
deriving DecidableEq, Repr

/-- The fields of an instruction word, by format; `event` for the rows that have no word. -/
inductive Fields where
  | a (o : FmtA) | p (o : FmtP) | i (o : FmtI) | m (o : FmtM) | b (o : FmtB) | t (o : FmtT) | e (o : FmtE)
  | event
deriving DecidableEq, Repr

/-- The format fields a constructor carries. -/
def Instr.fields : Instr → Fields
  | .nop o => .a o
  | .mov o => .a o
  | .movi o => .i o
  | .moviSx o => .i o
  | .moviZx o => .i o
  | .moviHi o => .i o
  | .iadd o => .a o
  | .isub o => .a o
  | .imul o => .a o
  | .imulh o => .a o
  | .imad o => .a o
  | .imin o => .a o
  | .imax o => .a o
  | .iabsd o => .a o
  | .and o => .a o
  | .or o => .a o
  | .xor o => .a o
  | .andn o => .a o
  | .lut3 o => .a o
  | .shl o => .a o
  | .shr o => .a o
  | .sar o => .a o
  | .rot o => .a o
  | .bfx _ o => .a o
  | .bfi o => .a o
  | .popc o => .a o
  | .clz o => .a o
  | .brev o => .a o
  | .icmp o => .a o
  | .sel o => .a o
  | .lea _ o => .a o
  | .xtnd _ o => .a o
  | .plop o => .p o
  | .pmovPack o => .a o
  | .pmovLoad o => .a o
  | .idivQ o => .a o
  | .idivR o => .a o
  | .bra o => .b o
  | .brx o => .b o
  | .call o => .b o
  | .callIndirect o => .b o
  | .ret o => .b o
  | .yield o => .b o
  | .exit o => .b o
  | .loops o => .b o
  | .wsync o => .b o
  | .bar o => .b o
  | .fadd o => .a o
  | .fsub o => .a o
  | .fmul o => .a o
  | .ffma o => .a o
  | .fmin o => .a o
  | .fmax o => .a o
  | .fcmp o => .a o
  | .frcp o => .a o
  | .frsq o => .a o
  | .fsqrt o => .a o
  | .fdiv o => .a o
  | .fexp2 o => .a o
  | .flog2 o => .a o
  | .fsinp o => .a o
  | .fcosp o => .a o
  | .ftanh o => .a o
  | .fcvtF o => .a o
  | .fcvtI o => .a o
  | .fcvtRint o => .a o
  | .icvt o => .a o
  | .fclass o => .a o
  | .pfma2 o => .a o
  | .fdot2 o => .a o
  | .idot4 o => .a o
  | .bqnt o => .a o
  | .bdeq o => .a o
  | .shflMap o => .a o
  | .shflRot o => .a o
  | .shflGath o => .a o
  | .voteTest o => .a o
  | .voteMask o => .a o
  | .voteSum o => .a o
  | .wredAdd o => .a o
  | .wredMin o => .a o
  | .wredMax o => .a o
  | .wredAnd o => .a o
  | .wredOr o => .a o
  | .wredXor o => .a o
  | .wscanAdd o => .a o
  | .wscanMin o => .a o
  | .wscanMax o => .a o
  | .wscanAnd o => .a o
  | .wscanOr o => .a o
  | .wscanXor o => .a o
  | .rdlane o => .a o
  | .rdlaneRank o => .a o
  | .wrlane o => .a o
  | .wrlaneRank o => .a o
  | .matchClass o => .a o
  | .matchPeers o => .a o
  | .elect o => .a o
  | .kput o => .a o
  | .kget o => .a o
  | .kpeek o => .a o
  | .karm o => .a o
  | .kred o => .a o
  | .kclr o => .a o
  | .kstat o => .a o
  | .rdep o => .a o
  | .rdepLanding _ => .event
  | .ld _ o => .m o
  | .st o => .m o
  | .lds _ o => .m o
  | .sts o => .m o
  | .smarkE o => .m o
  | .smarkF o => .m o
  | .atomAdd o => .m o
  | .atomUmin o => .m o
  | .atomUmax o => .m o
  | .atomSmin o => .m o
  | .atomSmax o => .m o
  | .atomAnd o => .m o
  | .atomOr o => .m o
  | .atomXor o => .m o
  | .atomExch o => .m o
  | .atomFadd o => .m o
  | .acas o => .m o
  | .fence o => .m o
  | .cmaintWbL1 o => .m o
  | .cmaintWbiL1 o => .m o
  | .cmaintWbMem o => .m o
  | .prefL1 o => .m o
  | .prefL2 o => .m o
  | .icinv o => .m o
  | .ifence o => .m o
  | .bankcfgCache o => .a o
  | .bankcfgSpad o => .a o
  | .bankcfgFifo o => .a o
  | .bankSwitchDone _ _ => .event
  | .lcopy _ o => .m o
  | .lcopyLanding _ _ => .event
  | .scopy o => .e o
  | .scpmxCopy o => .e o
  | .scpmxArm o => .e o
  | .sgath o => .e o
  | .sscat o => .e o
  | .scancel o => .e o
  | .sprobe o => .e o
  | .streamerLanding _ _ _ => .event
  | .streamerCopyCompletion _ _ => .event
  | .followOnMplaneEntry _ _ => .event
  | .mplane o => .e o
  | .mplaneBc o => .e o
  | .mscale o => .e o
  | .mepil o => .e o
  | .mzero o => .e o
  | .mplaneStep _ _ => .event
  | .mscaleStep _ _ => .event
  | .mepilStep _ _ => .event
  | .mzeroStep _ _ => .event
  | .engineCommandCompletion _ _ => .event
  | .btake o => .e o
  | .bpass o => .e o
  | .btakeService _ _ => .event
  | .launch o => .e o
  | .taskq o => .e o
  | .taskd o => .e o
  | .tdone o => .e o
  | .spillMove _ => .event
  | .fenq o => .a o
  | .fdeq o => .a o
  | .bqpostJoin o => .e o
  | .bqpostRow o => .e o
  | .bqpostStep o => .e o
  | .bqpostLeave o => .e o
  | .bqget o => .e o
  | .bqdone o => .e o
  | .kelpieStatusWrite _ => .event
  | .svc o => .e o
  | .blkrd _ _ => .event
  | .blkwr _ _ => .event
  | .fopen _ _ => .event
  | .fread _ _ => .event
  | .fclose _ _ => .event
  | .nconn _ _ => .event
  | .nread _ _ => .event
  | .nwrite _ _ => .event
  | .nclose _ _ => .event
  | .notify _ _ => .event
  | .svcCompletion _ => .event
  | .gopen o => .a o
  | .gjoin o => .a o
  | .gleave o => .a o
  | .gbar o => .a o
  | .gvoteAny o => .a o
  | .gvoteAll o => .a o
  | .gvoteCount o => .a o
  | .gredAdd o => .a o
  | .gredMin o => .a o
  | .gredMax o => .a o
  | .gredAnd o => .a o
  | .gredOr o => .a o
  | .gredXor o => .a o
  | .gstat o => .a o
  | .gclose o => .a o
  | .waitc _ o => .m o
  | .warpEviction _ _ => .event
  | .waitx o => .a o
  | .xlate o => .m o
  | .sqopen o => .a o
  | .sqapp o => .a o
  | .rebuildComplete _ => .event
  | .sqmatch o => .a o
  | .sqmatchLen o => .a o
  | .sqsave o => .a o
  | .sqload o => .a o
  | .sqclose o => .a o
  | .heapClr o => .a o
  | .heapPush o => .a o
  | .heapMerge o => .a o
  | .heapRead o => .a o
  | .heapDraw o => .a o
  | .draw o => .a o
  | .lcwait o => .a o
  | .lcwaitOldest o => .a o
  | .aset o => .a o
  | .awaitGe o => .a o
  | .awaitEq o => .a o
  | .xexp o => .m o
  | .xwait o => .m o
  | .pcnt o => .a o
  | .trap o => .t o
  | .rte o => .b o
  | .rteNext o => .b o
  | .mfs o => .a o
  | .mts o => .a o
  | .migrate o => .m o
  | .migrateLanding _ => .event
  | .tlbinvPage o => .m o
  | .tlbinvCtx o => .m o
  | .tlbinvAll o => .m o
  | .snap o => .a o
  | .skipCountForce _ _ => .event
  | .yieldCountdownExpiry _ _ _ => .event
  | .port1Reissue _ _ => .event
  | .killRecordWrite _ => .event
  | .faultQueueEntryWrite _ => .event
  | .faultService _ _ => .event
  | .ownershipFlip _ _ _ => .event
  | .hostSnoop _ => .event
  | .hostMemoryAccess _ => .event
  | .hostSubmissionPost _ _ => .event
  | .dispatcherLaunchService _ => .event
  | .layoutRingPost _ _ => .event
  | .layoutSet _ => .event
  | .layoutInval _ => .event
  | .hostControlWordWrite _ _ _ => .event
  | .packPlacement _ _ => .event
  | .packResume _ _ => .event
  | .priorityPreemption _ => .event
  | .sliceExpiry _ => .event
  | .packDrainComplete _ => .event
  | .launchCompletionWrite _ => .event
  | .virtualFunctionReset _ => .event
  | .setSliceLength _ _ => .event
  | .setBatchThreshold _ _ => .event
  | .setShareGroup _ _ => .event
  | .orderlyOfflineRequest _ => .event
  | .drainComplete _ => .event
  | .evacuationFailed _ => .event
  | .offlineRequestCancel _ => .event
  | .forcedOffline _ => .event
  | .dieReadmission _ => .event
  | .dieReset _ => .event
  | .packageReset _ => .event
  | .borrowRequest _ _ _ => .event
  | .loanRecall _ _ _ => .event
  | .loanRepayment _ _ _ => .event
  | .powerGuardTrip _ => .event
  | .peerAccess _ _ => .event
  | .peerLinkDown _ => .event
  | .linkRetrain _ => .event
  | .attestationRequest _ => .event
  | .debugPortTrigger => .event
  | .snapshotReadout => .event
  | .arithmeticClockCycle _ => .event
  | .softErrorCounterClear _ _ => .event
  | .virtualFunctionEnable _ _ _ => .event
  | .pageTableUpdate _ _ => .event
  | .windowDefinition _ _ => .event
  | .pageEvacuation _ _ _ => .event
  | .snapshotEnable _ _ => .event

end Sys2Proof
end

