-- ==== Sys2Proof/Config.lean ====
section
/-! DEFINITION. What the manual leaves open, as constants without a body: nothing in Lean can say what they are, so a
statement holds whatever they are. -/

namespace Sys2Proof.Config

/-- What moves next, where no rule orders the part's units among themselves, and which of several a unit takes: the n-th
choice, modulo the number of candidates (log 2). -/
opaque choose : Nat → Nat

/-- How often what may move is passed over before it moves: the part promises progress and no bound (R38, log 2). -/
opaque patience : Nat

/-- What the world outside the part does at the n-th choice: a host, a peer, the service firmware's own decisions, the
fabric (log 2, log 6). -/
opaque outside : Nat → Option Instr

/-- The same, for what no row of the opcode table names (log 72). -/
opaque outer : Nat → Option Outer

/-- R453: the part's identity, the two signatures of a report, the fused digests of the vendor keys, and the fused security
version (log 8). -/
opaque identity : BitVec 384
opaque signatures : Attested → List Byte × List Byte
opaque rsaDigest : BitVec 384
opaque slhDigest : BitVec 384
opaque fusedVersion : Nat

/-- R39, R432: whether the other PC groups of a warp run while some of its lanes wait for a page (log 59). -/
opaque groupsRunOn : Bool

/-- R72, R317: whether FDEQ leaves its low 64 bits in the latch, or leaves it INVALID (log 60). -/
opaque fdeqDeposits : Bool

/-- R454: whether the debug fuse is enabled (log 8). -/
opaque debugFuse : Bool

/-- R380: the bytes of the index section of a sequence image, whose layout is not architectural, for a slot and an
offset (log 12). -/
opaque indexByte : Nat → Nat → Byte

/-- R338: the fields beside CODE of a phase status word with CODE LEFT, for the phase (log 13). -/
opaque leftFields : BitVec 32 → BitVec 56

/-- R339: the result of GVOTE or GRED whose member departs while it waits, for the phase (log 13). -/
opaque leftResult : BitVec 32 → BitVec 64

/-- R376: the bytes of device memory that the service firmware gives a die's pool for sequence slots (log 16). -/
opaque poolBytes : Nat → Nat

/-- R390: the rank that HEAP.DRAW takes when no candidate has a weight, for its three operands and the fields of the
heap (log 17). -/
opaque drawRank : Word64 → Word64 → Word64 → List (Word32 × Word32) → Nat

/-- R310: whether the service firmware can give memory for one spilled record more, for a die and how many it has
(log 40). -/
opaque spillMemory : Nat → Nat → Bool

/-- R449: the LAUNCH status that LSTAT shows when the dispatcher's probe of the i-th packet meets a permission failure or
the absent status (log 18). -/
opaque submitStatus : Nat → BitVec 8

end Sys2Proof.Config
end

