-- ==== Sys2Proof/WellFormed.lean ====
section
/-! DEFINITION. Well-formed instructions: every specifier names something that exists (spec/02, R61, R62, R64,
R67) and every event names a unit that exists (spec/01, R12, R14). The rules of the single entries (which types,
modifiers and reserved fields each accepts) stand in Decode.lean. -/

namespace Sys2Proof

/-- Inline constants 0x90 to 0xFF are reserved (R64); work-identifier fields are f0 to f5 by type. -/
def Spec.wf : Spec → Bool
  | .const i => i < 0x90#8
  | .v _ | .s _ | .k _ | .h _ | .a _ | .special _ => true

/-- Latches are L0 to L4 (R75). -/
def Src.wf : Src → Bool
  | .latch n _ _ => n < 5#3
  | .reg r _ _ => r.wf

/-- Guards name p0 to p6 (R76). -/
def Guard.wf : Guard → Bool
  | .pred n _ => n < 7#3
  | .always | .never => true

def FmtA.wf (o : FmtA) : Bool := o.guard.wf && o.dst.wf && o.a.wf && o.b.wf && o.c.wf
def FmtP.wf (o : FmtP) : Bool := o.guard.wf && o.dst.wf
def FmtI.wf (o : FmtI) : Bool := o.guard.wf && o.dst.wf && o.a.wf
def FmtM.wf (o : FmtM) : Bool := o.guard.wf && o.data.wf && o.base.wf && o.index.wf
def FmtB.wf (o : FmtB) : Bool := o.guard.wf && o.link.wf && o.mask.wf && o.target.wf
def FmtT.wf (o : FmtT) : Bool := o.guard.wf && o.link.wf
def FmtE.wf (o : FmtE) : Bool := o.guard.wf && o.token.wf && o.s1.wf && o.s2.wf && o.s3.wf

def Fields.wf : Fields → Bool
  | .a o => o.wf | .p o => o.wf | .i o => o.wf | .m o => o.wf | .b o => o.wf | .t o => o.wf | .e o => o.wf
  | .event => true

/-- Compute dies are sockets 0 to 7 (R12). -/
def dieOk (d : Nat) : Bool := d < 8
/-- Clusters are numbered socket × 12 + cluster of the die (R2, R12). -/
def clusterOk (c : Nat) : Bool := c < 96
/-- SIMT cores and plane engines of a cluster (R14). -/
def coreOk (c : Nat) : Bool := c < 4
/-- Parties of a pack: warp w of workgroup g is 16 g + w, the spine thread is 128 (R17). -/
def whoOk (w : Nat) : Bool := w ≤ 128
/-- Context tags are 8 bits (R119). -/
def ctxOk (c : Nat) : Bool := c < 256
/-- Peer links of the package (R2, R450). -/
def linkOk (l : Nat) : Bool := l < 12

def Window.wf : Window → Bool
  | .host ld home => ld < 16 && dieOk home
  | .peer link _ => linkOk link

/-- An outside access is one whole: bytes of one 128-byte line, an atomic of an aligned word. -/
def OuterAccess.wf : OuterAccess → Bool
  | .read pa len => 0 < len && pa % 128 + len ≤ 128
  | .write pa bytes => 0 < bytes.length && pa % 128 + bytes.length ≤ 128
  | .atomic pa wide op _ _ => pa % (if wide then 8 else 4) == 0 && op ≤ 10
def PeerFlit.wf : PeerFlit → Bool
  | .access _ acc => acc.wf
  | .malformed => true
  | .request _ _ size _ => 0 < size

/-- The names an event carries exist. -/
def Instr.eventWf : Instr → Bool
  | .nop _ => true
  | .mov _ => true
  | .movi _ => true
  | .moviSx _ => true
  | .moviZx _ => true
  | .moviHi _ => true
  | .iadd _ => true
  | .isub _ => true
  | .imul _ => true
  | .imulh _ => true
  | .imad _ => true
  | .imin _ => true
  | .imax _ => true
  | .iabsd _ => true
  | .and _ => true
  | .or _ => true
  | .xor _ => true
  | .andn _ => true
  | .lut3 _ => true
  | .shl _ => true
  | .shr _ => true
  | .sar _ => true
  | .rot _ => true
  | .bfx _ _ => true
  | .bfi _ => true
  | .popc _ => true
  | .clz _ => true
  | .brev _ => true
  | .icmp _ => true
  | .sel _ => true
  | .lea _ _ => true
  | .xtnd _ _ => true
  | .plop _ => true
  | .pmovPack _ => true
  | .pmovLoad _ => true
  | .idivQ _ => true
  | .idivR _ => true
  | .bra _ => true
  | .brx _ => true
  | .call _ => true
  | .callIndirect _ => true
  | .ret _ => true
  | .yield _ => true
  | .exit _ => true
  | .loops _ => true
  | .wsync _ => true
  | .bar _ => true
  | .fadd _ => true
  | .fsub _ => true
  | .fmul _ => true
  | .ffma _ => true
  | .fmin _ => true
  | .fmax _ => true
  | .fcmp _ => true
  | .frcp _ => true
  | .frsq _ => true
  | .fsqrt _ => true
  | .fdiv _ => true
  | .fexp2 _ => true
  | .flog2 _ => true
  | .fsinp _ => true
  | .fcosp _ => true
  | .ftanh _ => true
  | .fcvtF _ => true
  | .fcvtI _ => true
  | .fcvtRint _ => true
  | .icvt _ => true
  | .fclass _ => true
  | .pfma2 _ => true
  | .fdot2 _ => true
  | .idot4 _ => true
  | .bqnt _ => true
  | .bdeq _ => true
  | .shflMap _ => true
  | .shflRot _ => true
  | .shflGath _ => true
  | .voteTest _ => true
  | .voteMask _ => true
  | .voteSum _ => true
  | .wredAdd _ => true
  | .wredMin _ => true
  | .wredMax _ => true
  | .wredAnd _ => true
  | .wredOr _ => true
  | .wredXor _ => true
  | .wscanAdd _ => true
  | .wscanMin _ => true
  | .wscanMax _ => true
  | .wscanAnd _ => true
  | .wscanOr _ => true
  | .wscanXor _ => true
  | .rdlane _ => true
  | .rdlaneRank _ => true
  | .wrlane _ => true
  | .wrlaneRank _ => true
  | .matchClass _ => true
  | .matchPeers _ => true
  | .elect _ => true
  | .kput _ => true
  | .kget _ => true
  | .kpeek _ => true
  | .karm _ => true
  | .kred _ => true
  | .kclr _ => true
  | .kstat _ => true
  | .rdep _ => true
  | .rdepLanding _ => true
  | .ld _ _ => true
  | .st _ => true
  | .lds _ _ => true
  | .sts _ => true
  | .smarkE _ => true
  | .smarkF _ => true
  | .atomAdd _ => true
  | .atomUmin _ => true
  | .atomUmax _ => true
  | .atomSmin _ => true
  | .atomSmax _ => true
  | .atomAnd _ => true
  | .atomOr _ => true
  | .atomXor _ => true
  | .atomExch _ => true
  | .atomFadd _ => true
  | .acas _ => true
  | .fence _ => true
  | .cmaintWbL1 _ => true
  | .cmaintWbiL1 _ => true
  | .cmaintWbMem _ => true
  | .prefL1 _ => true
  | .prefL2 _ => true
  | .icinv _ => true
  | .ifence _ => true
  | .bankcfgCache _ => true
  | .bankcfgSpad _ => true
  | .bankcfgFifo _ => true
  | .bankSwitchDone cluster bank => clusterOk cluster && bank < 32
  | .lcopy _ _ => true
  | .lcopyLanding _ _ => true
  | .scopy _ => true
  | .scpmxCopy _ => true
  | .scpmxArm _ => true
  | .sgath _ => true
  | .sscat _ => true
  | .scancel _ => true
  | .sprobe _ => true
  | .streamerLanding cluster _ _ => clusterOk cluster
  | .streamerCopyCompletion cluster _ => clusterOk cluster
  | .followOnMplaneEntry cluster slot => clusterOk cluster && slot < 8
  | .mplane _ => true
  | .mplaneBc _ => true
  | .mscale _ => true
  | .mepil _ => true
  | .mzero _ => true
  | .mplaneStep cluster core => clusterOk cluster && coreOk core
  | .mscaleStep cluster core => clusterOk cluster && coreOk core
  | .mepilStep cluster core => clusterOk cluster && coreOk core
  | .mzeroStep cluster core => clusterOk cluster && coreOk core
  | .engineCommandCompletion cluster core => clusterOk cluster && coreOk core
  | .btake _ => true
  | .bpass _ => true
  | .btakeService _ who => whoOk who
  | .launch _ => true
  | .taskq _ => true
  | .taskd _ => true
  | .tdone _ => true
  | .spillMove die => dieOk die
  | .fenq _ => true
  | .fdeq _ => true
  | .bqpostJoin _ => true
  | .bqpostRow _ => true
  | .bqpostStep _ => true
  | .bqpostLeave _ => true
  | .bqget _ => true
  | .bqdone _ => true
  | .kelpieStatusWrite die => dieOk die
  | .svc _ => true
  | .blkrd cluster _ => clusterOk cluster
  | .blkwr cluster _ => clusterOk cluster
  | .fopen cluster _ => clusterOk cluster
  | .fread cluster _ => clusterOk cluster
  | .fclose cluster _ => clusterOk cluster
  | .nconn cluster _ => clusterOk cluster
  | .nread cluster _ => clusterOk cluster
  | .nwrite cluster _ => clusterOk cluster
  | .nclose cluster _ => clusterOk cluster
  | .notify cluster _ => clusterOk cluster
  | .svcCompletion cluster => clusterOk cluster
  | .gopen _ => true
  | .gjoin _ => true
  | .gleave _ => true
  | .gbar _ => true
  | .gvoteAny _ => true
  | .gvoteAll _ => true
  | .gvoteCount _ => true
  | .gredAdd _ => true
  | .gredMin _ => true
  | .gredMax _ => true
  | .gredAnd _ => true
  | .gredOr _ => true
  | .gredXor _ => true
  | .gstat _ => true
  | .gclose _ => true
  | .waitc _ _ => true
  | .warpEviction _ who => whoOk who
  | .waitx _ => true
  | .xlate _ => true
  | .sqopen _ => true
  | .sqapp _ => true
  | .rebuildComplete slot => slot < 8192
  | .sqmatch _ => true
  | .sqmatchLen _ => true
  | .sqsave _ => true
  | .sqload _ => true
  | .sqclose _ => true
  | .heapClr _ => true
  | .heapPush _ => true
  | .heapMerge _ => true
  | .heapRead _ => true
  | .heapDraw _ => true
  | .draw _ => true
  | .lcwait _ => true
  | .lcwaitOldest _ => true
  | .aset _ => true
  | .awaitGe _ => true
  | .awaitEq _ => true
  | .xexp _ => true
  | .xwait _ => true
  | .pcnt _ => true
  | .trap _ => true
  | .rte _ => true
  | .rteNext _ => true
  | .mfs _ => true
  | .mts _ => true
  | .migrate _ => true
  | .migrateLanding die => dieOk die
  | .tlbinvPage _ => true
  | .tlbinvCtx _ => true
  | .tlbinvAll _ => true
  | .snap _ => true
  | .skipCountForce _ who => whoOk who
  | .yieldCountdownExpiry _ who lane => whoOk who && lane < 64
  | .port1Reissue _ who => whoOk who
  | .killRecordWrite die => dieOk die
  | .faultQueueEntryWrite die => dieOk die
  | .faultService die _ => dieOk die
  | .ownershipFlip ctx _ _ => ctxOk ctx
  | .hostSnoop _ => true
  | .hostMemoryAccess acc => acc.wf
  | .hostSubmissionPost ctx _ => ctxOk ctx
  | .dispatcherLaunchService ctx => ctxOk ctx
  | .layoutRingPost ctx _ => ctxOk ctx
  | .layoutSet ctx => ctxOk ctx
  | .layoutInval ctx => ctxOk ctx
  | .hostControlWordWrite ctx offset _ => ctxOk ctx && offset < 0x40 && offset % 8 == 0
  | .packPlacement _ cluster => clusterOk cluster
  | .packResume _ cluster => clusterOk cluster
  | .priorityPreemption _ => true
  | .sliceExpiry cluster => clusterOk cluster
  | .packDrainComplete _ => true
  | .launchCompletionWrite _ => true
  | .virtualFunctionReset ctx => ctxOk ctx
  | .setSliceLength die log2 => dieOk die && 16 ≤ log2 && log2 ≤ 24
  | .setBatchThreshold die t => dieOk die && 1 ≤ t && t ≤ 256
  | .setShareGroup ctx group => ctxOk ctx && group < 256
  | .orderlyOfflineRequest die => dieOk die
  | .drainComplete die => dieOk die
  | .evacuationFailed die => dieOk die
  | .offlineRequestCancel die => dieOk die
  | .forcedOffline die => dieOk die
  | .dieReadmission die => dieOk die
  | .dieReset die => dieOk die
  | .packageReset _ => true
  | .borrowRequest _ _ _ => true
  | .loanRecall _ _ _ => true
  | .loanRepayment _ _ _ => true
  | .powerGuardTrip cluster => clusterOk cluster
  | .peerAccess link flit => linkOk link && flit.wf
  | .peerLinkDown link => linkOk link
  | .linkRetrain link => linkOk link
  | .attestationRequest _ => true
  | .debugPortTrigger => true
  | .snapshotReadout => true
  | .arithmeticClockCycle cluster => clusterOk cluster
  | .softErrorCounterClear cluster _ => clusterOk cluster
  | .virtualFunctionEnable ctx area root => ctxOk ctx && area % 65536 == 0 && root % 8192 == 0
  | .pageTableUpdate pa _ => pa % 8 == 0
  | .windowDefinition window binding => 1 ≤ window && window < 4096 && (binding.map Window.wf).getD true
  | .pageEvacuation pa log newPa => [16, 21, 25, 29].contains log && pa % 2 ^ log == 0 && newPa % 2 ^ log == 0
  | .snapshotEnable ctx _ => ctxOk ctx

/-- An instruction whose specifiers, or an event whose names, all exist. -/
def Instr.wf (i : Instr) : Bool := i.fields.wf && i.eventWf

/-- `Instr.wf` as a proposition. -/
abbrev Instr.WellFormed (i : Instr) : Prop := i.wf = true

end Sys2Proof
end

