-- ==== Sys2Proof/Decode.lean ====
section
/-! DEFINITION. Decoding and encoding (spec/02), and the rules of every entry: which types, destinations,
modifiers, sources and reserved fields it accepts (the entries of spec/04 to spec/15). A word that breaks a rule
decodes to the encoding fault of R80; encoding is written from the same tables. -/

namespace Sys2Proof

/-! ### Specifiers -/

/-- The numbers of R67. -/
def Special.code : Special → BitVec 8
  | .laneid => 0x00 | .warpid => 0x01 | .wgid => 0x02 | .packid => 0x03 | .wid => 0x04 | .launch => 0x05
  | .ctx => 0x06 | .clk => 0x07 | .amask => 0x08 | .widf n => 0x10 + BitVec.ofNat 8 n.val
  | .fpmode => 0x20 | .fpflags => 0x21 | .xcause => 0x30 | .xaddr => 0x31 | .xpc => 0x32 | .xstat => 0x33
  | .xvec => 0x34 | .mseq => 0x38 | .bankmap => 0x39

/-- The special register of a number, none for the numbers R67 does not list. -/
def Special.ofCode (c : BitVec 8) : Option Special :=
  match c.toNat with
  | 0x00 => some .laneid | 0x01 => some .warpid | 0x02 => some .wgid | 0x03 => some .packid | 0x04 => some .wid
  | 0x05 => some .launch | 0x06 => some .ctx | 0x07 => some .clk | 0x08 => some .amask
  | 0x10 => some (.widf 0) | 0x11 => some (.widf 1) | 0x12 => some (.widf 2) | 0x13 => some (.widf 3)
  | 0x14 => some (.widf 4) | 0x15 => some (.widf 5)
  | 0x20 => some .fpmode | 0x21 => some .fpflags | 0x30 => some .xcause | 0x31 => some .xaddr
  | 0x32 => some .xpc | 0x33 => some .xstat | 0x34 => some .xvec | 0x38 => some .mseq | 0x39 => some .bankmap
  | _ => none

/-- R62. -/
def Spec.enc : Spec → BitVec 10
  | .v n => 0b00#2 ++ n
  | .s n => 0b0100#4 ++ n
  | .k n => 0b0101#4 ++ n
  | .h n => 0b0110000#7 ++ n
  | .a n => 0b0110001#7 ++ n
  | .const i => 0b10#2 ++ i
  | .special r => 0b11#2 ++ r.code

/-- R62, R64, R67: none for the reserved patterns. -/
def Spec.dec (f : BitVec 10) : Option Spec :=
  match (f.extractLsb' 8 2).toNat with
  | 0 => some (.v (f.extractLsb' 0 8))
  | 1 =>
    match (f.extractLsb' 6 2).toNat with
    | 0 => some (.s (f.extractLsb' 0 6))
    | 1 => some (.k (f.extractLsb' 0 6))
    | 2 =>
      match (f.extractLsb' 3 3).toNat with
      | 0 => some (.h (f.extractLsb' 0 3))
      | 1 => some (.a (f.extractLsb' 0 3))
      | _ => none
    | _ => none
  | 2 => if f.extractLsb' 0 8 < 0x90#8 then some (.const (f.extractLsb' 0 8)) else none
  | _ => (Special.ofCode (f.extractLsb' 0 8)).map .special

/-- R61. -/
def Src.enc : Src → BitVec 13
  | .latch n neg abs => 1#1 ++ BitVec.ofBool neg ++ BitVec.ofBool abs ++ 0#7 ++ n
  | .reg r neg abs => 0#1 ++ BitVec.ofBool neg ++ BitVec.ofBool abs ++ r.enc

/-- R61, R75: none for a reserved pattern, a latch number 5 to 7 or a nonzero field beside a latch. -/
def Src.dec (f : BitVec 13) : Option Src :=
  if f.getLsbD 12 then
    if f.extractLsb' 3 7 = 0#7 ∧ f.extractLsb' 0 3 < 5#3 then
      some (.latch (f.extractLsb' 0 3) (f.getLsbD 11) (f.getLsbD 10))
    else none
  else (Spec.dec (f.extractLsb' 0 10)).map fun r => .reg r (f.getLsbD 11) (f.getLsbD 10)

/-- R76. -/
def Guard.enc : Guard → BitVec 4
  | .pred n neg => BitVec.ofBool neg ++ n
  | .always => 0x7#4
  | .never => 0xF#4

/-- R76. -/
def Guard.dec (f : BitVec 4) : Guard :=
  if f = 0x7#4 then .always else if f = 0xF#4 then .never
  else .pred (f.extractLsb' 0 3) (f.getLsbD 3)

/-- R77. -/
def Ty.code : Ty → BitVec 4
  | .i32 => 0 | .u32 => 1 | .i64 => 2 | .u64 => 3 | .i16x2 => 4 | .i8x4 => 5
  | .f32 => 6 | .f16x2 => 7 | .bf16x2 => 8 | .f64 => 9

/-- R77: none for the codes 0xA to 0xF. -/
def Ty.ofCode (c : BitVec 4) : Option Ty :=
  match c.toNat with
  | 0 => some .i32 | 1 => some .u32 | 2 => some .i64 | 3 => some .u64 | 4 => some .i16x2 | 5 => some .i8x4
  | 6 => some .f32 | 7 => some .f16x2 | 8 => some .bf16x2 | 9 => some .f64 | _ => none

/-- R78. -/
def Rm.code : Rm → BitVec 3
  | .mode => 0 | .rne => 1 | .rtz => 2 | .rup => 3 | .rdn => 4 | .stoch => 5

/-- R78: none for the reserved codes 110 and 111. -/
def Rm.ofCode (c : BitVec 3) : Option Rm :=
  match c.toNat with
  | 0 => some .mode | 1 => some .rne | 2 => some .rtz | 3 => some .rup | 4 => some .rdn | 5 => some .stoch
  | _ => none

/-- The register width of a type (R117). -/
def Ty.width : Ty → Width
  | .i64 | .u64 | .f64 => .w64
  | .i32 | .u32 | .i16x2 | .i8x4 | .f32 | .f16x2 | .bf16x2 => .w32

/-! ### Entry rules -/

/-- The form in which an instruction executes (R68, R163). -/
inductive Form where
  | lane | unif | gather
deriving DecidableEq, Repr

/-- Where an instruction runs (step 4 of R82). -/
inductive Runs where
  | both | warp | spine
deriving DecidableEq, Repr

/-- One operand an instruction reads: its source, its width, and whether the field is a uniform field (R68). -/
structure Use where
  src : Src
  width : Width
  unif : Bool
deriving DecidableEq, Repr

/-- What the encoding of an instruction fixes, before its state is looked at. `uses` and `defs` are the registers
it reads and writes, `result` says that it has a register result for its latch (R72), `typeOk` and `fieldOk` are
the two parts of step 2 of R82. -/
structure Shape where
  guard : Guard
  form : Form
  runs : Runs
  uses : List Use
  defs : List (Spec × Width)
  result : Bool
  typeOk : Bool
  fieldOk : Bool
deriving DecidableEq, Repr

/-- A width named by an entry: fixed, or that of the instruction's TYPE. -/
inductive WRule where
  | ty | b32 | b64 | b128
deriving DecidableEq, Repr

def WRule.width (t : Ty) : WRule → Width
  | .ty => t.width | .b32 => .w32 | .b64 => .w64 | .b128 => .w128

/-- What an entry accepts in a source field: nothing, an operand (with or without NEG and ABS, a latch, v
registers), or a register of one class. -/
inductive SrcRule where
  | none
  | op (w : WRule) (mods lat unif : Bool)
  | kreg | areg | special | elem
deriving DecidableEq, Repr

/-- A lane operand without modifiers, with NEG and ABS, one that refuses LAT (R163), and a uniform field. -/
def SrcRule.any (w : WRule) : SrcRule := .op w false true false
def SrcRule.mods (w : WRule) : SrcRule := .op w true true false
def SrcRule.nolat (w : WRule) : SrcRule := .op w false false false
def SrcRule.unif (w : WRule) : SrcRule := .op w false true true

/-- Register classes of a destination specifier. -/
inductive Cls where
  | v | s | h | k | a | const | special
deriving DecidableEq, Repr

def Spec.cls : Spec → Cls
  | .v _ => .v | .s _ => .s | .k _ => .k | .h _ => .h | .a _ => .a | .const _ => .const | .special _ => .special

/-- R63 and R210: even pairs, multiples of four, even scalar pairs. -/
def Spec.aligned (w : Width) : Spec → Bool
  | .v n => match w with | .w32 => true | .w64 => n.toNat % 2 == 0 | .w128 => n.toNat % 4 == 0
  | .s n => match w with | .w32 | .w64 => true | .w128 => n.toNat % 2 == 0
  | .k _ | .h _ | .a _ | .const _ | .special _ => true

/-- The zero field of an unused source (R59). -/
def Src.zero : Src := .reg (.v 0) false false

/-- R61, R63, R68: whether a source field obeys its rule in the given form. A latch stands in a field of 128 bits too: reading
it there faults OPND.LATCH in step 5 (R75). -/
def Src.ok (rule : SrcRule) (t : Ty) (form : Form) (x : Src) : Bool :=
  match rule, x with
  | .none, x => x == Src.zero
  | .op _ mods lat _, .latch _ neg abs => lat && (mods || !(neg || abs))
  | .op w mods _ unif, .reg r neg abs =>
    (mods || !(neg || abs)) && r.aligned (w.width t) && !((unif || form == .unif) && r.cls == .v)
  | .kreg, .reg (.k _) false false => true
  | .areg, .reg (.a _) false false => true
  | .special, .reg (.special _) false false => true
  | .elem, .reg r false false =>
    r.aligned .w128 && (if form == .unif then r.cls == .s else r.cls == .v)
  | .elem, .latch _ false false => true
  | .kreg, _ | .areg, _ | .special, _ | .elem, _ => false

/-- The operand a source field stands for, none for an unused one. -/
def Src.use (rule : SrcRule) (t : Ty) (form : Form) (x : Src) : List Use :=
  match rule with
  | .none => []
  | .op w _ _ unif => [⟨x, w.width t, unif || form == .unif⟩]
  | .kreg | .areg => []
  | .special => []
  | .elem => [⟨x, .w128, form == .unif⟩]

/-- R121 and R122: predicate destinations and sources of the two forms. -/
def predDstOk (form : Form) (f : BitVec 4) : Bool :=
  if form == .unif then 8#4 ≤ f && f ≤ 11#4 else f < 8#4
def predSrcOk (form : Form) (f : BitVec 4) : Bool :=
  if form == .unif then (8#4 ≤ f && f ≤ 11#4) || f == 15#4 else f < 12#4 || f == 15#4

/-- Guards in the uniform form name q0 to q3 (R76). -/
def Guard.ok (form : Form) : Guard → Bool
  | .pred n _ => !(form == .unif) || n < 4#3
  | .always | .never => true

/-- What an entry of format A accepts. `dst` lists the destination classes; `mark` says that DST is a form marker
(R122); `gather` that a class other than v selects the gathering form (R163). -/
structure EntA where
  types : List Ty
  dst : List Cls := [.v, .s]
  dw : WRule := .ty
  mark : Bool := false
  gather : Bool := false
  wbs : Bool := true
  fclamp : Bool := false
  sat : Bool := false
  scl : Bool := false
  a : SrcRule := .none
  b : SrcRule := .none
  c : SrcRule := .none
  rms : List Rm := [.mode]
  ext : BitVec 18 := 0
  extra : Bool := true
  runs : Runs := .both
  result : Bool := true

/-- The form a format A destination selects (R68, R163). -/
def formA (o : FmtA) (e : EntA) : Form :=
  if o.dst.cls == .v then (if e.gather && e.dst == [.s] then .gather else .lane)
  else if e.gather then .gather else .unif

/-- R69, R122: the destination field, its class, its alignment and WBS. -/
def dstOk (o : FmtA) (e : EntA) : Bool :=
  e.dst.contains o.dst.cls &&
  (if e.mark then (o.dst == .v 0 || o.dst == .s 0) && !o.wbs && o.clamp == 0#2 && o.scl == 0#3
   else o.dst.aligned (e.dw.width o.ty) &&
    (!o.wbs || (e.wbs && (o.dst == .v 0 || o.dst == .s 0))))

/-- R70, R71. -/
def clampOk (o : FmtA) (e : EntA) : Bool :=
  (match o.clamp.toNat with
   | 0 => true | 1 => e.fclamp | 2 => e.fclamp | _ => e.sat) && (o.scl == 0#3 || e.scl)

/-- The shape of a format A instruction from its entry. -/
def shapeA (o : FmtA) (e : EntA) : Shape :=
  let form := formA o e
  { guard := o.guard, form, runs := e.runs,
    uses := o.a.use e.a o.ty form ++ o.b.use e.b o.ty form ++ o.c.use e.c o.ty form,
    defs := if e.mark || o.wbs then [] else [(o.dst, e.dw.width o.ty)],
    result := e.result && !e.mark, typeOk := e.types.contains o.ty,
    fieldOk := dstOk o e && clampOk o e && e.rms.contains o.rm && (o.ext &&& ~~~e.ext) == 0#18 &&
      o.a.ok e.a o.ty form && o.b.ok e.b o.ty form && o.c.ok e.c o.ty form && o.guard.ok form && e.extra }

def tyInt6 : List Ty := [.i32, .u32, .i64, .u64, .i16x2, .i8x4]
def tyInt4 : List Ty := [.i32, .u32, .i64, .u64]
def tyFp4 : List Ty := [.f32, .f16x2, .bf16x2, .f64]
def tyAll : List Ty := tyInt6 ++ tyFp4
def tyU : List Ty := [.u32, .u64]
def ty0 : List Ty := [.i32]
def rmAll : List Rm := [.mode, .rne, .rtz, .rup, .rdn]

def Ty.packed : Ty → Bool
  | .i16x2 | .i8x4 | .f16x2 | .bf16x2 => true
  | .i32 | .u32 | .i64 | .u64 | .f32 | .f64 => false

/-! Named fields of EXT. -/

/-- EXT[17:14]: a predicate field, or the source type of a conversion. -/
def FmtA.ext17 (o : FmtA) : BitVec 4 := o.ext.extractLsb' 14 4
/-- The source type of FCVT and ICVT (R155, R156). -/
def FmtA.fromTy (o : FmtA) : Option Ty := Ty.ofCode o.ext17
/-- The plane-format code of BQNT and BDEQ (R161, R162). -/
def FmtA.planeFmt (o : FmtA) : BitVec 5 := o.ext.extractLsb' 13 5

/-- R105: format codes 0x14 to 0x1F are reserved. -/
def planeOk (f : BitVec 5) : Bool := f < 0x14#5

/-- A lane-exchange predicate destination is p only (R164, R172, R173). -/
def FmtA.pOk (o : FmtA) : Bool := o.ext17 < 8#4

def widthOf (t : Option Ty) : WRule := if (t.map Ty.width) == some .w64 then .b64 else .b32

/-- Two-source integer entries with modifiers (R128). -/
def entInt2 (types : List Ty) (clamp : Bool) : EntA :=
  { types, sat := clamp, scl := clamp, a := .mods .ty, b := .mods .ty }
/-- Bit entries (R128). -/
def entBits2 : EntA := { types := tyInt4, a := .any .ty, b := .any .ty }
def entBits1 (dw : WRule) : EntA := { types := tyInt4, dw, a := .any .ty }
/-- FADD, FSUB, FMUL (R151), FMIN, FMAX, and the correctly rounded functions (R154). -/
def entFp2 : EntA :=
  { types := tyFp4, fclamp := true, scl := true, a := .mods .ty, b := .mods .ty, rms := rmAll }
def entFmin : EntA := { types := tyFp4, fclamp := true, a := .mods .ty, b := .mods .ty }
def entFn1 : EntA := { types := tyFp4, fclamp := true, scl := true, a := .mods .ty, rms := rmAll }

/-- R155: sources of FCVT.F. -/
def entFcvtF (o : FmtA) : EntA :=
  let src := o.fromTy
  let packedSrc := (src.map Ty.packed).getD false
  let two := !packedSrc && o.ty.packed
  { types := tyFp4, fclamp := true, scl := true, a := .mods (widthOf src),
    b := if two then .mods (widthOf src) else .none,
    c := if o.rm == .stoch then .any .b32 else .none, rms := .stoch :: rmAll, ext := 0x3E000#18,
    extra := (src.map tyFp4.contains).getD false && (!(o.ext.getLsbD 13) || (packedSrc && !o.ty.packed)) }

def entFcvtI (o : FmtA) : EntA :=
  let src := o.fromTy
  let packedSrc := (src.map Ty.packed).getD false
  { types := tyInt4, scl := true, a := .mods (widthOf src),
    c := if o.rm == .stoch then .any .b32 else .none, rms := .stoch :: rmAll, ext := 0x3E000#18,
    extra := (src.map tyFp4.contains).getD false && (!(o.ext.getLsbD 13) || packedSrc) }

def entIcvt (o : FmtA) : EntA :=
  let src := o.fromTy
  { types := tyFp4, fclamp := true, scl := true, a := .any (widthOf src),
    b := if o.ty.packed then .any (widthOf src) else .none,
    c := if o.rm == .stoch then .any .b32 else .none, rms := .stoch :: rmAll, ext := 0x3C000#18,
    extra := (src.map tyInt4.contains).getD false }

/-- R166: `fp` says that the operation accepts F32, `round` that it rounds. R166 does not say whether source C, KPUT's reader
count, names v registers as R163 lets a gathering form's sources do: it is uniform, as KPUT's own is (DESIGN CHOICE,
log 84). -/
def entWred (o : FmtA) (fp round : Bool) : EntA :=
  { types := if fp then .f32 :: tyInt4 else tyInt4, dst := [.v, .s, .k], gather := true,
    a := .mods .ty, c := if o.dst.cls == .k && o.ext.getLsbD 17 then .unif .b32 else .none,
    rms := if round && o.ty == .f32 then rmAll else [.mode],
    ext := if o.dst.cls == .k then 0x20000#18 else 0, runs := .warp,
    extra := !(o.dst.cls == .k && o.wbs), result := !(o.dst.cls == .k) }
def entWscan (o : FmtA) (fp round : Bool) : EntA :=
  { types := if fp then .f32 :: tyInt4 else tyInt4, dst := [.v], a := .mods .ty,
    rms := if round && o.ty == .f32 then rmAll else [.mode], ext := 0x10000#18, runs := .warp }

def entShfl (b : SrcRule) (ext : BitVec 18) (o : FmtA) (extra : Bool) : EntA :=
  { types := tyU, dst := [.v], a := .nolat .ty, b, ext := 0x3C000#18 ||| ext, runs := .warp,
    extra := o.pOk && extra }
def entRdlane : EntA :=
  { types := tyU, gather := true, a := .nolat .ty, b := .unif .b32, runs := .warp }
def entWrlane (_ : FmtA) : EntA :=
  { types := tyU, dst := [.v], wbs := false, a := .unif .ty, b := .unif .b32, runs := .warp, result := false }

/-- VOTE.TEST: both destinations p, or both q (R165). -/
def voteQ (o : FmtA) : Bool := 8#4 ≤ o.ext17

/-- Group instructions (R341). -/
def entGroup (types : List Ty) (b : SrcRule) : EntA := { types, dst := [.s], a := .unif .b64, b }
/-- GVOTE and GRED write an even s pair (R341). -/
def entGroup2 (o : FmtA) (types : List Ty) (b : SrcRule) (rms : List Rm) : EntA :=
  { types, dst := [.s], wbs := false, a := .unif .b64, b, rms, extra := o.dst.aligned .w128 }
def entGred (o : FmtA) (logic : Bool) : EntA :=
  entGroup2 o [.u64, .i64, .f32] (.unif .ty) (if o.ty == .f32 then [.rne, .rtz, .rup, .rdn] else [.mode])
    |> fun e => { e with extra := e.extra && (if logic then o.ty == .u64 else true) }

def entKred : EntA :=
  { types := [.i32, .u32, .u64, .i64, .f32], dst := [.k], wbs := false, a := .unif .ty, result := false }

/-! ### Formats I, B, M and E -/

/-- MOVI (R126): `src` says that SUB 3 reads source A. -/
def shapeI (o : FmtI) (w : Width) (src : Bool) : Shape :=
  let form : Form := if o.dst.cls == .v then .lane else .unif
  let rule : SrcRule := if src then .any .b32 else .none
  { guard := o.guard, form, runs := .both, uses := o.a.use rule .u32 form,
    defs := if o.wbs then [] else [(o.dst, w)], result := true, typeOk := true,
    fieldOk := (o.dst.cls == .v || o.dst.cls == .s) && o.dst.aligned w &&
      (!o.wbs || o.dst == .v 0 || o.dst == .s 0) && o.clamp == 0#2 && o.scl == 0#3 &&
      o.low == 0#19 && o.a.ok rule .u32 form && o.guard.ok form }

/-- What a link field of format B holds (R137). -/
inductive LinkRule where
  | marker | marker0 | call | counter
deriving DecidableEq, Repr

def shapeB (o : FmtB) (link : LinkRule) (mask target : SrcRule) (disp : Bool) (runs : Runs) : Shape :=
  let form : Form := if o.link.cls == .v then .lane else .unif
  { guard := o.guard, form, runs,
    uses := o.mask.use mask .u64 form ++ o.target.use target .u64 form ++
      (if link == .counter then [⟨.reg o.link false false, if form == .lane then .w32 else .w64, form == .unif⟩] else []),
    defs := match link with
      | .marker | .marker0 => []
      | .call => [(o.link, .w64)]
      | .counter => [(o.link, if form == .lane then .w32 else .w64)],
    result := link == .call || link == .counter, typeOk := true,
    fieldOk := (match link with
      | .marker => o.link == .v 0 || o.link == .s 0
      | .marker0 => o.link == .v 0
      | .call => (o.link.cls == .v || o.link.cls == .s) && o.link.aligned .w64
      | .counter => o.link.cls == .v || o.link.cls == .s) &&
      o.mid == 0#6 && o.low == 0#6 && (disp || o.disp == 0#32) && o.mask.ok mask .u64 form &&
      o.target.ok target .u64 form && o.guard.ok form }

def shapeT (o : FmtT) : Shape :=
  let form : Form := if o.link.cls == .v then .lane else .unif
  { guard := o.guard, form, runs := .both, uses := [], defs := [], result := false, typeOk := true,
    fieldOk := (o.link == .v 0 || o.link == .s 0) && o.mid == 0#6 && o.high == 0#16 && o.disp == 0#32 &&
      o.guard.ok form }

/-- What the data field of a format M instruction holds (R210 and the later entries of format M). -/
inductive DataRule where
  | load | store | atom | cas | count | marker | marker1 | offsets | pair | evenS | sIn | sOut | sInOut
deriving DecidableEq, Repr

def sizeWidth (size : BitVec 3) : Width :=
  match size.toNat with | 3 => .w64 | 4 => .w128 | _ => .w32

/-- An entry of format M: accepted SIZE, ORDER and hint codes, scopes with an order other than RLX, whether the
address is a scratchpad offset, and whether it has an address at all. -/
structure EntM where
  data : DataRule
  sizes : List Nat
  orders : List Nat := [0]
  scopes : List Nat := []
  hints : List Nat := [0]
  spad : Bool := false
  addr : Bool := true
  unif : Bool := false
  runs : Runs := .both
  result : Bool := false
  extra : Bool := true

/-- R215: where ACAS finds its compare and new values. -/
def casOk (o : FmtM) : Bool :=
  match o.data with
  | .v n => if o.size == 2#3 then n.toNat % 2 == 0 else n.toNat % 4 == 0
  | .s n => n.toNat % 2 == 0
  | .k _ | .h _ | .a _ | .const _ | .special _ => false

/-- The registers an ACAS reads: the compare value and the new value behind it (R215). -/
def casUses (o : FmtM) : List (Spec × Width) :=
  match o.data with
  | .v n => if o.size == 2#3 then [(.v n, .w32), (.v (n + 1), .w32)] else [(.v n, .w64), (.v (n + 2), .w64)]
  | .s n => [(.s n, sizeWidth o.size), (.s (n + 1), sizeWidth o.size)]
  | .k _ | .h _ | .a _ | .const _ | .special _ => []

def dataOk (e : EntM) (o : FmtM) : Bool :=
  let w := sizeWidth o.size
  let vs := (o.data.cls == .v || o.data.cls == .s)
  match e.data with
  | .load | .store => vs && o.data.aligned w && !(e.spad && o.size == 4#3 && o.data.cls == .s)
  | .atom => vs && o.data.aligned w
  | .cas => casOk o
  | .count => o.data.cls != .v
  | .marker => o.data == .v 0 || o.data == .s 0
  | .marker1 => o.data == .s 0
  | .offsets => o.data.cls == .v && o.data.aligned .w64
  | .pair => vs && o.data.aligned .w128
  | .evenS => o.data.cls == .s && o.data.aligned .w128
  | .sIn | .sOut | .sInOut => o.data.cls == .s

def dataUses (e : EntM) (o : FmtM) (form : Form) : List Use :=
  let one (r : Spec) (w : Width) : Use := ⟨.reg r false false, w, form == .unif⟩
  match e.data with
  | .store | .atom => [one o.data (sizeWidth o.size)]
  | .cas => (casUses o).map fun x => one x.1 x.2
  | .count => [one o.data .w32]
  | .offsets => [one o.data .w64]
  | .evenS => [one o.data .w128]
  | .sIn | .sInOut => [one o.data .w64]
  | .load | .marker | .marker1 | .pair | .sOut => []

def dataDefs (e : EntM) (o : FmtM) : List (Spec × Width) :=
  match e.data with
  | .load | .atom | .cas => [(o.data, sizeWidth o.size)]
  | .pair | .evenS => [(o.data, .w128)]
  | .sOut | .sInOut => [(o.data, .w64)]
  | .store | .count | .marker | .marker1 | .offsets | .sIn => []

def shapeM (o : FmtM) (e : EntM) : Shape :=
  let form : Form := if !e.unif && o.data.cls == .v then .lane else .unif
  let base : SrcRule := if !e.addr then .none else .any (if e.spad then .b32 else .b64)
  let index : SrcRule := if !e.addr then .none else .any .b32
  { guard := o.guard, form, runs := e.runs,
    uses := o.base.use base .u64 form ++ o.index.use index .u64 form ++ dataUses e o form,
    defs := dataDefs e o, result := e.result, typeOk := true,
    fieldOk := dataOk e o && e.sizes.contains o.size.toNat && e.orders.contains o.order.toNat &&
      e.hints.contains o.hint.toNat &&
      (if o.order == 0#3 then o.scope == 0#3 else e.scopes.contains o.scope.toNat) &&
      (e.addr || o.offset == 0#32) && o.base.ok base .u64 form && o.index.ok index .u64 form &&
      o.guard.ok form && e.extra }

def allScopes : List Nat := [0, 1, 2, 3, 4]
def hintsLd : List Nat := [0, 1, 2, 3, 4]
def entAtom (sizes : List Nat) : EntM :=
  { data := .atom, sizes, orders := [0, 1, 2, 3, 4], scopes := allScopes, hints := [0, 5], result := true }

/-- An entry of format E: which sources it uses, whether source 2 or 3 must name an even s register, and which
parameter and [69:64] bits it defines. -/
structure EntE where
  s1 : Bool := false
  s2 : Bool := false
  s3 : Bool := false
  even2 : Bool := false
  even3 : Bool := false
  params : BitVec 25 := 0
  mid : BitVec 6 := 0
  runs : Runs := .both
  typeOk : Bool := true
  extra : Bool := true

/-- An even s pair, or a latch, whose reading as 128 bits faults in step 5 (R75). -/
def Src.evenS : Src → Bool
  | .reg (.s n) false false => n.toNat % 2 == 0
  | .latch _ false false => true
  | .latch _ _ _ | .reg _ _ _ => false

def shapeE (o : FmtE) (e : EntE) : Shape :=
  let r (u : Bool) : SrcRule := if u then .unif .b64 else .none
  { guard := o.guard, form := .unif, runs := e.runs,
    uses := o.s1.use (r e.s1) .u64 .unif ++
      (if e.even2 then [⟨o.s2, .w128, true⟩] else o.s2.use (r e.s2) .u64 .unif) ++
      (if e.even3 then [⟨o.s3, .w128, true⟩] else o.s3.use (r e.s3) .u64 .unif),
    defs := [(o.token, .w64)], result := false, typeOk := e.typeOk,
    fieldOk := o.token.cls == .s && (o.params &&& ~~~e.params) == 0#25 && (o.mid &&& ~~~e.mid) == 0#6 &&
      o.s1.ok (r e.s1) .u64 .unif && (if e.even2 then o.s2.evenS else o.s2.ok (r e.s2) .u64 .unif) &&
      (if e.even3 then o.s3.evenS else o.s3.ok (r e.s3) .u64 .unif) && o.guard.ok .unif && e.extra }

/-! Named fields of format E (R256, R280). -/

def FmtE.dir (o : FmtE) : Nat := (o.params.extractLsb' 23 2).toNat
def FmtE.csc (o : FmtE) : Nat := (o.params.extractLsb' 21 2).toNat
def FmtE.xc (o : FmtE) : Bool := o.params.getLsbD 20
/-- N of SGATH and SSCAT (R268). -/
def FmtE.rows (o : FmtE) : Nat := (o.params.extractLsb' 8 12).toNat + 1
def FmtE.slot (o : FmtE) : Nat := (o.mid.extractLsb' 0 3).toNat
def FmtE.armSub (o : FmtE) : Nat := (o.mid.extractLsb' 3 3).toNat
def FmtE.fa (o : FmtE) : BitVec 5 := o.params.extractLsb' 20 5
def FmtE.fb (o : FmtE) : BitVec 5 := o.params.extractLsb' 15 5
def FmtE.slabs (o : FmtE) : Nat := (o.params.extractLsb' 11 4).toNat + 1
def FmtE.acc (o : FmtE) : Bool := o.params.getLsbD 10
def FmtE.halfA (o : FmtE) : Bool := o.params.getLsbD 9
def FmtE.scaleRm (o : FmtE) : BitVec 2 := o.params.extractLsb' 9 2
def FmtE.bias (o : FmtE) : Nat := (o.params.extractLsb' 23 2).toNat
def FmtE.act (o : FmtE) : Nat := (o.params.extractLsb' 21 2).toNat
def FmtE.out (o : FmtE) : Nat := (o.params.extractLsb' 19 2).toNat
def FmtE.epilRm (o : FmtE) : BitVec 2 := o.params.extractLsb' 17 2
def FmtE.kind (o : FmtE) : Nat := (o.params.extractLsb' 23 2).toNat
def FmtE.zeroSlabs (o : FmtE) : Nat := (o.params.extractLsb' 19 4).toNat + 1

def entCopy (o : FmtE) (mid : BitVec 6) : EntE :=
  { s1 := true, s2 := true, s3 := true, even2 := true, params := 0x1F00000#25, mid, extra := o.dir < 3 && o.csc < 3 }
def entRows (o : FmtE) : EntE :=
  { s1 := true, s2 := true, s3 := true, params := 0x07FFF00#25, extra := o.csc < 3 }
def entPlane (o : FmtE) (mid : BitVec 6) : EntE :=
  { s1 := true, s2 := true, s3 := true, params := 0x1FFFE00#25, mid, extra := planeOk o.fa && planeOk o.fb }

/-! ### The entries -/

/-- The fields of a word that is nothing but an opcode, a guard and zeros. -/
def FmtA.blank (g : Guard) : FmtA :=
  ⟨g, .v 0, false, 0, 0, Src.zero, Src.zero, Src.zero, .i32, .mode, 0⟩

/-- NOP (R81): the guard is always or never and every other field is zero. -/
def shapeNop (o : FmtA) : Shape :=
  { guard := o.guard, form := .unif, runs := .both, uses := [], defs := [], result := false,
    typeOk := o.ty == .i32, fieldOk := (o == FmtA.blank .always) || (o == FmtA.blank .never) }

/-- PLOP (R135). -/
def shapePlop (o : FmtP) : Shape :=
  let form : Form := if o.dst.cls == .v then .lane else .unif
  { guard := o.guard, form, runs := .both, uses := [], defs := [], result := false, typeOk := o.ty == .i32,
    fieldOk := (o.dst == .v 0 || o.dst == .s 0) && !o.wbs && o.clamp == 0#2 && o.scl == 0#3 &&
      o.mid == 0#31 && o.rm == .mode && o.ext.extractLsb' 0 2 == 0#2 &&
      predSrcOk form (o.ext.extractLsb' 14 4) && predSrcOk form (o.ext.extractLsb' 10 4) &&
      predSrcOk form (o.ext.extractLsb' 6 4) && predDstOk form (o.ext.extractLsb' 2 4) && o.guard.ok form }

/-- The form of a format A or B instruction whose destination class alone selects it. -/
def formOf (d : Spec) : Form := if d.cls == .v then .lane else .unif

/-- The entry of every instruction; none for an event. -/
def Instr.shape : Instr → Option Shape
  | .nop o => some (shapeNop o)
  | .mov o => some (shapeA o { types := tyAll, dst := [.v, .s, .h], a := .mods .ty })
  | .movi o => some (shapeI o .w32 false)
  | .moviSx o => some (shapeI o .w64 false)
  | .moviZx o => some (shapeI o .w64 false)
  | .moviHi o => some (shapeI o .w64 true)
  | .iadd o => some (shapeA o (entInt2 tyInt6 true))
  | .isub o => some (shapeA o (entInt2 tyInt6 true))
  | .imul o => some (shapeA o (entInt2 tyInt6 true))
  | .imulh o => some (shapeA o (entInt2 tyInt4 false))
  | .imad o => some (shapeA o { entInt2 tyInt6 true with c := .mods .ty })
  | .imin o => some (shapeA o (entInt2 tyInt6 false))
  | .imax o => some (shapeA o (entInt2 tyInt6 false))
  | .iabsd o => some (shapeA o (entInt2 tyInt6 true))
  | .and o => some (shapeA o entBits2)
  | .or o => some (shapeA o entBits2)
  | .xor o => some (shapeA o entBits2)
  | .andn o => some (shapeA o entBits2)
  | .lut3 o => some (shapeA o { entBits2 with c := .any .ty, ext := 0xFF#18 })
  | .shl o => some (shapeA o { types := tyInt6, sat := true, scl := true, a := .any .ty, b := .any .ty })
  | .shr o => some (shapeA o { types := tyInt6, a := .any .ty, b := .any .ty })
  | .sar o => some (shapeA o { types := tyInt6, a := .any .ty, b := .any .ty })
  | .rot o => some (shapeA o entBits2)
  | .bfx _ o => some (shapeA o { entBits2 with c := .any .ty })
  | .bfi o => some (shapeA o { entBits2 with c := .any .ty })
  | .popc o => some (shapeA o (entBits1 .b32))
  | .clz o => some (shapeA o (entBits1 .b32))
  | .brev o => some (shapeA o (entBits1 .ty))
  | .icmp o => some (shapeA o {
      types := tyInt4, mark := true, a := .mods .ty, b := .mods .ty, ext := 0x3F800#18,
      extra := predDstOk (formOf o.dst) o.ext17 && o.ext.extractLsb' 11 3 < 6#3, result := false })
  | .sel o => some (shapeA o {
      types := tyAll, a := .mods .ty, b := .mods .ty, ext := 0x3E000#18,
      extra := predSrcOk (formOf o.dst) o.ext17 })
  | .lea m o => some (shapeA o {
      types := [.u64], a := .any .b64, b := .any (if m == .x64 then .b64 else .b32),
      ext := 0x3F#18 })
  | .xtnd _ o => some (shapeA o {
      types := tyInt4, a := .any (if o.ext.getLsbD 6 then .b32 else .ty), ext := 0x7F#18,
      extra := let n := (o.ext.extractLsb' 0 6).toNat
        n != 0 && n ≤ (if o.ty.width == .w64 then 64 else 32) &&
        (!(o.ext.getLsbD 6) || (o.ty.width == .w64 && n ≤ 32)) })
  | .plop o => some (shapePlop o)
  | .pmovPack o => some (shapeA o { types := ty0 })
  | .pmovLoad o => some (shapeA o {
      types := ty0, mark := true, a := .any .b32, ext := 0xFF#18, result := false,
      extra := if formOf o.dst == .lane then !(o.ext.getLsbD 7) else o.ext.extractLsb' 4 4 == 0#4 })
  | .idivQ o => some (shapeA o { types := tyInt4, sat := true, a := .mods .ty, b := .mods .ty })
  | .idivR o => some (shapeA o { types := tyInt4, sat := true, a := .mods .ty, b := .mods .ty })
  | .bra o => some (shapeB o .marker .none .none true .both)
  | .brx o => some (shapeB o .marker .none (.any .b64) false .both)
  | .call o => some (shapeB o .call .none .none true .both)
  | .callIndirect o => some (shapeB o .call .none (.any .b64) false .both)
  | .ret o => some (shapeB o .marker .none (.any .b64) false .both)
  | .yield o => some (shapeB o .marker .none .none false .both)
  | .exit o => some (shapeB o .marker .none .none false .both)
  | .loops o => some (shapeB o .counter .none .none true .both)
  | .wsync o => some (shapeB o .marker0 (.any .b64) .none false .warp)
  -- R143 does not say at which width BAR reads its mask: at 64 bits, as WSYNC its lane mask (DESIGN CHOICE, log 82).
  | .bar o => some (shapeB o .marker (.unif .b64) .none false .warp)
  | .fadd o => some (shapeA o entFp2)
  | .fsub o => some (shapeA o entFp2)
  | .fmul o => some (shapeA o entFp2)
  | .ffma o => some (shapeA o { entFp2 with types := [.f32, .f64], c := .mods .ty })
  | .fmin o => some (shapeA o entFmin)
  | .fmax o => some (shapeA o entFmin)
  | .fcmp o => some (shapeA o {
      types := [.f32, .f64], mark := true, a := .mods .ty, b := .mods .ty, ext := 0x3F800#18,
      extra := predDstOk (formOf o.dst) o.ext17, result := false })
  | .frcp o => some (shapeA o entFn1)
  | .frsq o => some (shapeA o entFn1)
  | .fsqrt o => some (shapeA o entFn1)
  | .fdiv o => some (shapeA o entFp2)
  | .fexp2 o => some (shapeA o entFn1)
  | .flog2 o => some (shapeA o entFn1)
  | .fsinp o => some (shapeA o entFn1)
  | .fcosp o => some (shapeA o entFn1)
  | .ftanh o => some (shapeA o entFn1)
  | .fcvtF o => some (shapeA o (entFcvtF o))
  | .fcvtI o => some (shapeA o (entFcvtI o))
  | .fcvtRint o => some (shapeA o { types := tyFp4, a := .mods .ty, rms := rmAll })
  | .icvt o => some (shapeA o (entIcvt o))
  | .fclass o => some (shapeA o {
      types := tyFp4, dw := .b32, a := .any .ty, ext := 0x3C3FF#18,
      extra := predDstOk (formOf o.dst) o.ext17 })
  | .pfma2 o => some (shapeA o {
      types := [.f16x2, .bf16x2], fclamp := true, scl := true, a := .mods .ty,
      b := .mods .ty, c := .mods .ty, rms := rmAll, ext := 0x3#18 })
  | .fdot2 o => some (shapeA o {
      types := [.f16x2, .bf16x2], fclamp := true, scl := true, a := .mods .ty,
      b := .mods .ty, c := .mods .b32, rms := rmAll })
  | .idot4 o => some (shapeA o {
      types := [.i8x4], sat := true, scl := true, a := .any .ty, b := .any .ty,
      c := .any .b32, ext := 0x3#18 })
  | .bqnt o => some (shapeA o {
      types := [.f32], dst := [.v], a := .any .b32,
      b := if o.rm == .stoch then .any .b32 else .none, rms := .stoch :: rmAll, ext := 0x3E000#18, runs := .warp,
      extra := planeOk o.planeFmt })
  | .bdeq o => some (shapeA o {
      types := [.f32], dst := [.v], a := .nolat .b32, rms := [.rne], ext := 0x3E000#18,
      runs := .warp, extra := planeOk o.planeFmt })
  | .shflMap o => some (shapeA o (entShfl (.unif .b32) 0 o true))
  | .shflRot o => some (shapeA o (entShfl (.unif .b32) 0x3C00#18 o
      (1#3 ≤ o.ext.extractLsb' 11 3 && o.ext.extractLsb' 11 3 ≤ 6#3)))
  | .shflGath o => some (shapeA o (entShfl (.any .b32) 0 o true))
  | .voteTest o => some { shapeA o {
      types := [.u32], dst := [.v], mark := true, ext := 0x3FFE0#18, runs := .warp,
      extra := o.ext.extractLsb' 10 4 < 8#4 && (if voteQ o then o.ext17 < 12#4 && 8#4 ≤ o.ext.extractLsb' 5 4 &&
        o.ext.extractLsb' 5 4 < 12#4 else o.ext.extractLsb' 5 4 < 8#4), result := false } with
      form := if voteQ o then .gather else .lane }
  | .voteMask o => some (shapeA o {
      types := [.u64], gather := true, ext := 0x3E00#18, runs := .warp,
      extra := o.ext.extractLsb' 10 4 < 8#4 })
  | .voteSum o => some (shapeA o {
      types := [.u32], gather := true, ext := 0x3E00#18, runs := .warp,
      extra := o.ext.extractLsb' 10 4 < 8#4 })
  | .wredAdd o => some (shapeA o (entWred o true true))
  | .wredMin o => some (shapeA o (entWred o true false))
  | .wredMax o => some (shapeA o (entWred o true false))
  | .wredAnd o => some (shapeA o (entWred o false false))
  | .wredOr o => some (shapeA o (entWred o false false))
  | .wredXor o => some (shapeA o (entWred o false false))
  | .wscanAdd o => some (shapeA o (entWscan o true true))
  | .wscanMin o => some (shapeA o (entWscan o true false))
  | .wscanMax o => some (shapeA o (entWscan o true false))
  | .wscanAnd o => some (shapeA o (entWscan o false false))
  | .wscanOr o => some (shapeA o (entWscan o false false))
  | .wscanXor o => some (shapeA o (entWscan o false false))
  | .rdlane o => some (shapeA o entRdlane)
  | .rdlaneRank o => some (shapeA o entRdlane)
  | .wrlane o => some (shapeA o (entWrlane o))
  | .wrlaneRank o => some (shapeA o (entWrlane o))
  | .matchClass o => some (shapeA o {
      types := tyU, dst := [.v], dw := .b32, a := .any .ty, ext := 0x3C000#18,
      runs := .warp, extra := o.pOk })
  | .matchPeers o => some (shapeA o {
      types := tyU, dst := [.v], dw := .b64, a := .any .ty, ext := 0x3C000#18,
      runs := .warp, extra := o.pOk })
  | .elect o => some (shapeA o {
      types := [.u32], gather := true, a := .unif .b32, ext := 0x3C000#18, runs := .warp,
      extra := o.pOk })
  | .kput o => some (shapeA o {
      types := [.i32, .u32, .u64, .f32], dst := [.k], wbs := false, a := .unif .ty,
      b := .unif .b32, result := false })
  | .kget o => some (shapeA o { types := [.u64], dst := [.s], a := .kreg })
  | .kpeek o => some (shapeA o { types := [.u64], dst := [.s], a := .kreg })
  | .karm o => some (shapeA o {
      types := [.u64, .i64, .f32], dst := [.k], wbs := false, a := .unif .ty, b := .unif .b32,
      c := .unif .b32, rms := if o.ty == .f32 then rmAll else [.mode], ext := 0x38000#18, result := false,
      extra := let op := o.ext.extractLsb' 15 3
        op < 6#3 && (op < 3#3 || o.ty == .u64) })
  | .kred o => some (shapeA o entKred)
  | .kclr o => some (shapeA o { types := ty0, dst := [.k], wbs := false, runs := .spine, result := false })
  | .kstat o => some (shapeA o { types := ty0, dst := [.s], dw := .b64, wbs := false, a := .kreg })
  | .rdep o => some { shapeA o {
      types := tyU, wbs := false, a := .any .ty, b := .unif .b32, ext := 0x7#18,
      result := false } with defs := if o.dst.cls == .v then [(o.dst, o.ty.width)] else [] }
  | .ld _ o => some (shapeM o {
      data := .load, sizes := [0, 1, 2, 3, 4], orders := [0, 1, 4], scopes := allScopes,
      hints := hintsLd, result := true })
  | .st o => some (shapeM o {
      data := .store, sizes := [0, 1, 2, 3, 4], orders := [0, 2, 4], scopes := allScopes,
      hints := hintsLd })
  | .lds _ o => some (shapeM o {
      data := .load, sizes := [0, 1, 2, 3, 4], orders := [0, 1], scopes := [0, 1],
      spad := true, runs := .warp, result := true })
  | .sts o => some (shapeM o {
      data := .store, sizes := [0, 1, 2, 3, 4], orders := [0, 2], scopes := [0, 1],
      spad := true, runs := .warp })
  | .smarkE o => some (shapeM o { data := .count, sizes := [0], spad := true, unif := true, runs := .warp })
  | .smarkF o => some (shapeM o {
      data := .count, sizes := [0], orders := [2], scopes := [0, 1], spad := true,
      unif := true, runs := .warp })
  | .atomAdd o => some (shapeM o (entAtom [2, 3]))
  | .atomUmin o => some (shapeM o (entAtom [2, 3]))
  | .atomUmax o => some (shapeM o (entAtom [2, 3]))
  | .atomSmin o => some (shapeM o (entAtom [2, 3]))
  | .atomSmax o => some (shapeM o (entAtom [2, 3]))
  | .atomAnd o => some (shapeM o (entAtom [2, 3]))
  | .atomOr o => some (shapeM o (entAtom [2, 3]))
  | .atomXor o => some (shapeM o (entAtom [2, 3]))
  | .atomExch o => some (shapeM o (entAtom [2, 3]))
  | .atomFadd o => some (shapeM o (entAtom [2]))
  | .acas o => some (shapeM o { entAtom [2, 3] with data := .cas })
  | .fence o => some (shapeM o {
      data := .marker, sizes := [0], orders := [1, 2, 3, 4], scopes := allScopes,
      addr := false })
  | .cmaintWbL1 o => some (shapeM o { data := .count, sizes := [0], unif := true })
  | .cmaintWbiL1 o => some (shapeM o { data := .count, sizes := [0], unif := true })
  | .cmaintWbMem o => some (shapeM o { data := .count, sizes := [0], unif := true })
  | .prefL1 o => some (shapeM o { data := .marker, sizes := [0], hints := [0, 3] })
  | .prefL2 o => some (shapeM o { data := .marker, sizes := [0], hints := [0, 3] })
  | .icinv o => some (shapeM o { data := .count, sizes := [0], unif := true })
  | .ifence o => some (shapeM o { data := .marker1, sizes := [0], addr := false, unif := true })
  | .bankcfgCache o => some (shapeA o {
      types := ty0, dst := [.s], dw := .b64, a := .unif .b32, ext := 0x30000#18,
      extra := o.ext == 0#18, runs := .spine })
  | .bankcfgSpad o => some (shapeA o {
      types := ty0, dst := [.s], dw := .b64, a := .unif .b32, ext := 0x30000#18,
      extra := o.ext == 0x10000#18, runs := .spine })
  | .bankcfgFifo o => some (shapeA o {
      types := ty0, dst := [.s], dw := .b64, a := .unif .b32, ext := 0x30000#18,
      extra := o.ext == 0x20000#18, runs := .spine })
  | .lcopy _ o => some (shapeM o { data := .offsets, sizes := [5], hints := [0, 1, 2, 4], runs := .warp })
  | .scopy o => some (shapeE o (entCopy o 0))
  | .scpmxCopy o => some (shapeE o (entCopy o 0b000111#6))
  | .scpmxArm o => some (shapeE o { entPlane o 0b111111#6 with typeOk := o.armSub < 2 })
  | .sgath o => some (shapeE o (entRows o))
  | .sscat o => some (shapeE o (entRows o))
  | .scancel o => some (shapeE o {})
  | .sprobe o => some (shapeE o {
      s1 := true, s2 := true, s3 := true, even2 := true, params := 0x1800000#25,
      extra := o.dir < 3 })
  | .mplane o => some (shapeE o (entPlane o 0))
  | .mplaneBc o => some (shapeE o (entPlane o 0))
  | .mscale o => some (shapeE o (entPlane o 0))
  | .mepil o => some (shapeE o { s1 := true, s2 := true, s3 := true, params := 0x1FE0000#25, extra := o.bias < 3 })
  | .mzero o => some (shapeE o {
      s1 := true, s3 := true, params := 0x1F80000#25,
      extra := o.kind < 3 && (o.kind != 0 || o.zeroSlabs == 1) })
  | .btake o => some (shapeE o { runs := .warp })
  | .bpass o => some (shapeE o { runs := .warp })
  | .launch o => some (shapeE o { s1 := true })
  | .taskq o => some (shapeE o { s1 := true })
  | .taskd o => some (shapeE o { s1 := true, params := 0x1800000#25, runs := .warp, extra := o.dir < 3 })
  | .tdone o => some (shapeE o { s1 := true })
  | .fenq o => some (shapeA o {
      types := ty0, mark := true, a := .unif .b32, b := .elem, ext := 0x3C001#18,
      extra := predDstOk (formOf o.dst) o.ext17, result := false })
  | .fdeq o => some (shapeA o {
      types := ty0, dw := .b128, wbs := false, a := .unif .b32, ext := 0x3C001#18,
      extra := predDstOk (formOf o.dst) o.ext17, result := false })
  | .bqpostJoin o => some (shapeE o {})
  | .bqpostRow o => some (shapeE o { s1 := true, s2 := true, s3 := true, even3 := true })
  | .bqpostStep o => some (shapeE o { s1 := true })
  | .bqpostLeave o => some (shapeE o { s1 := true })
  | .bqget o => some (shapeE o { s1 := true, params := 0x1000000#25, runs := .warp })
  | .bqdone o => some (shapeE o { s1 := true, s2 := true, s3 := true })
  | .svc o => some (shapeE o { s1 := true, s2 := true, s3 := true })
  | .gopen o => some (shapeA o { types := ty0, dst := [.h], dw := .b64, a := .unif .b64 })
  | .gjoin o => some (shapeA o { entGroup ty0 (.unif .b64) with dw := .b64 })
  | .gleave o => some (shapeA o { entGroup ty0 .none with dw := .b64 })
  | .gbar o => some (shapeA o { entGroup ty0 .none with dw := .b64 })
  | .gvoteAny o => some (shapeA o { entGroup2 o ty0 (.unif .b64) [.mode] with dw := .b128 })
  | .gvoteAll o => some (shapeA o { entGroup2 o ty0 (.unif .b64) [.mode] with dw := .b128 })
  | .gvoteCount o => some (shapeA o { entGroup2 o ty0 (.unif .b64) [.mode] with dw := .b128 })
  | .gredAdd o => some (shapeA o { entGred o false with dw := .b128 })
  | .gredMin o => some (shapeA o { entGred o false with dw := .b128 })
  | .gredMax o => some (shapeA o { entGred o false with dw := .b128 })
  | .gredAnd o => some (shapeA o { entGred o true with dw := .b128 })
  | .gredOr o => some (shapeA o { entGred o true with dw := .b128 })
  | .gredXor o => some (shapeA o { entGred o true with dw := .b128 })
  | .gstat o => some (shapeA o { entGroup ty0 .none with dw := .b64, wbs := false })
  | .gclose o => some (shapeA o { entGroup ty0 .none with dw := .b64 })
  | .waitc _ o => some (shapeM o {
      data := .evenS, sizes := [2, 3], orders := [1], scopes := allScopes, unif := true,
      result := true })
  | .waitx o => some (shapeA o { types := ty0, dst := [.s], dw := .b64, a := .unif .b64, b := .unif .b64 })
  | .xlate o => some (shapeM o { data := .pair, sizes := [4], result := true })
  | .sqopen o => some (shapeA o { types := ty0, dst := [.h], dw := .b64, a := .unif .b64 })
  | .sqapp o => some (shapeA o {
      types := [.u32], dst := [.s], dw := .b64, gather := true, a := .unif .b64,
      b := .nolat .b32, c := .unif .b32, runs := .warp,
      extra := match o.b with | .reg (.v _) _ _ => true | .reg _ _ _ | .latch _ _ _ => false })
  | .sqmatch o => some { shapeA o {
      types := [.u32], dst := [.v], a := .unif .b64, ext := 0x3F01F#18, runs := .warp,
      extra := o.ext.extractLsb' 0 5 ≤ 16#5, result := false } with
      form := .gather, defs := (if o.wbs then [] else [(o.dst, .w32)]) ++ [(.s (o.ext.extractLsb' 12 6), .w64)] }
  | .sqmatchLen o => some (shapeA o { types := [.u32], dst := [.s], dw := .b64, wbs := false, a := .unif .b64 })
  | .sqsave o => some (shapeA o { types := ty0, dst := [.s], dw := .b64, a := .unif .b64, b := .unif .b64, c := .unif .b64 })
  | .sqload o => some { shapeA o {
      types := ty0, dst := [.h], dw := .b64, a := .unif .b64, b := .unif .b64,
      ext := 0x3F000#18 } with defs := [(o.dst, .w64), (.s (o.ext.extractLsb' 12 6), .w64)] }
  | .sqclose o => some (shapeA o { types := ty0, dst := [.s], dw := .b64, a := .unif .b64 })
  | .heapClr o => some (shapeA o { types := [.f32], dst := [.s], dw := .b64, a := .unif .b32, ext := 0x3#18 })
  | .heapPush o => some (shapeA o {
      types := [.f32], dst := [.v], mark := true, a := .any .b32, b := .any .b32,
      ext := 0x3#18, runs := .warp, result := false })
  | .heapMerge o => some (shapeA o { types := ty0, dst := [.s], dw := .b64, a := .unif .b32, ext := 0x3#18, runs := .warp })
  | .heapRead o => some (shapeA o { types := ty0, dst := [.s], dw := .b64, a := .unif .b32, ext := 0x3#18, runs := .warp })
  | .heapDraw o => some (shapeA o {
      types := ty0, dst := [.s], dw := .b64, wbs := false, a := .unif .b32, b := .unif .b32,
      c := .unif .b32, ext := 0x3#18 })
  | .draw o => some (shapeA o { types := [.u32], a := .unif .b64, b := .any .b32, c := .unif .b64 })
  | .lcwait o => some (shapeA o { types := ty0, dst := [.s], dw := .b64, ext := 0x7#18, runs := .warp })
  | .lcwaitOldest o => some (shapeA o { types := ty0, dst := [.s], dw := .b64, runs := .warp })
  | .aset o => some (shapeA o { types := ty0, dst := [.a], wbs := false, a := .unif .b32, runs := .warp, result := false })
  | .awaitGe o => some (shapeA o { types := ty0, dst := [.s], dw := .b64, a := .areg, b := .unif .b32, runs := .warp })
  | .awaitEq o => some (shapeA o { types := ty0, dst := [.s], dw := .b64, a := .areg, b := .unif .b32, runs := .warp })
  | .xexp o => some (shapeM o { data := .sInOut, sizes := [3], spad := true, unif := true, runs := .warp, result := true })
  | .xwait o => some (shapeM o {
      data := .marker1, sizes := [3], orders := [1], scopes := [0, 1, 3], spad := true,
      unif := true, runs := .warp })
  | .pcnt o => some (shapeA o { types := ty0, dst := [.s], dw := .b64, wbs := false, a := .unif .b32 })
  | .trap o => some (shapeT o)
  | .rte o => some (shapeB o .marker .none .none false .both)
  | .rteNext o => some (shapeB o .marker .none .none false .both)
  | .mfs o => some (shapeA o { types := tyU, a := .special })
  | .mts o => some (shapeA o {
      types := [.u64], dst := [.special], wbs := false, a := .unif .b64, result := false,
      extra := o.dst == .special .fpmode || o.dst == .special .fpflags || o.dst == .special .xpc ||
        o.dst == .special .xvec })
  | .migrate o => some (shapeM o { data := .sOut, sizes := [0], unif := true, runs := .warp, result := true })
  | .tlbinvPage o => some (shapeM o { data := .sIn, sizes := [0], unif := true })
  | .tlbinvCtx o => some (shapeM o { data := .sIn, sizes := [0], addr := false, unif := true })
  | .tlbinvAll o => some (shapeM o { data := .sIn, sizes := [0], addr := false, unif := true })
  | .snap o => some (shapeA o { types := ty0, dst := [.s], dw := .b64, a := .unif .b32 })
  | .rdepLanding _ => none
  | .bankSwitchDone _ _ => none
  | .lcopyLanding _ _ => none
  | .streamerLanding _ _ _ => none
  | .streamerCopyCompletion _ _ => none
  | .followOnMplaneEntry _ _ => none
  | .mplaneStep _ _ => none
  | .mscaleStep _ _ => none
  | .mepilStep _ _ => none
  | .mzeroStep _ _ => none
  | .engineCommandCompletion _ _ => none
  | .btakeService _ _ => none
  | .spillMove _ => none
  | .kelpieStatusWrite _ => none
  | .blkrd _ _ => none
  | .blkwr _ _ => none
  | .fopen _ _ => none
  | .fread _ _ => none
  | .fclose _ _ => none
  | .nconn _ _ => none
  | .nread _ _ => none
  | .nwrite _ _ => none
  | .nclose _ _ => none
  | .notify _ _ => none
  | .svcCompletion _ => none
  | .warpEviction _ _ => none
  | .rebuildComplete _ => none
  | .migrateLanding _ => none
  | .skipCountForce _ _ => none
  | .yieldCountdownExpiry _ _ _ => none
  | .port1Reissue _ _ => none
  | .killRecordWrite _ => none
  | .faultQueueEntryWrite _ => none
  | .faultService _ _ => none
  | .ownershipFlip _ _ _ => none
  | .hostSnoop _ => none
  | .hostMemoryAccess _ => none
  | .hostSubmissionPost _ _ => none
  | .dispatcherLaunchService _ => none
  | .layoutRingPost _ _ => none
  | .layoutSet _ => none
  | .layoutInval _ => none
  | .hostControlWordWrite _ _ _ => none
  | .packPlacement _ _ => none
  | .packResume _ _ => none
  | .priorityPreemption _ => none
  | .sliceExpiry _ => none
  | .packDrainComplete _ => none
  | .launchCompletionWrite _ => none
  | .virtualFunctionReset _ => none
  | .setSliceLength _ _ => none
  | .setBatchThreshold _ _ => none
  | .setShareGroup _ _ => none
  | .orderlyOfflineRequest _ => none
  | .drainComplete _ => none
  | .evacuationFailed _ => none
  | .offlineRequestCancel _ => none
  | .forcedOffline _ => none
  | .dieReadmission _ => none
  | .dieReset _ => none
  | .packageReset _ => none
  | .borrowRequest _ _ _ => none
  | .loanRecall _ _ _ => none
  | .loanRepayment _ _ _ => none
  | .powerGuardTrip _ => none
  | .peerAccess _ _ => none
  | .peerLinkDown _ => none
  | .linkRetrain _ => none
  | .attestationRequest _ => none
  | .debugPortTrigger => none
  | .snapshotReadout => none
  | .arithmeticClockCycle _ => none
  | .softErrorCounterClear _ _ => none
  | .virtualFunctionEnable _ _ _ => none
  | .pageTableUpdate _ _ => none
  | .windowDefinition _ _ => none
  | .pageEvacuation _ _ _ => none
  | .snapshotEnable _ _ => none

/-- SUB of LEA (R130). -/
def LeaMode.code : LeaMode → BitVec 4
  | .x64 => 0 | .s32 => 1 | .u32 => 2

/-- SUB of WAITC (R352). -/
def WaitCmp.code : WaitCmp → BitVec 4
  | .eq => 0 | .ne => 1 | .lts => 2 | .ges => 3 | .ltu => 4 | .geu => 5

/-! ### Opcodes -/

/-- OP and SUB of every instruction (R79 and the entries); none for an event. -/
def Instr.opSub : Instr → Option (BitVec 8 × BitVec 4)
  | .nop _ => some (0x00, 0)
  | .mov _ => some (0x01, 0)
  | .movi _ => some (0x02, 0)
  | .moviSx _ => some (0x02, 1)
  | .moviZx _ => some (0x02, 2)
  | .moviHi _ => some (0x02, 3)
  | .iadd _ => some (0x03, 0)
  | .isub _ => some (0x04, 0)
  | .imul _ => some (0x05, 0)
  | .imulh _ => some (0x06, 0)
  | .imad _ => some (0x07, 0)
  | .imin _ => some (0x08, 0)
  | .imax _ => some (0x09, 0)
  | .iabsd _ => some (0x0A, 0)
  | .and _ => some (0x0B, 0)
  | .or _ => some (0x0C, 0)
  | .xor _ => some (0x0D, 0)
  | .andn _ => some (0x0E, 0)
  | .lut3 _ => some (0x0F, 0)
  | .shl _ => some (0x10, 0)
  | .shr _ => some (0x11, 0)
  | .sar _ => some (0x12, 0)
  | .rot _ => some (0x13, 0)
  | .bfx sx _ => some (0x14, if sx then 1 else 0)
  | .bfi _ => some (0x15, 0)
  | .popc _ => some (0x16, 0)
  | .clz _ => some (0x17, 0)
  | .brev _ => some (0x18, 0)
  | .icmp _ => some (0x19, 0)
  | .sel _ => some (0x1A, 0)
  | .lea m _ => some (0x1B, m.code)
  | .xtnd sx _ => some (0x1C, if sx then 1 else 0)
  | .plop _ => some (0x1D, 0)
  | .pmovPack _ => some (0x1E, 0)
  | .pmovLoad _ => some (0x1E, 1)
  | .idivQ _ => some (0x1F, 0)
  | .idivR _ => some (0x1F, 1)
  | .bra _ => some (0x20, 0)
  | .brx _ => some (0x21, 0)
  | .call _ => some (0x22, 0)
  | .callIndirect _ => some (0x22, 1)
  | .ret _ => some (0x23, 0)
  | .yield _ => some (0x24, 0)
  | .exit _ => some (0x25, 0)
  | .loops _ => some (0x26, 0)
  | .wsync _ => some (0x27, 0)
  | .bar _ => some (0x28, 0)
  | .fadd _ => some (0x40, 0)
  | .fsub _ => some (0x41, 0)
  | .fmul _ => some (0x42, 0)
  | .ffma _ => some (0x43, 0)
  | .fmin _ => some (0x44, 0)
  | .fmax _ => some (0x45, 0)
  | .fcmp _ => some (0x46, 0)
  | .frcp _ => some (0x47, 0)
  | .frsq _ => some (0x48, 0)
  | .fsqrt _ => some (0x49, 0)
  | .fdiv _ => some (0x4A, 0)
  | .fexp2 _ => some (0x4B, 0)
  | .flog2 _ => some (0x4C, 0)
  | .fsinp _ => some (0x4D, 0)
  | .fcosp _ => some (0x4E, 0)
  | .ftanh _ => some (0x4F, 0)
  | .fcvtF _ => some (0x50, 0)
  | .fcvtI _ => some (0x50, 1)
  | .fcvtRint _ => some (0x50, 2)
  | .icvt _ => some (0x51, 0)
  | .fclass _ => some (0x52, 0)
  | .pfma2 _ => some (0x53, 0)
  | .fdot2 _ => some (0x54, 0)
  | .idot4 _ => some (0x55, 0)
  | .bqnt _ => some (0x56, 0)
  | .bdeq _ => some (0x57, 0)
  | .shflMap _ => some (0x60, 0)
  | .shflRot _ => some (0x60, 1)
  | .shflGath _ => some (0x60, 2)
  | .voteTest _ => some (0x61, 0)
  | .voteMask _ => some (0x61, 1)
  | .voteSum _ => some (0x61, 2)
  | .wredAdd _ => some (0x62, 0)
  | .wredMin _ => some (0x62, 1)
  | .wredMax _ => some (0x62, 2)
  | .wredAnd _ => some (0x62, 3)
  | .wredOr _ => some (0x62, 4)
  | .wredXor _ => some (0x62, 5)
  | .wscanAdd _ => some (0x63, 0)
  | .wscanMin _ => some (0x63, 1)
  | .wscanMax _ => some (0x63, 2)
  | .wscanAnd _ => some (0x63, 3)
  | .wscanOr _ => some (0x63, 4)
  | .wscanXor _ => some (0x63, 5)
  | .rdlane _ => some (0x64, 0)
  | .rdlaneRank _ => some (0x64, 1)
  | .wrlane _ => some (0x65, 0)
  | .wrlaneRank _ => some (0x65, 1)
  | .matchClass _ => some (0x66, 0)
  | .matchPeers _ => some (0x66, 1)
  | .elect _ => some (0x67, 0)
  | .kput _ => some (0x80, 0)
  | .kget _ => some (0x81, 0)
  | .kpeek _ => some (0x82, 0)
  | .karm _ => some (0x83, 0)
  | .kred _ => some (0x84, 0)
  | .kclr _ => some (0x85, 0)
  | .kstat _ => some (0x86, 0)
  | .rdep _ => some (0x88, 0)
  | .rdepLanding _ => none
  | .ld sx _ => some (0x90, if sx then 1 else 0)
  | .st _ => some (0x91, 0)
  | .lds sx _ => some (0x92, if sx then 1 else 0)
  | .sts _ => some (0x93, 0)
  | .smarkE _ => some (0x94, 0)
  | .smarkF _ => some (0x94, 1)
  | .atomAdd _ => some (0x95, 0)
  | .atomUmin _ => some (0x95, 1)
  | .atomUmax _ => some (0x95, 2)
  | .atomSmin _ => some (0x95, 3)
  | .atomSmax _ => some (0x95, 4)
  | .atomAnd _ => some (0x95, 5)
  | .atomOr _ => some (0x95, 6)
  | .atomXor _ => some (0x95, 7)
  | .atomExch _ => some (0x95, 8)
  | .atomFadd _ => some (0x95, 9)
  | .acas _ => some (0x96, 0)
  | .fence _ => some (0x97, 0)
  | .cmaintWbL1 _ => some (0x98, 0)
  | .cmaintWbiL1 _ => some (0x98, 1)
  | .cmaintWbMem _ => some (0x98, 2)
  | .prefL1 _ => some (0x99, 0)
  | .prefL2 _ => some (0x99, 1)
  | .icinv _ => some (0x9A, 0)
  | .ifence _ => some (0x9B, 0)
  | .bankcfgCache _ => some (0x9C, 0)
  | .bankcfgSpad _ => some (0x9C, 0)
  | .bankcfgFifo _ => some (0x9C, 0)
  | .bankSwitchDone _ _ => none
  | .lcopy t _ => some (0x9D, t.setWidth 4)
  | .lcopyLanding _ _ => none
  | .scopy _ => some (0xB0, 0)
  | .scpmxCopy _ => some (0xB1, 0)
  | .scpmxArm _ => some (0xB1, 1)
  | .sgath _ => some (0xB2, 0)
  | .sscat _ => some (0xB3, 0)
  | .scancel _ => some (0xB4, 0)
  | .sprobe _ => some (0xB5, 0)
  | .streamerLanding _ _ _ => none
  | .streamerCopyCompletion _ _ => none
  | .followOnMplaneEntry _ _ => none
  | .mplane _ => some (0xB8, 0)
  | .mplaneBc _ => some (0xB8, 1)
  | .mscale _ => some (0xB9, 0)
  | .mepil _ => some (0xBA, 0)
  | .mzero _ => some (0xBB, 0)
  | .mplaneStep _ _ => none
  | .mscaleStep _ _ => none
  | .mepilStep _ _ => none
  | .mzeroStep _ _ => none
  | .engineCommandCompletion _ _ => none
  | .btake _ => some (0xBC, 0)
  | .bpass _ => some (0xBD, 0)
  | .btakeService _ _ => none
  | .launch _ => some (0xC0, 0)
  | .taskq _ => some (0xC1, 0)
  | .taskd _ => some (0xC2, 0)
  | .tdone _ => some (0xC3, 0)
  | .spillMove _ => none
  | .fenq _ => some (0xC4, 0)
  | .fdeq _ => some (0xC5, 0)
  | .bqpostJoin _ => some (0xC6, 0)
  | .bqpostRow _ => some (0xC6, 1)
  | .bqpostStep _ => some (0xC6, 2)
  | .bqpostLeave _ => some (0xC6, 3)
  | .bqget _ => some (0xC7, 0)
  | .bqdone _ => some (0xC8, 0)
  | .kelpieStatusWrite _ => none
  | .svc _ => some (0xC9, 0)
  | .blkrd _ _ => none
  | .blkwr _ _ => none
  | .fopen _ _ => none
  | .fread _ _ => none
  | .fclose _ _ => none
  | .nconn _ _ => none
  | .nread _ _ => none
  | .nwrite _ _ => none
  | .nclose _ _ => none
  | .notify _ _ => none
  | .svcCompletion _ => none
  | .gopen _ => some (0xD0, 0)
  | .gjoin _ => some (0xD1, 0)
  | .gleave _ => some (0xD2, 0)
  | .gbar _ => some (0xD3, 0)
  | .gvoteAny _ => some (0xD4, 0)
  | .gvoteAll _ => some (0xD4, 1)
  | .gvoteCount _ => some (0xD4, 2)
  | .gredAdd _ => some (0xD5, 0)
  | .gredMin _ => some (0xD5, 1)
  | .gredMax _ => some (0xD5, 2)
  | .gredAnd _ => some (0xD5, 3)
  | .gredOr _ => some (0xD5, 4)
  | .gredXor _ => some (0xD5, 5)
  | .gstat _ => some (0xD6, 0)
  | .gclose _ => some (0xD7, 0)
  | .waitc cmp _ => some (0xD8, cmp.code)
  | .warpEviction _ _ => none
  | .waitx _ => some (0xD9, 0)
  | .xlate _ => some (0xDA, 0)
  | .sqopen _ => some (0xE0, 0)
  | .sqapp _ => some (0xE1, 0)
  | .rebuildComplete _ => none
  | .sqmatch _ => some (0xE2, 0)
  | .sqmatchLen _ => some (0xE2, 1)
  | .sqsave _ => some (0xE3, 0)
  | .sqload _ => some (0xE4, 0)
  | .sqclose _ => some (0xE5, 0)
  | .heapClr _ => some (0xE6, 0)
  | .heapPush _ => some (0xE6, 1)
  | .heapMerge _ => some (0xE6, 2)
  | .heapRead _ => some (0xE6, 3)
  | .heapDraw _ => some (0xE6, 4)
  | .draw _ => some (0xE7, 0)
  | .lcwait _ => some (0xE8, 0)
  | .lcwaitOldest _ => some (0xE8, 1)
  | .aset _ => some (0xE9, 0)
  | .awaitGe _ => some (0xEA, 0)
  | .awaitEq _ => some (0xEA, 1)
  | .xexp _ => some (0xEB, 0)
  | .xwait _ => some (0xEC, 0)
  | .pcnt _ => some (0xED, 0)
  | .trap _ => some (0xF0, 0)
  | .rte _ => some (0xF1, 0)
  | .rteNext _ => some (0xF1, 1)
  | .mfs _ => some (0xF2, 0)
  | .mts _ => some (0xF3, 0)
  | .migrate _ => some (0xF4, 0)
  | .migrateLanding _ => none
  | .tlbinvPage _ => some (0xF5, 0)
  | .tlbinvCtx _ => some (0xF5, 1)
  | .tlbinvAll _ => some (0xF5, 2)
  | .snap _ => some (0xF6, 0)
  | .skipCountForce _ _ => none
  | .yieldCountdownExpiry _ _ _ => none
  | .port1Reissue _ _ => none
  | .killRecordWrite _ => none
  | .faultQueueEntryWrite _ => none
  | .faultService _ _ => none
  | .ownershipFlip _ _ _ => none
  | .hostSnoop _ => none
  | .hostMemoryAccess _ => none
  | .hostSubmissionPost _ _ => none
  | .dispatcherLaunchService _ => none
  | .layoutRingPost _ _ => none
  | .layoutSet _ => none
  | .layoutInval _ => none
  | .hostControlWordWrite _ _ _ => none
  | .packPlacement _ _ => none
  | .packResume _ _ => none
  | .priorityPreemption _ => none
  | .sliceExpiry _ => none
  | .packDrainComplete _ => none
  | .launchCompletionWrite _ => none
  | .virtualFunctionReset _ => none
  | .setSliceLength _ _ => none
  | .setBatchThreshold _ _ => none
  | .setShareGroup _ _ => none
  | .orderlyOfflineRequest _ => none
  | .drainComplete _ => none
  | .evacuationFailed _ => none
  | .offlineRequestCancel _ => none
  | .forcedOffline _ => none
  | .dieReadmission _ => none
  | .dieReset _ => none
  | .packageReset _ => none
  | .borrowRequest _ _ _ => none
  | .loanRecall _ _ _ => none
  | .loanRepayment _ _ _ => none
  | .powerGuardTrip _ => none
  | .peerAccess _ _ => none
  | .peerLinkDown _ => none
  | .linkRetrain _ => none
  | .attestationRequest _ => none
  | .debugPortTrigger => none
  | .snapshotReadout => none
  | .arithmeticClockCycle _ => none
  | .softErrorCounterClear _ _ => none
  | .virtualFunctionEnable _ _ _ => none
  | .pageTableUpdate _ _ => none
  | .windowDefinition _ _ => none
  | .pageEvacuation _ _ _ => none
  | .snapshotEnable _ _ => none

/-- The format of a row of the opcode table and the instruction its fields make. -/
inductive Maker where
  | a (f : FmtA → Instr) | p (f : FmtP → Instr) | i (f : FmtI → Instr) | m (f : FmtM → Instr)
  | b (f : FmtB → Instr) | t (f : FmtT → Instr) | e (f : FmtE → Instr)

/-- BANKCFG names its mode in EXT[17:16] (R195). -/
def bankcfg (o : FmtA) : Instr :=
  match (o.ext.extractLsb' 16 2).toNat with
  | 1 => .bankcfgSpad o
  | 2 => .bankcfgFifo o
  | _ => .bankcfgCache o

/-- The row of an opcode (R79); the list holds the rows of its SUB codes 0, 1, .... -/
def makers (op : Nat) : List Maker :=
  match op with
  | 0x00 => [.a .nop]
  | 0x01 => [.a .mov]
  | 0x02 => [.i .movi, .i .moviSx, .i .moviZx, .i .moviHi]
  | 0x03 => [.a .iadd]
  | 0x04 => [.a .isub]
  | 0x05 => [.a .imul]
  | 0x06 => [.a .imulh]
  | 0x07 => [.a .imad]
  | 0x08 => [.a .imin]
  | 0x09 => [.a .imax]
  | 0x0A => [.a .iabsd]
  | 0x0B => [.a .and]
  | 0x0C => [.a .or]
  | 0x0D => [.a .xor]
  | 0x0E => [.a .andn]
  | 0x0F => [.a .lut3]
  | 0x10 => [.a .shl]
  | 0x11 => [.a .shr]
  | 0x12 => [.a .sar]
  | 0x13 => [.a .rot]
  | 0x14 => [.a (.bfx false), .a (.bfx true)]
  | 0x15 => [.a .bfi]
  | 0x16 => [.a .popc]
  | 0x17 => [.a .clz]
  | 0x18 => [.a .brev]
  | 0x19 => [.a .icmp]
  | 0x1A => [.a .sel]
  | 0x1B => [.a (.lea .x64), .a (.lea .s32), .a (.lea .u32)]
  | 0x1C => [.a (.xtnd false), .a (.xtnd true)]
  | 0x1D => [.p .plop]
  | 0x1E => [.a .pmovPack, .a .pmovLoad]
  | 0x1F => [.a .idivQ, .a .idivR]
  | 0x20 => [.b .bra]
  | 0x21 => [.b .brx]
  | 0x22 => [.b .call, .b .callIndirect]
  | 0x23 => [.b .ret]
  | 0x24 => [.b .yield]
  | 0x25 => [.b .exit]
  | 0x26 => [.b .loops]
  | 0x27 => [.b .wsync]
  | 0x28 => [.b .bar]
  | 0x40 => [.a .fadd]
  | 0x41 => [.a .fsub]
  | 0x42 => [.a .fmul]
  | 0x43 => [.a .ffma]
  | 0x44 => [.a .fmin]
  | 0x45 => [.a .fmax]
  | 0x46 => [.a .fcmp]
  | 0x47 => [.a .frcp]
  | 0x48 => [.a .frsq]
  | 0x49 => [.a .fsqrt]
  | 0x4A => [.a .fdiv]
  | 0x4B => [.a .fexp2]
  | 0x4C => [.a .flog2]
  | 0x4D => [.a .fsinp]
  | 0x4E => [.a .fcosp]
  | 0x4F => [.a .ftanh]
  | 0x50 => [.a .fcvtF, .a .fcvtI, .a .fcvtRint]
  | 0x51 => [.a .icvt]
  | 0x52 => [.a .fclass]
  | 0x53 => [.a .pfma2]
  | 0x54 => [.a .fdot2]
  | 0x55 => [.a .idot4]
  | 0x56 => [.a .bqnt]
  | 0x57 => [.a .bdeq]
  | 0x60 => [.a .shflMap, .a .shflRot, .a .shflGath]
  | 0x61 => [.a .voteTest, .a .voteMask, .a .voteSum]
  | 0x62 => [.a .wredAdd, .a .wredMin, .a .wredMax, .a .wredAnd, .a .wredOr, .a .wredXor]
  | 0x63 => [.a .wscanAdd, .a .wscanMin, .a .wscanMax, .a .wscanAnd, .a .wscanOr, .a .wscanXor]
  | 0x64 => [.a .rdlane, .a .rdlaneRank]
  | 0x65 => [.a .wrlane, .a .wrlaneRank]
  | 0x66 => [.a .matchClass, .a .matchPeers]
  | 0x67 => [.a .elect]
  | 0x80 => [.a .kput]
  | 0x81 => [.a .kget]
  | 0x82 => [.a .kpeek]
  | 0x83 => [.a .karm]
  | 0x84 => [.a .kred]
  | 0x85 => [.a .kclr]
  | 0x86 => [.a .kstat]
  | 0x88 => [.a .rdep]
  | 0x90 => [.m (.ld false), .m (.ld true)]
  | 0x91 => [.m .st]
  | 0x92 => [.m (.lds false), .m (.lds true)]
  | 0x93 => [.m .sts]
  | 0x94 => [.m .smarkE, .m .smarkF]
  | 0x95 =>
    [.m .atomAdd, .m .atomUmin, .m .atomUmax,
     .m .atomSmin, .m .atomSmax, .m .atomAnd,
     .m .atomOr, .m .atomXor, .m .atomExch,
     .m .atomFadd]
  | 0x96 => [.m .acas]
  | 0x97 => [.m .fence]
  | 0x98 => [.m .cmaintWbL1, .m .cmaintWbiL1, .m .cmaintWbMem]
  | 0x99 => [.m .prefL1, .m .prefL2]
  | 0x9A => [.m .icinv]
  | 0x9B => [.m .ifence]
  | 0x9C => [.a bankcfg]
  | 0x9D =>
    [.m (.lcopy 0), .m (.lcopy 1), .m (.lcopy 2),
     .m (.lcopy 3), .m (.lcopy 4), .m (.lcopy 5),
     .m (.lcopy 6), .m (.lcopy 7)]
  | 0xB0 => [.e .scopy]
  | 0xB1 => [.e .scpmxCopy, .e .scpmxArm]
  | 0xB2 => [.e .sgath]
  | 0xB3 => [.e .sscat]
  | 0xB4 => [.e .scancel]
  | 0xB5 => [.e .sprobe]
  | 0xB8 => [.e .mplane, .e .mplaneBc]
  | 0xB9 => [.e .mscale]
  | 0xBA => [.e .mepil]
  | 0xBB => [.e .mzero]
  | 0xBC => [.e .btake]
  | 0xBD => [.e .bpass]
  | 0xC0 => [.e .launch]
  | 0xC1 => [.e .taskq]
  | 0xC2 => [.e .taskd]
  | 0xC3 => [.e .tdone]
  | 0xC4 => [.a .fenq]
  | 0xC5 => [.a .fdeq]
  | 0xC6 => [.e .bqpostJoin, .e .bqpostRow, .e .bqpostStep, .e .bqpostLeave]
  | 0xC7 => [.e .bqget]
  | 0xC8 => [.e .bqdone]
  | 0xC9 => [.e .svc]
  | 0xD0 => [.a .gopen]
  | 0xD1 => [.a .gjoin]
  | 0xD2 => [.a .gleave]
  | 0xD3 => [.a .gbar]
  | 0xD4 => [.a .gvoteAny, .a .gvoteAll, .a .gvoteCount]
  | 0xD5 => [.a .gredAdd, .a .gredMin, .a .gredMax, .a .gredAnd, .a .gredOr, .a .gredXor]
  | 0xD6 => [.a .gstat]
  | 0xD7 => [.a .gclose]
  | 0xD8 =>
    [.m (.waitc .eq), .m (.waitc .ne), .m (.waitc .lts),
     .m (.waitc .ges), .m (.waitc .ltu), .m (.waitc .geu)]
  | 0xD9 => [.a .waitx]
  | 0xDA => [.m .xlate]
  | 0xE0 => [.a .sqopen]
  | 0xE1 => [.a .sqapp]
  | 0xE2 => [.a .sqmatch, .a .sqmatchLen]
  | 0xE3 => [.a .sqsave]
  | 0xE4 => [.a .sqload]
  | 0xE5 => [.a .sqclose]
  | 0xE6 => [.a .heapClr, .a .heapPush, .a .heapMerge, .a .heapRead, .a .heapDraw]
  | 0xE7 => [.a .draw]
  | 0xE8 => [.a .lcwait, .a .lcwaitOldest]
  | 0xE9 => [.a .aset]
  | 0xEA => [.a .awaitGe, .a .awaitEq]
  | 0xEB => [.m .xexp]
  | 0xEC => [.m .xwait]
  | 0xED => [.a .pcnt]
  | 0xF0 => [.t .trap]
  | 0xF1 => [.b .rte, .b .rteNext]
  | 0xF2 => [.a .mfs]
  | 0xF3 => [.a .mts]
  | 0xF4 => [.m .migrate]
  | 0xF5 => [.m .tlbinvPage, .m .tlbinvCtx, .m .tlbinvAll]
  | 0xF6 => [.a .snap]
  | _ => []

/-- What an instruction word holds where a specifier names nothing: `FmtA.parse` and its like answer the fields with
zero fields in such places, and whether there was none. -/
def srcAt (w : Word96) (low : Nat) : Option Src := Src.dec (w.extractLsb' low 13)

def orZero (x : Option Src) : Src := x.getD Src.zero
def orV0 (x : Option Spec) : Spec := x.getD (.v 0)

/-- Bits [83:80] of every word (R53). -/
def guardAt (w : Word96) : Guard := Guard.dec (w.extractLsb' 80 4)
/-- Bits [79:70] of every word. -/
def specAt (w : Word96) : Option Spec := Spec.dec (w.extractLsb' 70 10)

/-- R54: the fields of format A, given the type its TYPE field names. -/
def parseA (w : Word96) (ty : Ty) : FmtA × Bool :=
  ({ guard := guardAt w, dst := orV0 (specAt w), wbs := w.getLsbD 69, clamp := w.extractLsb' 67 2,
     scl := w.extractLsb' 64 3, a := orZero (srcAt w 51), b := orZero (srcAt w 38), c := orZero (srcAt w 25), ty,
     rm := (Rm.ofCode (w.extractLsb' 18 3)).getD .mode, ext := w.extractLsb' 0 18 },
   (specAt w).isSome && (srcAt w 51).isSome && (srcAt w 38).isSome && (srcAt w 25).isSome &&
     (Rm.ofCode (w.extractLsb' 18 3)).isSome)

/-- R135. -/
def parseP (w : Word96) (ty : Ty) : FmtP × Bool :=
  ({ guard := guardAt w, dst := orV0 (specAt w), wbs := w.getLsbD 69, clamp := w.extractLsb' 67 2,
     scl := w.extractLsb' 64 3, table := w.extractLsb' 56 8, mid := w.extractLsb' 25 31, ty,
     rm := (Rm.ofCode (w.extractLsb' 18 3)).getD .mode, ext := w.extractLsb' 0 18 },
   (specAt w).isSome && (Rm.ofCode (w.extractLsb' 18 3)).isSome)

/-- R55. -/
def parseI (w : Word96) : FmtI × Bool :=
  ({ guard := guardAt w, dst := orV0 (specAt w), wbs := w.getLsbD 69, clamp := w.extractLsb' 67 2,
     scl := w.extractLsb' 64 3, a := orZero (srcAt w 51), low := w.extractLsb' 32 19, imm := w.extractLsb' 0 32 },
   (specAt w).isSome && (srcAt w 51).isSome)

/-- R56. -/
def parseM (w : Word96) : FmtM × Bool :=
  ({ guard := guardAt w, data := orV0 (specAt w), size := w.extractLsb' 67 3, scope := w.extractLsb' 64 3,
     base := orZero (srcAt w 51), order := w.extractLsb' 48 3, hint := w.extractLsb' 45 3,
     index := orZero (srcAt w 32), offset := w.extractLsb' 0 32 },
   (specAt w).isSome && (srcAt w 51).isSome && (srcAt w 32).isSome)

/-- R57, R137. -/
def parseB (w : Word96) : FmtB × Bool :=
  ({ guard := guardAt w, link := orV0 (specAt w), mid := w.extractLsb' 64 6, mask := orZero (srcAt w 51),
     target := orZero (srcAt w 38), low := w.extractLsb' 32 6, disp := w.extractLsb' 0 32 },
   (specAt w).isSome && (srcAt w 51).isSome && (srcAt w 38).isSome)

/-- R419. -/
def parseT (w : Word96) : FmtT × Bool :=
  ({ guard := guardAt w, link := orV0 (specAt w), mid := w.extractLsb' 64 6, high := w.extractLsb' 48 16,
     code := w.extractLsb' 32 16, disp := w.extractLsb' 0 32 },
   (specAt w).isSome)

/-- R58. -/
def parseE (w : Word96) : FmtE × Bool :=
  ({ guard := guardAt w, token := orV0 (specAt w), mid := w.extractLsb' 64 6, s1 := orZero (srcAt w 51),
     s2 := orZero (srcAt w 38), s3 := orZero (srcAt w 25), params := w.extractLsb' 0 25 },
   (specAt w).isSome && (srcAt w 51).isSome && (srcAt w 38).isSome && (srcAt w 25).isSome)

/-- The instruction a maker reads from a word and whether every specifier named something; none where TYPE is
reserved (R77). -/
def Maker.parse (m : Maker) (w : Word96) : Option (Instr × Bool) :=
  match m with
  | .a f => (Ty.ofCode (w.extractLsb' 21 4)).map fun t => (f (parseA w t).1, (parseA w t).2)
  | .p f => (Ty.ofCode (w.extractLsb' 21 4)).map fun t => (f (parseP w t).1, (parseP w t).2)
  | .i f => some (f (parseI w).1, (parseI w).2)
  | .m f => some (f (parseM w).1, (parseM w).2)
  | .b f => some (f (parseB w).1, (parseB w).2)
  | .t f => some (f (parseT w).1, (parseT w).2)
  | .e f => some (f (parseE w).1, (parseE w).2)

/-- The two encoding faults of a word (R80, step 2 of R82): ENC.OPCODE and ENC.FIELD. -/
inductive EncFault where
  | opcode | field
deriving DecidableEq, Repr

/-- Whether TYPE (or a second SUB) is one the entry accepts. -/
def Instr.typeOk (i : Instr) : Bool := (i.shape.map (·.typeOk)).getD false
/-- Whether every other field is one the entry accepts. -/
def Instr.fieldOk (i : Instr) : Bool := (i.shape.map (·.fieldOk)).getD false

/-- R80: the instruction of a word, or the encoding fault it raises. -/
def decode (w : Word96) : Except EncFault Instr :=
  match (makers (w.extractLsb' 88 8).toNat)[(w.extractLsb' 84 4).toNat]? with
  | none => .error .opcode
  | some m =>
    match m.parse w with
    | none => .error .opcode
    | some (i, named) =>
      if i.typeOk then (if named && i.fieldOk then .ok i else .error .field) else .error .opcode

/-! ### Encoding -/

/-- R54. -/
def FmtA.bits (o : FmtA) : BitVec 84 :=
  o.guard.enc ++ o.dst.enc ++ BitVec.ofBool o.wbs ++ o.clamp ++ o.scl ++ o.a.enc ++ o.b.enc ++ o.c.enc ++
    o.ty.code ++ o.rm.code ++ o.ext
/-- R135. -/
def FmtP.bits (o : FmtP) : BitVec 84 :=
  o.guard.enc ++ o.dst.enc ++ BitVec.ofBool o.wbs ++ o.clamp ++ o.scl ++ o.table ++ o.mid ++ o.ty.code ++
    o.rm.code ++ o.ext
/-- R55. -/
def FmtI.bits (o : FmtI) : BitVec 84 :=
  o.guard.enc ++ o.dst.enc ++ BitVec.ofBool o.wbs ++ o.clamp ++ o.scl ++ o.a.enc ++ o.low ++ o.imm
/-- R56. -/
def FmtM.bits (o : FmtM) : BitVec 84 :=
  o.guard.enc ++ o.data.enc ++ o.size ++ o.scope ++ o.base.enc ++ o.order ++ o.hint ++ o.index.enc ++ o.offset
/-- R57. -/
def FmtB.bits (o : FmtB) : BitVec 84 :=
  o.guard.enc ++ o.link.enc ++ o.mid ++ o.mask.enc ++ o.target.enc ++ o.low ++ o.disp
/-- R419. -/
def FmtT.bits (o : FmtT) : BitVec 84 :=
  o.guard.enc ++ o.link.enc ++ o.mid ++ o.high ++ o.code ++ o.disp
/-- R58. -/
def FmtE.bits (o : FmtE) : BitVec 84 :=
  o.guard.enc ++ o.token.enc ++ o.mid ++ o.s1.enc ++ o.s2.enc ++ o.s3.enc ++ o.params

/-- The bits of an instruction below OP and SUB; none for an event. -/
def Fields.bits : Fields → Option (BitVec 84)
  | .a o => some o.bits | .p o => some o.bits | .i o => some o.bits | .m o => some o.bits | .b o => some o.bits
  | .t o => some o.bits | .e o => some o.bits | .event => none

/-- The word of an instruction (R53 to R58); none for an event. -/
def encode (i : Instr) : Option Word96 :=
  i.opSub.bind fun os => i.fields.bits.map fun bits => os.1 ++ os.2 ++ bits

/-- An instruction whose word its entry accepts. -/
def Instr.encodable (i : Instr) : Bool := i.wf && i.typeOk && i.fieldOk

/-- The decoder on an instruction given by its bits: the first 32-bit word is bits 31 to 0 (R53: an instruction is
one 96-bit word, so bit n of the table is bit n of the word). -/
def decodeTableWord (_nbits w : Nat) : Option Instr :=
  match decode (BitVec.ofNat 96 w) with
  | .ok i => some i
  | .error _ => none

end Sys2Proof
end

