-- ==== Sys2Proof/Machine/State.lean ====
section
/-! DEFINITION. The state of the package as plain data: every state card of spec/01 and spec/04 to spec/18, and the
model's own fields, which say what moves next (log 2, log 3). -/

namespace Sys2Proof.Machine

/-- A sparse table: keys strictly rising, no entry for a key that holds its reading's default. -/
abbrev Cells (α : Type) := List (Nat × α)

/-! ### Registers of a party -/

/-- R72: a bypass latch; `wide` says that its value has 64 bits. -/
inductive Latch where
  | invalid | lane (wide : Bool) (value : Word64) | uniform (wide : Bool) (value : Word64)
deriving DecidableEq, Repr

/-- The registers of a warp or of a spine thread (R116, R145, R146, R396, R411). `v` holds register n of lane l at
256 l + n, `latches` holds L n of lane l at 5 l + n, `p` holds a mask of lanes for each of p0 to p6. -/
structure Regs where
  v : Cells Word32
  s : Cells Word64
  p : Cells Lanes
  q : BitVec 4
  h : Cells Word64
  a : Cells (BitVec 16)
  latches : Cells Latch
  fpmode : BitVec 2
  fpflags : BitVec 5
  xcause : Word64
  xaddr : Word64
  xpc : Word64
  xstat : Word64
  xvec : Word64
deriving DecidableEq, Repr

/-- Every register 0, every latch INVALID (R116). -/
def Regs.zero : Regs :=
  { v := [], s := [], p := [], q := 0, h := [], a := [], latches := [], fpmode := 0, fpflags := 0,
    xcause := 0, xaddr := 0, xpc := 0, xstat := 0, xvec := 0 }

/-! ### Streamer commands (R253) -/

/-- What a streamer command does (R256, R267, R268). -/
inductive CopyKind where
  | g2s | s2g | g2g | gath | scat
deriving DecidableEq, Repr

/-- A streamer queue entry or a restartable record of one (R253): the probed command with the layout entries it read
(R364), the pieces that have landed and those of them that moved an uncorrectable granule, the bytes landed since it
entered the queue, the pieces counted on its transfer counter, the flags of R265 and, for a copy that has ended early, its
code. `pageWait` says that it waits for a page, `probing` that its restart probe has not passed (R274). -/
structure Copy where
  id : Nat
  pack : Nat
  who : Nat
  wg : Nat
  token : Nat
  kind : CopyKind
  scope : Nat
  entry : BitVec 512
  entry2 : BitVec 512
  coords : List Int
  offset : Nat
  rows : List Int
  join : Option Nat
  counter : Option Nat
  landed : List Nat
  bads : List Nat
  bytes : Nat
  counted : List Nat
  oob : Bool
  unc : Bool
  nanel : Bool
  ended : Option (BitVec 8)
  pageWait : Bool
  probing : Bool
deriving DecidableEq, Repr

/-! ### Groups and parties -/

/-- A PC group that stands inside an instruction (R27): the registers as it read them, what a unit has delivered to it,
the values its k operands acquired (R177), the memory words it read at issue (R312), the streamer command that it has
checked or probed (R262), and the port that issued it (R414). -/
structure Waiting where
  regs : Regs
  port : Nat
  served : Option (List Word64)
  kvals : Cells Word64
  kept : List Word64
  probed : Option Copy
deriving DecidableEq, Repr

/-- A PC group (R24 to R27): lanes of one PC that issue together. `wait` is set while they stand inside the instruction at
that PC, `held` by trap entry (R417). -/
structure Group where
  pc : Word64
  lanes : Lanes
  wait : Option Waiting
  held : Bool
deriving DecidableEq, Repr

/-- The trap frame (R417): the lanes that entered, the address and their latches. -/
structure Frame where
  lanes : Lanes
  xpc : Word64
  latches : Cells Latch
deriving DecidableEq, Repr

/-- A sync record of WSYNC (R141). -/
structure SyncRec where
  mask : Lanes
  arrived : Lanes
deriving DecidableEq, Repr

/-- Where a party stands: its cluster, the SIMT core, quadrant and warp slot of a warp or the hardware thread of a spine
thread in `slot`, and the age and wait count of R30. -/
structure Place where
  cluster : Nat
  core : Nat
  quad : Nat
  slot : Nat
  age : Nat
  waits : Nat
deriving DecidableEq, Repr

/-- How a party stands in its life: running, exited (R41), killed (R40), or detached and on its way to the die it
migrates to (R427). -/
inductive Life where
  | running | exited | killed | migrating (die : Nat)
deriving DecidableEq, Repr

/-- The line that an IFENCE left standing (R222): its address, the copy fetched before, the lanes that still execute it. -/
structure Fenced where
  va : Nat
  line : BitVec 512
  lanes : Lanes
deriving DecidableEq, Repr

/-- Registers that an issued instruction has not delivered yet, and the lanes for which it has not (R25, R441). -/
structure Busy where
  lanes : Lanes
  regs : List Spec
deriving DecidableEq, Repr

/-- A warp or a spine thread (a spine thread has one lane). `forced` marks the lanes whose skip count forces them (R25). `pending` marks s registers that hold a token of an engine
still at work (R253). `tags`, `order`, `err` are the batch-tag counters (R396). `lines` are fetch lines kept by the
party (R222). `replay` are the lanes for which a replayable fault is being served, or 1 on a spine thread (R39). `busy` are the results of loads that have not come
back (R25). `jumped`
holds the lanes whose PC is the target of a taken transfer (R34), `reissue` those of a group that port 0's fault sent back
(R456). -/
structure Party where
  regs : Regs
  groups : List Group
  skip : Cells (BitVec 7)
  forced : Lanes
  yield : Cells (BitVec 4)
  intrap : Bool
  frame : Option Frame
  pending : BitVec 64
  tags : Cells (BitVec 8)
  order : List Nat
  err : BitVec 8
  syncs : List SyncRec
  lines : Cells (BitVec 512)
  place : Place
  life : Life
  detached : Bool
  evicted : Bool
  fenced : Option Fenced
  replay : Lanes
  busy : List Busy
  jumped : Lanes
  reissue : Lanes
deriving DecidableEq, Repr

/-! ### Shared registers (R175) -/

/-- A request to the shared-register unit (R177). -/
inductive KReq where
  | put (v : Word64) (c : BitVec 8)
  | arm (id : Word64) (n rc : BitVec 8) (op : BitVec 3) (ty mode : BitVec 2)
  | red (x : Word64)
  | get
  | peek
deriving DecidableEq, Repr

/-- ST of R176. -/
inductive KState where
  | empty | armed | full
deriving DecidableEq, Repr

/-- An entry of a waiter queue: the waiting PC group and its request. -/
structure KWait where
  who : Nat
  lanes : Lanes
  req : KReq
deriving DecidableEq, Repr

/-- One shared register. -/
structure KReg where
  st : KState
  val : Word64
  cnt : BitVec 8
  aop : BitVec 3
  atype : BitVec 2
  armode : BitVec 2
  rc : BitVec 8
  fx : BitVec 5
  queue : List KWait
deriving DecidableEq, Repr

/-- R175: the reset value. -/
def KReg.zero : KReg :=
  { st := .empty, val := 0, cnt := 0, aop := 0, atype := 0, armode := 0, rc := 0, fx := 0, queue := [] }

/-! ### Workgroups and packs -/

/-- A workgroup's scratchpad (R199, R201): its allocation in bytes, its contents (0 where nothing is listed), the lines
that are EMPTY, the uncorrectable and the correctable 32-byte granules (R209) and the physical units it holds (32 × bank +
unit). -/
structure Spad where
  size : Nat
  bytes : Cells Byte
  emptyLines : List Nat
  bad : List Nat
  corr : List Nat
  units : List Nat
deriving DecidableEq, Repr

/-- The barrier record of a workgroup (R143): the pending mask, and for each warp the lanes that have executed BAR. -/
structure BarRec where
  mask : Option (BitVec 16)
  lanes : Cells Lanes
deriving DecidableEq, Repr

/-- The baton ring of a SIMT core (R277, R294); `waits` are the PC groups that wait in BTAKE. -/
structure Baton where
  holder : Nat
  taken : Bool
  members : List Nat
  waits : List (Nat × Lanes)
deriving DecidableEq, Repr

/-- One LCOPY execution that has not landed (R224): the warp, its tag, its cache hint, its active lanes, and for each of
them in ascending order the physical source, the count of valid bytes and the destination offset. `lapsed` says that the
warp has ended and its count with it. -/
structure LaneCopy where
  who : Nat
  tag : Nat
  hint : BitVec 3
  lanes : Lanes
  moves : List (Nat × Nat × Nat)
  lapsed : Bool
deriving DecidableEq, Repr

/-- A remote deposit in flight (R190, R191): the target, register writes and the arrival counter. -/
structure Deposit where
  target : Nat
  wide : Bool
  dst : Spec
  values : List (Nat × Word64)
  counter : Nat
deriving DecidableEq, Repr

/-- The engine commands of R280. -/
inductive EngOp where
  | mplane | mscale | mepil | mzero
deriving DecidableEq, Repr

/-- An engine command (R277, R279): its issuer, token, target workgroups, the workgroup that holds the B tile, its
operands, next step and exceptions. `discard` says that it ends at its next step boundary (R297). -/
structure EngCmd where
  id : Nat
  pack : Nat
  who : Nat
  token : Nat
  op : EngOp
  bc : Bool
  wgs : List Nat
  home : Nat
  s1 : Word64
  s2 : Word64
  params : BitVec 25
  next : Nat
  fx : BitVec 5
  discard : Bool
  uncorr : Bool
deriving DecidableEq, Repr

/-- A join slot outside FREE (R270). `go` says that its command is to be issued and waits for queue room (R279). -/
structure Join where
  owner : Nat
  n : Nat
  f : Bool
  cmd : Option EngCmd
  go : Bool
deriving DecidableEq, Repr

/-- A sampling heap (R365): its candidates in rank order. -/
structure Heap where
  owner : Nat
  invt : Word32
  m : Word32
  s : Word32
  disc : Bool
  pushed : BitVec 48
  refused : BitVec 16
  cands : List (Word32 × Word32)
deriving DecidableEq, Repr

/-- The states of R35. -/
inductive PackState where
  | waiting | placeable | resident | draining | saved | retired
deriving DecidableEq, Repr

/-- What R457 reserves of one pack that is pre-empted for another: its hardware thread, the slots of its warps (SIMT core,
quadrant, slot, vector registers), its SPAD units, and whether it holds the owner right and uses the task bank (R304). -/
structure Hold where
  victim : Nat
  thread : Nat
  slots : List (Nat × Nat × Nat × Nat)
  units : List Nat
  owner : Bool
  task : Bool
deriving DecidableEq, Repr

/-- A pack (R17, R35). `packet` is the copy of its launch packet (R300); `parties` holds warp w of workgroup g at
16 g + w and the spine thread at 128; the last fields are the image of a pre-empted pack (R424) and the bookkeeping of
R32, R33, R37 and R457: `victimOf` is the pack for which a DRAINING pack is pre-empted, `reserved` the cluster on which
R457 reserves `holds` for this pack. `gone` says that a RETIRED pack holds no hardware thread and no warp slot any more. -/
structure Pack where
  launch : Nat
  num : Nat
  ctx : Nat
  packet : BitVec 1024
  state : PackState
  prio : Nat
  die : Nat
  cluster : Nat
  thread : Nat
  cores : List Nat
  parties : Cells Party
  kregs : Cells KReg
  spads : Cells Spad
  bars : Cells BarRec
  batons : Cells Baton
  lcopies : List LaneCopy
  deposits : List Deposit
  copies : List Copy
  cmds : List EngCmd
  joins : Cells Join
  heaps : Cells Heap
  lines : Nat
  placed : Nat
  savedAt : Nat
  victimOf : Option Nat
  reserved : Option Nat
  holds : List Hold
  gone : Bool
deriving DecidableEq, Repr

/-- A launch whose completion word is not written yet (R299, R306): its context, its packet, the next pack number to create,
the packs not retired, the warps killed; `broken` says that a pack of it retired by E6. -/
structure Launch where
  ctx : Nat
  packet : BitVec 1024
  next : Nat
  left : Nat
  killed : Nat
  broken : Bool
deriving DecidableEq, Repr

/-! ### Clusters and dies -/

/-- Bank modes (R195, R197): `switching m` is shown in BANKMAP as 11 while the bank moves to mode m. -/
inductive BankMode where
  | cache | spad | fifo | switching (mode : BitVec 2)
deriving DecidableEq, Repr

/-- An SRAM bank (R194, R318): its mode, the context a FIFO is bound to and its elements, oldest first. -/
structure Bank where
  mode : BankMode
  bound : Option Nat
  elems : List (BitVec 128)
deriving DecidableEq, Repr

/-- A task record in a queue (R308). -/
structure Task where
  ctx : Nat
  record : BitVec 512
deriving DecidableEq, Repr

/-- A service call in a mailbox ring (R325): its function, argument words and completion word, the state of its
answer. -/
structure SvcCall where
  ctx : Nat
  number : Nat
  fn : BitVec 16
  args : List Word64
  done : Word64
  answer : Option Word64
deriving DecidableEq, Repr

/-- One cluster (R14). `counters` are the numbers of R408, `joins`, `heaps` hold no entry for a FREE one. `arrivals` are
engine commands whose issuers wait for queue room, in order of arrival, with the lanes of each issuer (R279). -/
structure Cluster where
  banks : Cells Bank
  taskBank : Option Nat
  tasks : List Task
  copies : List Copy
  joins : Cells Join
  cmds : List EngCmd
  arrivals : List (EngCmd × Lanes)
  heaps : Cells Heap
  mailbox : List SvcCall
  counters : Cells Word64
  lineCount : Nat
  turn : Nat
  frozen : Bool
deriving DecidableEq, Repr

/-- The reset value of a cluster (R194, R365, R398). -/
def Cluster.zero : Cluster :=
  { banks := [], taskBank := none, tasks := [], copies := [], joins := [], cmds := [], arrivals := [], heaps := [], mailbox := [],
    counters := [], lineCount := 0, turn := 0, frozen := false }

/-- The status of an offline request (R434). -/
inductive OfflineRequest where
  | none | pending | done | failed
deriving DecidableEq, Repr

/-- Die states (R434). -/
inductive DieStatus where
  | online | draining | offline
deriving DecidableEq, Repr

/-- A requester that waits for a page (R328, R431): a warp or spine thread of a pack, a streamer copy, or the
dispatcher or Kelpie. -/
inductive Requester where
  | party (pack who : Nat) (lanes : Lanes)
  | copy (cluster id : Nat)
  | agent
deriving DecidableEq, Repr

/-- A fault-queue entry (R327) with its replay list (R328), and where in memory it stands, 0 for nowhere. -/
structure FaultEntry where
  va : Word64
  lanes : Lanes
  seq : Nat
  merge : Nat
  req : BitVec 16
  ctx : Nat
  acc : BitVec 8
  hint : BitVec 8
  list : List Requester
  place : Nat
deriving DecidableEq, Repr

/-- A kill record (R418) and the pack whose resources it holds until it is written. -/
structure KillRec where
  pack : Nat
  xpc : Word64
  xaddr : Word64
  xcause : Word32
  req : BitVec 16
  ctx : Nat
  flags : BitVec 8
  seq : Nat
deriving DecidableEq, Repr

/-- A registered poster (R299): `share` is the share group of its context when it joined (R320). -/
structure Poster where
  ctx : Nat
  share : Nat
  pack : Nat
  flag : Bool
  iter : BitVec 32
deriving DecidableEq, Repr

/-- A row of a batch (R319) and whether it has been reported. -/
structure Row where
  entry : BitVec 256
  reported : Bool
deriving DecidableEq, Repr

/-- Batch states (R321). -/
inductive BatchState where
  | opened | ready | taken
deriving DecidableEq, Repr

/-- A batch (R299, R320): `group` is 256 × 0 + share group, or 256 + context tag for a private one. -/
structure Batch where
  number : Nat
  group : Nat
  st : BatchState
  rows : List Row
deriving DecidableEq, Repr

/-- A word that Kelpie (R324) or, for a completion bitmap, the dispatcher (R306) still has to write; `orIn` says that it
is combined by OR. -/
structure StatusWrite where
  ctx : Nat
  va : Word64
  word : Word64
  orIn : Bool
deriving DecidableEq, Repr

/-- One compute die (R12). `request` is the status of the last offline request, `cleared` says that an OFFLINE die has been
reset (R434, R455). The fault ring has its base (0 until the firmware gives one), log2 of its entries, its indices, and the
entries between them in `faults` (R299). `spillWait` are records for whose place in the spill list the firmware is asked for
memory, `gained` the clusters whose task queues have gained room since the list filled, in that order (R310). -/
structure Die where
  status : DieStatus
  request : OfflineRequest
  cleared : Bool
  launchCount : Nat
  sliceLog : Nat
  faultSeq : Nat
  faultBase : Nat
  faultLog : Nat
  faultProd : Nat
  faultCons : Nat
  faults : List FaultEntry
  faultWait : List FaultEntry
  killSeq : Nat
  kills : List KillRec
  posters : Cells Poster
  batches : List Batch
  nextBatch : Nat
  threshold : Nat
  statusWrites : List StatusWrite
  spill : List Task
  spillWait : List Task
  gained : List Nat
  svcCount : Nat
  landing : List (Nat × Nat)
  softL2 : Word32
  softDram : Word32
deriving DecidableEq, Repr

/-- The reset value of a die that passed bring-up (R411, R299; log 5). -/
def Die.zero : Die :=
  { status := .online, request := .none, cleared := false, launchCount := 0, sliceLog := 20, faultSeq := 0,
    faultBase := 0, faultLog := 12, faultProd := 0, faultCons := 0, faults := [], faultWait := [], killSeq := 0, kills := [], posters := [], batches := [], nextBatch := 0, threshold := 256, statusWrites := [],
    spill := [], spillWait := [], gained := [], svcCount := 0, landing := [], softL2 := 0, softDram := 0 }

/-! ### Tables of the package -/

/-- States of a group entry (R334). -/
inductive GroupState where
  | free | opened | closing
deriving DecidableEq, Repr

/-- A member record (R330, R335, R337): `lanes` are those of its mask that have executed in the phase that counts,
`waits` the lane masks of the PC groups that wait for it, `since` the first phase in which it is a member (R343). -/
structure Member where
  pack : Nat
  who : Nat
  index : Nat
  since : BitVec 32
  mask : Lanes
  pending : Bool
  lanes : Lanes
  arrived : Bool
  contrib : Option Word64
  waits : List Lanes
deriving DecidableEq, Repr

/-- A group entry (R330). `kind` and `nextKind` are the kinds of R345; `dep` and `fdepNow` the departures during the
phase. -/
structure GroupEntry where
  st : GroupState
  name : Word64
  ctx : Nat
  gen : BitVec 8
  phase : BitVec 32
  kind : Option Nat
  nextKind : Option Nat
  members : List Member
  dep : Nat
  fdepNow : Nat
  lastf : BitVec 8
  fdep : Bool
deriving DecidableEq, Repr

/-- The reset value of a group entry (R330). -/
def GroupEntry.zero : GroupEntry :=
  { st := .free, name := 0, ctx := 0, gen := 0, phase := 0, kind := none, nextKind := none, members := [], dep := 0,
    fdepNow := 0, lastf := 0xFF, fdep := false }

/-- A monitor entry (R350); `overflow` says that it stands in its die's overflow list. -/
structure Monitor where
  pa : Nat
  wide : Bool
  cmp : WaitCmp
  mask : Word64
  exp : Word64
  scope : BitVec 3
  ctx : Nat
  pack : Nat
  who : Nat
  lanes : Lanes
  woken : Bool
  overflow : Bool
deriving DecidableEq, Repr

/-- A TLB entry (R359): `unit` is 1,000 + quadrant for a quadrant TLB, 100 + cluster for a cluster TLB, the socket for a
die TLB; `log` is log2 of its page size. -/
structure TlbEntry where
  unit : Nat
  ctx : Nat
  va : Nat
  log : Nat
  entry : Word64
deriving DecidableEq, Repr

/-- What the package holds for a context tag (R320, R357, R437, R448, R452): `enabled` until its termination. `frozen` are
the reasons for which it is frozen, oldest first. `handles` are those that the context has opened (R325), by
4 × number + kind: 2 files, 3 connections. -/
structure Context where
  enabled : Bool
  root : Nat
  share : Nat
  snap : Bool
  area : Nat
  frozen : List Nat
  handles : List Nat
deriving DecidableEq, Repr

/-- States of a sequence slot (R371). -/
inductive SlotState where
  | free | opened | rebuilding
deriving DecidableEq, Repr

/-- What a request asks of a sequence slot (R377 to R382), with the operands that it was issued with. -/
inductive SlotReq where
  | append (cnt : Nat) (tokens : List Word32)
  | search (k : Nat)
  | length
  | save (va len : Word64)
  | close
deriving DecidableEq, Repr

/-- A request to a Bloodhound unit that waits (R371): its PC group and the generation that its handle names. -/
structure SlotWait where
  pack : Nat
  who : Nat
  lanes : Lanes
  gen : BitVec 8
  req : SlotReq
deriving DecidableEq, Repr

/-- A sequence slot (R365). `rest` holds the SQAPP that evicted: its party and the tokens left (R370). -/
structure Slot where
  st : SlotState
  gen : BitVec 8
  ctx : Nat
  log2c : Nat
  lmin : Nat
  hist : List Word32
  mlenD : Nat
  mlenL : Nat
  queue : List SlotWait
  rest : Option (SlotWait × List Word32)
  bad : Bool
deriving DecidableEq, Repr

/-- The reset value of a slot (R365). -/
def Slot.zero : Slot :=
  { st := .free, gen := 0, ctx := 0, log2c := 0, lmin := 0, hist := [], mlenD := 0, mlenL := 0, queue := [],
    rest := none, bad := false }

/-- The check bits of one copy of a line (R194, R209): its uncorrectable and its correctable 32-byte granules. -/
structure Checks where
  unc : BitVec 4
  corr : BitVec 4
deriving DecidableEq, Repr
/-- A copy without an error. -/
def Checks.zero : Checks := { unc := 0, corr := 0 }

/-- A line in the L1 of a cluster (R194, R202): the bank that is its way, its check bits, and its place among the victims of
its set (R205): 0 the next one, 1 any, 2 retained ahead of the others. -/
structure L1Line where
  way : Nat
  chk : Checks
  rank : Nat
deriving DecidableEq, Repr

/-- A line of device memory or of a host window that some cache holds (R194, R202, R204): the cluster that holds it in E, M
or O, whether that state is O, whether that copy is dirty, the clusters that share it, the L1 copies by cluster, whether
the home slice holds it and differs from DRAM, the check bits of the slice's copy, and whether the slice retains it ahead of
other lines (R205). -/
structure Line where
  owner : Option Nat
  owned : Bool
  dirty : Bool
  sharers : BitVec 96
  copies : Cells L1Line
  inL2 : Bool
  l2Dirty : Bool
  l2 : Checks
  l2Keep : Bool
deriving DecidableEq, Repr

/-- A line no cache holds. -/
def Line.zero : Line :=
  { owner := none, owned := false, dirty := false, sharers := 0, copies := [], inL2 := false, l2Dirty := false,
    l2 := Checks.zero, l2Keep := false }

/-- A power loan (R451) between holders: compute dies 0 to 7, Woad dies 8 and 9, Umber 10, the pool 11; `recalled` units
of it have been recalled. -/
structure Loan where
  lender : Nat
  borrower : Nat
  units : Nat
  recalled : Nat
deriving DecidableEq, Repr

/-- How far a page has come on its way to host ownership (R208): its translations are gone; the accesses under way are
complete; its dirty lines are written back; the host owns it. -/
inductive FlipStage where
  | invalidated | quiet | written | transferred
deriving DecidableEq, Repr
/-- A page on its way to host ownership: its frame, the table entry named by the firmware and what it becomes. -/
structure Flip where
  pa : Nat
  log : Nat
  place : Nat
  entry : Word64
  stage : FlipStage
deriving DecidableEq, Repr

/-- A host port (R2, R455): silent before bring-up has come so far, with the one logical device of recovery mode, or with its
logical devices exposed to the fabric. -/
inductive Port where
  | silent | recovery | exposed
deriving DecidableEq, Repr

/-! ### The package -/

/-- What moves next: the issue of a party, a waiting PC group that leaves its instruction, an event of the opcode table, an
L1 line that its cluster evicts (R204), an L2 line that its slice evicts, the next step of a page on its way to host
ownership (R208), a result that a load delivers (R25), or what happens around the part. -/
inductive Action where
  | issue (pack who : Nat)
  | wake (pack who : Nat) (lanes : Lanes)
  | event (i : Instr)
  | evict (cluster line : Nat)
  | evictL2 (line : Nat)
  | flip (pa : Nat)
  | deliver (pack who : Nat) (b : Busy)
  | outer (x : Outer)
deriving DecidableEq, Repr

/-- The issue under way: its party, the lanes of the PC group, the instruction address, the port, the registers as the
group reads them, the lanes that execute (once the guard is read), the results delivered while it waited, and whether it
stood inside the instruction already. -/
structure Cur where
  pack : Nat
  who : Nat
  lanes : Lanes
  pc : Word64
  port : Nat
  regs : Regs
  active : Lanes
  served : Option (List Word64)
  kvals : Cells Word64
  again : Bool
deriving DecidableEq, Repr

/-- What port 1 does in the issue whose port 0 has just executed: another PC group with the registers it reads (R118),
or the second slot of a pair, which reads what the first wrote (R84). -/
structure PortOne where
  pack : Nat
  who : Nat
  lanes : Lanes
  pc : Word64
  regs : Option Regs
deriving DecidableEq, Repr

/-- The state of the package. `passed` are the actions that could move when others did, with how often (R38, log 2). -/
structure State where
  mem : List Host.Cell
  stale : Cells Byte
  unc : List Nat
  corr : List Nat
  lines : Cells Line
  icache : Cells (BitVec 512)
  linePar : List Nat
  windows : Cells Window
  grants : List Grant
  flips : List Flip
  ports : List Port
  images : List (BitVec 384)
  version : Nat
  tlb : List TlbEntry
  ctxs : Cells Context
  layout : Cells (BitVec 512)
  groups : Cells GroupEntry
  monitors : List Monitor
  slots : Cells Slot
  trigger : Word64
  triggered : Bool
  launches : Cells Launch
  packs : Cells Pack
  dies : Cells Die
  clusters : Cells Cluster
  lostDies : List Nat
  held : List Nat
  loans : List Loan
  linkDown : BitVec 12
  linkFrozen : BitVec 12
  msix : List (Nat × Nat)
  report : Option Report
  nextPack : Nat
  nextId : Nat
  agenda : List Action
  cur : Option Cur
  port1 : Option PortOne
  choices : Nat
  passed : List (Action × Nat)
deriving DecidableEq, Repr

/-- The base allocations of R451. -/
def baseUnits : List Nat := [245, 245, 245, 245, 245, 245, 245, 245, 45, 45, 60, 90]

/-- The package right after bring-up (R455): every die ONLINE, every table empty, DRAM cleared. -/
def State.reset : State :=
  { mem := [], stale := [], unc := [], corr := [], lines := [], icache := [], linePar := [], windows := [],
    grants := [], flips := [], ports := List.replicate 4 .exposed, images := [], version := 0, tlb := [], ctxs := [],
    layout := [], groups := [], monitors := [], slots := [], trigger := 0, triggered := false,
    launches := [], packs := [], dies := [], clusters := [], lostDies := [], held := baseUnits, loans := [],
    linkDown := 0, linkFrozen := 0, msix := [], report := none, nextPack := 1, nextId := 1, agenda := [], cur := none,
    port1 := none, choices := 0, passed := [] }

/-- Why a step stops. -/
inductive Fault where
  /-- Raised by the meaning of an instruction when no party issues it (`State.cur` names none, or one that does not
  exist): the manual gives an instruction an effect only for a party that issues it. Safe. -/
  | noIssuer
  /-- Raised by the meaning of an event whose unit holds nothing for it to act on: such an event cannot occur in that
  state. Safe. -/
  | notEnabled
deriving DecidableEq, Repr

/-- Why a step has no meaning. -/
inductive Refusal where
  /-- Raised by an arm of `exec` for an instruction that has no meaning yet. Safe. -/
  | notModelled (mnemonic : String)
deriving DecidableEq, Repr

end Sys2Proof.Machine
end

