-- ==== Sys2Proof/Machine/Base.lean ====
section
/-! DEFINITION. The plainest operations over the state: sparse tables, bytes, lanes, registers, the fields of a launch
packet, packs, parties, clusters and dies. -/

namespace Sys2Proof.Machine

/-! ### Sparse tables -/

/-- What a table holds for a key. -/
def cget {α : Type} : Cells α → Nat → Option α
  | [], _ => none
  | (k', v) :: r, k => if k' = k then some v else cget r k

/-- A table with an entry set, keys kept in rising order. -/
def cset {α : Type} : Cells α → Nat → α → Cells α
  | [], k, v => [(k, v)]
  | (k', v') :: r, k, v =>
    if k' = k then (k, v) :: r
    else if k < k' then (k, v) :: (k', v') :: r
    else (k', v') :: cset r k v

/-- A table without the entry of a key. -/
def cdel {α : Type} (c : Cells α) (k : Nat) : Cells α := c.filter fun e => e.1 != k

/-- Reading with a default, and writing so that no entry equals the default. -/
def rd {α : Type} (d : α) (c : Cells α) (k : Nat) : α := (cget c k).getD d
def wr {α : Type} [DecidableEq α] (d : α) (c : Cells α) (k : Nat) (v : α) : Cells α :=
  if v = d then cdel c k else cset c k v

/-- Keys rise strictly. -/
def risingFrom {α : Type} (lo : Nat) : Cells α → Bool
  | [] => true
  | (k, _) :: r => lo ≤ k && risingFrom (k + 1) r
/-- The canonical form of a table with a default. -/
def canonical {α : Type} [DecidableEq α] (d : α) (c : Cells α) : Bool :=
  risingFrom 0 c && c.all fun e => decide (e.2 ≠ d)

/-! ### Bytes and lanes -/

/-- The `n` bytes of a number, lowest first (R4). -/
def bytesOf (n v : Nat) : List Byte := (List.range n).map fun i => BitVec.ofNat 8 (v >>> (8 * i))
/-- The number whose bytes these are, lowest first (R4). -/
def ofBytes : List Byte → Nat
  | [] => 0
  | b :: r => b.toNat + 256 * ofBytes r

/-- The lanes of a mask in ascending order. -/
def lanesOf (m : Lanes) : List Nat := (List.range 64).filter fun l => m.getLsbD l
/-- The mask of one lane, and of a list of lanes. -/
def laneBit (l : Nat) : Lanes := BitVec.twoPow 64 l
def maskOf (ls : List Nat) : Lanes := ls.foldl (fun m l => m ||| laneBit l) 0
/-- The lowest lane of a mask. -/
def lowLane (m : Lanes) : Nat := ((lanesOf m).head?).getD 0
/-- How many lanes a mask has. -/
def popLanes (m : Lanes) : Nat := (lanesOf m).length

def u64 (n : Nat) : Word64 := BitVec.ofNat 64 n

/-! ### Registers -/

def Regs.readV (r : Regs) (lane n : Nat) : Word32 := rd 0 r.v (256 * lane + n % 256)
def Regs.writeV (r : Regs) (lane n : Nat) (x : Word32) : Regs := { r with v := wr 0 r.v (256 * lane + n % 256) x }
/-- R63, R117: an even pair, low half in the even register. -/
def Regs.readV64 (r : Regs) (lane n : Nat) : Word64 := r.readV lane (n + 1) ++ r.readV lane n
def Regs.writeV64 (r : Regs) (lane n : Nat) (x : Word64) : Regs :=
  (r.writeV lane n (x.setWidth 32)).writeV lane (n + 1) (x.extractLsb' 32 32)
def Regs.readS (r : Regs) (n : Nat) : Word64 := rd 0 r.s (n % 64)
def Regs.writeS (r : Regs) (n : Nat) (x : Word64) : Regs := { r with s := wr 0 r.s (n % 64) x }
def Regs.readH (r : Regs) (n : Nat) : Word64 := rd 0 r.h (n % 8)
def Regs.writeH (r : Regs) (n : Nat) (x : Word64) : Regs := { r with h := wr 0 r.h (n % 8) x }
def Regs.readA (r : Regs) (n : Nat) : BitVec 16 := rd 0 r.a (n % 8)
def Regs.writeA (r : Regs) (n : Nat) (x : BitVec 16) : Regs := { r with a := wr 0 r.a (n % 8) x }
/-- p7 reads 1 (R116, R121). -/
def Regs.readP (r : Regs) (lane n : Nat) : Bool := if n % 8 = 7 then true else (rd 0 r.p (n % 8)).getLsbD lane
/-- Writes to p7 are discarded (R116, R121). -/
def Regs.writeP (r : Regs) (lane n : Nat) (b : Bool) : Regs :=
  if n % 8 = 7 then r
  else
    let m := rd 0 r.p (n % 8)
    { r with p := wr 0 r.p (n % 8) (if b then m ||| laneBit lane else m &&& ~~~(laneBit lane)) }
def Regs.readQ (r : Regs) (n : Nat) : Bool := r.q.getLsbD (n % 4)
def Regs.writeQ (r : Regs) (n : Nat) (b : Bool) : Regs :=
  let m := BitVec.twoPow 4 (n % 4)
  { r with q := if b then r.q ||| m else r.q &&& ~~~m }
def Regs.readL (r : Regs) (lane i : Nat) : Latch := rd .invalid r.latches (5 * lane + i % 5)
def Regs.writeL (r : Regs) (lane i : Nat) (x : Latch) : Regs :=
  { r with latches := wr .invalid r.latches (5 * lane + i % 5) x }
/-- R73: all five latches of the lanes of a mask become INVALID. -/
def Regs.clearL (r : Regs) (m : Lanes) : Regs :=
  { r with latches := r.latches.filter fun e => !(m.getLsbD (e.1 / 5)) }

/-! ### Parties and groups -/

/-- The live lanes of a party (R24). -/
def Party.live (p : Party) : Lanes := p.groups.foldl (fun m g => m ||| g.lanes) 0
def Party.running (p : Party) : Bool := p.life == .running && p.live != 0

/-- The PC of a live lane (R116). -/
def Party.pcOf (p : Party) (lane : Nat) : Word64 :=
  ((p.groups.find? fun g => g.lanes.getLsbD lane).map (·.pc)).getD 0

/-- The number of a spine thread's party. -/
def spineWho : Nat := 128

def State.pack (s : State) (u : Nat) : Option Pack := cget s.packs u
def State.setPack (s : State) (u : Nat) (p : Pack) : State := { s with packs := cset s.packs u p }
def State.modPack (s : State) (u : Nat) (f : Pack → Pack) : State :=
  match cget s.packs u with
  | none => s
  | some p => s.setPack u (f p)
def State.party (s : State) (u w : Nat) : Option Party := (cget s.packs u).bind fun p => cget p.parties w
def State.setParty (s : State) (u w : Nat) (x : Party) : State :=
  s.modPack u fun p => { p with parties := cset p.parties w x }
def State.modParty (s : State) (u w : Nat) (f : Party → Party) : State :=
  match s.party u w with
  | none => s
  | some x => s.setParty u w (f x)
def State.modRegs (s : State) (u w : Nat) (f : Regs → Regs) : State :=
  s.modParty u w fun x => { x with regs := f x.regs }

def State.cluster (s : State) (c : Nat) : Cluster := rd Cluster.zero s.clusters c
def State.setCluster (s : State) (c : Nat) (x : Cluster) : State := { s with clusters := wr Cluster.zero s.clusters c x }
def State.modCluster (s : State) (c : Nat) (f : Cluster → Cluster) : State := s.setCluster c (f (s.cluster c))
def State.die (s : State) (d : Nat) : Die := rd Die.zero s.dies d
def State.setDie (s : State) (d : Nat) (x : Die) : State := { s with dies := wr Die.zero s.dies d x }
def State.modDie (s : State) (d : Nat) (f : Die → Die) : State := s.setDie d (f (s.die d))

/-- A fresh number for a streamer or engine command, and for ages and orders of arrival. -/
def State.fresh (s : State) : Nat × State := (s.nextId, { s with nextId := s.nextId + 1 })

def dieOf (cluster : Nat) : Nat := cluster / 12

/-- Counter n of R408 of a cluster rises by k. -/
def Cluster.count (c : Cluster) (n k : Nat) : Cluster :=
  { c with counters := wr 0 c.counters n (rd 0 c.counters n + u64 k) }
def State.count (s : State) (cluster n k : Nat) : State := s.modCluster cluster fun c => c.count n k

/-! ### The launch packet (R300, R301) -/

/-- `bits` bits at bit `lo` of the word at byte `off` of a packet. -/
def field (p : BitVec 1024) (off lo bits : Nat) : Nat := (p.extractLsb' (8 * off + lo) bits).toNat

def pkSpine (p : BitVec 1024) : Word64 := p.extractLsb' 0 64
def pkWarp (p : BitVec 1024) : Word64 := p.extractLsb' 64 64
def pkPrio (p : BitVec 1024) : Nat := field p 0x10 28 2
def pkOwner (p : BitVec 1024) : Bool := field p 0x10 27 1 == 1
def pkBaton (p : BitVec 1024) : Bool := field p 0x10 26 1 == 1
def pkPwarp (p : BitVec 1024) : Nat := field p 0x10 22 4
def pkProdw (p : BitVec 1024) : Bool := field p 0x10 21 1 == 1
def pkSpadu (p : BitVec 1024) : Nat := field p 0x10 11 10
/-- Vector registers of every warp (R16). -/
def pkVregs (p : BitVec 1024) : Nat := 16 * (field p 0x10 7 4 + 1)
/-- Warps of a workgroup and workgroups of a pack. -/
def pkWarps (p : BitVec 1024) : Nat := field p 0x10 3 4 + 1
def pkGroups (p : BitVec 1024) : Nat := field p 0x10 0 3 + 1
/-- w0 to w5 (R21, R301). -/
def pkWidths (p : BitVec 1024) : List Nat :=
  [6, field p 0x14 0 3, field p 0x14 3 2, field p 0x14 5 7, field p 0x14 12 7, field p 0x14 19 7]
def pkFifomask (p : BitVec 1024) : Nat := field p 0x18 0 32
def pkTqbank (p : BitVec 1024) : Nat := field p 0x1C 21 5
def pkTaskp (p : BitVec 1024) : Bool := field p 0x1C 20 1 == 1
def pkDiemask (p : BitVec 1024) : Nat := field p 0x1C 12 8
def pkWin (p : BitVec 1024) : Nat := field p 0x1C 4 8
def pkMap (p : BitVec 1024) : Nat := field p 0x1C 1 3
def pkHostw (p : BitVec 1024) : Bool := field p 0x1C 0 1 == 1
def pkExt (p : BitVec 1024) (i : Nat) : Nat := field p (0x20 + 4 * i) 0 32
def pkHandle (p : BitVec 1024) : Nat := field p 0x2C 0 32
def pkXvec (p : BitVec 1024) : Word64 := p.extractLsb' (8 * 0x30) 64
def pkDone (p : BitVec 1024) : Word64 := p.extractLsb' (8 * 0x38) 64
def pkBmap (p : BitVec 1024) : Word64 := p.extractLsb' (8 * 0x40) 64
def pkPbmap (p : BitVec 1024) : Word64 := p.extractLsb' (8 * 0x48) 64
def pkPe3 (p : BitVec 1024) : Nat := field p 0x50 0 32
def pkPn (p : BitVec 1024) : Nat := field p 0x54 0 32
def pkSinit (p : BitVec 1024) (i : Nat) : Word64 := p.extractLsb' (8 * 0x58 + 64 * i) 64

/-- The pack coordinates f3, f4 and f5 of pack i (R302). -/
def coordOf (p : BitVec 1024) (i : Nat) : Nat × Nat × Nat :=
  (i % pkExt p 0, i / pkExt p 0 % pkExt p 1, i / (pkExt p 0 * pkExt p 1))

/-- The fields f0 to f5 of a work identifier (R21 to R23). -/
def workFields (p : Pack) (who lane : Nat) : List Nat :=
  let c := coordOf p.packet p.num
  if who = spineWho then [0, 0, 0, c.1, c.2.1, c.2.2] else [lane, who % 16, who / 16, c.1, c.2.1, c.2.2]

/-- A work identifier: its fields side by side from bit 0 upward (R21). -/
def packFields : List (Nat × Nat) → Nat
  | [] => 0
  | (w, f) :: r => f % 2 ^ w + 2 ^ w * packFields r
def workId (p : Pack) (who lane : Nat) : Word64 :=
  u64 (packFields ((pkWidths p.packet).zip (workFields p who lane)))

/-! ### Banks -/

/-- R194: banks 0 to 7 CACHE, the others SPAD. -/
def bankReset (b : Nat) : Bank := { mode := if b < 8 then .cache else .spad, bound := none, elems := [] }
def Cluster.bank (c : Cluster) (b : Nat) : Bank := rd (bankReset b) c.banks b
def Cluster.setBank (c : Cluster) (b : Nat) (x : Bank) : Cluster := { c with banks := wr (bankReset b) c.banks b x }
/-- The BANKMAP code of a mode (R119). -/
def BankMode.code : BankMode → Nat
  | .cache => 0 | .spad => 1 | .fifo => 2 | .switching _ => 3
/-- BANKMAP (R119). -/
def bankMap (c : Cluster) : Word64 :=
  u64 ((List.range 32).foldl (fun n b => n + (c.bank b).mode.code * 4 ^ b) 0)

/-! ### Where a party stands -/

/-- REQ of a warp or spine thread (R327). -/
def reqOf (pl : Place) (spine : Bool) : BitVec 16 :=
  let c := pl.cluster % 12
  let d := pl.cluster / 12
  if spine then BitVec.ofNat 16 (pl.slot * 2048 + c * 8 + d)
  else BitVec.ofNat 16 (pl.slot * 2048 + pl.quad * 512 + pl.core * 128 + c * 8 + d)

/-- OP of an engine command (R278). -/
def EngOp.code : EngOp → Nat
  | .mplane => 0xB8 | .mscale => 0xB9 | .mepil => 0xBA | .mzero => 0xBB

end Sys2Proof.Machine
end

