-- ==== Sys2Proof/Machine/Float.lean ====
section
/-! DEFINITION. Floating-point arithmetic (spec/03, R95 to R104): values, exact operations, the one rounding, and
enclosures of the correctly rounded functions. A number is a sign, a magnitude m × 2^e and a mark that says that the
magnitude lies strictly between m and m + 1 units of 2^e. -/

namespace Sys2Proof.Machine

/-- R95: exponent and fraction bits. -/
structure Fmt where
  ew : Nat
  fw : Nat
deriving DecidableEq, Repr

def fp64 : Fmt := ⟨11, 52⟩
def fp32 : Fmt := ⟨8, 23⟩
def fp16 : Fmt := ⟨5, 10⟩
def bf16 : Fmt := ⟨8, 7⟩

def Fmt.bias (f : Fmt) : Nat := 2 ^ (f.ew - 1) - 1
def Fmt.emin (f : Fmt) : Int := 1 - (f.bias : Int)
def Fmt.infBits (f : Fmt) : Nat := (2 ^ f.ew - 1) * 2 ^ f.fw
def Fmt.maxBits (f : Fmt) : Nat := f.infBits - 1
def Fmt.nanBits (f : Fmt) : Nat := f.infBits + 2 ^ (f.fw - 1)
def Fmt.signBit (f : Fmt) : Nat := 2 ^ (f.ew + f.fw)
def Fmt.bits (f : Fmt) : Nat := f.ew + f.fw + 1
def Fmt.signed (f : Fmt) (neg : Bool) (mag : Nat) : Nat := if neg then f.signBit + mag else mag

end Sys2Proof.Machine
namespace Sys2Proof
open Machine

/-- The format of a floating-point type (R95, R96). -/
def Ty.fmt : Ty → Fmt
  | .f64 => fp64 | .f16x2 => fp16 | .bf16x2 => bf16
  | .f32 | .i32 | .u32 | .i64 | .u64 | .i16x2 | .i8x4 => fp32

end Sys2Proof
namespace Sys2Proof.Machine

/-- Flag bits in the order of FPFLAGS (R146). -/
abbrev Flags := BitVec 5
def fNV : Flags := 1
def fDZ : Flags := 2
def fOF : Flags := 4
def fUF : Flags := 8
def fNX : Flags := 16

/-- Rounding modes (R99, R100). -/
inductive Mode where
  | rne | rtz | rup | rdn | stoch (u : Nat)
deriving DecidableEq, Repr

/-- The codes of FPMODE (R145). -/
def Mode.ofCode (c : BitVec 2) : Mode :=
  match c.toNat with
  | 0 => .rne | 1 => .rtz | 2 => .rup | _ => .rdn

/-- An operand. -/
inductive Num where
  | nan (signalling : Bool) | inf (neg : Bool) | fin (neg : Bool) (m : Nat) (e : Int)
deriving DecidableEq, Repr

/-- What an operation gives before its rounding, with the flags it raises itself. -/
inductive Val where
  | nan (fl : Flags) | inf (neg : Bool) (fl : Flags) | real (neg : Bool) (m : Nat) (e : Int) (sticky : Bool) (fl : Flags)
deriving DecidableEq, Repr

/-- R95: the value of an encoding. -/
def numOf (f : Fmt) (x : Nat) : Num :=
  let neg := x / f.signBit % 2 == 1
  let ex := x / 2 ^ f.fw % 2 ^ f.ew
  let fr := x % 2 ^ f.fw
  if ex = 2 ^ f.ew - 1 then
    if fr = 0 then .inf neg else .nan (fr < 2 ^ (f.fw - 1))
  else if ex = 0 then .fin neg fr (f.emin - f.fw)
  else .fin neg (2 ^ f.fw + fr) ((ex : Int) - f.bias - f.fw)

def Num.isNan : Num → Bool
  | .nan _ => true | .inf _ | .fin _ _ _ => false
def Num.isSig : Num → Bool
  | .nan s => s | .inf _ | .fin _ _ _ => false
def Num.isZero : Num → Bool
  | .fin _ m _ => m == 0 | .nan _ | .inf _ => false
def Num.neg : Num → Bool
  | .nan _ => false | .inf n => n | .fin n _ _ => n
/-- R97: a signalling NaN raises invalid. -/
def sigFlags (l : List Num) : Flags := if l.any Num.isSig then fNV else 0
def Num.val : Num → Val
  | .nan s => .nan (if s then fNV else 0) | .inf n => .inf n 0 | .fin n m e => .real n m e false 0

def Val.addFlags (fl : Flags) : Val → Val
  | .nan g => .nan (fl ||| g) | .inf n g => .inf n (fl ||| g) | .real n m e s g => .real n m e s (fl ||| g)

/-! ### Rounding (R99 to R101) -/

def bitLen (n : Nat) : Nat := if n = 0 then 0 else n.log2 + 1

/-- Whether rounding at 2^k units goes away from zero, for a magnitude `m` with its mark; `a` is the part kept. -/
def roundUp (mode : Mode) (neg : Bool) (a rem k : Nat) (sticky : Bool) : Bool :=
  let inexact := rem != 0 || sticky
  match mode with
  | .rne =>
    let half := 2 ^ (k - 1)
    k != 0 && (rem > half || (rem == half && (sticky || a % 2 == 1)))
  | .rtz => false
  | .rup => inexact && !neg
  | .rdn => inexact && neg
  | .stoch u => inexact && u < rem * 2 ^ 32 / 2 ^ k

/-- The magnitude m × 2^e rounded to a multiple of 2^q: the multiple and whether it is inexact. -/
def roundAt (mode : Mode) (neg : Bool) (m : Nat) (e q : Int) (sticky : Bool) : Nat × Bool :=
  if q ≤ e then (m * 2 ^ (e - q).toNat, sticky)
  else
    let k := (q - e).toNat
    let a := m / 2 ^ k
    let rem := m % 2 ^ k
    (if roundUp mode neg a rem k sticky then a + 1 else a, rem != 0 || sticky)

/-- R99, R101: a nonzero magnitude rounded to a format, with its flags. -/
def roundReal (f : Fmt) (mode : Mode) (neg : Bool) (m : Nat) (e : Int) (sticky : Bool) : Nat × Flags :=
  let top := (bitLen m : Int) - 1 + e
  let q := max top f.emin - f.fw
  let r := roundAt mode neg m e q sticky
  let mag := ((q + f.fw + f.bias - 1) * 2 ^ f.fw).toNat + r.1
  let tiny := decide (top < f.emin - 1) ||
    (decide (top = f.emin - 1) && (roundAt mode neg m e (top - f.fw) sticky).1 < 2 ^ (f.fw + 1))
  if mag ≥ f.infBits then
    let inf := match mode with
      | .rne | .stoch _ => true | .rtz => false | .rup => !neg | .rdn => neg
    (f.signed neg (if inf then f.infBits else f.maxBits), fOF ||| fNX)
  else (f.signed neg mag, (if r.2 then fNX else 0) ||| (if r.2 && tiny then fUF else 0))

/-- R70: CLAMP 01 and 10 on a delivered value. -/
def clampBits (f : Fmt) (clamp : Nat) (x : Nat) : Nat :=
  if clamp = 0 then x
  else
    let one := f.bias * 2 ^ f.fw
    let neg := x / f.signBit % 2 == 1
    let mag := x % f.signBit
    if mag > f.infBits then 0
    else if neg then
      if clamp = 1 then (if mag = 0 then x else 0) else if mag > one then f.signBit + one else x
    else if mag > one then one else x

/-- R149: SCL, one rounding, CLAMP. -/
def deliver (f : Fmt) (mode : Mode) (scl : Int) (clamp : Nat) (v : Val) : Nat × Flags :=
  let r : Nat × Flags := match v with
    | .nan fl => (f.nanBits, fl)
    | .inf n fl => (f.signed n f.infBits, fl)
    | .real n m e s fl =>
      if m = 0 && !s then (f.signed n 0, fl)
      else
        let r := roundReal f mode n (max m 1) (e + scl) s
        (r.1, r.2 ||| fl)
  (clampBits f clamp r.1, r.2)

/-! ### Exact operations (R98, R150 to R152) -/

/-- Magnitude with a sign as an integer number of 2^lo. -/
def toInt (neg : Bool) (m : Nat) (e lo : Int) : Int :=
  let x : Int := m * 2 ^ (e - lo).toNat
  if neg then -x else x

/-- R98: the exact sum of finite terms; an exact zero takes the common sign of the terms, or the sign of the mode. -/
def sumFin (mode : Mode) (l : List (Bool × Nat × Int)) : Val :=
  let lo := l.foldl (fun a t => min a t.2.2) 0
  let x := l.foldl (fun a t => a + toInt t.1 t.2.1 t.2.2 lo) 0
  if x = 0 then
    if l.all (fun t => t.2.1 == 0 && t.1) then .real true 0 0 false 0
    else if l.all (fun t => t.2.1 == 0 && !t.1) then .real false 0 0 false 0
    else .real (mode == .rdn) 0 0 false 0
  else .real (decide (x < 0)) x.natAbs lo false 0

/-- A sum of terms, where infinities of both signs are invalid (R151, R159). -/
def sumNum (mode : Mode) (l : List Num) : Val :=
  if l.any Num.isNan then .nan (sigFlags l)
  else
    let pos := l.any fun x => x == .inf false
    let neg := l.any fun x => x == .inf true
    if pos && neg then .nan fNV
    else if pos then .inf false 0
    else if neg then .inf true 0
    else sumFin mode (l.map fun x => match x with
      | .fin n m e => (n, m, e) | .nan _ | .inf _ => (false, 0, 0))

def Num.flip : Num → Num
  | .nan s => .nan s | .inf n => .inf (!n) | .fin n m e => .fin (!n) m e

def addV (mode : Mode) (a b : Num) : Val := sumNum mode [a, b]
def subV (mode : Mode) (a b : Num) : Val := sumNum mode [a, b.flip]

/-- Whether a product is 0 × ∞. -/
def badProduct (a b : Num) : Bool :=
  match a, b with
  | .inf _, .fin _ m _ => m == 0
  | .fin _ m _, .inf _ => m == 0
  | .inf _, .inf _ | .inf _, .nan _ | .fin _ _ _, .fin _ _ _ | .fin _ _ _, .nan _ | .nan _, _ => false

/-- The exact product, which is an operand of no format. -/
def mulNum (a b : Num) : Num :=
  match a, b with
  | .nan s, .nan t => .nan (s || t)
  | .nan s, .inf _ | .nan s, .fin _ _ _ => .nan s
  | .inf _, .nan s | .fin _ _ _, .nan s => .nan s
  | .inf n, .inf n' => .inf (n != n')
  | .inf n, .fin n' m _ => if m = 0 then .nan false else .inf (n != n')
  | .fin n m _, .inf n' => if m = 0 then .nan false else .inf (n != n')
  | .fin n m e, .fin n' m' e' => .fin (n != n') (m * m') (e + e')

def mulV (a b : Num) : Val := if badProduct a b then .nan fNV else (mulNum a b).val

/-- R151: 0 × ∞ is invalid even when the addend is a quiet NaN. -/
def fmaV (mode : Mode) (a b c : Num) : Val :=
  if badProduct a b then .nan fNV
  else (sumNum mode [mulNum a b, c]).addFlags (sigFlags [a, b, c])

/-- R159: two products and an addend. -/
def dot2V (mode : Mode) (a0 b0 a1 b1 c : Num) : Val :=
  let p := mulNum a0 b0
  let q := mulNum a1 b1
  let bad := badProduct a0 b0 || badProduct a1 b1
  let infs := [p, q, c].any (fun x => x == .inf false) && [p, q, c].any (fun x => x == .inf true)
  if bad || infs then .nan fNV else (sumNum mode [p, q, c]).addFlags (sigFlags [a0, b0, a1, b1, c])

/-- An order of numbers in which −0 is below +0 (R152); NaN does not occur. -/
def numLt (a b : Num) : Bool :=
  match a, b with
  | .inf n, .inf n' => n && !n'
  | .inf n, .fin _ _ _ => n
  | .fin _ _ _, .inf n => !n
  | .fin n m e, .fin n' m' e' =>
    let lo := min e e'
    let x := toInt n m e lo
    let y := toInt n' m' e' lo
    if x = y then n && !n' else decide (x < y)
  | .nan _, _ | .inf _, .nan _ | .fin _ _ _, .nan _ => false

/-- Equality of values, −0 equal to +0. -/
def numEq (a b : Num) : Bool := !a.isNan && !b.isNan && ((a.isZero && b.isZero) || (!numLt a b && !numLt b a))
def numLess (a b : Num) : Bool := !a.isNan && !b.isNan && numLt a b && !(a.isZero && b.isZero)

/-- FMIN and FMAX on encodings (R152). -/
def minMax (f : Fmt) (maximum : Bool) (x y : Nat) : Nat × Flags :=
  let a := numOf f x
  let b := numOf f y
  let fl := sigFlags [a, b]
  if a.isNan && b.isNan then (f.nanBits, fl)
  else if a.isNan then (y, fl)
  else if b.isNan then (x, fl)
  else (if numLt a b == maximum then y else x, fl)

/-! ### Division and roots (R103, R104) -/

def divV (a b : Num) : Val :=
  match a, b with
  | .nan _, _ | .inf _, .nan _ | .fin _ _ _, .nan _ => .nan (sigFlags [a, b])
  | .inf _, .inf _ => .nan fNV
  | .inf n, .fin n' _ _ => .inf (n != n') 0
  | .fin n _ _, .inf n' => .real (n != n') 0 0 false 0
  | .fin n m e, .fin n' m' e' =>
    if m = 0 && m' = 0 then .nan fNV
    else if m' = 0 then .inf (n != n') fDZ
    else if m = 0 then .real (n != n') 0 0 false 0
    else
      let k := 140 + bitLen m'
      let x := m * 2 ^ k
      .real (n != n') (x / m') (e - e' - k) (x % m' != 0) 0

/-- The integer square root, from the top bit down; `i` bits remain to decide. -/
def isqrtGo (n : Nat) : Nat → Nat → Nat
  | 0, r => r
  | i + 1, r =>
    let r' := r + 2 ^ i
    isqrtGo n i (if r' * r' ≤ n then r' else r)
def isqrt (n : Nat) : Nat := isqrtGo n (bitLen n / 2 + 1) 0

def sqrtV (a : Num) : Val :=
  match a with
  | .nan _ => .nan (sigFlags [a])
  | .inf n => if n then .nan fNV else .inf false 0
  | .fin n m e =>
    if m = 0 then .real n 0 0 false 0
    else if n then .nan fNV
    else
      let e' := if e % 2 = 0 then e else e - 1
      let m' := (if e % 2 = 0 then m else 2 * m) * 2 ^ 280
      let r := isqrt m'
      .real false r (e' / 2 - 140) (r * r != m') 0

def rsqV (a : Num) : Val :=
  match a with
  | .nan _ => .nan (sigFlags [a])
  | .inf n => if n then .nan fNV else .real false 0 0 false 0
  | .fin n m e =>
    if m = 0 then .inf n fDZ
    else if n then .nan fNV
    else
      let e' := if e % 2 = 0 then e else e - 1
      let m' := if e % 2 = 0 then m else 2 * m
      let k := 140 + bitLen m'
      let r := isqrt (2 ^ (2 * k) / m')
      .real false r (-(e' / 2) - k) (r * r * m' != 2 ^ (2 * k)) 0

/-! ### Enclosures

A fixed-point number with P bits stands for an integer over 2^P. Each enclosure below lies within 2^40 units of the
value it stands for: every series takes at most P terms, each with an error of one unit, and at most 24 squarings follow. -/

/-- The sum of t^k / k! from `k`, with the current term. -/
def expGo (P t : Nat) : Nat → Nat → Nat → Nat → Nat
  | 0, _, _, acc => acc
  | fuel + 1, k, term, acc =>
    if term = 0 then acc
    else
      let nt := term * t / 2 ^ P / k
      expGo P t fuel (k + 1) nt (acc + nt)

/-- e^t for t in [0, 1), both with P bits. -/
def expFix (P t : Nat) : Nat := expGo P t P 1 (2 ^ P) (2 ^ P)

/-- The sum of z^(2k+1) / (2k+1). -/
def atanhGo (P z2 : Nat) : Nat → Nat → Nat → Nat → Nat
  | 0, _, _, acc => acc
  | fuel + 1, k, pw, acc =>
    if pw = 0 then acc else atanhGo P z2 fuel (k + 2) (pw * z2 / 2 ^ P) (acc + pw / k)

/-- ln of num / den for 1 ≤ num / den < 2. -/
def lnFix (P num den : Nat) : Nat :=
  let z := (num - den) * 2 ^ P / (num + den)
  2 * atanhGo P (z * z / 2 ^ P) P 1 z 0

def ln2Fix (P : Nat) : Nat := lnFix P 2 1

/-- arctan (1 / n), for the formula of Machin. -/
def atanGo (P n2 : Nat) : Nat → Nat → Nat → Bool → Int → Int
  | 0, _, _, _, acc => acc
  | fuel + 1, k, pw, minus, acc =>
    if pw = 0 then acc
    else atanGo P n2 fuel (k + 2) (pw / n2) (!minus) (if minus then acc - (pw / k : Nat) else acc + (pw / k : Nat))
def piFix (P : Nat) : Nat :=
  let a5 := atanGo P 25 P 1 (2 ^ P / 5) false 0
  let a239 := atanGo P (239 * 239) P 1 (2 ^ P / 239) false 0
  (16 * a5 - 4 * a239).toNat

/-- sin or cos of t in [0, 1), by the series from term `k`. -/
def trigGo (P t2 : Nat) : Nat → Nat → Nat → Bool → Int → Int
  | 0, _, _, _, acc => acc
  | fuel + 1, k, term, minus, acc =>
    if term = 0 then acc
    else
      let acc' := if minus then acc - term else acc + term
      trigGo P t2 fuel (k + 2) (term * t2 / 2 ^ P / ((k + 1) * (k + 2))) (!minus) acc'
def sinFix (P t : Nat) : Nat := (trigGo P (t * t / 2 ^ P) P 1 t false 0).toNat
def cosFix (P t : Nat) : Nat := (trigGo P (t * t / 2 ^ P) P 0 (2 ^ P) false 0).toNat

/-- The integer below x × 2^P of a dyadic magnitude. -/
def toFix (P m : Nat) (e : Int) : Nat :=
  if 0 ≤ e + P then m * 2 ^ (e + P).toNat else m / 2 ^ (-(e + P)).toNat

/-- e^(−t) for a magnitude t, with P bits: exact reduction by ln 2. -/
def expNegFix (P m : Nat) (e : Int) : Nat :=
  let top := (bitLen m : Int) + e
  if top > 13 then 0
  else
    let Q := P + 64
    let t := toFix Q m e
    let l := ln2Fix Q
    let k := t / l + 1
    expFix Q (k * l - t) / 2 ^ (64 + k)

/-- Rounds a value that an enclosure gives at rising precisions: it lies within 2^40 units of `f P` over 2^(P − scale). The
first precision at which both ends round alike decides; the last is taken as it is. -/
def roundEnclosed (fmt : Fmt) (mode : Mode) (neg : Bool) (scl : Int) (f : Nat → Nat × Int) : List Nat → Nat × Flags
  | [] => (fmt.nanBits, 0)
  | P :: rest =>
    let v := f P
    let lo := roundReal fmt mode neg (max (v.1 - 2 ^ 40) 1) (v.2 + scl) true
    let hi := roundReal fmt mode neg (v.1 + 2 ^ 40) (v.2 + scl) true
    if lo == hi || rest.isEmpty then lo else roundEnclosed fmt mode neg scl f rest

/-- The precisions tried: beyond the last the two ends of no operand of these formats are known to differ. -/
def precisions : List Nat := [192, 320, 640, 1280]

/-- What a function gives: a value known exactly, or an irrational one by its enclosure (a sign and a number over
2^(−second)). -/
inductive FnVal where
  | exact (v : Val) | irr (neg : Bool) (f : Nat → Nat × Int)

def deliverFn (fmt : Fmt) (mode : Mode) (scl : Int) (clamp : Nat) : FnVal → Nat × Flags
  | .exact v => deliver fmt mode scl clamp v
  | .irr neg f =>
    let r := roundEnclosed fmt mode neg scl f precisions
    (clampBits fmt clamp r.1, r.2)

/-- A magnitude just above or just below m × 2^e (closer than any rounding boundary). -/
def justAbove (neg : Bool) (m : Nat) (e : Int) : Val := .real neg (m * 2 ^ 200) (e - 200) true 0
def justBelow (neg : Bool) (m : Nat) (e : Int) : Val := .real neg (m * 2 ^ 200 - 1) (e - 200) true 0

/-- FEXP2 (R104): integers are exact; arguments far outside the formats overflow or vanish. -/
def exp2V (a : Num) : FnVal :=
  match a with
  | .nan _ => .exact (.nan (sigFlags [a]))
  | .inf n => .exact (if n then .real false 0 0 false 0 else .inf false 0)
  | .fin n m e =>
    let top := (bitLen m : Int) + e
    if m = 0 then .exact (.real false 1 0 false 0)
    else if top > 20 then .exact (if n then .real false 1 (-100000) true 0 else .real false 1 100000 true 0)
    else if 0 ≤ e then
      let k : Int := m * 2 ^ e.toNat
      .exact (.real false 1 (if n then -k else k) false 0)
    else
      let d := 2 ^ (-e).toNat
      let k : Int := (m / d : Nat)
      if m % d = 0 then .exact (.real false 1 (if n then -k else k) false 0)
      else if top < -62 then .exact (if n then justBelow false 1 0 else justAbove false 1 0)
      else
        let whole : Int := if n then -k - 1 else k
        let frac := if n then d - m % d else m % d
        .irr false fun P => (expFix P (frac * ln2Fix P / d), whole - P)

/-- FLOG2 (R104). -/
def log2V (a : Num) : FnVal :=
  match a with
  | .nan _ => .exact (.nan (sigFlags [a]))
  | .inf n => .exact (if n then .nan fNV else .inf false 0)
  | .fin n m e =>
    if m = 0 then .exact (.inf true fDZ)
    else if n then .exact (.nan fNV)
    else
      let k := bitLen m - 1
      let ex : Int := e + k
      if m = 2 ^ k then .exact (.real (decide (ex < 0)) ex.natAbs 0 false 0)
      else
        -- log2 x = ex + ln(m / 2^k) / ln 2, negative exactly when ex < 0
        .irr (decide (ex < 0)) fun P =>
          let Q := P + 80
          let l := lnFix Q m (2 ^ k) * 2 ^ Q / ln2Fix Q
          let x : Int := ex * 2 ^ Q + l
          (x.natAbs / 2 ^ 40, -((Q : Int) - 40))

/-- sin or cos of π x for x in [0, 1/2] given as num / den, never 0 or 1: each by the series of the nearer end. -/
def sinHalf (P num den : Nat) : Nat :=
  if 4 * num ≤ den then sinFix P (num * piFix P / den) else cosFix P ((den - 2 * num) * piFix P / (2 * den))

/-- sin (π x) for a magnitude x that is neither an integer nor a half-integer: the sign within [0, 2) and the value,
with enough bits for a small x. -/
def sinFrac (neg : Bool) (num den : Nat) : FnVal :=
  let r := num % (2 * den)
  let neg' := if r > den then !neg else neg
  let r1 := if r > den then r - den else r
  let r2 := if 2 * r1 > den then den - r1 else r1
  let extra := bitLen den - bitLen r2 + 2
  .irr neg' fun P => (sinHalf (P + extra) r2 den, -((P + extra : Nat) : Int))

/-- FSINP (R104). -/
def sinpV (a : Num) : FnVal :=
  match a with
  | .nan _ => .exact (.nan (sigFlags [a]))
  | .inf _ => .exact (.nan fNV)
  | .fin n m e =>
    if m = 0 then .exact (.real n 0 0 false 0)
    else if 0 ≤ e then .exact (.real n 0 0 false 0)
    else
      let d := 2 ^ (-e).toNat
      if m % d = 0 then .exact (.real n 0 0 false 0)
      else if 2 * m % d = 0 then
        -- x = k + 1/2 with k = floor x: (−1)^k
        let k := if n then m / d + 1 else m / d
        .exact (.real (k % 2 == 1) 1 0 false 0)
      else sinFrac n m d

/-- FCOSP (R104): cos π x = sin π (x + 1/2). -/
def cospV (a : Num) : FnVal :=
  match a with
  | .nan _ => .exact (.nan (sigFlags [a]))
  | .inf _ => .exact (.nan fNV)
  | .fin _ m e =>
    if m = 0 then .exact (.real false 1 0 false 0)
    else if 0 ≤ e then .exact (.real ((m * 2 ^ e.toNat) % 2 == 1) 1 0 false 0)
    else
      let d := 2 ^ (-e).toNat
      if m % d = 0 then .exact (.real (m / d % 2 == 1) 1 0 false 0)
      else if 2 * m % d = 0 then .exact (.real false 0 0 false 0)
      else if (bitLen m : Int) + e < -40 then .exact (justBelow false 1 0)
      else sinFrac false (2 * m + d) (2 * d)

/-- tanh of a magnitude, from e^(−2x). -/
def tanhFix (P m : Nat) (e : Int) : Nat :=
  let w := expNegFix P m (e + 1)
  (2 ^ P - w) * 2 ^ P / (2 ^ P + w)

/-- FTANH (R104). -/
def tanhV (a : Num) : FnVal :=
  match a with
  | .nan _ => .exact (.nan (sigFlags [a]))
  | .inf n => .exact (.real n 1 0 false 0)
  | .fin n m e =>
    let top := (bitLen m : Int) + e
    if m = 0 then .exact (.real n 0 0 false 0)
    else if top < -30 then .exact (justBelow n m e)
    else if top > 6 then .exact (justBelow n 1 0)
    else .irr n fun P => (tanhFix (P + 40) m e, -((P + 40 : Nat) : Int))

/-- SILU of MEPIL (R292): y / (1 + e^(−y)). -/
def siluV (a : Num) : FnVal :=
  match a with
  | .nan _ => .exact (.nan (sigFlags [a]))
  | .inf n => .exact (if n then .real true 0 0 false 0 else .inf false 0)
  | .fin n m e =>
    let top := (bitLen m : Int) + e
    if m = 0 then .exact (.real n 0 0 false 0)
    else if top < -60 then .exact (if n then justBelow n m (e - 1) else justAbove n m (e - 1))
    else if top > 8 then .exact (if n then .real true 1 (-1000) true 0 else justBelow false m e)
    else .irr n fun P =>
      let Q := P + 400
      let w := expNegFix Q m e
      -- y > 0: y / (1 + w); y < 0: |y| w / (1 + w)
      let x := if n then m * w * 2 ^ Q / (2 ^ Q + w) else m * 2 ^ (2 * Q) / (2 ^ Q + w)
      (x, e - Q)

/-! ### Conversions to integers (R102) -/

/-- The integer nearest by the mode, with whether it is inexact. -/
def roundInt (mode : Mode) (neg : Bool) (m : Nat) (e : Int) (sticky : Bool) : Int × Bool :=
  let r := roundAt mode neg m e 0 sticky
  (if neg then -(r.1 : Int) else r.1, r.2)

/-- R102: to an integer range. -/
def toRange (mode : Mode) (scl : Int) (lo hi : Int) (a : Num) : Int × Flags :=
  match a with
  | .nan _ => (0, fNV)
  | .inf n => (if n then lo else hi, fNV)
  | .fin n m e =>
    let r := roundInt mode n m (e + scl) false
    if r.1 < lo then (lo, fNV) else if hi < r.1 then (hi, fNV)
    else (r.1, if r.2 then fNX else 0)

/-- FCVT.RINT (R155): an integral value of the same format, with only the flag of a signalling NaN. -/
def rintV (mode : Mode) (a : Num) : Val :=
  match a with
  | .nan _ => .nan (sigFlags [a])
  | .inf n => .inf n 0
  | .fin n m e => .real n (roundInt mode n m e false).1.natAbs 0 false 0

/-- The bit of a class word (R157). -/
def classBit (f : Fmt) (x : Nat) : Nat :=
  match numOf f x with
  | .nan s => if s then 0 else 1
  | .inf n => if n then 2 else 9
  | .fin n m _ =>
    if m = 0 then (if n then 5 else 6)
    else if m < 2 ^ f.fw then (if n then 4 else 7)
    else (if n then 3 else 8)

/-- One F32 addition, minimum or maximum of encodings (R187, R167, R346). -/
def f32Add (mode : Mode) (x y : Nat) : Nat × Flags := deliver fp32 mode 0 0 (addV mode (numOf fp32 x) (numOf fp32 y))
def f32Min (x y : Nat) : Nat × Flags := minMax fp32 false x y
def f32Max (x y : Nat) : Nat × Flags := minMax fp32 true x y

end Sys2Proof.Machine
end

