-- ==== Sys2Proof/Machine/Plane.lean ====
section
/-! DEFINITION. Plane formats and shared scales (spec/03, R105 to R115). -/

namespace Sys2Proof.Machine

/-- A row of the table of R105: stored bits, planes, rate planes, binary-point offset, and how stored bits are read. -/
inductive PlaneKind where
  | uns | bin | ter | sgn | flt (f bias : Nat)
deriving DecidableEq, Repr

structure PlaneFmt where
  bits : Nat
  planes : Nat
  rate : Nat
  off : Int
  kind : PlaneKind
deriving DecidableEq, Repr

/-- R105; the reserved codes 0x14 to 0x1F, which no check lets through, read as U1. -/
def planeFmt (code : Nat) : PlaneFmt :=
  match code with
  | 0x01 => ⟨1, 1, 1, 0, .bin⟩ | 0x02 => ⟨2, 2, 1, 0, .ter⟩
  | 0x03 => ⟨2, 2, 2, 0, .uns⟩ | 0x04 => ⟨3, 3, 3, 0, .uns⟩ | 0x05 => ⟨4, 4, 4, 0, .uns⟩
  | 0x06 => ⟨6, 6, 6, 0, .uns⟩ | 0x07 => ⟨8, 8, 8, 0, .uns⟩
  | 0x08 => ⟨2, 2, 2, 0, .sgn⟩ | 0x09 => ⟨3, 3, 3, 0, .sgn⟩ | 0x0A => ⟨4, 4, 4, 0, .sgn⟩
  | 0x0B => ⟨5, 5, 5, 0, .sgn⟩ | 0x0C => ⟨6, 6, 6, 0, .sgn⟩ | 0x0D => ⟨8, 8, 8, 0, .sgn⟩
  | 0x0E => ⟨12, 12, 12, 0, .sgn⟩ | 0x0F => ⟨16, 16, 16, 0, .sgn⟩
  | 0x10 => ⟨4, 5, 5, -1, .flt 1 1⟩ | 0x11 => ⟨6, 7, 7, -3, .flt 3 1⟩ | 0x12 => ⟨6, 10, 10, -4, .flt 2 3⟩
  | 0x13 => ⟨8, 19, 19, -9, .flt 3 7⟩
  | _ => ⟨1, 1, 1, 0, .uns⟩

/-- Two's complement of w bits. -/
def signedOf (w x : Nat) : Int := if x % 2 ^ w < 2 ^ (w - 1) then (x % 2 ^ w : Nat) else (x % 2 ^ w : Nat) - (2 ^ w : Nat)
def unsignedOf (w : Nat) (x : Int) : Nat := (x % (2 ^ w : Nat)).toNat

/-- R107: the NaN pattern of E4M3. -/
def PlaneFmt.isNan (p : PlaneFmt) (x : Nat) : Bool := p.kind == .flt 3 7 && x % 128 == 127

/-- R106, R107: the plane integer of stored bits. -/
def PlaneFmt.value (p : PlaneFmt) (x : Nat) : Int :=
  match p.kind with
  | .uns => x
  | .bin => 1 - 2 * (x % 2 : Nat)
  | .ter => (x % 2 : Nat) * (1 - 2 * (x / 2 % 2 : Nat))
  | .sgn => signedOf p.bits x
  | .flt f _ =>
    if p.isNan x then 0
    else
      let e := x / 2 ^ f % 2 ^ (p.bits - 1 - f)
      let m := x % 2 ^ f
      let mag := if e = 0 then m else (2 ^ f + m) * 2 ^ (e - 1)
      if x / 2 ^ (p.bits - 1) % 2 = 1 then -(mag : Int) else mag

/-- Plane j of stored bits (R108). -/
def PlaneFmt.plane (p : PlaneFmt) (x j : Nat) : Bool :=
  match p.kind with
  | .bin | .ter => x.testBit j
  | .uns | .sgn | .flt _ _ => (unsignedOf p.planes (p.value x)).testBit j

/-- R284: weight of magnitude plane j. -/
def PlaneFmt.weight (p : PlaneFmt) (j : Nat) : Int :=
  match p.kind with
  | .uns => 2 ^ j
  | .bin | .ter => 1
  | .sgn | .flt _ _ => if j + 1 = p.planes then -(2 ^ j) else 2 ^ j

/-- R110: bytes of a partial sum. -/
def psBytes (fa fb : Nat) : Nat := if (planeFmt fa).rate + (planeFmt fb).rate + 5 ≤ 31 then 4 else 8

/-- An S10 scale (R111): none for NaN, else its fraction and exponent, the value being m × 2^e. -/
def scaleOf (x : Nat) : Option (Nat × Int) :=
  let e := x / 4 % 256
  if e = 255 then none else if e = 0 then some (0, 0) else some (4 + x % 4, (e : Int) - 129)

/-- R105: Qmax as an integer number of 2^off. -/
def PlaneFmt.qmax (p : PlaneFmt) : Nat :=
  match p.kind with
  | .uns => 2 ^ p.bits - 1
  | .bin | .ter => 1
  | .sgn => 2 ^ (p.bits - 1) - 1
  | .flt f b => if b = 1 then (if f = 1 then 12 else 60) else if b = 3 then 448 else 229376

/-- Whether m × 2^e ≤ m' × 2^e'. -/
def leDyadic (m : Nat) (e : Int) (m' : Nat) (e' : Int) : Bool :=
  let lo := min e e'
  m * 2 ^ (e - lo).toNat ≤ m' * 2 ^ (e' - lo).toNat

/-- R113: the smallest nonzero finite scale with s × Qmax ≥ M, from candidate `c` upward, `fuel` candidates at most. -/
def findScale (p : PlaneFmt) (m : Nat) (e : Int) : Nat → Nat → Nat
  | 0, _ => 0x3FB
  | fuel + 1, c =>
    match scaleOf c with
    | some (sm, se) => if leDyadic m e (sm * p.qmax) (se + p.off) then c else findScale p m e fuel (c + 1)
    | none => 0x3FB

/-- R113. The search starts one binade below the quotient of M by Qmax, where no scale can suffice. -/
def blockScale (p : PlaneFmt) (m : Nat) (e : Int) : Nat :=
  let top := (bitLen m : Int) + e - (bitLen p.qmax + p.off) - 2
  let start := max (top + 127) 1
  findScale p m e 40 (if start > 254 then 0x3FB else 4 * start.toNat)

/-- R114: the element x ÷ s of a non-BIN format as a multiple of 2^off, with the format's spacing at its magnitude. -/
def quantMag (p : PlaneFmt) (mode : Mode) (neg : Bool) (m : Nat) (e : Int) (sm : Nat) (se : Int) : Nat :=
  -- |x| / s = m 2^e / (sm 2^se), as a dyadic with a mark
  let k := 64 + bitLen sm
  let q := m * 2 ^ k / sm
  let sticky := m * 2 ^ k % sm != 0
  let ex := e - se - k - p.off
  let step : Int := match p.kind with
    | .flt f _ => max ((bitLen q : Int) - 1 + ex - f) 0
    | .uns | .bin | .ter | .sgn => 0
  if q = 0 && !sticky then 0
  else (roundAt mode neg q ex step sticky).1 * 2 ^ step.toNat

/-- The magnitude of V clamped to Qmax (R114); U formats clamp negative values to 0. -/
def quantValue (p : PlaneFmt) (mode : Mode) (neg : Bool) (m : Nat) (e : Int) (sm : Nat) (se : Int) : Int :=
  let a := min (quantMag p mode neg m e sm se) p.qmax
  if neg then (if p.kind == .uns then 0 else -(a : Int)) else a

/-- The stored bits of a plane integer that the format holds. -/
def PlaneFmt.store (p : PlaneFmt) (v : Int) : Nat :=
  match p.kind with
  | .uns => v.toNat
  | .bin => if v < 0 then 1 else 0
  | .ter => if v = 0 then 0 else if v < 0 then 3 else 1
  | .sgn => unsignedOf p.bits v
  | .flt f _ =>
    let a := v.natAbs
    let e := if a < 2 ^ f then 0 else bitLen a - f
    let mag := if e = 0 then a else e * 2 ^ f + (a / 2 ^ (e - 1) - 2 ^ f)
    if v < 0 then 2 ^ (p.bits - 1) + mag else mag

/-- Element i of a byte string of packed elements of w bits (R108). -/
def packedElem (w i : Nat) (bytes : Nat) : Nat := bytes / 2 ^ (w * i) % 2 ^ w

end Sys2Proof.Machine
end

