-- ==== Sys2Proof/Machine/Operands.lean ====
section
/-! DEFINITION. Operands (spec/02, R61 to R75; spec/04, R117 to R122): inline constants, special registers, sources with
their modifiers, destinations, predicates and latches. A value is the number its bits make. -/

namespace Sys2Proof.Machine

end Sys2Proof.Machine
namespace Sys2Proof
open Machine

/-- Bits of a width. -/
def Width.bits : Width → Nat
  | .w32 => 32 | .w64 => 64 | .w128 => 128

end Sys2Proof
namespace Sys2Proof.Machine

/-! ### Inline constants (R64 to R66) -/

/-- R64: the irrational entries 0x80 to 0x8B as integers over 2^126, below the value. -/
def constFix (i : Nat) : Nat :=
  match i with
  | 0x80 => 0xc90fdaa22168c234c4c6628b80dc1cd1
  | 0x81 => 0x145f306dc9c882a53f84eafa3ea69bb8
  | 0x82 => 0x1921fb54442d18469898cc51701b839a2
  | 0x83 => 0x6487ed5110b4611a62633145c06e0e68
  | 0x84 => 0xadf85458a2bb4a9aafdc5620273d3cf1
  | 0x85 => 0x2c5c85fdf473de6af278ece600fcbdab
  | 0x86 => 0x5c551d94ae0bf85ddf43ff68348e9f44
  | 0x87 => 0x935d8dddaaa8ac16ea56d62b82d30a28
  | 0x88 => 0xd49a784bcd1b8afe492bf6ff4dafdb4c
  | 0x89 => 0x134413509f79fef311f12b35816f922f
  | 0x8A => 0x5a827999fcef32422cbec4d9baa55f4f
  | _ => 0x2d413cccfe779921165f626cdd52afa7

/-- R65: an entry rounded to nearest-even in a format. -/
def constFp (f : Fmt) (i : Nat) : Nat :=
  let real (neg : Bool) (m : Nat) (e : Int) (s : Bool) : Nat := (deliver f .rne 0 0 (.real neg m e s 0)).1
  if i < 0x40 then real (decide (i < 16)) ((i : Int) - 16).natAbs 0 false
  else if i < 0x60 then real false 1 ((i : Int) - 0x50) false
  else if i < 0x80 then real true 1 ((i : Int) - 0x70) false
  else if i < 0x8C then real false (constFix i) (-126) true
  else if i = 0x8C then f.infBits
  else if i = 0x8D then f.signed true f.infBits
  else if i = 0x8E then f.nanBits
  else f.maxBits

/-- R66: an entry read as an integer of w bits. -/
def constInt (w i : Nat) : Nat := if i < 0x40 then unsignedOf w ((i : Int) - 16) else constFp fp32 i

end Sys2Proof.Machine
namespace Sys2Proof
open Machine

/-- Element width and count of a type in an operand (R92, R96). -/
def Ty.elem : Ty → Nat
  | .i64 | .u64 | .f64 => 64 | .i32 | .u32 | .f32 => 32 | .i16x2 | .f16x2 | .bf16x2 => 16 | .i8x4 => 8
def Ty.count : Ty → Nat
  | .i16x2 | .f16x2 | .bf16x2 => 2 | .i8x4 => 4 | .i32 | .u32 | .i64 | .u64 | .f32 | .f64 => 1
def Ty.isFp : Ty → Bool
  | .f32 | .f16x2 | .bf16x2 | .f64 => true | .i32 | .u32 | .i64 | .u64 | .i16x2 | .i8x4 => false
def Ty.isSigned : Ty → Bool
  | .i32 | .i64 | .i16x2 | .i8x4 => true | .u32 | .u64 | .f32 | .f16x2 | .bf16x2 | .f64 => false

end Sys2Proof
namespace Sys2Proof.Machine

/-- Element e of a value, and a value from its elements (R92). -/
def elemOf (t : Ty) (x e : Nat) : Nat := x / 2 ^ (t.elem * e) % 2 ^ t.elem
def ofElems (t : Ty) (f : Nat → Nat) : Nat :=
  (List.range t.count).foldl (fun n e => n + f e % 2 ^ t.elem * 2 ^ (t.elem * e)) 0

/-- R65, R66: what an inline constant supplies to an operand of a type, or of a stated width. -/
def constOf (t : Option Ty) (w : Width) (i : Nat) : Nat :=
  match t with
  | none => constInt (w.bits) i
  | some t =>
    if t.isFp then ofElems t fun _ => constFp t.fmt i
    else if i < 0x40 then ofElems t fun _ => constInt t.elem i
    else constFp fp32 i

/-! ### Special registers (R119, R120) -/

/-- NSTEP of an engine command (R285, R291 to R293). -/
def EngCmd.steps (c : EngCmd) : Nat :=
  let fa := (c.params.extractLsb' 20 5).toNat
  let fb := (c.params.extractLsb' 15 5).toNat
  match c.op with
  | .mplane => ((c.params.extractLsb' 11 4).toNat + 1) * (planeFmt fa).rate * (planeFmt fb).rate
  | .mscale => 4 * ((c.params.extractLsb' 11 4).toNat + 1)
  | .mepil => 128
  | .mzero =>
    let ns := (c.params.extractLsb' 19 4).toNat + 1
    match (c.params.extractLsb' 23 2).toNat with
    | 0 => 16 | 1 => 64 * ns | _ => 128 * ns

/-- MSEQ of a workgroup (R278). -/
def mseqOf (cl : Cluster) (pack wg : Nat) : Word64 :=
  match cl.cmds.filter fun c => c.pack == pack && c.wgs.contains wg with
  | [] => 0
  | c :: r =>
    u64 ((min (r.length + 1) 255) * 2 ^ 48 + c.op.code * 2 ^ 40 + c.next % 65536 * 65536 + c.steps % 65536)

/-- The value of a special register for a lane, or for the uniform form where none is given. -/
def special (s : State) (c : Cur) (lane : Option Nat) (r : Special) : Word64 :=
  let pk := s.pack c.pack
  let cl := ((s.party c.pack c.who).map (·.place.cluster)).getD 0
  let spine := c.who == spineWho
  let widf (n : Nat) : Word64 :=
    match pk with
    | none => 0
    | some p => u64 (((workFields p c.who (lane.getD 0))[n]?).getD 0)
  match r with
  | .laneid => u64 (lane.getD 0)
  | .warpid => if spine then 0 else u64 (c.who % 16)
  | .wgid => if spine then 0 else u64 (c.who / 16)
  | .packid => u64 ((pk.map (·.num)).getD 0)
  | .wid => match pk with | none => 0 | some p => workId p c.who (lane.getD 0)
  | .launch => u64 ((pk.map (·.launch)).getD 0)
  | .ctx => u64 ((pk.map (·.ctx)).getD 0)
  | .clk => rd 0 (s.cluster cl).counters 0
  | .amask => c.lanes
  | .widf n => widf n.val
  | .fpmode => c.regs.fpmode.setWidth 64
  | .fpflags => c.regs.fpflags.setWidth 64
  | .xcause => c.regs.xcause
  | .xaddr => c.regs.xaddr
  | .xpc => c.regs.xpc
  | .xstat => c.regs.xstat
  | .xvec => c.regs.xvec
  | .mseq => mseqOf (s.cluster cl) c.pack (if spine then 0 else c.who / 16)
  | .bankmap => bankMap (s.cluster cl)

/-! ### Sources -/

/-- A register read at a width (R63, R117); a k register supplies the value it acquired (R184). -/
def readSpec (s : State) (c : Cur) (t : Option Ty) (w : Width) (lane : Option Nat) (r : Spec) : Nat :=
  let l := lane.getD 0
  let low (x : Nat) : Nat := x % 2 ^ w.bits
  match r with
  | .v n =>
    match w with
    | .w32 => (c.regs.readV l n.toNat).toNat
    | .w64 => (c.regs.readV64 l n.toNat).toNat
    | .w128 => (c.regs.readV64 l n.toNat).toNat + 2 ^ 64 * (c.regs.readV64 l (n.toNat + 2)).toNat
  | .s n =>
    match w with
    | .w32 => low (c.regs.readS n.toNat).toNat
    | .w64 => (c.regs.readS n.toNat).toNat
    | .w128 => (c.regs.readS n.toNat).toNat + 2 ^ 64 * (c.regs.readS (n.toNat + 1)).toNat
  | .k n => low (rd 0 c.kvals n.toNat).toNat
  | .h n => low (c.regs.readH n.toNat).toNat
  | .a n => (c.regs.readA n.toNat).toNat
  | .const i => constOf t w i.toNat
  | .special r => low (special s c lane r).toNat

/-- R61: ABS, then NEG, of one element. -/
def modElem (t : Ty) (neg abs : Bool) (x : Nat) : Nat :=
  if t.isFp then
    let sign := t.fmt.signBit
    let x1 := if abs then x % sign else x
    if neg then (if x1 / sign % 2 = 1 then x1 % sign else x1 + sign) else x1
  else
    let w := t.elem
    let x1 := if abs && t.isSigned then unsignedOf w ((signedOf w x).natAbs : Int) else x
    if neg then unsignedOf w (-(x1 : Int)) else x1

def applyMods (t : Option Ty) (neg abs : Bool) (x : Nat) : Nat :=
  match t with
  | none => x
  | some t => if neg || abs then ofElems t fun e => modElem t neg abs (elemOf t x e) else x

/-- R61: a source field. The checks of R75 have passed, so a latch holds a value wide enough. Where the lanes of a merged
group hold different UNIFORM values, the uniform form reads the latch of the group's lowest lane (DESIGN CHOICE, log 66). -/
def readSrc (s : State) (c : Cur) (t : Option Ty) (w : Width) (lane : Option Nat) (x : Src) : Nat :=
  match x with
  | .reg r neg abs => applyMods t neg abs (readSpec s c t w lane r)
  | .latch n neg abs =>
    let l := match lane with | some l => l | none => lowLane c.lanes
    let raw := match c.regs.readL l n.toNat with
      | .invalid => 0
      | .lane _ v | .uniform _ v => v.toNat
    applyMods t neg abs (raw % 2 ^ w.bits)

/-- Whether a latch read faults OPND.LATCH (R75). -/
def latchBad (u : Use) (l : Latch) : Bool :=
  match l with
  | .invalid => true
  | .lane wide _ => u.unif || (u.width == .w64 && !wide) || u.width == .w128
  | .uniform wide _ => (u.width == .w64 && !wide) || u.width == .w128

/-! ### Predicates (R76, R121) -/

/-- A predicate source field. -/
def readPred (r : Regs) (lane : Option Nat) (f : BitVec 4) : Bool :=
  if f = 15#4 then true
  else if 8#4 ≤ f then r.readQ (f.toNat % 4)
  else match lane with
    | some l => r.readP l f.toNat
    | none => true

/-- A predicate destination field. -/
def writePred (r : Regs) (lane : Option Nat) (f : BitVec 4) (b : Bool) : Regs :=
  if 8#4 ≤ f then r.writeQ (f.toNat % 4) b
  else match lane with
    | some l => r.writeP l f.toNat b
    | none => r

/-- The lanes of an issuing group whose guard holds: in the uniform form all of them or none (R76, R138). -/
def guardLanes (r : Regs) (form : Form) (lanes : Lanes) (g : Guard) : Lanes :=
  match g with
  | .always => lanes
  | .never => 0
  | .pred n neg =>
    match form with
    | .unif => if r.readQ (n.toNat % 4) != neg then lanes else 0
    | .lane | .gather => maskOf ((lanesOf lanes).filter fun l => r.readP l n.toNat != neg)

/-! ### Destinations (R117) -/

/-- A result in an s register: I32 is sign-extended, every other 32-bit type zero-extended. -/
def toS (t : Option Ty) (x : Nat) : Word64 :=
  if t == some .i32 then (BitVec.ofNat 32 x).signExtend 64 else u64 x

/-- A destination register written at a width. R117 gives the extension of a 32-bit result for v and s registers only; an
h register takes it zero-extended, I32 among the types (DESIGN CHOICE, log 64). -/
def writeSpec (r : Regs) (t : Option Ty) (w : Width) (lane : Option Nat) (d : Spec) (x : Nat) : Regs :=
  let l := lane.getD 0
  match d with
  | .v n =>
    match w with
    | .w32 => r.writeV l n.toNat (BitVec.ofNat 32 x)
    | .w64 => r.writeV64 l n.toNat (u64 x)
    | .w128 => (r.writeV64 l n.toNat (u64 x)).writeV64 l (n.toNat + 2) (u64 (x / 2 ^ 64))
  | .s n =>
    match w with
    | .w32 => r.writeS n.toNat (toS t x)
    | .w64 => r.writeS n.toNat (u64 x)
    | .w128 => (r.writeS n.toNat (u64 x)).writeS (n.toNat + 1) (u64 (x / 2 ^ 64))
  | .h n => r.writeH n.toNat (u64 x)
  | .a n => r.writeA n.toNat (BitVec.ofNat 16 x)
  | .k _ | .const _ | .special _ => r

end Sys2Proof.Machine
end

