-- ==== Sys2Proof/Machine/Flags.lean ====
section
/-! DEFINITION. Rounding modes and exception flags of a party (spec/05, R145 to R149), integer results (spec/03, R93)
and floating-point results with their flags. -/

namespace Sys2Proof.Machine

/-- R101: flags are ORed into FPFLAGS. -/
def Regs.raise (r : Regs) (fl : Flags) : Regs := { r with fpflags := r.fpflags ||| fl }

/-- R148, R149: the effective mode of an RM code; `u` is the value of stochastic rounding. -/
def modeOf (fpmode : BitVec 2) (rm : Rm) (u : Nat) : Mode :=
  match rm with
  | .mode => Mode.ofCode fpmode
  | .rne => .rne | .rtz => .rtz | .rup => .rup | .rdn => .rdn
  | .stoch => .stoch u

/-- R71: the exponent of an SCL code. -/
def sclExp (c : BitVec 3) : Int := if c.toNat < 4 then c.toNat else (c.toNat : Int) - 8

/-- R71: SCL on an exact integer; a negative exponent divides, toward −∞ for signed types, truncating for others. -/
def sclInt (signed : Bool) (c : BitVec 3) (x : Int) : Int :=
  if c.toNat < 4 then x * (2 ^ c.toNat : Nat)
  else if signed then x.fdiv (2 ^ (8 - c.toNat) : Nat) else x.tdiv (2 ^ (8 - c.toNat) : Nat)

end Sys2Proof.Machine
namespace Sys2Proof
open Machine

/-- R92: the element range of a type. -/
def Ty.lo (t : Ty) : Int := if t.isSigned then -((2 ^ (t.elem - 1) : Nat) : Int) else 0
def Ty.hi (t : Ty) : Int := if t.isSigned then ((2 ^ (t.elem - 1) : Nat) : Int) - 1 else ((2 ^ t.elem : Nat) : Int) - 1

end Sys2Proof
namespace Sys2Proof.Machine

/-- R93: SCL, then saturation under CLAMP 11 or wrapping. -/
def narrowInt (t : Ty) (clamp : BitVec 2) (scl : BitVec 3) (x : Int) : Nat :=
  let y := sclInt t.isSigned scl x
  unsignedOf t.elem (if clamp = 3#2 then max t.lo (min t.hi y) else y)

/-- An element read by its type (R127). -/
def intElem (t : Ty) (x e : Nat) : Int := if t.isSigned then signedOf t.elem (elemOf t x e) else elemOf t x e

/-- R149: a result of a floating-point type, element by element. -/
def fpResult (t : Ty) (mode : Mode) (clamp : BitVec 2) (scl : BitVec 3) (f : Nat → Val) : Nat × Flags :=
  let r (e : Nat) := deliver t.fmt mode (sclExp scl) clamp.toNat (f e)
  (ofElems t fun e => (r e).1, (List.range t.count).foldl (fun fl e => fl ||| (r e).2) 0)

def fpFnResult (t : Ty) (mode : Mode) (clamp : BitVec 2) (scl : BitVec 3) (f : Nat → FnVal) : Nat × Flags :=
  let r (e : Nat) := deliverFn t.fmt mode (sclExp scl) clamp.toNat (f e)
  (ofElems t fun e => (r e).1, (List.range t.count).foldl (fun fl e => fl ||| (r e).2) 0)

def fpElem (t : Ty) (x e : Nat) : Num := numOf t.fmt (elemOf t x e)

end Sys2Proof.Machine
end

