-- ==== Sys2Proof/Machine/Memory.lean ====
section
/-! DEFINITION. Memory (spec/07): device memory, host and peer windows, the L1 directory, errors, condition monitors as
far as writes touch them (spec/12, R350 to R353) and translation (spec/12, R357 to R360). -/

namespace Sys2Proof.Machine

/-! ### Where a physical address leads (R13, R206) -/

inductive Target where
  | dram (die : Nat) | host (home : Nat) | peer (link : Nat) | absent
deriving DecidableEq, Repr

/-- R206. A link that is down or frozen completes with the absent status (R450, R452). -/
def State.target (s : State) (pa : Nat) : Target :=
  if pa / 2 ^ 40 = 0 then
    if pa / 2 ^ 36 < 8 ∧ pa % 2 ^ 36 < 48 * 2 ^ 30 then .dram (pa / 2 ^ 36) else .absent
  else
    match cget s.windows (pa / 2 ^ 40) with
    | none => .absent
    | some (.host _ home) => .host home
    | some (.peer l _) => if s.linkDown.getLsbD l || s.linkFrozen.getLsbD l then .absent else .peer l

/-- The die whose slices cache an address (R203), none for a peer window or no memory. -/
def State.homeDie (s : State) (pa : Nat) : Option Nat :=
  match s.target pa with
  | .dram d => some d | .host h => some h | .peer _ | .absent => none

/-- R203: the slice of a line, as 16 × die + slice. -/
def State.sliceOf (s : State) (pa : Nat) : Nat :=
  16 * (s.homeDie pa).getD 0 + (pa / 2 ^ 7 % 16 ^^^ pa / 2 ^ 11 % 16 ^^^ pa / 2 ^ 15 % 16 ^^^ pa / 2 ^ 19 % 16)

/-- R435: a page homed on a die that was forced offline is lost, one of a host window as one of device memory. -/
def State.lost (s : State) (pa : Nat) : Bool :=
  match s.target pa with
  | .dram d | .host d => s.lostDies.contains d | .peer _ | .absent => false

/-! ### Bytes -/

/-- The one form of a memory: addresses strictly rising, no entry that holds what an unlisted address reads as. -/
def Memory.wf (m : List Host.Cell) : Bool := canonical 0 m

/-- The coherent byte at an address; 0 where nothing is listed (log 10). -/
def State.byteAt (s : State) (pa : Nat) : Byte := rd 0 s.mem pa
/-- The byte at the home slice, which a fetch sees (R246). -/
def State.homeByte (s : State) (pa : Nat) : Byte := (cget s.stale pa).getD (s.byteAt pa)
def State.readNat (s : State) (pa n : Nat) : Nat := ofBytes ((List.range n).map fun i => s.byteAt (pa + i))
def State.homeNat (s : State) (pa n : Nat) : Nat := ofBytes ((List.range n).map fun i => s.homeByte (pa + i))

/-- Bytes of submission areas that R448 does not list read zero, and a write to them is ignored (R5). The area stays one
after a reset of its function. -/
def State.reservedAt (s : State) (pa : Nat) : Bool :=
  s.ctxs.any fun e =>
    let off := pa - e.2.area
    e.2.area != 0 && decide (e.2.area ≤ pa) && decide (pa < e.2.area + 0x10000) &&
      ((decide (0x40 ≤ off) && decide (off < 0x1000)) || decide (0xB000 ≤ off))
/-- The bytes of a write at an address, with those that stand already where it is ignored (R5). -/
def State.kept (s : State) (pa : Nat) (bs : List Byte) : List Byte :=
  bs.mapIdx fun i b => if s.reservedAt (pa + i) then s.byteAt (pa + i) else b

/-- The bytes of a write at the home slice. -/
def State.putHome (s : State) : Nat → List Byte → State
  | _, [] => s
  | pa, b :: r => State.putHome { s with mem := wr 0 s.mem pa b, stale := cdel s.stale pa } (pa + 1) r

/-- The bytes of a write in an L1: the home slice keeps what it had until the line is written back. -/
def State.putCached (s : State) : Nat → List Byte → State
  | _, [] => s
  | pa, b :: r =>
    let h := s.homeByte pa
    State.putCached { s with mem := wr 0 s.mem pa b,
                             stale := if h = b then cdel s.stale pa else cset s.stale pa h } (pa + 1) r

/-! ### Check bits (R194, R209) -/

/-- The granules of a line for which a test holds. -/
def granuleMask (f : Nat → Bool) : BitVec 4 :=
  (List.range 4).foldl (fun m i => if f i then m ||| BitVec.twoPow 4 i else m) 0
/-- Granules of a line that a range touches, and those that it covers. -/
def granulesIn (l pa n : Nat) : BitVec 4 :=
  granuleMask fun i => decide (128 * l + 32 * i < pa + n) && decide (pa < 128 * l + 32 * i + 32)
def granulesOver (l pa n : Nat) : BitVec 4 :=
  granuleMask fun i => decide (pa ≤ 128 * l + 32 * i) && decide (128 * l + 32 * i + 32 ≤ pa + n)
def popGranules (m : BitVec 4) : Nat := ((List.range 4).filter fun i => m.getLsbD i).length

/-- Granules of a copy that is written whole are correct. -/
def Checks.without (x : Checks) (m : BitVec 4) : Checks := { unc := x.unc &&& ~~~m, corr := x.corr &&& ~~~m }
/-- Granules that are read are corrected in place. -/
def Checks.fixed (x : Checks) (m : BitVec 4) : Checks := { x with corr := x.corr &&& ~~~m }

/-- The check bits of a line in DRAM, or in a host's memory. -/
def State.dramChecks (s : State) (l : Nat) : Checks :=
  { unc := granuleMask fun i => s.unc.contains (4 * l + i)
    corr := granuleMask fun i => s.corr.contains (4 * l + i) }
def granuleList (l : Nat) (m : BitVec 4) : List Nat := ((List.range 4).filter fun i => m.getLsbD i).map (4 * l + ·)
def State.setDramChecks (s : State) (l : Nat) (x : Checks) : State :=
  { s with unc := s.unc.filter (fun g => g / 4 != l) ++ granuleList l x.unc
           corr := s.corr.filter (fun g => g / 4 != l) ++ granuleList l x.corr }

/-- A soft-error counter saturates (R398). -/
def sat32 (x : Word32) (n : Nat) : Word32 := BitVec.ofNat 32 (min (x.toNat + n) 0xFFFFFFFF)
/-- A soft-error counter of a cluster: of a bank at 0x10 + bank, of the refetches of R51 at 0x32 (R398, R408). -/
def Cluster.countSoft (c : Cluster) (n k : Nat) : Cluster :=
  if k = 0 then c else { c with counters := wr 0 c.counters n (u64 (min ((rd 0 c.counters n).toNat + k) 0xFFFFFFFF)) }

/-! ### L2 slices (R203, R205) -/

def State.line (s : State) (l : Nat) : Line := rd Line.zero s.lines l
def State.setLine (s : State) (l : Nat) (x : Line) : State := { s with lines := wr Line.zero s.lines l x }
/-- R351: a slice entry names the line. -/
def State.monitored (s : State) (l : Nat) : Bool := s.monitors.any fun m => !m.overflow && m.pa / 128 == l
/-- Whether a cluster holds a line. -/
def Line.heldBy (x : Line) (c : Nat) : Bool := x.owner == some c || x.sharers.getLsbD c
/-- The L1 copy of a cluster. -/
def Line.copy (x : Line) (c : Nat) : L1Line := rd { way := 0, chk := Checks.zero, rank := 1 } x.copies c

/-- R209: granules that are read are corrected where they stand and counted: in an L1 copy by its bank, in L2 by the slices
of the die, in DRAM by the stack; the memory of a host has no counter here. -/
def State.readL1 (s : State) (c l : Nat) (m : BitVec 4) : State :=
  let x := s.line l
  let y := x.copy c
  let k := popGranules (y.chk.corr &&& m)
  if k = 0 then s
  else
    (s.setLine l { x with copies := cset x.copies c { y with chk := y.chk.fixed m } }).modCluster c
      fun z => z.countSoft (16 + y.way) k
def State.readL2 (s : State) (l : Nat) (m : BitVec 4) : State :=
  let x := s.line l
  let k := popGranules (x.l2.corr &&& m)
  if k = 0 then s
  else
    let s := s.setLine l { x with l2 := x.l2.fixed m }
    match s.homeDie (128 * l) with
    | none => s
    | some d => s.modDie d fun z => { z with softL2 := sat32 z.softL2 k }
def State.readDram (s : State) (l : Nat) (m : BitVec 4) : State :=
  let x := s.dramChecks l
  let k := popGranules (x.corr &&& m)
  if k = 0 then s
  else
    let s := s.setDramChecks l (x.fixed m)
    match s.target (128 * l) with
    | .dram d => s.modDie d fun z => { z with softDram := sat32 z.softDram k }
    | .host _ | .peer _ | .absent => s

/-- The home slice writes a line that differs back to DRAM, or to the memory of its host, with its check bits. -/
def State.cleanL2 (s : State) (l : Nat) : State :=
  if (s.line l).l2Dirty then
    let s := s.readL2 l 15
    let x := s.line l
    (s.setDramChecks l x.l2).setLine l { x with l2Dirty := false }
  else s
/-- The home slice drops a line. No L2 line of the part is inclusive of an L1's, so the directory entry stays. -/
def State.evictL2 (s : State) (l : Nat) : State :=
  let s := s.cleanL2 l
  s.setLine l { s.line l with inL2 := false, l2Dirty := false, l2 := Checks.zero, l2Keep := false }
/-- Lines that the slices of a die hold: at most 64 MiB (R2). -/
def State.l2Lines (s : State) (d : Nat) : List Nat :=
  (s.lines.filter fun e => e.2.inL2 && s.homeDie (128 * e.1) == some d).map (·.1)
def l2Capacity : Nat := 524288
/-- Those of them that may leave: lines retained ahead of others leave last (R205). -/
def State.l2Victims (s : State) (d : Nat) : List Nat :=
  let held := s.l2Lines d
  let plain := held.filter fun l => !(s.line l).l2Keep
  if plain.isEmpty then held else plain
/-- Room for one line more: which of the lines that may leave does is a free choice (log 69). -/
def State.roomL2 (s : State) (l : Nat) : State :=
  match s.homeDie (128 * l) with
  | none => s
  | some d =>
    let held := s.l2Victims d
    if (s.l2Lines d).length < l2Capacity then s
    else
      match held[Config.choose s.choices % held.length]? with
      | none => s
      | some v => { s with choices := s.choices + 1 }.evictL2 v
/-- The home slice takes a line from DRAM. -/
def State.fillL2 (s : State) (l : Nat) : State :=
  if (s.line l).inL2 then s
  else
    let s := (s.roomL2 l).readDram l 15
    s.setLine l { s.line l with inL2 := true, l2Dirty := false, l2 := s.dramChecks l }

/-! ### The L1 directory (R202 to R204) -/

/-- The dirty copy of a line is written back to its home slice, with its check bits. -/
def State.writeBack (s : State) (l : Nat) : State :=
  let x := s.line l
  let s :=
    match x.owner with
    | some y => if x.dirty then s.readL1 y l 15 else s
    | none => s
  let s := if x.inL2 then s else s.roomL2 l
  let x := s.line l
  let chk := match x.owner with | some y => if x.dirty then (x.copy y).chk else x.l2 | none => x.l2
  let keep := x.l2Keep || x.copies.any fun e => e.2.rank == 2
  { s.setLine l { x with dirty := false, inL2 := true, l2Dirty := x.l2Dirty || x.dirty, l2 := chk, l2Keep := keep } with
    stale := s.stale.filter fun e => e.1 / 128 != l }

/-- R204, CMAINT.WB.L1: M becomes E, O becomes S. -/
def State.cleanL1 (s : State) (l : Nat) : State :=
  if (s.line l).dirty then
    let s := s.writeBack l
    let x := s.line l
    match x.owner with
    | none => s
    | some y =>
      if x.owned then s.setLine l { x with owner := none, owned := false, sharers := x.sharers ||| BitVec.twoPow 96 y } else s
  else s

/-- Every L1 copy of a line is recalled. -/
def State.recall (s : State) (l : Nat) : State :=
  let s := if (s.line l).dirty then s.writeBack l else s
  s.setLine l { s.line l with owner := none, owned := false, dirty := false, sharers := 0, copies := [] }

/-- R204: an eviction by cluster `c`. The eviction of an O line ends every copy. -/
def State.evictL1 (s : State) (c l : Nat) : State :=
  let x := s.line l
  if x.owner = some c then s.recall l
  else s.setLine l { x with sharers := x.sharers &&& ~~~(BitVec.twoPow 96 c), copies := cdel x.copies c }

/-- CACHE banks of a cluster (R202). -/
def Cluster.ways (c : Cluster) : List Nat := (List.range 32).filter fun b => (c.bank b).mode == .cache
/-- What a cache hint allocates (R205): in L1, in L2, and the place of the line among the victims of its set: 0 the next
one, 1 any, 2 retained in L1 and L2 ahead of others. -/
structure Alloc where
  l1 : Bool
  l2 : Bool
  rank : Nat
deriving DecidableEq, Repr
def Alloc.both : Alloc := { l1 := true, l2 := true, rank := 1 }

/-- Lines of the set of a line, PA[16:7], that the L1 of a cluster holds beside it. -/
def State.setLines (s : State) (c l : Nat) : List (Nat × L1Line) :=
  (s.lines.filter fun e => e.1 != l && e.1 % 1024 == l % 1024 && e.2.heldBy c).map fun e => (e.1, e.2.copy c)
/-- Whether a line of rank `k` may leave its set before the others (R205). -/
def State.nextOut (s : State) (c l k : Nat) : Bool := (s.setLines c l).all fun e => decide (k ≤ e.2.rank)
/-- Ways that a line may take: the empty ones, and those of the lines that leave first (R205). -/
def State.freeWays (s : State) (c l : Nat) : List Nat :=
  let held := s.setLines c l
  (s.cluster c).ways.filter fun w =>
    match held.find? fun e => e.2.way == w with
    | none => true
    | some e => s.nextOut c l e.2.rank
/-- A line enters the L1 of a cluster in a way of its set, PA[16:7]; the line that stood there leaves. Which of the ways, and
so which line leaves, is a free choice (log 14). -/
def State.fillL1 (s : State) (c l : Nat) (chk : Checks) (rank : Nat) : State :=
  let ws := s.freeWays c l
  let w := (ws[Config.choose s.choices % ws.length]?).getD 0
  let s := { s with choices := s.choices + 1 }
  let s :=
    match (s.setLines c l).find? fun e => e.2.way == w with
    | some e => s.evictL1 c e.1
    | none => s
  let x := s.line l
  s.setLine l { x with copies := cset x.copies c { way := w, chk, rank } }

/-- R205, `.KEEP`: the copies of the line in the cluster's L1 and in L2 are retained ahead of others. -/
def State.retain (s : State) (c l : Nat) (h : Alloc) : State :=
  if h.rank = 2 then
    let x := s.line l
    s.setLine l { x with
      l2Keep := x.inL2
      copies := x.copies.map fun e => if e.1 = c then (e.1, { e.2 with rank := 2 }) else e }
  else s

/-- A read of `n` bytes at `pa` by cluster `c` (R204). -/
def State.dirRead (s : State) (c pa n : Nat) (h : Alloc) : State :=
  let l := pa / 128
  let m := granulesIn l pa n
  let x := s.line l
  if x.heldBy c then ((s.count c 4 1).readL1 c l m).retain c l h
  else
    let s := s.count c 5 1
    match (if x.dirty then x.owner else none) with
    | some y =>
      if !h.l1 then
        let s := s.readL1 y l m
        s.setLine l { s.line l with owned := true }
      else
        let s := s.readL1 y l 15
        let s := s.fillL1 c l ((s.line l).copy y).chk h.rank
        let x := s.line l
        (s.setLine l { x with owned := true, sharers := x.sharers ||| BitVec.twoPow 96 c }).retain c l h
    | none =>
      let s := if h.l2 then s.fillL2 l else s
      let s := if (s.line l).inL2 then s.readL2 l (if h.l1 then 15 else m) else s.readDram l (if h.l1 then 15 else m)
      if !h.l1 then
        match x.owner with
        | none => s
        | some y =>
          let x := s.line l
          s.setLine l { x with owner := none, sharers := x.sharers ||| BitVec.twoPow 96 y }
      else
        let s := s.fillL1 c l (if (s.line l).inL2 then (s.line l).l2 else s.dramChecks l) h.rank
        let x := s.line l
        let s :=
          match x.owner with
          | none =>
            if x.sharers = 0 ∧ !s.monitored l then s.setLine l { x with owner := some c }
            else s.setLine l { x with sharers := x.sharers ||| BitVec.twoPow 96 c }
          | some y =>
            s.setLine l { x with owner := none, sharers := x.sharers ||| BitVec.twoPow 96 y ||| BitVec.twoPow 96 c }
        s.retain c l h

/-- Whether the L1 of a cluster holds a line in E or M, so that it can write it (R204). -/
def Line.ownedBy (x : Line) (c : Nat) : Bool := x.owner == some c && !x.owned
/-- A write of `n` bytes at `pa` by cluster `c` (R204): the copy that it gets in M, with the granules that it overwrites
correct (R209). -/
def State.dirWrite (s : State) (c pa n : Nat) (h : Alloc) : State :=
  let l := pa / 128
  let s :=
    if (s.line l).ownedBy c then s.count c 4 1
    else
      let s := s.count c 5 1
      let x := s.line l
      if x.heldBy c && !x.dirty then
        s.setLine l { x with owner := some c, owned := false, sharers := 0, copies := x.copies.filter (·.1 == c) }
      else
        let s := ((s.recall l).fillL2 l).readL2 l 15
        let s := s.fillL1 c l (s.line l).l2 h.rank
        s.setLine l { s.line l with owner := some c, owned := false, sharers := 0 }
  let x := s.line l
  let y := x.copy c
  (s.setLine l { x with dirty := true, copies := cset x.copies c { y with chk := y.chk.without (granulesOver l pa n) } }).retain c l h

/-! ### Where the data of an address stands (R209) -/

/-- The check bits of the copy that a reader gets: its own cluster's L1 copy, the dirty L1 copy, that of the home slice, or
that of DRAM. -/
def State.checksFor (s : State) (c : Option Nat) (l : Nat) : Checks :=
  let x := s.line l
  match (match c with | some c => if x.heldBy c then some c else none | none => none) with
  | some c => (x.copy c).chk
  | none =>
    match (if x.dirty then x.owner else none) with
    | some y => (x.copy y).chk
    | none => if x.inL2 then x.l2 else s.dramChecks l
/-- Lines that a range touches. -/
def linesOf (pa n : Nat) : List Nat := if n = 0 then [] else (List.range ((pa + n - 1) / 128 - pa / 128 + 1)).map (pa / 128 + ·)
/-- Whether what a reader gets at an address is uncorrectable or lost. -/
def State.uncFor (s : State) (c : Option Nat) (pa n : Nat) : Bool :=
  s.lost pa || (linesOf pa n).any fun l => (s.checksFor c l).unc &&& granulesIn l pa n != 0
/-- The same for a reader at the home slice. -/
def State.uncAt (s : State) (pa n : Nat) : Bool := s.uncFor none pa n

/-- A read at the home slice: the correctable granules that it touches are corrected and counted where they stand. -/
def State.correct (s : State) (pa n : Nat) : State :=
  match s.target pa with
  | .peer _ | .absent => s
  | .dram _ | .host _ =>
    (linesOf pa n).foldl (fun (s : State) l =>
      let m := granulesIn l pa n
      let x := s.line l
      match (if x.dirty then x.owner else none) with
      | some y => s.readL1 y l m
      | none => if x.inL2 then s.readL2 l m else s.readDram l m) s

/-- A read at the cluster's own copy, or at the home slice where its L1 does not hold the line. -/
def State.correctNear (s : State) (c pa n : Nat) : State :=
  match s.target pa with
  | .peer _ | .absent => s
  | .dram _ | .host _ =>
    if (s.line (pa / 128)).heldBy c then s.readL1 c (pa / 128) (granulesIn (pa / 128) pa n) else s.correct pa n

/-! ### Condition monitors (R350, R351, R353) -/

def Monitor.bytes (m : Monitor) : Nat := if m.wide then 8 else 4
def Monitor.word (m : Monitor) (s : State) : Word64 := u64 (s.readNat m.pa m.bytes)

/-- The comparison of R352, on 64-bit words (log 11). -/
def WaitCmp.holds (c : WaitCmp) (a b : Word64) : Bool :=
  match c with
  | .eq => a == b | .ne => a != b | .lts => a.slt b | .ges => !(a.slt b) | .ltu => a.ult b | .geu => !(a.ult b)
def Monitor.met (m : Monitor) (w : Word64) : Bool := WaitCmp.holds m.cmp (w &&& m.mask) (m.exp &&& m.mask)
def Monitor.same (a b : Monitor) : Bool := a.pack == b.pack && a.who == b.who && a.lanes == b.lanes

/-- What a unit delivers to a group that waits. -/
def Party.serve (p : Party) (lanes : Lanes) (vals : List Word64) : Party :=
  { p with groups := p.groups.map fun g =>
      if g.lanes = lanes then { g with wait := g.wait.map fun w => { w with served := some vals } } else g }

/-- A waiter is woken with a word and a status code: its entry is freed, or marked WOKEN while it is SAVED with its pack
(R354). -/
def State.wakeMonitor (s : State) (m : Monitor) (w : Word64) (code : Nat) : State :=
  let s := s.modParty m.pack m.who fun p => p.serve m.lanes [w, u64 code]
  if ((s.pack m.pack).map (·.state)) == some .saved && !(((s.party m.pack m.who).map (·.detached)).getD false) then
    { s with monitors := s.monitors.map fun x => if x.same m then { x with woken := true } else x }
  else { s with monitors := s.monitors.filter fun x => !x.same m }

/-- Live entries of a slice. -/
def State.sliceEntries (s : State) (slice : Nat) : List Monitor :=
  s.monitors.filter fun m => !m.overflow && s.sliceOf m.pa == slice

/-- R353: while a slice entry is free, the oldest overflow entry of that slice moves in, its line leaves every L1 (R351),
and it is evaluated once, unless a wake for it waits already (R354). -/
def State.moveIn (s : State) (slice : Nat) : Nat → State
  | 0 => s
  | k + 1 =>
    if 256 ≤ (s.sliceEntries slice).length then s
    else
      match s.monitors.find? fun m => m.overflow && s.sliceOf m.pa == slice with
      | none => s
      | some m =>
        let m' := { m with overflow := false }
        let s := ({ s with monitors := s.monitors.map fun (x : Monitor) => if x.same m then m' else x } : State).recall (m.pa / 128)
        let w := m'.word s
        (if !m.woken && m'.met w then s.wakeMonitor m' w 2 else s).moveIn slice k

/-- Entries are freed, and the slice entries among them are filled again (R353). -/
def State.freeMonitors (s : State) (gone : Monitor → Bool) : State :=
  let slices := ((s.monitors.filter fun m => gone m && !m.overflow).map fun m => s.sliceOf m.pa).eraseDups
  let s := { s with monitors := s.monitors.filter fun m => !gone m }
  slices.foldl (fun s x => s.moveIn x s.monitors.length) s

/-- The entries that a write to `n` bytes at `pa` evaluates, one after another (R353). -/
def State.evalMonitors (s : State) (pa n : Nat) : List Monitor → State
  | [] => s
  | m :: r =>
    let w := m.word s
    let touched := decide (m.pa < pa + n) && decide (pa < m.pa + m.bytes)
    let s' :=
      if m.woken || !m.met w then s
      else s.wakeMonitor m w (if m.overflow && !touched then 2 else 0)
    s'.evalMonitors pa n r

/-- A write has been made at the home slice: its line's entries and the overflow entries of its 2 MiB region are
evaluated, and freed slice entries are filled. -/
def State.notify (s : State) (pa n : Nat) : State :=
  let hit := s.monitors.filter fun m =>
    if m.overflow then s.homeDie m.pa == s.homeDie pa && m.pa / 2 ^ 21 == pa / 2 ^ 21 else m.pa / 128 == pa / 128
  if hit.isEmpty then s
  else (s.evalMonitors pa n hit).moveIn (s.sliceOf pa) (s.monitors.length)

/-- Bytes of a range have changed in one go: every entry of its lines, and every overflow entry of its regions, is evaluated,
and freed slice entries are filled. -/
def State.notifyRange (s : State) (pa n : Nat) : State :=
  let between (k a : Nat) : Bool := decide (pa / k ≤ a / k) && decide (a / k ≤ (pa + n - 1) / k)
  let hit := s.monitors.filter fun m =>
    if m.overflow then s.homeDie m.pa == s.homeDie pa && between (2 ^ 21) m.pa else between 128 m.pa
  if hit.isEmpty then s
  else
    ((hit.map fun m => s.sliceOf m.pa).eraseDups).foldl (fun s x => s.moveIn x s.monitors.length) (s.evalMonitors pa n hit)

/-! ### Writes and reads -/

/-- A line of the home slice before bytes of it are written there: the L1 copies recalled, the line in L2 where the hint
lets it be, the granules that are overwritten correct. -/
def State.openHome (s : State) (alloc : Bool) (pa n l : Nat) : State :=
  let s := s.recall l
  let whole := granulesOver l pa n
  if alloc || (s.line l).inL2 then
    let s := if whole = 15 then (if (s.line l).inL2 then s else s.roomL2 l) else s.fillL2 l
    let x := s.line l
    s.setLine l { x with inL2 := true, l2Dirty := true, l2 := x.l2.without whole }
  else s.setDramChecks l ((s.dramChecks l).without whole)
/-- A write at the home slice of bytes that land there as they come. -/
def State.landHome (s : State) (alloc : Bool) (pa : Nat) (bs : List Byte) : State :=
  let s := match s.target pa with
    | .dram _ | .host _ => (linesOf pa bs.length).foldl (fun (s : State) l => s.openHome alloc pa bs.length l) s
    | .peer _ | .absent => s
  (s.putHome pa bs).notify pa bs.length
/-- A write at the home slice: by far atomics, engines, hosts, the service firmware, and to a monitored line. Under
`.ONCE` a line that L2 does not hold goes to DRAM. -/
def State.writeHomeWith (s : State) (alloc : Bool) (pa : Nat) (bs : List Byte) : State :=
  s.landHome alloc pa (s.kept pa bs)
def State.writeHome (s : State) (pa : Nat) (bs : List Byte) : State := s.writeHomeWith true pa bs

/-- A write by a party of cluster `c`: in its L1, or at the home slice when the line is monitored, when the hint asks for
no allocation in an L1 that does not hold the line for writing, or when the window is a peer's (R204 to R206, R351). -/
def State.writeBy (s : State) (c pa : Nat) (h : Alloc) (bs : List Byte) : State :=
  match s.target pa with
  | .peer _ => s.putHome pa (s.kept pa bs)
  | .absent => s
  | .dram _ | .host _ =>
    let l := pa / 128
    if s.monitored l || (!h.l1 && !(s.line l).ownedBy c) then ((s.count c 5 1).writeHomeWith h.l2 pa bs).retain c l h
    else ((s.dirWrite c pa bs.length h).putCached pa (s.kept pa bs)).notify pa bs.length

/-- What a read by a party of cluster `c` does beside giving its bytes. -/
def State.readBy (s : State) (c pa n : Nat) (h : Alloc) : State :=
  match s.target pa with
  | .peer _ | .absent => s
  | .dram _ | .host _ => s.dirRead c pa n h

/-! ### Translation (R357 to R359) -/

/-- The kinds of access that R211 and R207 tell apart, with their codes in ACC (R327). -/
inductive Acc where
  | read | write | rmw | fetch | probeRead | probeWrite
deriving DecidableEq, Repr

def Acc.code : Acc → Nat
  | .read => 0 | .write => 1 | .rmw => 2 | .fetch => 3 | .probeRead => 4 | .probeWrite => 5
def Acc.writes : Acc → Bool
  | .write | .rmw | .probeWrite => true | .read | .fetch | .probeRead => false

/-! Fields of an entry. -/
def pteP (e : Word64) : Bool := e.getLsbD 0
def pteW (e : Word64) : Bool := e.getLsbD 1
def pteX (e : Word64) : Bool := e.getLsbD 2
def pteU (e : Word64) : Bool := e.getLsbD 3
def pteLeaf (e : Word64) : Bool := e.getLsbD 4
def pteSize (e : Word64) : Nat := (e.extractLsb' 5 2).toNat
def pteAddr (e : Word64) : Nat := (e.extractLsb' 8 44).toNat * 256
def pteHome (e : Word64) : Nat := (e.extractLsb' 56 4).toNat
def pteAttr (e : Word64) : Nat := (e.extractLsb' 60 4).toNat
/-- log2 of the page size of a leaf. -/
def pteLog (e : Word64) : Nat :=
  match pteSize e with | 0 => 16 | 1 => 21 | 2 => 25 | _ => 29

/-- The index of a level. -/
def pteIndex (level va : Nat) : Nat :=
  match level with
  | 0 => va / 2 ^ 42 % 1024 | 1 => va / 2 ^ 29 % 8192 | 2 => va / 2 ^ 21 % 256 | _ => va / 2 ^ 16 % 32
/-- The size of the table below a level. -/
def tableBelow (level : Nat) : Nat :=
  match level with | 0 => 65536 | 1 => 2048 | _ => 256
/-- HINT of a fault at a level (R359). -/
def pteHint (level : Nat) : Nat := match level with | 0 => 3 | 1 => 3 | 2 => 2 | _ => 0

/-- R358: a present entry that is malformed. -/
def pteBad (s : State) (level : Nat) (e : Word64) : Bool :=
  (e.extractLsb' 53 3) != 0#3 || decide (1 < pteAttr e) ||
  (if pteLeaf e then
     (match level with
      | 0 => true | 1 => pteSize e != 3 | 2 => !(pteSize e == 1 || pteSize e == 2) | _ => pteSize e != 0) ||
     pteAddr e % 2 ^ pteLog e != 0 ||
     (decide (pteAddr e < 2 ^ 40) && pteHome e != pteAddr e / 2 ^ 36)
   else
     decide (3 ≤ level) || pteAddr e % tableBelow level != 0 ||
     (match s.target (pteAddr e) with | .dram _ => false | .host _ | .peer _ | .absent => true))

/-- How a walk ends. -/
inductive WalkEnd where
  | missing (hint : Nat) | malformed | leaf
deriving DecidableEq, Repr

/-- R358: the walk from a table, over the levels that remain: how it ended, the address of the entry that ended it, and
the entry. -/
def walkFrom (s : State) (va : Nat) : Nat → Nat → Nat → WalkEnd × Nat × Word64
  | 0, _, _ => (.malformed, 0, 0)
  | k + 1, level, t =>
    let at' := t + 8 * pteIndex level va
    let e := u64 (s.readNat at' 8)
    if !pteP e then (.missing (pteHint level), at', e)
    else if pteBad s level e then (.malformed, at', e)
    else if pteLeaf e then (.leaf, at', e)
    else walkFrom s va k (level + 1) (pteAddr e)

/-- The addresses of the entries that the walk reads. -/
def walkReads (s : State) (va : Nat) : Nat → Nat → Nat → List Nat
  | 0, _, _ => []
  | k + 1, level, t =>
    let at' := t + 8 * pteIndex level va
    let e := u64 (s.readNat at' 8)
    at' :: (if !pteP e || pteBad s level e || pteLeaf e then [] else walkReads s va k (level + 1) (pteAddr e))

def State.context (s : State) (ctx : Nat) : Context :=
  rd { enabled := false, root := 0, share := 0, snap := false, area := 0, frozen := [], handles := [] } s.ctxs ctx
def State.setContext (s : State) (ctx : Nat) (x : Context) : State := { s with ctxs := cset s.ctxs ctx x }
/-- Contexts that hold pages: those that are enabled, and the service firmware's own from its first launch on (R303). -/
def State.contexts (s : State) : List (Nat × Context) := s.ctxs.filter fun e => e.2.enabled || (e.1 == 0 && e.2.root != 0)
def walk (s : State) (ctx va : Nat) : WalkEnd × Nat × Word64 := walkFrom s va 4 0 (s.context ctx).root
/-- The entries that a walk reads are corrected where they stand (R209). -/
def State.correctWalk (s : State) (ctx va : Nat) : State :=
  (walkReads s va 4 0 (s.context ctx).root).foldl (fun (s : State) a => s.correct a 8) s

/-- Who asks for a translation: its context and the TLBs on its way, nearest first (R359). -/
structure Asker where
  ctx : Nat
  cluster : Option Nat
  die : Nat
  units : List Nat
deriving DecidableEq, Repr

def quadUnit (pl : Place) : Nat := 1000 + 16 * pl.cluster + 4 * pl.core + pl.quad
/-- A warp or spine thread. -/
def askerOf (ctx : Nat) (pl : Place) (spine : Bool) : Asker :=
  { ctx, cluster := some pl.cluster, die := dieOf pl.cluster,
    units := (if spine then [] else [quadUnit pl]) ++ [100 + pl.cluster, dieOf pl.cluster] }
/-- A cluster's streamer, and an agent of a die. -/
def askerCluster (ctx c : Nat) : Asker := { ctx, cluster := some c, die := dieOf c, units := [100 + c, dieOf c] }
def askerDie (ctx d : Nat) : Asker := { ctx, cluster := none, die := d, units := [d] }

/-- Entries of a TLB (R359). -/
def tlbSize (unit : Nat) : Nat := if unit < 100 then 32768 else if unit < 1000 then 2048 else 64
def TlbEntry.hits (e : TlbEntry) (unit ctx va : Nat) : Bool :=
  e.unit == unit && e.ctx == ctx && e.va / 2 ^ e.log == va / 2 ^ e.log
def tlbFind (s : State) (unit ctx va : Nat) : Option TlbEntry := s.tlb.find? fun e => e.hits unit ctx va

/-- An entry enters a TLB; a full one drops its oldest (log 9). -/
def State.tlbFill (s : State) (e : TlbEntry) : State :=
  if (s.tlb.filter fun x => x.unit == e.unit).length < tlbSize e.unit then { s with tlb := s.tlb ++ [e] }
  else
    match s.tlb.find? fun x => x.unit == e.unit with
    | none => { s with tlb := s.tlb ++ [e] }
    | some old => { s with tlb := s.tlb.erase old ++ [e] }
def State.tlbFillAll (s : State) (units : List Nat) (ctx va log : Nat) (entry : Word64) : State :=
  units.foldl (fun s u => if (tlbFind s u ctx va).isSome then s else s.tlbFill { unit := u, ctx, va, log, entry }) s

/-- What a translation gives. -/
inductive Trans where
  | ok (pa : Nat) (entry : Word64) | fault (code sub hint : Nat)
deriving DecidableEq, Repr

def Flip.covers (f : Flip) (pa : Nat) : Bool := decide (f.pa ≤ pa) && decide (pa < f.pa + 2 ^ f.log)
/-- A page on its way to host ownership is present for nobody (R208). -/
def State.flipping (s : State) (pa : Nat) : Bool := s.flips.any fun f => f.covers pa
/-- HINT of a page of a size. -/
def hintOf (log : Nat) : Nat := if log < 21 then 0 else if log < 25 then 1 else if log < 29 then 2 else 3

/-- R207, R208, R358, R413: whether the page is there, the checks of its entry, then the absent status. -/
def permit (s : State) (va : Nat) (log : Nat) (e : Word64) (acc : Acc) : Trans :=
  let pa := pteAddr e / 2 ^ log * 2 ^ log + va % 2 ^ log
  if s.flipping pa then .fault 0x0B 0 (hintOf log)
  else if !pteU e || (acc.writes && !pteW e) || (acc == .fetch && !pteX e) then .fault 0x0C 1 0
  else if s.target pa = .absent then .fault 0x0C 3 0
  else .ok pa e

/-- R211, R358: a translation, with what it leaves in the TLBs and in the tables. -/
def translate (s : State) (a : Asker) (va : Nat) (acc : Acc) : State × Trans :=
  if 2 ^ 52 ≤ va then (s, .fault 0x0C 2 0)
  else
    let s := match a.cluster with
      | none => s
      | some c =>
        if (a.units.filter (100 ≤ ·)).any fun u => (tlbFind s u a.ctx va).isSome then s else s.count c 8 1
    match (a.units.filterMap fun u => tlbFind s u a.ctx va).head? with
    | some e => (s.tlbFillAll a.units a.ctx va e.log e.entry, permit s va e.log e.entry acc)
    | none =>
      let w := walk s a.ctx va
      let s := s.correctWalk a.ctx va
      match w with
      | (.missing hint, _, _) => (s, .fault 0x0B 0 hint)
      | (.malformed, _, _) => (s, .fault 0x0C 4 0)
      | (.leaf, at', e) =>
        match permit s va (pteLog e) e acc with
        | .fault c sub h => (s, .fault c sub h)
        | .ok pa _ =>
          let e' := e ||| u64 (128 + if acc.writes then 2 ^ 52 else 0)
          let s := if e' = e then s else s.writeHome at' (bytesOf 8 e'.toNat)
          (s.tlbFillAll a.units a.ctx va (pteLog e) e', .ok pa e')

/-- A fault of step 6 in one lane. -/
structure LaneFault where
  code : Nat
  sub : Nat
  addr : Word64
  hint : Nat
deriving DecidableEq, Repr

/-- Whether an access consumes the data (R209), and where it gets it: from its cluster's L1 as far as that holds the line,
or at the home slice. -/
inductive Consumes where
  | nothing | near | home
deriving DecidableEq, Repr
def State.consumed (s : State) (a : Asker) (k : Consumes) (pa n : Nat) : Bool :=
  match k with
  | .nothing => s.lost pa
  | .near => s.uncFor a.cluster pa n
  | .home => s.uncAt pa n

/-- R211: one access of `n` bytes, its faults in their order, and the physical address. -/
def access (s : State) (a : Asker) (va : Word64) (n : Nat) (acc : Acc) (k : Consumes) :
    State × Except LaneFault Nat :=
  if va.toNat % n ≠ 0 then (s, .error ⟨0x0D, 0, va, 0⟩)
  else
    match translate s a va.toNat acc with
    | (s, .fault c sub h) => (s, .error ⟨c, sub, va, h⟩)
    | (s, .ok pa _) =>
      if s.consumed a k pa n then (s, .error ⟨0x0F, 0, va, 0⟩) else (s, .ok pa)

/-- Bytes read and written through translation by a unit that has probed them before, page by page as they come; a page
that has gone gives none. -/
def vread (s : State) (a : Asker) (va n : Nat) : State × Option (List Byte) :=
  (List.range n).foldl (fun (acc : State × Option (List Byte)) i =>
    match acc with
    | (s, none) => (s, none)
    | (s, some bs) =>
      match translate s a ((va + i) % 2 ^ 64) .read with
      | (s, .fault _ _ _) => (s, none)
      | (s, .ok pa _) => (s.correct pa 1, some (bs ++ [s.byteAt pa]))) (s, some [])

end Sys2Proof.Machine
end

