-- ==== Sys2Proof/Machine/Units.lean ====
section
/-! DEFINITION. The units parties meet in: shared registers (spec/06), sync and barrier records (spec/04), named groups
(spec/12), batons (spec/10), the poster flags of Kelpie (spec/11), and how a group waits inside an instruction. -/

namespace Sys2Proof.Machine

/-! ### Waiting inside an instruction (R27) -/

/-- The issuing group stands inside its instruction. -/
def State.enterWait (s : State) (c : Cur) : State :=
  s.modParty c.pack c.who fun p =>
    { p with groups := p.groups.map fun g =>
        if g.lanes = c.lanes then
          { g with wait := some { regs := c.regs, port := c.port, kvals := c.kvals,
                                  served := if c.again then g.wait.bind (·.served) else none,
                                  kept := if c.again then ((g.wait.map (·.kept)).getD []) else [],
                                  probed := if c.again then g.wait.bind (·.probed) else none } }
        else g }

/-- R312: the words that the issuing group has read from memory at its issue. -/
def State.keep (s : State) (c : Cur) (ws : List Word64) : State :=
  s.modParty c.pack c.who fun p =>
    { p with groups := p.groups.map fun g =>
        if g.lanes = c.lanes then { g with wait := g.wait.map fun w => { w with kept := ws } } else g }
def State.keptFor (s : State) (c : Cur) : List Word64 :=
  ((((s.party c.pack c.who).bind fun p => p.groups.find? fun g => g.lanes == c.lanes).bind (·.wait)).map (·.kept)).getD []

/-- R262: the streamer command that the issuing group has checked or probed. -/
def State.keepCopy (s : State) (c : Cur) (x : Copy) : State :=
  s.modParty c.pack c.who fun p =>
    { p with groups := p.groups.map fun g =>
        if g.lanes = c.lanes then { g with wait := g.wait.map fun w => { w with probed := some x } } else g }
def State.keptCopy (s : State) (c : Cur) : Option Copy :=
  if c.again then
    (((s.party c.pack c.who).bind fun p => p.groups.find? fun g => g.lanes == c.lanes).bind (·.wait)).bind (·.probed)
  else none

/-- What a unit has delivered to the issuing group. -/
def State.servedFor (s : State) (c : Cur) : Option (List Word64) :=
  (((s.party c.pack c.who).bind fun p => p.groups.find? fun g => g.lanes == c.lanes).bind (·.wait)).bind (·.served)

/-! ### Combining (R187, R346) -/

/-- One combining step: `op` is a code of AOP, `ty` a code of ATYPE (R176). -/
def combine (op ty : Nat) (mode : Mode) (a b : Word64) : Word64 × Flags :=
  match ty with
  | 2 =>
    let (x, fl) := match op with
      | 0 => f32Add mode (a.toNat % 2 ^ 32) (b.toNat % 2 ^ 32)
      | 1 => f32Min (a.toNat % 2 ^ 32) (b.toNat % 2 ^ 32)
      | _ => f32Max (a.toNat % 2 ^ 32) (b.toNat % 2 ^ 32)
    (u64 x, fl)
  | _ =>
    let less := if ty = 1 then a.slt b else a.ult b
    (match op with
     | 0 => a + b
     | 1 => if less then a else b
     | 2 => if less then b else a
     | 3 => a &&& b
     | 4 => a ||| b
     | _ => a ^^^ b, 0)

/-! ### Shared registers (R175 to R181) -/

/-- R179: a request served at once, with what it returns; none where the cell says "waits". -/
def KReg.serve (k : KReg) (r : KReq) : Option (KReg × List Word64) :=
  match k.st, r with
  | .empty, .put v c => some ({ k with st := .full, val := v, cnt := c, fx := 0 }, [])
  | .empty, .arm id n rc op ty mode =>
    let id := if ty = 2#2 then id.setWidth 32 |>.setWidth 64 else id
    if n = 0 then some ({ k with st := .full, val := id, cnt := rc, fx := 0 }, [])
    else some ({ k with st := .armed, val := id, cnt := n, aop := op, atype := ty, armode := mode, rc := rc, fx := 0 }, [])
  | .armed, .red x =>
    let (v, fl) := combine k.aop.toNat k.atype.toNat (Mode.ofCode k.armode) k.val x
    if k.cnt = 1 then
      some ({ k with st := .full, val := v, fx := k.fx ||| fl, cnt := k.rc, aop := 0, atype := 0, armode := 0, rc := 0 }, [])
    else some ({ k with val := v, fx := k.fx ||| fl, cnt := k.cnt - 1 }, [])
  | .full, .get =>
    some (if k.cnt = 1 then { k with st := .empty, cnt := 0 } else if k.cnt = 0 then k else { k with cnt := k.cnt - 1 },
      [k.val])
  | .full, .peek => some (k, [k.val])
  | _, _ => none

/-- The KCLR column of R179. On an EMPTY register it changes nothing, FX included: R179's cell is followed, not R176's
sentence that KCLR sets FX to 0 (DESIGN CHOICE, log 68). -/
def KReg.clear (k : KReg) : KReg :=
  match k.st with
  | .empty => k
  | .armed | .full => { KReg.zero with queue := k.queue }

/-- The first waiter whose condition holds. -/
def KReg.pick (k : KReg) : List KWait → Option (KWait × KReg × List Word64)
  | [] => none
  | w :: r =>
    match k.serve w.req with
    | some (k', vals) => some (w, k', vals)
    | none => k.pick r

def State.kreg (s : State) (u n : Nat) : KReg := rd KReg.zero (((s.pack u).map (·.kregs)).getD []) n
def State.setKreg (s : State) (u n : Nat) (k : KReg) : State :=
  s.modPack u fun p => { p with kregs := wr KReg.zero p.kregs n k }

/-- R177: the scan, until no entry's condition holds. -/
def State.kScan (s : State) (u n : Nat) : Nat → State
  | 0 => s
  | fuel + 1 =>
    let k := s.kreg u n
    match k.pick k.queue with
    | none => s
    | some (w, k', vals) =>
      let s := s.setKreg u n { k' with queue := k.queue.erase w }
      (s.modParty u w.who fun p => p.serve w.lanes vals).kScan u n fuel

/-- R177: a request arrives. It is served, and the queue scanned, or it is appended. -/
def State.kRequest (s : State) (u n who : Nat) (lanes : Lanes) (r : KReq) : State × Option (List Word64) :=
  let k := s.kreg u n
  match k.serve r with
  | some (k', vals) => ((s.setKreg u n k').kScan u n k.queue.length, some vals)
  | none => (s.setKreg u n { k with queue := k.queue ++ [{ who, lanes, req := r }] }, none)

/-- R181: the entries of a party that is killed are removed. -/
def State.kForget (s : State) (u who : Nat) : State :=
  let without (k : KReg) : KReg := { k with queue := k.queue.filter fun w => w.who != who }
  s.modPack u fun p => { p with kregs := (p.kregs.map fun e => (e.1, without e.2)).filter fun e => e.2 != KReg.zero }

/-! ### Lanes and warps that are live -/

def Party.ended (p : Party) : Bool :=
  match p.life with | .exited | .killed => true | .running | .migrating _ => false

/-- Parties of a workgroup that have not ended. -/
def Pack.liveWarps (p : Pack) (wg : Nat) : List Nat :=
  (p.parties.filter fun e => e.1 / 16 == wg && e.1 != spineWho && !e.2.ended).map (·.1)

/-! ### Sync records (R141) -/

/-- Groups that wait inside an instruction with some of these lanes may leave it. -/
def Party.release (p : Party) (lanes : Lanes) : Party :=
  { p with groups := p.groups.map fun g =>
      if g.lanes &&& lanes ≠ 0 then { g with wait := g.wait.map fun w => { w with served := some [] } } else g }

/-- Records whose lanes have all joined or ceased to be live are closed, and their lanes released. -/
def Party.closeSyncs (p : Party) : Party :=
  let closed (r : SyncRec) : Bool := r.mask &&& p.live &&& ~~~r.arrived == 0
  let out := (p.syncs.filter closed).foldl (fun m r => m ||| r.arrived) 0
  { p with syncs := p.syncs.filter fun r => !closed r }.release out

/-! ### The workgroup barrier (R143) -/

/-- Whether warp `w` of a workgroup lets the barrier pass: it has arrived, ended or detached, or does not exist. -/
def Pack.barPassed (p : Pack) (wg w : Nat) (lanes : Lanes) : Bool :=
  match cget p.parties (16 * wg + w) with
  | none => true
  | some x => x.ended || x.detached || (x.live != 0 && (x.live &&& ~~~lanes) == 0)

/-- The record is cleared when every warp its mask names has passed. -/
def Pack.closeBar (p : Pack) (wg : Nat) : Pack :=
  match cget p.bars wg with
  | none => p
  | some b =>
    match b.mask with
    | none => p
    | some m =>
      if (List.range 16).all fun w => !m.getLsbD w || p.barPassed wg w (rd 0 b.lanes w) then
        { p with
          bars := cdel p.bars wg
          parties := p.parties.map fun (e : Nat × Party) =>
            if e.1 / 16 = wg ∧ e.1 ≠ spineWho then (e.1, e.2.release (rd 0 b.lanes (e.1 % 16))) else e }
      else p
def State.closeBar (s : State) (u wg : Nat) : State := s.modPack u fun p => p.closeBar wg

/-! ### Named groups (R330 to R349) -/

def State.group (s : State) (g : Nat) : GroupEntry := rd GroupEntry.zero s.groups g
def State.setGroup (s : State) (g : Nat) (x : GroupEntry) : State := { s with groups := wr GroupEntry.zero s.groups g x }

def GroupEntry.current (x : GroupEntry) : List Member := x.members.filter fun m => !m.pending

/-- R341: the kind of an execution, as OP × 4096 + SUB × 256 + TYPE × 16 + RM. -/
def kindOf (op sub ty rm : Nat) : Nat := op * 4096 + sub * 256 + ty * 16 + rm

/-- R241: the scope code of the members' clusters; 0 where there is no member, as in a group just created (R347). -/
def scopeOf (clusters : List Nat) : Nat :=
  match clusters with
  | [] => 0
  | c :: r =>
    if r.all (· == c) then 1 else if r.all fun x => dieOf x == dieOf c then 2 else 3
def State.clusterOf (s : State) (u who : Nat) : Nat := ((s.party u who).map (·.place.cluster)).getD 0
def State.groupScope (s : State) (ms : List Member) : Nat := scopeOf (ms.map fun m => s.clusterOf m.pack m.who)

/-- R345, R346: the result of a phase from the arrived contributions in ascending member index. -/
def phaseResult (kind : Nat) (xs : List Word64) : Word64 × Flags :=
  let sub := kind / 256 % 16
  let ty := if kind / 16 % 16 = 6 then 2 else if kind / 16 % 16 = 2 then 1 else 0
  let mode : Mode := match kind % 16 with | 2 => .rtz | 3 => .rup | 4 => .rdn | _ => .rne
  match kind / 4096 with
  | 0xD4 =>
    let n := (xs.filter (· != 0)).length
    (match sub with
     | 0 => if n = 0 then 0 else 1
     | 1 => if n = xs.length then 1 else 0
     | _ => u64 n, 0)
  | 0xD5 =>
    match xs with
    | [] => (0, 0)
    | x :: r =>
      let x := if ty = 2 then x.setWidth 32 |>.setWidth 64 else x
      r.foldl (fun (acc : Word64 × Flags) y =>
        let (z, fl) := combine sub ty mode acc.1 y
        (z, acc.2 ||| fl)) (x, 0)
  | _ => (0, 0)

/-- Members in ascending index. -/
def insertMember (m : Member) : List Member → List Member
  | [] => [m]
  | x :: r => if m.index < x.index then m :: x :: r else x :: insertMember m r
def sortMembers (ms : List Member) : List Member := ms.foldl (fun acc m => insertMember m acc) []

/-- R338. -/
def phaseStatus (phase : BitVec 32) (fx : Flags) (scope arrived fdep dep code : Nat) : Word64 :=
  u64 (phase.toNat % 65536 * 2 ^ 48 + fx.toNat * 2 ^ 35 + scope % 8 * 2 ^ 32 + arrived % 256 * 2 ^ 24 +
    fdep % 256 * 2 ^ 16 + dep % 256 * 256 + code)

/-- The PC groups of a member that wait are given a result and a status word. -/
def State.release (s : State) (m : Member) (vals : List Word64) : State :=
  m.waits.foldl (fun s l => s.modParty m.pack m.who fun p => p.serve l vals) s

/-- R337: the member has arrived when every live lane of its mask has executed. -/
def State.memberArrived (s : State) (m : Member) : Bool :=
  match s.party m.pack m.who with
  | none => false
  | some p => (m.mask &&& p.live) != 0 && (m.mask &&& p.live &&& ~~~m.lanes) == 0

/-- R336: phases complete as long as they can. -/
def State.groupAdvance (s : State) (g : Nat) : Nat → State
  | 0 => s
  | fuel + 1 =>
    let x := s.group g
    let x := { x with members := x.members.map fun m => { m with arrived := s.memberArrived m } }
    let cur := x.current
    let pend := x.members.filter (·.pending)
    if (cur.isEmpty && !pend.isEmpty) || (!cur.isEmpty && cur.all (·.arrived)) then
      let kind := x.kind.getD 0
      let (r, fx) := phaseResult kind ((sortMembers cur).map fun m => m.contrib.getD 0)
      let st := phaseStatus x.phase fx (s.groupScope cur) cur.length x.fdepNow x.dep 0
      let s := cur.foldl (fun s m => s.release m [r, st]) s
      let done (m : Member) : Member :=
        if m.pending then { m with pending := false }
        else { m with lanes := 0, arrived := false, contrib := none, waits := [] }
      (s.setGroup g { x with phase := x.phase + 1, kind := x.nextKind, nextKind := none, members := x.members.map done,
                             dep := 0, fdepNow := 0 }).groupAdvance g fuel
    else s.setGroup g x
def State.advance (s : State) (g : Nat) : State := s.groupAdvance g ((s.group g).members.length + 1)

/-- R334: an entry becomes FREE with the next generation. -/
def GroupEntry.freed (x : GroupEntry) : GroupEntry := { GroupEntry.zero with gen := x.gen + 1 }

/-- The status word of a member that departs while it waits: CODE LEFT, reserved bits 0, a SCOPE code of R338; the other
fields are free (log 13). -/
def leftWord (phase : BitVec 32) : Word64 :=
  let f := Config.leftFields phase
  let n (lo bits : Nat) : Nat := (f.extractLsb' lo bits).toNat
  u64 (n 0 16 * 2 ^ 48 + n 16 5 * 2 ^ 35 + (1 + n 21 11 % 3) * 2 ^ 32 + n 32 24 * 256 + 2)

/-- R339, R344: a party departs; `fault` says by fatal fault. -/
def State.depart (s : State) (g u who : Nat) (fault : Bool) : State :=
  let x := s.group g
  match x.members.find? fun m => m.pack == u && m.who == who with
  | none => s
  | some m =>
    let x := { x with members := x.members.filter fun y => !(y.pack == u && y.who == who) }
    let x :=
      if m.pending then x
      else
        { x with dep := x.dep + 1, fdepNow := x.fdepNow + (if fault then 1 else 0), fdep := x.fdep || fault,
                 lastf := if fault then BitVec.ofNat 8 m.index else x.lastf }
    let s := s.release m [Config.leftResult x.phase, leftWord x.phase]
    if x.st == .closing && x.members.isEmpty then s.setGroup g x.freed
    else (s.setGroup g x).advance g

/-- The groups a party belongs to (R335). -/
def State.groupsOf (s : State) (u who : Nat) : List Nat :=
  (s.groups.filter fun e => e.2.members.any fun m => m.pack == u && m.who == who).map (·.1)
def State.departAll (s : State) (u who : Nat) (fault : Bool) : State :=
  (s.groupsOf u who).foldl (fun s g => s.depart g u who fault) s

/-- R337, R339: lanes of a warp have ended: a member whose mask has no live lane departs, the others may have arrived. -/
def State.lanesEnded (s : State) (u who : Nat) : State :=
  let live := ((s.party u who).map (·.live)).getD 0
  (s.groupsOf u who).foldl (fun s g =>
    match (s.group g).members.find? fun m => m.pack == u && m.who == who with
    | none => s
    | some m => if m.mask &&& live = 0 then s.depart g u who false else s.advance g) s

/-! ### Batons (R294) -/

/-- The member that follows a workgroup in ring order. -/
def Baton.next (b : Baton) (wg : Nat) : Nat :=
  match b.members.find? (wg < ·) with
  | some x => x
  | none => (b.members.head?).getD wg

/-- A member workgroup ends: its place in the ring, and the baton, pass on without release. -/
def Baton.drop (b : Baton) (wg : Nat) : Option Baton :=
  let rest := { b with members := b.members.filter (· != wg) }
  if rest.members.isEmpty then none
  else if b.holder = wg then some { rest with holder := rest.next wg, taken := false }
  else some rest
def batonWord (holder code : Nat) : Word64 := u64 (holder % 8 * 256 + code)
/-- The holder's BTAKE: the ring after it, and the status. -/
def Baton.take (b : Baton) : Baton × Word64 := ({ b with taken := true }, batonWord b.holder (if b.taken then 1 else 0))
/-- Waiting BTAKEs of a workgroup that has become the holder are served at once, in the order in which they came. -/
def Pack.serveBaton (p : Pack) (core : Nat) : Pack :=
  match cget p.batons core with
  | none => p
  | some b =>
    let mine := b.waits.filter fun (x : Nat × Lanes) => x.1 / 16 == b.holder
    let b := { b with waits := b.waits.filter fun (x : Nat × Lanes) => x.1 / 16 != b.holder }
    mine.foldl (fun (p : Pack) (x : Nat × Lanes) =>
      let (b, w) := ((cget p.batons core).getD b).take
      { p with batons := cset p.batons core b
               parties := p.parties.map fun (e : Nat × Party) => if e.1 = x.1 then (e.1, e.2.serve x.2 [w]) else e })
      { p with batons := cset p.batons core b }
/-- The ring of a core passes on. -/
def Pack.dropBaton (p : Pack) (wg : Nat) : Pack :=
  let p := { p with batons := p.batons.filterMap fun (e : Nat × Baton) =>
    if e.2.members.contains wg then (e.2.drop wg).map fun b => (e.1, b) else some e }
  (p.batons.map (·.1)).foldl Pack.serveBaton p

/-! ### Kelpie's batches and posters (R320, R321) -/

/-- The key of a context's share group: 256 + tag for a private one. -/
def State.shareKey (s : State) (ctx : Nat) : Nat :=
  let g := (s.context ctx).share
  if g = 0 then 256 + ctx else g

/-- The key of a poster's share group (R320). -/
def Poster.key (x : Poster) : Nat := if x.share = 0 then 256 + x.ctx else x.share

/-- R321: a non-empty open batch closes when every poster of its group has its flag set. -/
def State.closeBatch (s : State) (d key : Nat) : State :=
  let x := s.die d
  let mine := x.posters.filter fun e => e.2.key == key
  let closes (b : Batch) : Bool := b.group == key && b.st == .opened && !b.rows.isEmpty
  if mine.all (·.2.flag) && x.batches.any closes then
    s.setDie d
      { x with batches := x.batches.map (fun b => if closes b then { b with st := .ready } else b),
               posters := x.posters.map fun e => if e.2.key == key then (e.1, { e.2 with flag := false }) else e }
  else s

/-- A retiring pack's posters leave. -/
def State.postersLeave (s : State) (u : Nat) : State :=
  (List.range 8).foldl (fun s d =>
    let gone := (s.die d).posters.filter fun e => e.2.pack == u
    let s := s.modDie d fun x => { x with posters := x.posters.filter fun e => e.2.pack != u }
    gone.foldl (fun s e => s.closeBatch d e.2.key) s) s

end Sys2Proof.Machine
end

