-- ==== Sys2Proof/Machine/Life.lean ====
section
/-! DEFINITION. How parties and packs end (spec/01, R35, R40, R41; spec/15, R418, R426) and how a replayable fault enters
the fault queue (spec/11, R327, R328). -/

namespace Sys2Proof.Machine

/-! ### The fault queue (R327, R328) -/

/-- log2 of the granule that a HINT codes. -/
def granule (hint : Nat) : Nat := match hint with | 0 => 16 | 1 => 21 | 2 => 25 | _ => 29

def FaultEntry.covers (e : FaultEntry) (ctx : Nat) (va : Word64) : Bool :=
  e.ctx == ctx && e.va.toNat / 2 ^ granule e.hint.toNat == va.toNat / 2 ^ granule e.hint.toNat

/-- A requester joins an open entry, or its own entry waits to be written. -/
def Die.postFault (d : Die) (e : FaultEntry) : Die :=
  let join (x : FaultEntry) : FaultEntry := { x with merge := x.merge + 1, list := x.list ++ e.list }
  let f (l : List FaultEntry) := l.map fun x => if x.covers e.ctx e.va then join x else x
  if d.faults.any fun x => x.covers e.ctx e.va then { d with faults := f d.faults }
  else if d.faultWait.any fun x => x.covers e.ctx e.va then { d with faultWait := f d.faultWait }
  else { d with faultWait := d.faultWait ++ [e] }

/-- A fault is posted on a die; the MERGE of an entry that stands in memory already is written there (R327). -/
def State.postFault (s : State) (d : Nat) (e : FaultEntry) : State :=
  let s := s.modDie d fun x => x.postFault e
  match (s.die d).faults.find? fun x => x.covers e.ctx e.va && x.place != 0 with
  | none => s
  | some x => s.writeHome (x.place + 0x14) (bytesOf 2 x.merge)

/-- ACC of a fault (R327): requester class and access. -/
def accOf (cls acc : Nat) : BitVec 8 := BitVec.ofNat 8 (cls * 8 + acc)

def faultOf (va : Word64) (lanes : Lanes) (req : BitVec 16) (ctx : Nat) (acc : BitVec 8) (hint : Nat)
    (r : Requester) : FaultEntry :=
  { va, lanes, seq := 0, merge := 1, req, ctx, acc, hint := BitVec.ofNat 8 hint, list := [r], place := 0 }

/-- The dispatcher's or Kelpie's own entry (R306, R324), with the access that met the missing page (R327). -/
def State.agentFault (s : State) (d ctx acc : Nat) (va : Word64) (hint : Nat) : State :=
  s.postFault d (faultOf va 0 (BitVec.ofNat 16 d) ctx (accOf 3 acc) hint .agent)

/-- Whether an agent of the die waits for the page of an address already. -/
def State.asking (s : State) (d ctx : Nat) (va : Word64) : Bool :=
  ((s.die d).faults ++ (s.die d).faultWait).any fun e => e.covers ctx va && e.list.contains .agent

/-- A killed party leaves the replay lists; MERGE is not lowered (R426). -/
def State.forgetFaults (s : State) (u who : Nat) : State :=
  let keep : Requester → Bool
    | .party p w _ => !(p == u && w == who)
    | .copy _ _ | .agent => true
  let f (l : List FaultEntry) := l.map fun e => { e with list := e.list.filter keep }
  (List.range 8).foldl (fun s d => s.modDie d fun x => { x with faults := f x.faults, faultWait := f x.faultWait }) s

/-! ### Words that a die's agents write -/

/-- What became of an agent's write (R306, R324). -/
inductive AgentWrite where
  | done | page (hint : Nat) | dropped
deriving DecidableEq, Repr

/-- A 64-bit write at the home slice by an agent of die `d` acting for a context. -/
def State.agentWord (s : State) (d ctx : Nat) (va w : Word64) (orIn : Bool) : State × AgentWrite :=
  match translate s (askerDie ctx d) va.toNat .write with
  | (s, .fault 0x0B _ h) => (s, .page h)
  | (s, .fault _ _ _) => (s, .dropped)
  | (s, .ok pa _) =>
    if s.lost pa then (s, .dropped)
    else
      let v := if orIn then u64 (s.readNat pa 8) ||| w else w
      let s := if orIn then s.correct pa 8 else s
      (s.writeHome pa (bytesOf 8 v.toNat), .done)

/-- The write is made, or is kept until its page is there. -/
def State.agentPost (s : State) (d : Nat) (x : StatusWrite) : State :=
  match s.agentWord d x.ctx x.va x.word x.orIn with
  | (s, .done) | (s, .dropped) => s
  | (s, .page h) =>
    (s.agentFault d x.ctx (if x.orIn then Acc.rmw.code else Acc.write.code) x.va h).modDie d fun y =>
      { y with statusWrites := y.statusWrites ++ [x] }

/-! ### Kill records (R418) -/

/-- The record of a party, with the cause that ended it. -/
def State.killRecord (s : State) (u who : Nat) (xpc xaddr : Word64) (xcause : Word32) (whole : Bool) : State :=
  match s.pack u, s.party u who with
  | some pk, some p =>
    let d := dieOf p.place.cluster
    let spine := who == spineWho
    let fl := (if spine then 1 else 0) + (if whole then 2 else 0)
    s.modDie d fun x =>
      { x with killSeq := x.killSeq + 1,
               kills := x.kills ++ [{ pack := u, xpc, xaddr, xcause, req := reqOf p.place spine, ctx := pk.ctx,
                                      flags := BitVec.ofNat 8 fl, seq := x.killSeq }] }
  | _, _ => s

/-! ### Retirement -/

/-- What a pack still has under way: copies, engine commands and lane copies. -/
def State.outstanding (s : State) (u : Nat) : Bool :=
  match s.pack u with
  | none => false
  | some p =>
    let c := s.cluster p.cluster
    !p.lcopies.isEmpty || c.copies.any (·.pack == u) || c.cmds.any (·.pack == u)

/-- Kill records of the pack that are not written yet (R418). -/
def State.killPending (s : State) (u : Nat) : Bool :=
  (List.range 8).any fun d => (s.die d).kills.any (·.pack == u)

/-- A pack on a cluster: RESIDENT or DRAINING, or RETIRED by E6 while a kill record keeps its resources. -/
def Pack.onCluster (p : Pack) : Bool :=
  match p.state with
  | .resident | .draining => true
  | .retired => !p.gone
  | .waiting | .placeable | .saved => false

/-- Whether the units of its workgroups are a pack's: it is on the cluster, or something of it is still under way there. -/
def Pack.keepsUnits (k : Pack) : Bool := k.onCluster || k.state == .retired
/-- A cluster's queue has no room (R310). -/
def State.noRoom (s : State) (cl : Nat) : State :=
  s.modDie (dieOf cl) fun x => { x with gained := x.gained.filter (· != cl) }
/-- The task bank is cleared when its queue is empty and no task pack is resident on the cluster (R304). -/
def State.clearTaskBank (s : State) (c : Nat) : State :=
  if (s.cluster c).tasks.isEmpty && !(s.packs.any fun e => e.2.onCluster && e.2.cluster == c && pkTaskp e.2.packet) then
    (s.modCluster c fun x => { x with taskBank := none }).noRoom c
  else s

/-- A RETIRED pack is forgotten when its kill records are written and nothing of it is under way. -/
def State.sweep (s : State) (u : Nat) : State :=
  match s.pack u with
  | none => s
  | some p =>
    if p.state == .retired && !s.killPending u && !s.outstanding u then
      ({ s with packs := cdel s.packs u }).clearTaskBank p.cluster
    else s

/-- An entry or a lane copy that uses the scratchpad of a workgroup: a copy between global addresses uses one only for its
transfer counter (R257). -/
def Copy.inPad (c : Copy) (wg : Nat) : Bool := (c.kind != .g2g || c.counter.isSome) && c.wg == wg
/-- Whether a workgroup's scratchpad is still in use: by a live warp, or by a copy, a lane copy or a command, which run to
completion before it is reclaimed (R275, R297, R426). -/
def State.padInUse (s : State) (u : Nat) (p : Pack) (wg : Nat) : Bool :=
  let c := s.cluster p.cluster
  !(p.liveWarps wg).isEmpty || p.lcopies.any (fun x => x.who / 16 == wg && x.who != spineWho) ||
    (p.copies ++ c.copies).any (fun x => x.pack == u && x.inPad wg) ||
    (p.cmds ++ c.cmds).any (fun x => x.pack == u && (x.wgs.contains wg || x.home == wg)) ||
    c.joins.any (fun e => e.2.owner == u)
/-- What a pack that retires by E6 has under way is cancelled (R275, R297). -/
def State.cancelWork (s : State) (u : Nat) (p : Pack) : State :=
  (s.modPack u fun p => { p with lcopies := [], copies := [], cmds := [] }).modCluster p.cluster fun c =>
    { c with copies := c.copies.filter (·.pack != u), cmds := c.cmds.filter (·.pack != u) }

/-- A pack retires: by E5, or by E6 when `killed` (R35, R306). By E5 its hardware thread and its warp slots are free at
once, and the units of a workgroup as soon as nothing under way uses them (R426). -/
def State.retirePack (s : State) (u : Nat) (killed : Bool) : State :=
  match s.pack u with
  | none => s
  | some p =>
    let away := match p.state with
      | .waiting | .placeable | .saved => true
      | .resident | .draining | .retired => false
    let s := if killed then s.cancelWork u p else s
    let s := s.modCluster p.cluster fun c =>
      { c with joins := c.joins.filter (·.2.owner != u), heaps := c.heaps.filter (·.2.owner != u), -- log 70
               arrivals := c.arrivals.filter (·.1.pack != u) }
    let s := s.modPack u fun p =>
      { p with state := .retired, victimOf := none, reserved := none, holds := [], deposits := [], joins := [], heaps := [],
               gone := away || !killed,
               spads := if away then [] else if killed then p.spads else p.spads.filter fun e => s.padInUse u p e.1 }
    let s := s.freeMonitors fun m => m.pack == u
    let s := s.postersLeave u
    let s := match cget s.launches p.launch with
      | none => s
      | some l => { s with launches := cset s.launches p.launch { l with left := l.left - 1, broken := l.broken || killed } }
    let s :=
      if killed || pkBmap p.packet == 0 then s
      else
        s.agentPost p.die { ctx := p.ctx, va := pkBmap p.packet + u64 (8 * (p.num / 64)),
                            word := u64 (2 ^ (p.num % 64)), orIn := true }
    -- R457: the packs that were pre-empted for this one are so no longer
    let free (x : Pack) : Pack := if x.victimOf == some u then { x with victimOf := none } else x
    let s := { s with packs := s.packs.map fun (e : Nat × Pack) => (e.1, free e.2) }
    s.sweep u

/-- R194: the units of a workgroup that has ended are freed when nothing uses them any more. -/
def State.freePads (s : State) (u : Nat) : State :=
  match s.pack u with
  | none => s
  | some p =>
    match p.state with
    | .resident => s.setPack u { p with spads := p.spads.filter fun e => s.padInUse u p e.1 }
    | .retired =>
      if p.gone then s.setPack u { p with spads := p.spads.filter fun e => s.padInUse u p e.1 } else s
    | .waiting | .placeable | .draining | .saved => s

/-- E5: the spine thread and every warp have ended. What a RETIRED pack still has under way goes on, and the pack is
forgotten with the last of it. -/
def State.tryRetire (s : State) (u : Nat) : State :=
  let s := s.freePads u
  match s.pack u with
  | none => s
  | some p =>
    match p.state with
    | .resident | .draining => if p.parties.all fun e => e.2.ended then s.retirePack u false else s
    | .retired => s.sweep u
    | .waiting | .placeable | .saved => s

/-! ### The end of a workgroup (R426) -/

/-- Whether a command uses the scratchpad of a workgroup. -/
def EngCmd.uses (c : EngCmd) (u wg : Nat) : Bool := c.pack == u && (c.wgs.contains wg || c.home == wg)

/-- Lane copies of a killed workgroup are cancelled; any of them may have landed before (R224; log 7). -/
def LaneCopy.cancelled (x : LaneCopy) (wg : Nat) : Bool := x.who / 16 == wg && x.who != spineWho

/-- The last live warp of a workgroup has ended. -/
def State.releaseGroup (s : State) (u wg : Nat) (killed : Bool) : State :=
  let s := s.modPack u fun p => p.dropBaton wg
  if !killed then s
  else
    match s.pack u with
    | none => s
    | some p =>
      let mine (c : Copy) : Bool := c.pack == u && (c.inPad wg || (c.who != spineWho && c.who / 16 == wg))
      let stop (c : Copy) : Copy := if mine c && c.ended.isNone then { c with ended := some 1 } else c
      let drop (c : EngCmd) : EngCmd := if c.uses u wg then { c with discard := true } else c
      let late (j : Join) : Join := { j with cmd := j.cmd.map drop }
      let s := s.modCluster p.cluster fun c =>
        { c with copies := c.copies.map stop, cmds := c.cmds.map drop,
                 joins := c.joins.map fun (e : Nat × Join) => (e.1, late e.2) }
      s.modPack u fun p => { p with lcopies := p.lcopies.filter fun x => !x.cancelled wg,
                                    copies := p.copies.map stop, cmds := p.cmds.map drop }

/-! ### Requests to sequence slots (R365) -/

/-- The requests of a party that wait for a slot are withdrawn. -/
def State.slotForget (s : State) (gone : SlotWait → Bool) : State :=
  let without (x : Slot) : Slot := { x with queue := x.queue.filter fun w => !gone w }
  { s with slots := (s.slots.map fun (e : Nat × Slot) => (e.1, without e.2)).filter fun e => e.2 != Slot.zero }

/-! ### The end of a party -/

/-- A party ends by EXIT or by a kill (R40, R41, R426), its pack aside. -/
def State.endParty (s : State) (u who : Nat) (killed : Bool) : State :=
  -- a warp that waits to land has left its slot (R427)
  let away (p : Party) : Bool := match p.life with | .migrating _ => killed | .running | .exited | .killed => false
  let s := s.modParty u who fun p =>
    { p with life := if killed then .killed else .exited, groups := [], evicted := p.evicted || away p }
  let s := s.departAll u who killed
  let s := s.freeMonitors fun m => m.pack == u && m.who == who
  let s := s.kForget u who
  let s := s.slotForget fun w => w.pack == u && w.who == who
  let s := if killed then s.forgetFaults u who else s
  let noWait (b : Baton) : Baton := { b with waits := b.waits.filter fun x => x.1 != who }
  let s := match s.pack u with
    | none => s
    | some p => s.modCluster p.cluster fun x =>
        { x with arrivals := x.arrivals.filter fun y => !(y.1.pack == u && y.1.who == who && y.2 != 0) }
  let s := s.modPack u fun p =>
    { p with batons := p.batons.map (fun (e : Nat × Baton) => (e.1, noWait e.2)), lcopies := p.lcopies.map fun x => if x.who == who then { x with lapsed := true } else x }
  if who = spineWho then s
  else
    let s := s.closeBar u (who / 16)
    let s :=
      if (((s.pack u).map fun p => p.liveWarps (who / 16)).getD [0]).isEmpty then s.releaseGroup u (who / 16) killed
      else s
    if killed then
      match s.pack u with
      | none => s
      | some p =>
        match cget s.launches p.launch with
        | none => s
        | some l => { s with launches := cset s.launches p.launch { l with killed := l.killed + 1 } }
    else s

/-- The PC that a kill record gives for a party killed with its pack (R418). -/
def Party.killPc (p : Party) : Word64 := p.pcOf (lowLane p.live)

/-- E6: a pack is killed, with KILL sub-code `sub`; `but` has its own record (R35, R418, R426). -/
def State.killPack (s : State) (u sub : Nat) (but : Option Nat) : State :=
  match s.pack u with
  | none => s
  | some p =>
    let count (s : State) (n : Nat) : State :=
      match cget s.launches p.launch with
      | none => s
      | some l => { s with launches := cset s.launches p.launch { l with killed := l.killed + n } }
    match p.state with
    | .retired => (s.cancelWork u p).freePads u |>.sweep u
    | .waiting | .placeable => (count s (pkWarps p.packet * pkGroups p.packet)).retirePack u true
    | .resident | .draining | .saved =>
      let live := p.parties.filter fun e => !e.2.ended
      let s := live.foldl (fun s e =>
        if but == some e.1 then s
        else s.killRecord u e.1 e.2.killPc 0 (BitVec.ofNat 32 (0x15 + 256 * sub)) true) s
      let s := live.foldl (fun s e => s.endParty u e.1 true) s
      -- a SAVED pack's warps held no slot when they were killed
      let slotless (x : Party) : Party := if p.state == .saved && !x.detached then { x with evicted := true } else x
      (s.modPack u fun k => { k with parties := k.parties.map fun (e : Nat × Party) => (e.1, slotless e.2) }).retirePack u true

/-- R40, R416: a fatal fault. In a warp it kills the warp, in the spine thread its pack. -/
def State.fatal (s : State) (u who : Nat) (xpc xaddr : Word64) (xcause : Word32) : State :=
  if who = spineWho then
    (s.killRecord u who xpc xaddr xcause true).killPack u 4 (some who)
  else
    ((s.killRecord u who xpc xaddr xcause false).endParty u who true).tryRetire u

/-- The end of a party by EXIT, and what follows for its pack. -/
def State.exitParty (s : State) (u who : Nat) : State := (s.endParty u who false).tryRetire u

end Sys2Proof.Machine
end

