-- ==== Sys2Proof/Machine/Fetch.lean ====
section
/-! DEFINITION. Instruction addresses and fetch lines (spec/02, R46 to R51; spec/07, R221, R222). -/

namespace Sys2Proof.Machine

/-! ### Instruction addresses (R47) -/

/-- P of R47. -/
def posOf (a : Word64) : Nat := a.toNat / 64 * 5 + a.toNat % 8
def addrAt (p : Nat) : Word64 := u64 (p / 5 * 64 + p % 5)
/-- The successor in sequential flow. -/
def succAddr (a : Word64) : Word64 := addrAt (posOf a + 1)
/-- The address a slot displacement reaches. -/
def dispAddr (a : Word64) (d : Word32) : Word64 := addrAt (((posOf a : Int) + d.toInt) % (5 * 2 ^ 58 : Nat)).toNat
/-- The address of the line, and the slot. -/
def lineVa (a : Word64) : Nat := a.toNat / 64 * 64
def slotOf (a : Word64) : Nat := a.toNat % 8

/-! ### Fetch lines (R46, R48) -/

/-- The instruction word of a slot. -/
def slotWord (l : BitVec 512) (slot : Nat) : Word96 := l.extractLsb' (32 + 96 * slot) 96
def lineWord (l : BitVec 512) : Word32 := l.extractLsb' 0 32
def tgtBit (l : BitVec 512) (slot : Nat) : Bool := l.getLsbD (27 + slot)
def pairBit (l : BitVec 512) (slot : Nat) : Bool := l.getLsbD (23 + slot)
/-- PAR of bytes 4 to 63. -/
def parOf (l : BitVec 512) : Byte := (List.range 60).foldl (fun p i => p ^^^ l.extractLsb' (8 * (i + 4)) 8) 0
def parOk (l : BitVec 512) : Bool := parOf l == l.extractLsb' 0 8
def reservedOk (l : BitVec 512) : Bool := l.extractLsb' 8 15 == 0#15

/-- The fetch line at a physical address, as the home slice holds it (R246). -/
def State.homeLine (s : State) (pa : Nat) : BitVec 512 := BitVec.ofNat 512 (s.homeNat pa 64)

/-- An instruction cache of a cluster. -/
def icKey (c pa : Nat) : Nat := c * 2 ^ 52 + pa

/-- What a fetch reads at the home slice (R202, R209): the line enters L2, and its correctable granules are corrected. -/
def State.homeFetch (s : State) (pa : Nat) : State :=
  match s.target pa with
  | .dram _ | .host _ => (s.fillL2 (pa / 128)).readL2 (pa / 128) (granulesIn (pa / 128) pa 64)
  | .peer _ | .absent => s
/-- Whether the copy that a fetch reads is uncorrectable or lost. -/
def State.uncFetch (s : State) (pa : Nat) : Bool :=
  let x := s.line (pa / 128)
  s.lost pa || (if x.inL2 then x.l2 else s.dramChecks (pa / 128)).unc &&& granulesIn (pa / 128) pa 64 != 0
/-- A line that is cached: not one of a peer window (R206). -/
def State.cachesCode (s : State) (pa : Nat) : Bool :=
  match s.target pa with | .dram _ | .host _ => true | .peer _ | .absent => false

/-- R51: a line from the instruction cache, or from L2, where a copy that fails the parity check is fetched once more. A
fetch whose first copy is to fail stands in `linePar`. -/
def State.fetchPa (s : State) (c pa : Nat) (addr : Word64) : State × Except LaneFault (BitVec 512) :=
  match (if s.cachesCode pa then cget s.icache (icKey c pa) else none) with
  | some l => (s, .ok l)
  | none =>
    if s.uncFetch pa then (s, .error ⟨0x0F, 0, addr, 0⟩)
    else
      let l := s.homeLine pa
      let s := s.homeFetch pa
      let s :=
        if s.linePar.contains (icKey c pa) then
          let s := { s with linePar := s.linePar.filter (· != icKey c pa) }
          if parOk l then s.modCluster c fun x => x.countSoft 0x32 1 else s
        else s
      (if parOk l && s.cachesCode pa then { s with icache := cset s.icache (icKey c pa) l } else s, .ok l)

/-- A line of a party, at the line's virtual address: translated and checked in the order of R49. -/
def State.fetchVa (s : State) (a : Asker) (c va : Nat) (addr : Word64) : State × Except LaneFault (BitVec 512) :=
  match translate s a va .fetch with
  | (s, .fault code sub h) => (s, .error ⟨code, sub, addr, h⟩)
  | (s, .ok pa _) => s.fetchPa c pa addr

/-- R49: the checks of a transfer's target; none when it is legal. -/
def State.checkTarget (s : State) (a : Asker) (c : Nat) (t : Word64) : State × Option LaneFault :=
  if t.extractLsb' 3 3 ≠ 0#3 ∨ 5 ≤ slotOf t then (s, some ⟨4, 0, t, 0⟩)
  else
    match s.fetchVa a c (lineVa t) t with
    | (s, .error f) => (s, some f)
    | (s, .ok l) => if tgtBit l (slotOf t) then (s, none) else (s, some ⟨4, 0, t, 0⟩)

/-- The copy of a line that a party has fetched and that a group of some lanes executes (R222). A group in which lanes that
have entered a fenced line anew have met lanes that have not executes the later copy (DESIGN CHOICE, log 71). -/
def Party.lineFor (p : Party) (pc : Word64) (lanes : Lanes) : Option (BitVec 512) :=
  match p.fenced with
  | some f => if f.va = lineVa pc ∧ lanes &&& ~~~f.lanes = 0 then some f.line else cget p.lines (lineVa pc)
  | none => cget p.lines (lineVa pc)
/-- R222: the line at which a group of a party stands: the copy the party has fetched, or a new one. -/
def State.fetchLine (s : State) (u who : Nat) (pc : Word64) (lanes : Lanes) : State × Except LaneFault (BitVec 512) :=
  match s.pack u, s.party u who with
  | some k, some p =>
    match p.lineFor pc lanes with
    | some l => (s, .ok l)
    | none =>
      match s.fetchVa (askerOf k.ctx p.place (who == spineWho)) p.place.cluster (lineVa pc) (u64 (lineVa pc)) with
      | (s, .error f) => (s, .error f)
      | (s, .ok l) => (s.modParty u who fun p => { p with lines := cset p.lines (lineVa pc) l }, .ok l)
  | _, _ => (s, .error ⟨0, 0, 0, 0⟩)

end Sys2Proof.Machine
end

