-- ==== Sys2Proof/Machine/Ops.lean ====
section
/-! DEFINITION. What every instruction does beside its own effect: the order of its faults (spec/02, R82, R83), guards,
latches and k operands, waiting (R27), moving the PCs and leaving a line (R33, R72, R73), the route of a fault (R416), trap
entry (R417) and the return from a trap (R421). -/

namespace Sys2Proof.Machine

/-! ### Causes (R412) -/

def cOpcode : Nat := 0x01
def cField : Nat := 0x02
def cLine : Nat := 0x03
def cTarget : Nat := 0x04
def cPriv : Nat := 0x05
def cUnit : Nat := 0x06
def cLatch : Nat := 0x07
def cLayout : Nat := 0x08
def cGroup : Nat := 0x09
def cSeq : Nat := 0x0A
def cPage : Nat := 0x0B
def cPerm : Nat := 0x0C
def cAlign : Nat := 0x0D
def cSpad : Nat := 0x0E
def cUncorr : Nat := 0x0F
def cMask : Nat := 0x10
def cProducer : Nat := 0x11
def cDetached : Nat := 0x12
def cFilt : Nat := 0x13
def cTrap : Nat := 0x14
def cKill : Nat := 0x15

/-- A fault of an instruction: cause, sub-code, DETAIL, the address its rule names, the faulting lanes (R83), and for a
replayable one the kind of access and HINT (R327). -/
structure Trap where
  code : Nat
  sub : Nat
  detail : Nat
  addr : Word64
  lanes : Lanes
  acc : Nat
  hint : Nat
deriving DecidableEq, Repr

def trapOf (code sub : Nat) (lanes : Lanes) : Trap :=
  { code, sub, detail := 0, addr := 0, lanes, acc := 0, hint := 0 }

/-- What an instruction has done: the state with its registers and memory written; its latch deposits; the lanes that take
a transfer; the lanes that stay in the instruction; those that exit; latches that RTE restores; a replayable fault of the
lanes that stay (R83). -/
structure Done where
  s : State
  dep : List (Nat × Latch)
  jumps : List (Nat × Word64)
  stay : Lanes
  exits : Lanes
  relatch : Cells Latch
  trap : Option Trap
deriving DecidableEq, Repr

def doneAt (s : State) : Done :=
  { s, dep := [], jumps := [], stay := 0, exits := 0, relatch := [], trap := none }

/-- How the body of an instruction ends. -/
inductive Res where
  | done (d : Done)
  | trap (s : State) (t : Trap)
  | wait (s : State)
deriving DecidableEq, Repr

/-- The group waits inside the instruction. -/
def Res.waiting (s : State) (c : Cur) : Res := .wait (s.enterWait c)

/-! ### Leaving an instruction -/

/-- Lanes arrive at a PC and form one group with those that stand there outside every instruction (R27). -/
def addLanes (gs : List Group) (pc : Word64) (lanes : Lanes) : List Group :=
  if lanes = 0 then gs
  else if gs.any fun g => g.pc == pc && g.wait.isNone && !g.held then
    gs.map fun g => if g.pc == pc && g.wait.isNone && !g.held then { g with lanes := g.lanes ||| lanes } else g
  else gs ++ [{ pc, lanes, wait := none, held := false }]

/-- Lanes leave their groups. -/
def takeLanes (gs : List Group) (lanes : Lanes) : List Group :=
  (gs.map fun g => { g with lanes := g.lanes &&& ~~~lanes }).filter fun g => g.lanes != 0

def setLatches (r : Regs) (slot : Nat) (lanes : Lanes) (dep : List (Nat × Latch)) : Regs :=
  (lanesOf lanes).foldl (fun r l =>
    r.writeL l slot (((dep.find? fun e => e.1 == l).map (·.2)).getD .invalid)) r

/-- R222: a party keeps the lines in which some lane stands that has not just entered them, and the copy that an IFENCE left
standing for the lanes that have stayed in it since. A line that every lane there has just entered, the line left among
them, is fetched anew; lanes that come to a line in which others of the party stand find the copy that the party holds
(DESIGN CHOICE, log 71). -/
def Party.keepLines (p : Party) (entered : Lanes) : Party :=
  let there (va : Nat) : Lanes := p.groups.foldl (fun m g => if lineVa g.pc = va then m ||| g.lanes else m) 0
  let old : Option Fenced := p.fenced.bind fun f =>
    let m := f.lanes &&& ~~~entered &&& there f.va
    if m = 0 then none else some { f with lanes := m }
  { p with lines := p.lines.filter fun e => there e.1 &&& ~~~entered != 0, fenced := old }

/-- The registers, latches and PCs of the party after an instruction (R72, R73, R138). -/
def Party.retire (p : Party) (c : Cur) (d : Done) : Party :=
  let slot := slotOf c.pc
  let go := c.lanes &&& ~~~d.stay &&& ~~~d.exits
  let jl := maskOf (d.jumps.map (·.1)) &&& go
  let fall := go &&& ~~~jl
  let r := setLatches p.regs slot c.lanes d.dep
  let r := r.clearL jl
  let r := if slot = 4 then r.clearL fall else r
  let r := { r with latches := d.relatch.foldl (fun m e => wr .invalid m e.1 e.2) r.latches }
  let gs := takeLanes p.groups (go ||| d.exits)
  let gs := addLanes gs (succAddr c.pc) fall
  let gs := d.jumps.foldl (fun gs j => if jl.getLsbD j.1 then addLanes gs j.2 (laneBit j.1) else gs) gs
  let entered := jl ||| (if slot = 4 then fall else 0)
  { p with regs := r, groups := gs, jumped := (p.jumped &&& ~~~c.lanes) ||| jl }.keepLines entered

/-- R33: whether the group leaves a line. -/
def leavesLine (c : Cur) (d : Done) : Bool :=
  let go := c.lanes &&& ~~~d.stay &&& ~~~d.exits
  let jl := maskOf (d.jumps.map (·.1)) &&& go
  jl != 0 || (slotOf c.pc == 4 && (go &&& ~~~jl) != 0)

/-- One line more on the cluster's line counter and on that of the pack (R33, R408). -/
def State.lineRetired (s : State) (c : Cur) : State :=
  match s.party c.pack c.who with
  | none => s
  | some p =>
    (s.modCluster p.place.cluster fun x => { x.count 1 1 with lineCount := x.lineCount + 1 }).modPack c.pack fun k =>
      { k with lines := k.lines + 1 }

/-- Lanes of a party have exited (R140). -/
def State.afterExits (s : State) (u who : Nat) : State :=
  match s.party u who with
  | none => s
  | some p =>
    if p.live = 0 then s.exitParty u who
    else
      let s := (s.setParty u who p.closeSyncs).lanesEnded u who
      if who = spineWho then s else s.closeBar u (who / 16)

/-- The instruction is complete in the lanes that leave it. -/
def State.retire (s : State) (c : Cur) (d : Done) : State :=
  let s := s.modParty c.pack c.who fun p => p.retire c d
  let s := if leavesLine c d then s.lineRetired c else s
  if d.exits = 0 then s else s.afterExits c.pack c.who

/-! ### Faults (R416, R417) -/

/-- R417: the group enters the handler, and the others are held. R73 names trap entry beside taken transfers, R34 taken
transfers alone: the handler's address counts as a stop point as their targets do (DESIGN CHOICE, log 76). -/
def Party.enterTrap (p : Party) (lanes : Lanes) (pc : Word64) : Party :=
  let frame : Frame :=
    { lanes, xpc := pc, latches := p.regs.latches.filter fun e => lanes.getLsbD (e.1 / 5) }
  let gs := (takeLanes p.groups lanes).map fun g => { g with held := true }
  { p with
    intrap := true
    frame := some frame
    groups := addLanes gs p.regs.xvec lanes
    regs := p.regs.clearL lanes
    jumped := (p.jumped &&& ~~~lanes) ||| lanes }.keepLines lanes

/-- XCAUSE of a fault (R414). -/
def causeWord (c : Cur) (t : Trap) : Word64 :=
  u64 (t.detail * 2 ^ 32 + c.port * 65536 + t.sub * 256 + t.code)

/-- R414, R415: the trap registers of a fault. -/
def Regs.trapped (r : Regs) (c : Cur) (t : Trap) : Regs :=
  { r with xcause := causeWord c t
           xaddr := if t.code = cTrap ∨ t.code = cFilt then 0 else t.addr
           xpc := c.pc
           xstat := if c.who = spineWho then 1 else t.lanes }

/-- R412: causes that a launch may elect. -/
def electable (code : Nat) : Bool := (1 ≤ code && code ≤ 0x12) && code != cPage

/-- A replayable fault: into the fault queue, and the party is descheduled (R39, R328). -/
def State.pageFault (s : State) (k : Pack) (p : Party) (c : Cur) (t : Trap) : State :=
  let spine := c.who == spineWho
  let s := s.modParty c.pack c.who fun p => { p with replay := p.replay ||| t.lanes }
  let s := if spine then s else s.count p.place.cluster 9 1
  s.postFault (dieOf p.place.cluster) (faultOf t.addr (if spine then 0 else t.lanes) (reqOf p.place spine) k.ctx
    (accOf (if spine then 1 else 0) t.acc) t.hint (.party c.pack c.who t.lanes))

/-- R456: what port 1 was to issue has no effect; a group of its own is to issue its instruction again. -/
def State.stallPortOne (s : State) : State :=
  match s.port1 with
  | none => s
  | some q =>
    let s := { s with port1 := none }
    if q.regs.isSome then s.modParty q.pack q.who fun p => { p with reissue := p.reissue ||| q.lanes } else s

/-- R416: where a fault of the issuing group goes. Port 1 has no effect when port 0 faults (R456, R84). -/
def takeFault (s : State) (c : Cur) (t : Trap) : State :=
  let s := if c.port = 0 then s.stallPortOne else s
  match s.pack c.pack, s.party c.pack c.who with
  | some k, some p0 =>
    let noWait (g : Group) : Group := if g.lanes = c.lanes then { g with wait := none } else g
    let p := { p0 with regs := setLatches p0.regs (slotOf c.pc) c.lanes [], groups := p0.groups.map noWait }
    let s := s.setParty c.pack c.who p
    if t.code = cPage then s.pageFault k p c t
    else
      let r := p.regs.trapped c t
      let s := s.setParty c.pack c.who { p with regs := r }
      let user := t.code = cTrap ∨ t.code = cFilt
      let elected := electable t.code && (pkHandle k.packet).testBit t.code
      if (user ∨ elected) ∧ r.xvec ≠ 0 ∧ !p.intrap then
        match s.checkTarget (askerOf k.ctx p.place (c.who == spineWho)) p.place.cluster r.xvec with
        | (s, some _) =>
          s.fatal c.pack c.who c.pc r.xvec (BitVec.ofNat 32 (c.port * 65536 + cTarget))
        | (s, none) => s.modParty c.pack c.who fun p => p.enterTrap c.lanes c.pc
      else s.fatal c.pack c.who c.pc r.xaddr (r.xcause.setWidth 32)
  | _, _ => s

/-! ### Return from a trap (R421) -/

/-- The held groups are released, INTRAP and the frame cleared. -/
def Party.leaveTrap (p : Party) : Party :=
  { p with intrap := false, frame := none, groups := p.groups.map fun g => { g with held := false } }

/-- R421: RTE, or RTE.NEXT. The latches come back when the frame's line goes on. -/
def rteBody (next : Bool) (s : State) (c : Cur) : Res :=
  match s.pack c.pack, s.party c.pack c.who with
  | some k, some p =>
    match p.frame with
    | none => .trap s (trapOf cPriv 0 c.lanes)
    | some f =>
      let g := f.lanes &&& p.live
      if g &&& ~~~c.lanes ≠ 0 then .trap s (trapOf cMask 0 c.lanes)
      else
        let t := if next then succAddr c.regs.xpc else c.regs.xpc
        match s.checkTarget (askerOf k.ctx p.place (c.who == spineWho)) p.place.cluster t with
        | (s, some e) => .trap s { trapOf e.code e.sub c.lanes with addr := e.addr, acc := 3, hint := e.hint }
        | (s, none) =>
          let keep := t = f.xpc ∨ (t = succAddr f.xpc ∧ lineVa t = lineVa f.xpc)
          let s := s.modParty c.pack c.who Party.leaveTrap
          .done { doneAt s with jumps := (lanesOf g).map fun l => (l, t)
                                relatch := if keep then f.latches.filter fun e => g.getLsbD (e.1 / 5) else [] }
  | _, _ => .trap s (trapOf cPriv 0 c.lanes)

/-! ### The body of an instruction is done, faults or waits -/

/-- The state after the body. Lanes with a replayable fault stay and are replayed (R83). -/
def finish (c : Cur) (d : Done) : State :=
  let s := d.s.retire c d
  match d.trap with
  | none => s
  | some t => takeFault s { c with lanes := d.stay } t

def settle (c : Cur) : Res → State
  | .done d => finish c d
  | .trap s t => takeFault s c t
  | .wait s => s

/-! ### Before the body (R82) -/

/-- What an entry adds to the common order: its PRIV check, whether SYNC.DETACHED comes before every other check of step 5
(R143), and the operands it reads where it does not read all that it names (R134). -/
structure Opts where
  priv : State → Cur → Bool := fun _ _ => true
  attached : Bool := false
  reads : Regs → Option Nat → Use → Bool := fun _ _ _ => true

/-- R63: every v register lies in the allocation. -/
def specFits (alloc : Nat) (w : Width) : Spec → Bool
  | .v n => n.toNat + w.bits / 32 ≤ alloc
  | .s _ | .k _ | .h _ | .a _ | .const _ | .special _ => true
def Src.fits (alloc : Nat) (w : Width) : Src → Bool
  | .reg r _ _ => specFits alloc w r
  | .latch _ _ _ => true
def allocOk (alloc : Nat) (sh : Shape) : Bool :=
  sh.uses.all (fun u => Src.fits alloc u.width u.src) && sh.defs.all fun d => specFits alloc d.2 d.1

/-- Step 4 of R82, R68. -/
def unitOk (sh : Shape) (who : Nat) : Bool :=
  if who = spineWho then sh.runs != .warp && sh.form != .lane else sh.runs != .spine

/-- R266: the instruction reads or writes a register whose token is pending. -/
def specPending (pend : BitVec 64) (w : Width) : Spec → Bool
  | .s n => pend.getLsbD n.toNat || (w == .w128 && pend.getLsbD (n.toNat + 1))
  | .v _ | .k _ | .h _ | .a _ | .const _ | .special _ => false
def Src.pends (pend : BitVec 64) (w : Width) : Src → Bool
  | .reg r _ _ => specPending pend w r
  | .latch _ _ _ => false
def stalls (pend : BitVec 64) (sh : Shape) : Bool :=
  sh.uses.any (fun u => Src.pends pend u.width u.src) || sh.defs.any fun d => specPending pend d.2 d.1

/-- R75: some active lane reads a latch that it may not. -/
def latchFault (o : Opts) (sh : Shape) (r : Regs) (active : Lanes) : Bool :=
  (lanesOf active).any fun l =>
    sh.uses.any fun u =>
      match u.src with
      | .latch n _ _ => o.reads r (some l) u && latchBad u (r.readL l n.toNat)
      | .reg _ _ _ => false

/-- The k registers that an instruction reads as operands in some active lane (R68, R184, R134). -/
def Src.kreg? : Src → Option Nat
  | .reg (.k n) _ _ => some n.toNat
  | .reg _ _ _ | .latch _ _ _ => none
def kOperands (o : Opts) (sh : Shape) (r : Regs) (active : Lanes) : List Nat :=
  (sh.uses.filter fun u => (lanesOf active).any fun l => o.reads r (some l) u).filterMap fun u => Src.kreg? u.src

/-- How the k operands are acquired: all there, a fault of a detached warp, or a wait. -/
inductive Acquire where
  | ok (s : State) (c : Cur) | trap | wait (s : State)
deriving DecidableEq, Repr

/-- Each k operand is a KPEEK of the party, one after another (R68, R178, R193). -/
def acquireK (detached : Bool) : List Nat → State → Cur → Acquire
  | [], s, c => .ok s c
  | n :: r, s, c =>
    if (cget c.kvals n).isSome then acquireK detached r s c
    else if detached then .trap
    else if c.again then
      match c.served with
      | some (v :: _) => acquireK detached r s { c with kvals := cset c.kvals n v, served := none, again := false }
      | _ => .wait s
    else
      match (s.enterWait c).kRequest c.pack n c.who c.lanes .peek with
      | (_, some (v :: _)) => acquireK detached r s { c with kvals := cset c.kvals n v }
      | (s', _) => .wait s'

/-- The whole of an instruction with a shape, for the party and pack that issue it. -/
def run (sh : Shape) (o : Opts) (body : State → Cur → Res) (k : Pack) (p : Party) (c : Cur) (s : State) : State :=
  if !sh.typeOk then takeFault s c (trapOf cOpcode 0 c.lanes)
  else if !sh.fieldOk || !allocOk (pkVregs k.packet) sh then takeFault s c (trapOf cField 0 c.lanes)
  else if !o.priv s c then takeFault s c (trapOf cPriv 0 c.lanes)
  else if !unitOk sh c.who then takeFault s c (trapOf cUnit 0 c.lanes)
  else if stalls p.pending sh then s
  else
    let c := { c with active := guardLanes c.regs sh.form c.lanes sh.guard }
    if c.active = 0 then finish c (doneAt s)
    else if o.attached && p.detached then takeFault s c (trapOf cDetached 1 c.active)
    else if latchFault o sh c.regs c.active then takeFault s c (trapOf cLatch 0 c.active)
    else
      match acquireK p.detached (kOperands o sh c.regs c.active) s c with
      | .trap => takeFault s c (trapOf cDetached 1 c.active)
      | .wait s => s
      | .ok s c => settle c (body s c)

/-- The meaning of an instruction of a warp or spine thread. -/
def performWith (o : Opts) (i : Instr) (body : State → Cur → Res) (s : State) : Host.Outcome State Fault Refusal :=
  match s.cur, i.shape with
  | some c, some sh =>
    match s.pack c.pack, s.party c.pack c.who with
    | some k, some p => .next (run sh o body k p c { s with cur := none })
    | _, _ => .fault .noIssuer
  | _, _ => .fault .noIssuer
def perform (i : Instr) (body : State → Cur → Res) (s : State) : Host.Outcome State Fault Refusal :=
  performWith {} i body s

/-- The meaning of an event: what it does, or that it cannot occur in this state. -/
def occur (r : Option State) : Host.Outcome State Fault Refusal :=
  match r with
  | some s => .next s
  | none => .fault .notEnabled

/-! ### Bodies that compute register results -/

/-- The lanes, or the party, in which a body is executed: `none` is the uniform form. -/
def lanesFor (form : Form) (active : Lanes) : List (Option Nat) :=
  match form with
  | .lane => (lanesOf active).map some
  | .unif | .gather => [none]

/-- The lane at which an operand is read for an active lane: R120 gives the uniform form no lane of its own. -/
def readLane (form : Form) (l : Nat) : Option Nat := match form with | .lane => some l | .unif | .gather => none

/-- The latch deposits of one result (R72). A 32-bit result of the uniform form leaves 32 bits in the latch, although the s
register takes it extended to 64 (R117; DESIGN CHOICE, log 77). -/
def deposits (c : Cur) (w : Width) (lane : Option Nat) (x : Nat) : List (Nat × Latch) :=
  let wide := w != .w32
  let v := u64 (x % 2 ^ (if wide then 64 else 32))
  match lane with
  | some l => [(l, .lane wide v)]
  | none => (lanesOf c.lanes).map fun l => (l, .uniform wide v)

/-- A destination field written, unless WBS is set (R69). -/
def writeDst (r : Regs) (ty : Option Ty) (w : Width) (lane : Option Nat) (dst : Spec) (wbs : Bool) (x : Nat) : Regs :=
  if wbs then r else writeSpec r ty w lane dst x

/-- A pure result in every active lane, or once: the value and the exception flags of each, from the operands. -/
def compute (form : Form) (ty : Option Ty) (w : Width) (dst : Spec) (wbs : Bool)
    (f : State → Cur → Option Nat → Nat × Flags) (s : State) (c : Cur) : Res :=
  let out := (lanesFor form c.active).map fun l => (l, f s c l)
  let s' := s.modRegs c.pack c.who fun r =>
    out.foldl (fun r e => (writeDst r ty w e.1 dst wbs e.2.1).raise e.2.2) r
  .done { doneAt s' with dep := out.flatMap fun e => deposits c w e.1 e.2.1 }

/-- A predicate in every active lane, or once (R121); it leaves the latch INVALID. -/
def computeP (form : Form) (pd : BitVec 4) (f : State → Cur → Option Nat → Bool × Flags) (s : State) (c : Cur) : Res :=
  let out := (lanesFor form c.active).map fun l => (l, f s c l)
  .done (doneAt (s.modRegs c.pack c.who fun r =>
    out.foldl (fun r e => (writePred r e.1 pd e.2.1).raise e.2.2) r))

/-- A value and a predicate in every active lane, or once. -/
def computeVP (form : Form) (ty : Option Ty) (w : Width) (dst : Spec) (wbs : Bool) (pd : BitVec 4)
    (f : State → Cur → Option Nat → Nat × Bool) (s : State) (c : Cur) : Res :=
  let out := (lanesFor form c.active).map fun l => (l, f s c l)
  let s' := s.modRegs c.pack c.who fun r =>
    out.foldl (fun r e => writePred (writeDst r ty w e.1 dst wbs e.2.1) e.1 pd e.2.2) r
  .done { doneAt s' with dep := out.flatMap fun e => deposits c w e.1 e.2.1 }

/-- A result of the uniform form in a status or token register. -/
def giveS (s : State) (c : Cur) (d : Spec) (wbs : Bool) (x : Word64) : State :=
  s.modRegs c.pack c.who fun r => writeDst r none .w64 none d wbs x.toNat
/-- The same, deposited in the latch. -/
def doneS (s : State) (c : Cur) (d : Spec) (wbs : Bool) (x : Word64) : Res :=
  .done { doneAt (giveS s c d wbs x) with dep := deposits c .w64 none x.toNat }

end Sys2Proof.Machine
end

