-- ==== Sys2Proof/Machine/Shared.lean ====
section
/-! DEFINITION. Shared registers and remote deposit (spec/06, R182 to R193). -/

namespace Sys2Proof.Machine

/-! ### Requests (R177, R193) -/

/-- A request of the issuing party to a k register: SYNC.DETACHED in a detached warp, the answer when it is served, a
wait otherwise. -/
def kBody (n : Nat) (r : KReq) (post : State → List Word64 → Res) (s : State) (c : Cur) : Res :=
  if ((s.party c.pack c.who).map (·.detached)).getD false then .trap s (trapOf cDetached 1 c.active)
  else if c.again then
    match c.served with
    | some vals => post s vals
    | none => .wait s
  else
    match (s.enterWait c).kRequest c.pack n c.who c.lanes r with
    | (s', some vals) => post s' vals
    | (s', none) => .wait s'

def kNumber : Spec → Nat
  | .k n => n.toNat
  | .v _ | .s _ | .h _ | .a _ | .const _ | .special _ => 0
def kSource (x : Src) : Nat := (Src.kreg? x).getD 0

/-- A uniform source extended to 64 bits by its type (R183, R186). -/
def extended (s : State) (c : Cur) (t : Ty) (x : Src) : Word64 := toS (some t) (readSrc s c (some t) t.width none x)
/-- Bits [7:0] of a uniform source. -/
def low8 (s : State) (c : Cur) (x : Src) : BitVec 8 := BitVec.ofNat 8 (readSrc s c none .w32 none x)

/-- KPUT (R183). -/
def execKput (o : FmtA) (s : State) : Host.Outcome State Fault Refusal :=
  perform (.kput o) (fun s c =>
    kBody (kNumber o.dst) (.put (extended s c o.ty o.a) (low8 s c o.b)) (fun s _ => .done (doneAt s)) s c) s

/-- What KGET and KPEEK do with VAL. -/
def kRead (o : FmtA) (r : KReq) (s : State) (c : Cur) : Res :=
  kBody (kSource o.a) r (fun s vals => doneS s c o.dst o.wbs ((vals.head?).getD 0)) s c
/-- KGET and KPEEK (R184). -/
def execKget (o : FmtA) (s : State) : Host.Outcome State Fault Refusal := perform (.kget o) (kRead o .get) s
def execKpeek (o : FmtA) (s : State) : Host.Outcome State Fault Refusal := perform (.kpeek o) (kRead o .peek) s

/-- ARMODE of KARM (R185). -/
def armMode (o : FmtA) (c : Cur) : BitVec 2 :=
  match o.rm with
  | .mode => if o.ty = .f32 then c.regs.fpmode else 0
  | .rne => 0 | .rtz => 1 | .rup => 2 | .rdn => 3 | .stoch => 0
/-- ATYPE of a type (R176). -/
def armType (t : Ty) : BitVec 2 := if t = .f32 then 2 else if t = .i64 then 1 else 0
def karmReq (o : FmtA) (s : State) (c : Cur) : KReq :=
  .arm (extended s c o.ty o.a) (low8 s c o.b) (low8 s c o.c) (o.ext.extractLsb' 15 3) (armType o.ty) (armMode o c)
/-- KARM (R185). -/
def execKarm (o : FmtA) (s : State) : Host.Outcome State Fault Refusal :=
  perform (.karm o) (fun s c => kBody (kNumber o.dst) (karmReq o s c) (fun s _ => .done (doneAt s)) s c) s
/-- KRED (R186). -/
def execKred (o : FmtA) (s : State) : Host.Outcome State Fault Refusal :=
  perform (.kred o) (fun s c =>
    kBody (kNumber o.dst) (.red (extended s c o.ty o.a)) (fun s _ => .done (doneAt s)) s c) s

/-- KCLR (R188). -/
def kclrBody (o : FmtA) (s : State) (c : Cur) : Res :=
  let n := kNumber o.dst
  let k := s.kreg c.pack n
  .done (doneAt ((s.setKreg c.pack n k.clear).kScan c.pack n k.queue.length))
def execKclr (o : FmtA) (s : State) : Host.Outcome State Fault Refusal := perform (.kclr o) (kclrBody o) s

def KState.code : KState → Nat
  | .empty => 0 | .armed => 1 | .full => 2
/-- The status word of R189. WAIT has eight bits: with more than 255 waiters it shows their number modulo 256 (DESIGN CHOICE,
log 85). -/
def KReg.status (k : KReg) : Word64 :=
  u64 (k.queue.length % 256 * 2 ^ 40 + k.fx.toNat * 2 ^ 32 + k.rc.toNat * 2 ^ 24 + k.armode.toNat * 2 ^ 15 +
    k.atype.toNat * 2 ^ 13 + k.aop.toNat * 2 ^ 10 + k.st.code * 256 + k.cnt.toNat)
/-- KSTAT (R189). -/
def kstatBody (o : FmtA) (s : State) (c : Cur) : Res :=
  if ((s.party c.pack c.who).map (·.detached)).getD false then .trap s (trapOf cDetached 1 c.active)
  else doneS s c o.dst o.wbs (s.kreg c.pack (kSource o.a)).status
def execKstat (o : FmtA) (s : State) : Host.Outcome State Fault Refusal := perform (.kstat o) (kstatBody o) s

/-! ### Remote deposit (R190, R191) -/

/-- Whether a target takes deposits. -/
def Party.takesDeposits (p : Party) : Bool := !p.ended && !p.detached && p.live != 0

/-- R190: the deposit is sent on its way, or discarded. In the uniform form LANEID, WIDF0 and WID read 0 in source B (R120); in
the lane form the uniform source is read for the lowest active lane (DESIGN CHOICE, log 67). -/
def rdepBody (o : FmtA) (s : State) (c : Cur) : Res :=
  if ((s.party c.pack c.who).map (·.detached)).getD false then .trap s (trapOf cDetached 1 c.active)
  else
    let b := readSrc s c none .w32 (readLane (formOf o.dst) (lowLane c.active)) o.b
    let target := b % 8 * 16 + b / 8 % 16
    if ((s.party c.pack target).map Party.takesDeposits).getD false then
      let values := (lanesFor (formOf o.dst) c.active).map fun l =>
        (l.getD 0, u64 (readSrc s c (some o.ty) o.ty.width l o.a))
      let x : Deposit := { target, wide := o.ty == .u64, dst := o.dst, values, counter := o.ext.toNat % 8 }
      .done (doneAt (s.modPack c.pack fun p => { p with deposits := p.deposits ++ [x] }))
    else .done (doneAt s)
def execRdep (o : FmtA) (s : State) : Host.Outcome State Fault Refusal := perform (.rdep o) (rdepBody o) s

/-- R191: the registers of the target and its counter. -/
def Deposit.apply (x : Deposit) (p : Party) : Party :=
  let w : Width := if x.wide then .w64 else .w32
  let put (r : Regs) (e : Nat × Word64) : Regs :=
    if x.dst.cls == .s then writeSpec r none w none x.dst e.2.toNat
    else if p.live.getLsbD e.1 then writeSpec r none w (some e.1) x.dst e.2.toNat
    else r
  let r := x.values.foldl put p.regs
  { p with regs := r.writeA x.counter (r.readA x.counter + 1) }

/-- The oldest deposit of a pack lands. R191 does not say what becomes of one that was sent to a warp which detaches before it
lands: it is discarded, its count with it, as one sent later is (DESIGN CHOICE, log 86). -/
def State.landDeposit (s : State) (u : Nat) : Option State :=
  match s.pack u with
  | none => none
  | some p =>
    match p.deposits with
    | [] => none
    | x :: rest =>
      let s := s.setPack u { p with deposits := rest }
      let s := s.modParty u x.target fun q => if q.takesDeposits then x.apply q else q
      some (s.tryRetire u)
def execRdepLanding (pack : Nat) (s : State) : Host.Outcome State Fault Refusal := occur (s.landDeposit pack)

end Sys2Proof.Machine
end

