-- ==== Sys2Proof/Machine/Exchange.lean ====
section
/-! DEFINITION. Lane exchange (spec/05, R163 to R173). Participants are the active lanes; a read of another lane's
register sees it as it was when the group issued. -/

namespace Sys2Proof.Machine

/-- The form of an entry whose destination class, when it is not v, selects the gathering form (R163). -/
def gatherForm (d : Spec) : Form := if d.cls == .v then .lane else .gather
/-- Source A of a lane, of the participant or of any other lane. -/
def laneA (o : FmtA) (s : State) (c : Cur) (l : Nat) : Nat := readSrc s c (some o.ty) o.ty.width (some l) o.a
/-- A uniform source of a lane-exchange instruction, read by the lowest participant; so LANEID, WIDF0 and WID, which R120
fixes for the uniform form only, give that lane's number here (DESIGN CHOICE, log 67). -/
def unifSrc (s : State) (c : Cur) (x : Src) : Nat := readSrc s c none .w32 (some (lowLane c.active)) x

/-! ### SHFL (R164) -/

/-- A source lane for each lane, and whether it wrapped past its segment. -/
def shflBody (o : FmtA) (src : State → Cur → Nat → Nat × Bool) : State → Cur → Res :=
  computeVP .lane (some o.ty) o.ty.width o.dst o.wbs o.ext17 fun s c l =>
    let (from', wrap) := src s c (l.getD 0)
    (laneA o s c from', !wrap && c.active.getLsbD from')

def execShflMap (o : FmtA) (s : State) : Host.Outcome State Fault Refusal :=
  perform (.shflMap o) (shflBody o fun s c l =>
    let b := unifSrc s c o.b
    ((l &&& (b / 256 % 64)) ^^^ (b % 64), false)) s
/-- ROT: rotation by n within segments of `seg` lanes. -/
def rotLane (seg n l : Nat) (dn : Bool) : Nat × Bool :=
  let j := l % seg
  let t := if dn then j + n else j + seg - n
  (l - j + t % seg, if dn then decide (seg ≤ t) else decide (j < n))
def execShflRot (o : FmtA) (s : State) : Host.Outcome State Fault Refusal :=
  perform (.shflRot o) (shflBody o fun s c l =>
    let seg := 2 ^ (o.ext.extractLsb' 11 3).toNat
    rotLane seg (unifSrc s c o.b % 64 % seg) l (o.ext.getLsbD 10)) s
def execShflGath (o : FmtA) (s : State) : Host.Outcome State Fault Refusal :=
  perform (.shflGath o) (shflBody o fun s c l => (readSrc s c none .w32 (some l) o.b % 64, false)) s

/-! ### VOTE (R165) -/

/-- The participants that vote. -/
def voters (o : FmtA) (c : Cur) : Lanes :=
  maskOf ((lanesOf c.active).filter fun l => c.regs.readP l (o.ext.extractLsb' 10 4).toNat != o.ext.getLsbD 9)

def voteTestBody (o : FmtA) (s : State) (c : Cur) : Res :=
  let v := voters o c
  let put (r : Regs) (l : Option Nat) : Regs :=
    writePred (writePred r l o.ext17 (v != 0)) l (o.ext.extractLsb' 5 4) (v == c.active)
  .done (doneAt (s.modRegs c.pack c.who fun r => (lanesFor (if voteQ o then .gather else .lane) c.active).foldl put r))
def execVoteTest (o : FmtA) (s : State) : Host.Outcome State Fault Refusal := perform (.voteTest o) (voteTestBody o) s
def execVoteMask (o : FmtA) (s : State) : Host.Outcome State Fault Refusal :=
  perform (.voteMask o) (compute (gatherForm o.dst) none .w64 o.dst o.wbs fun _ c _ => ((voters o c).toNat, 0)) s
/-- The vote word. -/
def voteWord (v active : Lanes) : Nat :=
  let ls := lanesOf v
  (ls.getLast?).getD 0 * 2 ^ 24 + (ls.head?).getD 0 * 2 ^ 16 + (if v == active then 512 else 0) +
    (if v != 0 then 256 else 0) + ls.length
def execVoteSum (o : FmtA) (s : State) : Host.Outcome State Fault Refusal :=
  perform (.voteSum o) (compute (gatherForm o.dst) none .w32 o.dst o.wbs fun _ c _ => (voteWord (voters o c) c.active, 0)) s

/-! ### WRED and WSCAN (R166 to R169) -/

/-- One combining step of a type: codes of AOP (R176). -/
def laneOp (op : Nat) (t : Ty) (mode : Mode) (a b : Nat) : Nat × Flags :=
  if t.isFp then
    match op with
    | 0 => f32Add mode a b | 1 => f32Min a b | _ => f32Max a b
  else
    let less := decide (intElem t a 0 < intElem t b 0)
    (match op with
     | 0 => (a + b) % 2 ^ t.elem
     | 1 => if less then a else b
     | 2 => if less then b else a
     | 3 => a &&& b
     | 4 => a ||| b
     | _ => a ^^^ b, 0)

/-- Combines two subtrees, either of which may be absent. -/
def joinTrees (f : Nat → Nat → Nat × Flags) (x y : Option (Nat × Flags)) : Option (Nat × Flags) :=
  match x, y with
  | none, y => y
  | some x, none => some x
  | some x, some y =>
    let r := f x.1 y.1
    some (r.1, x.2 ||| y.2 ||| r.2)

/-- Node i of level k of the tree of R167. -/
def tree (f : Nat → Nat → Nat × Flags) (leaf : Nat → Option Nat) : Nat → Nat → Option (Nat × Flags)
  | 0, i => (leaf i).map fun x => (x, 0)
  | k + 1, i => joinTrees f (tree f leaf k (2 * i)) (tree f leaf k (2 * i + 1))

/-- The root, with the flags of every addition. -/
def reduce (op : Nat) (o : FmtA) (s : State) (c : Cur) : Nat × Flags :=
  (tree (laneOp op o.ty (modeOf c.regs.fpmode o.rm 0)) (fun l => if c.active.getLsbD l then some (laneA o s c l) else none) 6 0).getD (0, 0)

/-- R166, R168: to every participant, to an s register, or to a k register as one contribution. -/
def wredBody (op : Nat) (o : FmtA) (s : State) (c : Cur) : Res :=
  let r := reduce op o s c
  match o.dst with
  | .k n =>
    let x := toS (some o.ty) r.1
    let req : KReq := if o.ext.getLsbD 17 then .put x (BitVec.ofNat 8 (unifSrc s c o.c)) else .red x
    kBody n.toNat req (fun s _ =>
      .done { doneAt (s.modRegs c.pack c.who fun g => g.raise r.2) with dep := deposits c o.ty.width none r.1 }) s c
  | .v _ | .s _ | .h _ | .a _ | .const _ | .special _ =>
    compute (gatherForm o.dst) (some o.ty) o.ty.width o.dst o.wbs (fun _ _ _ => r) s c
def execWredAdd (o : FmtA) (s : State) : Host.Outcome State Fault Refusal := perform (.wredAdd o) (wredBody 0 o) s
def execWredMin (o : FmtA) (s : State) : Host.Outcome State Fault Refusal := perform (.wredMin o) (wredBody 1 o) s
def execWredMax (o : FmtA) (s : State) : Host.Outcome State Fault Refusal := perform (.wredMax o) (wredBody 2 o) s
def execWredAnd (o : FmtA) (s : State) : Host.Outcome State Fault Refusal := perform (.wredAnd o) (wredBody 3 o) s
def execWredOr (o : FmtA) (s : State) : Host.Outcome State Fault Refusal := perform (.wredOr o) (wredBody 4 o) s
def execWredXor (o : FmtA) (s : State) : Host.Outcome State Fault Refusal := perform (.wredXor o) (wredBody 5 o) s

/-- R169: the identity of an operation. -/
def scanIdentity (op : Nat) (t : Ty) : Nat :=
  match op with
  | 0 | 4 | 5 => 0
  | 3 => 2 ^ t.elem - 1
  | 1 => if t.isFp then fp32.infBits else unsignedOf t.elem t.hi
  | _ => if t.isFp then fp32.signed true fp32.infBits else unsignedOf t.elem t.lo

/-- The inclusive results of the values, in order, from the running value. -/
def scanGo (f : Nat → Nat → Nat × Flags) : Option Nat → List Nat → List (Nat × Flags)
  | _, [] => []
  | none, x :: r => (x, 0) :: scanGo f (some x) r
  | some a, x :: r =>
    let y := f a x
    y :: scanGo f (some y.1) r

/-- The results of the participants in lane order, with the flags of the combining steps. -/
def scanAll (op : Nat) (o : FmtA) (s : State) (c : Cur) : List (Nat × Nat) × Flags :=
  let ls := lanesOf c.active
  let inc := scanGo (laneOp op o.ty (modeOf c.regs.fpmode o.rm 0)) none (ls.map (laneA o s c))
  if o.ext.getLsbD 16 then
    let inc := inc.take (inc.length - 1)
    (ls.zip (scanIdentity op o.ty :: inc.map (·.1)), inc.foldl (fun fl x => fl ||| x.2) 0)
  else (ls.zip (inc.map (·.1)), inc.foldl (fun fl x => fl ||| x.2) 0)

def wscanBody (op : Nat) (o : FmtA) (s : State) (c : Cur) : Res :=
  let r := scanAll op o s c
  compute .lane (some o.ty) o.ty.width o.dst o.wbs
    (fun _ _ l => (((r.1.find? fun e => e.1 == l.getD 0).map (·.2)).getD 0, r.2)) s c
def execWscanAdd (o : FmtA) (s : State) : Host.Outcome State Fault Refusal := perform (.wscanAdd o) (wscanBody 0 o) s
def execWscanMin (o : FmtA) (s : State) : Host.Outcome State Fault Refusal := perform (.wscanMin o) (wscanBody 1 o) s
def execWscanMax (o : FmtA) (s : State) : Host.Outcome State Fault Refusal := perform (.wscanMax o) (wscanBody 2 o) s
def execWscanAnd (o : FmtA) (s : State) : Host.Outcome State Fault Refusal := perform (.wscanAnd o) (wscanBody 3 o) s
def execWscanOr (o : FmtA) (s : State) : Host.Outcome State Fault Refusal := perform (.wscanOr o) (wscanBody 4 o) s
def execWscanXor (o : FmtA) (s : State) : Host.Outcome State Fault Refusal := perform (.wscanXor o) (wscanBody 5 o) s

/-! ### RDLANE and WRLANE (R170, R171) -/

/-- The participant of a rank. -/
def ofRank (c : Cur) (k : Nat) : Option Nat := (lanesOf c.active)[k]?

def rdlaneBody (o : FmtA) (rank : Bool) (s : State) (c : Cur) : Res :=
  let n := unifSrc s c o.b % 64
  let x := match (if rank then ofRank c n else some n) with
    | some l => laneA o s c l
    | none => 0
  compute (gatherForm o.dst) (some o.ty) o.ty.width o.dst o.wbs (fun _ _ _ => (x, 0)) s c
def execRdlane (o : FmtA) (s : State) : Host.Outcome State Fault Refusal := perform (.rdlane o) (rdlaneBody o false) s
def execRdlaneRank (o : FmtA) (s : State) : Host.Outcome State Fault Refusal :=
  perform (.rdlaneRank o) (rdlaneBody o true) s

def wrlaneBody (o : FmtA) (rank : Bool) (s : State) (c : Cur) : Res :=
  let n := unifSrc s c o.b % 64
  let x := readSrc s c (some o.ty) o.ty.width (some (lowLane c.active)) o.a
  let live := ((s.party c.pack c.who).map (·.live)).getD 0
  match (if rank then ofRank c n else if live.getLsbD n then some n else none) with
  | some l => .done (doneAt (s.modRegs c.pack c.who fun r => writeSpec r (some o.ty) o.ty.width (some l) o.dst x))
  | none => .done (doneAt s)
def execWrlane (o : FmtA) (s : State) : Host.Outcome State Fault Refusal := perform (.wrlane o) (wrlaneBody o false) s
def execWrlaneRank (o : FmtA) (s : State) : Host.Outcome State Fault Refusal :=
  perform (.wrlaneRank o) (wrlaneBody o true) s

/-! ### MATCH (R172) -/

/-- The participants whose source A equals that of a lane. -/
def classOf (o : FmtA) (s : State) (c : Cur) (l : Nat) : Lanes :=
  let x := laneA o s c l
  maskOf ((lanesOf c.active).filter fun m => laneA o s c m == x)
/-- The leads of the classes, in ascending order. -/
def leadsOf (o : FmtA) (s : State) (c : Cur) : List Nat :=
  (lanesOf c.active).filter fun l => lowLane (classOf o s c l) == l
def classWord (o : FmtA) (s : State) (c : Cur) (l : Nat) : Nat :=
  let k := classOf o s c l
  let leads := leadsOf o s c
  popLanes k + lowLane k * 256 + leads.findIdx (· == lowLane k) * 65536 + leads.length * 2 ^ 24
def execMatchClass (o : FmtA) (s : State) : Host.Outcome State Fault Refusal :=
  perform (.matchClass o) (computeVP .lane none .w32 o.dst o.wbs o.ext17 fun s c l =>
    let l := l.getD 0
    (classWord o s c l, lowLane (classOf o s c l) == l)) s
def execMatchPeers (o : FmtA) (s : State) : Host.Outcome State Fault Refusal :=
  perform (.matchPeers o) (computeVP .lane none .w64 o.dst o.wbs o.ext17 fun s c l =>
    let k := classOf o s c (l.getD 0)
    (k.toNat, k == c.active)) s

/-! ### ELECT (R173) -/

/-- The first participant at or after a start lane, in cyclic order. -/
def elected (active : Lanes) (r : Nat) : Nat :=
  (((List.range 64).map fun i => (r + i) % 64).find? fun l => active.getLsbD l).getD 0
/-- The predicate is per lane in every form. -/
def electBody (o : FmtA) (s : State) (c : Cur) : Res :=
  let e := elected c.active (unifSrc s c o.a % 64)
  match compute (gatherForm o.dst) none .w32 o.dst o.wbs (fun _ _ _ => (e + popLanes c.active * 256, 0)) s c with
  | .done d =>
    .done { d with s := d.s.modRegs c.pack c.who fun r =>
      (lanesOf c.active).foldl (fun r l => writePred r (some l) o.ext17 (l == e)) r }
  | .trap s t => .trap s t
  | .wait s => .wait s
def execElect (o : FmtA) (s : State) : Host.Outcome State Fault Refusal := perform (.elect o) (electBody o) s

end Sys2Proof.Machine
end

