-- ==== Sys2Proof/Machine/Integer.lean ====
section
/-! DEFINITION. Moves, integer, comparison, selection and predicate instructions (spec/04, R123 to R136). -/

namespace Sys2Proof.Machine

/-- A value computed from the three sources, read at the type's width. -/
def alu (o : FmtA) (w : Width) (res : Ty) (f : Nat → Nat → Nat → Nat) : State → Cur → Res :=
  compute (formOf o.dst) (some res) w o.dst o.wbs fun s c l =>
    let r := readSrc s c (some o.ty) o.ty.width l
    (f (r o.a) (r o.b) (r o.c), 0)

/-- R127: every element from the exact integers of the sources, then SCL and CLAMP (R93). -/
def intAlu (o : FmtA) (f : Int → Int → Int → Int) : State → Cur → Res :=
  alu o o.ty.width o.ty fun a b c =>
    ofElems o.ty fun e =>
      narrowInt o.ty o.clamp o.scl (f (intElem o.ty a e) (intElem o.ty b e) (intElem o.ty c e))

/-- The bit members of R128, of width w. -/
def bitAlu (o : FmtA) (f : Nat → Nat → Nat → Nat → Nat) : State → Cur → Res :=
  alu o o.ty.width o.ty fun a b c => f o.ty.elem a b c % 2 ^ o.ty.elem

/-! ### Moves (R125, R126) -/

/-- NOP (R81). -/
def execNop (o : FmtA) (s : State) : Host.Outcome State Fault Refusal :=
  perform (.nop o) (fun s _ => .done (doneAt s)) s

/-- MOV (R125). -/
def execMov (o : FmtA) (s : State) : Host.Outcome State Fault Refusal :=
  perform (.mov o) (alu o o.ty.width o.ty fun a _ _ => a) s

/-- The value of a MOVI (R126). -/
def moviBody (o : FmtI) (w : Width) (f : Nat → Nat) : State → Cur → Res :=
  compute (formOf o.dst) none w o.dst o.wbs fun s c l => (f (readSrc s c none .w32 l o.a), 0)

def execMovi (o : FmtI) (s : State) : Host.Outcome State Fault Refusal :=
  perform (.movi o) (moviBody o .w32 fun _ => o.imm.toNat) s
def execMoviSx (o : FmtI) (s : State) : Host.Outcome State Fault Refusal :=
  perform (.moviSx o) (moviBody o .w64 fun _ => (o.imm.signExtend 64).toNat) s
def execMoviZx (o : FmtI) (s : State) : Host.Outcome State Fault Refusal :=
  perform (.moviZx o) (moviBody o .w64 fun _ => o.imm.toNat) s
def execMoviHi (o : FmtI) (s : State) : Host.Outcome State Fault Refusal :=
  perform (.moviHi o) (moviBody o .w64 fun a => o.imm.toNat * 2 ^ 32 + a % 2 ^ 32) s

/-! ### The integer family (R127, R128) -/

def execIadd (o : FmtA) (s : State) : Host.Outcome State Fault Refusal :=
  perform (.iadd o) (intAlu o fun a b _ => a + b) s
def execIsub (o : FmtA) (s : State) : Host.Outcome State Fault Refusal :=
  perform (.isub o) (intAlu o fun a b _ => a - b) s
def execImul (o : FmtA) (s : State) : Host.Outcome State Fault Refusal :=
  perform (.imul o) (intAlu o fun a b _ => a * b) s
def execImulh (o : FmtA) (s : State) : Host.Outcome State Fault Refusal :=
  perform (.imulh o) (intAlu o fun a b _ => (a * b).fdiv (2 ^ o.ty.elem : Nat)) s
def execImad (o : FmtA) (s : State) : Host.Outcome State Fault Refusal :=
  perform (.imad o) (intAlu o fun a b c => a * b + c) s
def execImin (o : FmtA) (s : State) : Host.Outcome State Fault Refusal :=
  perform (.imin o) (intAlu o fun a b _ => min a b) s
def execImax (o : FmtA) (s : State) : Host.Outcome State Fault Refusal :=
  perform (.imax o) (intAlu o fun a b _ => max a b) s
def execIabsd (o : FmtA) (s : State) : Host.Outcome State Fault Refusal :=
  perform (.iabsd o) (intAlu o fun a b _ => ((a - b).natAbs : Int)) s
def execAnd (o : FmtA) (s : State) : Host.Outcome State Fault Refusal :=
  perform (.and o) (bitAlu o fun _ a b _ => a &&& b) s
def execOr (o : FmtA) (s : State) : Host.Outcome State Fault Refusal :=
  perform (.or o) (bitAlu o fun _ a b _ => a ||| b) s
def execXor (o : FmtA) (s : State) : Host.Outcome State Fault Refusal :=
  perform (.xor o) (bitAlu o fun _ a b _ => a ^^^ b) s
def execAndn (o : FmtA) (s : State) : Host.Outcome State Fault Refusal :=
  perform (.andn o) (bitAlu o fun w a b _ => a &&& (2 ^ w - 1 - b % 2 ^ w)) s
/-- LUT3: bit j is the table's bit at the three source bits. -/
def lut3 (table w a b c : Nat) : Nat :=
  (List.range w).foldl (fun x j =>
    let i := 4 * (a / 2 ^ j % 2) + 2 * (b / 2 ^ j % 2) + c / 2 ^ j % 2
    x + (table / 2 ^ i % 2) * 2 ^ j) 0
def execLut3 (o : FmtA) (s : State) : Host.Outcome State Fault Refusal :=
  perform (.lut3 o) (bitAlu o fun w a b c => lut3 (o.ext.toNat % 256) w a b c) s

/-- A shift by `n`: counts beyond the width and the SCL range give what the width gives. -/
def shlBody (o : FmtA) : State → Cur → Res :=
  alu o o.ty.width o.ty fun a b _ =>
    ofElems o.ty fun e =>
      narrowInt o.ty o.clamp o.scl (intElem o.ty a e * (2 ^ min (elemOf o.ty b e) (o.ty.elem + 8) : Nat))
def execShl (o : FmtA) (s : State) : Host.Outcome State Fault Refusal := perform (.shl o) (shlBody o) s
/-- ⌊a ÷ 2^n⌋ of each element read as bits or as a signed number. -/
def shrBody (o : FmtA) (signed : Bool) : State → Cur → Res :=
  alu o o.ty.width o.ty fun a b _ =>
    ofElems o.ty fun e =>
      let x : Int := if signed then signedOf o.ty.elem (elemOf o.ty a e) else elemOf o.ty a e
      unsignedOf o.ty.elem (x.fdiv (2 ^ min (elemOf o.ty b e) o.ty.elem : Nat))
def execShr (o : FmtA) (s : State) : Host.Outcome State Fault Refusal := perform (.shr o) (shrBody o false) s
def execSar (o : FmtA) (s : State) : Host.Outcome State Fault Refusal := perform (.sar o) (shrBody o true) s
def rotl (w a n : Nat) : Nat := a * 2 ^ (n % w) + a / 2 ^ (w - n % w)
def execRot (o : FmtA) (s : State) : Host.Outcome State Fault Refusal :=
  perform (.rot o) (bitAlu o fun w a b _ => rotl w a b) s

/-- Ones, leading zeros and the reversal of a w-bit string. -/
def popc (w a : Nat) : Nat := ((List.range w).filter fun j => a.testBit j).length
def clz (w a : Nat) : Nat := if a % 2 ^ w = 0 then w else w - 1 - Nat.log2 (a % 2 ^ w)
def brev (w a : Nat) : Nat := (List.range w).foldl (fun x j => x + (a / 2 ^ j % 2) * 2 ^ (w - 1 - j)) 0
def execPopc (o : FmtA) (s : State) : Host.Outcome State Fault Refusal :=
  perform (.popc o) (alu o .w32 .u32 fun a _ _ => popc o.ty.elem a) s
def execClz (o : FmtA) (s : State) : Host.Outcome State Fault Refusal :=
  perform (.clz o) (alu o .w32 .u32 fun a _ _ => clz o.ty.elem a) s
def execBrev (o : FmtA) (s : State) : Host.Outcome State Fault Refusal :=
  perform (.brev o) (bitAlu o fun w a _ _ => brev w a) s

/-! ### Bit fields, addresses, extension (R129 to R131) -/

def fieldLen (w pos len : Nat) : Nat := if w ≤ pos then 0 else min len (w - pos)
def bfx (sx : Bool) (w a b c : Nat) : Nat :=
  let pos := b % 256
  let n := fieldLen w pos (c % 256)
  let f := a / 2 ^ pos % 2 ^ n
  if sx && decide (0 < n) && f.testBit (n - 1) then f + (2 ^ w - 2 ^ n) else f
def bfi (w a b c : Nat) : Nat :=
  let pos := c % 256
  let n := fieldLen w pos (c / 256 % 256)
  let m := (2 ^ n - 1) * 2 ^ pos
  (a &&& (2 ^ w - 1 - m % 2 ^ w)) ||| (b * 2 ^ pos &&& m)
def execBfx (sx : Bool) (o : FmtA) (s : State) : Host.Outcome State Fault Refusal :=
  perform (.bfx sx o) (bitAlu o fun w a b c => bfx sx w a b c) s
def execBfi (o : FmtA) (s : State) : Host.Outcome State Fault Refusal :=
  perform (.bfi o) (bitAlu o fun w a b c => bfi w a b c) s

/-- LEA (R130). -/
def leaBody (m : LeaMode) (o : FmtA) : State → Cur → Res :=
  compute (formOf o.dst) (some .u64) .w64 o.dst o.wbs fun s c l =>
    let a := readSrc s c none .w64 l o.a
    let b : Nat := match m with
      | .x64 => readSrc s c none .w64 l o.b
      | .s32 => ((BitVec.ofNat 32 (readSrc s c none .w32 l o.b)).signExtend 64).toNat
      | .u32 => readSrc s c none .w32 l o.b
    ((a + b * 2 ^ (o.ext.toNat % 64)) % 2 ^ 64, 0)
def execLea (m : LeaMode) (o : FmtA) (s : State) : Host.Outcome State Fault Refusal := perform (.lea m o) (leaBody m o) s

/-- XTND (R131). -/
def xtnd (sx : Bool) (w n a : Nat) : Nat :=
  let f := a % 2 ^ n
  if sx && f.testBit (n - 1) then f + (2 ^ w - 2 ^ n) else f
def xtndBody (sx : Bool) (o : FmtA) : State → Cur → Res :=
  compute (formOf o.dst) (some o.ty) o.ty.width o.dst o.wbs fun s c l =>
    let a := if o.ext.getLsbD 6 then readSrc s c none .w32 l o.a else readSrc s c (some o.ty) o.ty.width l o.a
    (xtnd sx o.ty.elem (o.ext.toNat % 64) a, 0)
def execXtnd (sx : Bool) (o : FmtA) (s : State) : Host.Outcome State Fault Refusal :=
  perform (.xtnd sx o) (xtndBody sx o) s

/-! ### Division (R94, R132) -/

def divQ (t : Ty) (a b : Int) : Int :=
  if b = 0 then (if t.isSigned then -1 else t.hi) else a.tdiv b
def divR (a b : Int) : Int := if b = 0 then a else a - a.tdiv b * b
def execIdivQ (o : FmtA) (s : State) : Host.Outcome State Fault Refusal :=
  perform (.idivQ o) (intAlu o fun a b _ => divQ o.ty a b) s
def execIdivR (o : FmtA) (s : State) : Host.Outcome State Fault Refusal :=
  perform (.idivR o) (intAlu o fun a b _ => divR a b) s

/-! ### Comparison, selection, predicates (R133 to R136) -/

/-- A condition code. -/
def intCond (code : Nat) (a b : Int) : Bool :=
  match code with
  | 0 => a == b | 1 => a != b | 2 => decide (a < b) | 3 => decide (a ≤ b) | 4 => decide (b < a) | _ => decide (b ≤ a)
def icmpBody (o : FmtA) : State → Cur → Res :=
  computeP (formOf o.dst) o.ext17 fun s c l =>
    let r := readSrc s c (some o.ty) o.ty.width l
    (intCond (o.ext.extractLsb' 11 3).toNat (intElem o.ty (r o.a) 0) (intElem o.ty (r o.b) 0), 0)
def execIcmp (o : FmtA) (s : State) : Host.Outcome State Fault Refusal := perform (.icmp o) (icmpBody o) s

/-- Whether SEL takes source A. -/
def selA (o : FmtA) (r : Regs) (l : Option Nat) : Bool := readPred r l o.ext17 != o.ext.getLsbD 13
/-- R134: SEL reads the source it selects. -/
def selReads (o : FmtA) (r : Regs) (l : Option Nat) (u : Use) : Bool :=
  u.src == (if selA o r (if formOf o.dst == .lane then l else none) then o.a else o.b)
def selBody (o : FmtA) : State → Cur → Res :=
  compute (formOf o.dst) (some o.ty) o.ty.width o.dst o.wbs fun s c l =>
    (readSrc s c (some o.ty) o.ty.width l (if selA o c.regs l then o.a else o.b), 0)
def execSel (o : FmtA) (s : State) : Host.Outcome State Fault Refusal :=
  performWith { reads := selReads o } (.sel o) (selBody o) s

/-- PLOP (R135). -/
def plopBody (o : FmtP) : State → Cur → Res :=
  computeP (formOf o.dst) (o.ext.extractLsb' 2 4) fun _ c l =>
    let p (lo : Nat) : Nat := (readPred c.regs l (o.ext.extractLsb' lo 4)).toNat
    (o.table.getLsbD (4 * p 14 + 2 * p 10 + p 6), 0)
def execPlop (o : FmtP) (s : State) : Host.Outcome State Fault Refusal := perform (.plop o) (plopBody o) s

/-- PMOV.PACK: the predicates of a lane, or the q registers. R136 does not give the width of what the uniform form leaves in
the latch: it is 32 bits (DESIGN CHOICE, log 83). -/
def packPreds (r : Regs) (l : Option Nat) : Nat :=
  match l with
  | some l => (List.range 8).foldl (fun n i => n + (r.readP l i).toNat * 2 ^ i) 0
  | none => r.q.toNat
def execPmovPack (o : FmtA) (s : State) : Host.Outcome State Fault Refusal :=
  perform (.pmovPack o) (compute (formOf o.dst) none .w32 o.dst o.wbs fun _ c l => (packPreds c.regs l, 0)) s
/-- PMOV.LOAD: the named predicates from the bits of source A. -/
def loadPreds (mask x : Nat) (r : Regs) (l : Option Nat) : Regs :=
  match l with
  | some l => (List.range 7).foldl (fun r i => if mask.testBit i then r.writeP l i (x.testBit i) else r) r
  | none => (List.range 4).foldl (fun r i => if mask.testBit i then r.writeQ i (x.testBit i) else r) r
def pmovLoadBody (o : FmtA) (s : State) (c : Cur) : Res :=
  .done (doneAt (s.modRegs c.pack c.who fun r =>
    (lanesFor (formOf o.dst) c.active).foldl (fun r l =>
      loadPreds (o.ext.toNat % 256) (readSrc s c none .w32 l o.a) r l) r))
def execPmovLoad (o : FmtA) (s : State) : Host.Outcome State Fault Refusal :=
  perform (.pmovLoad o) (pmovLoadBody o) s

end Sys2Proof.Machine
end

