-- ==== Sys2Proof/Machine/FloatOps.lean ====
section
/-! DEFINITION. Floating-point instructions and block quantisation (spec/05, R150 to R162). -/

namespace Sys2Proof.Machine

/-! ### Shared forms -/

/-- R149: the effective mode of the issuing party, without a stochastic value. -/
def fpMode (o : FmtA) (c : Cur) : Mode := modeOf c.regs.fpmode o.rm 0

/-- R149: a rounded result, element by element, from the three sources read by the type. -/
def fpAlu (o : FmtA) (f : Mode → Num → Num → Num → Val) : State → Cur → Res :=
  compute (formOf o.dst) (some o.ty) o.ty.width o.dst o.wbs fun s c l =>
    let r := readSrc s c (some o.ty) o.ty.width l
    let m := fpMode o c
    fpResult o.ty m o.clamp o.scl fun e =>
      f m (fpElem o.ty (r o.a) e) (fpElem o.ty (r o.b) e) (fpElem o.ty (r o.c) e)

/-- R154: a correctly rounded function of source A. -/
def fpFn (o : FmtA) (f : Num → FnVal) : State → Cur → Res :=
  compute (formOf o.dst) (some o.ty) o.ty.width o.dst o.wbs fun s c l =>
    let a := readSrc s c (some o.ty) o.ty.width l o.a
    fpFnResult o.ty (fpMode o c) o.clamp o.scl fun e => f (fpElem o.ty a e)

/-! ### Arithmetic (R150 to R152) -/

def execFadd (o : FmtA) (s : State) : Host.Outcome State Fault Refusal :=
  perform (.fadd o) (fpAlu o fun m a b _ => addV m a b) s
def execFsub (o : FmtA) (s : State) : Host.Outcome State Fault Refusal :=
  perform (.fsub o) (fpAlu o fun m a b _ => subV m a b) s
def execFmul (o : FmtA) (s : State) : Host.Outcome State Fault Refusal :=
  perform (.fmul o) (fpAlu o fun _ a b _ => mulV a b) s
def execFfma (o : FmtA) (s : State) : Host.Outcome State Fault Refusal :=
  perform (.ffma o) (fpAlu o fmaV) s

/-- FMIN and FMAX: the operand chosen, then CLAMP (R152). -/
def fpMinMax (o : FmtA) (maximum : Bool) : State → Cur → Res :=
  compute (formOf o.dst) (some o.ty) o.ty.width o.dst o.wbs fun s c l =>
    let r := readSrc s c (some o.ty) o.ty.width l
    let x (e : Nat) := minMax o.ty.fmt maximum (elemOf o.ty (r o.a) e) (elemOf o.ty (r o.b) e)
    (ofElems o.ty fun e => clampBits o.ty.fmt o.clamp.toNat (x e).1,
     (List.range o.ty.count).foldl (fun fl e => fl ||| (x e).2) 0)
def execFmin (o : FmtA) (s : State) : Host.Outcome State Fault Refusal := perform (.fmin o) (fpMinMax o false) s
def execFmax (o : FmtA) (s : State) : Host.Outcome State Fault Refusal := perform (.fmax o) (fpMinMax o true) s

/-! ### Comparison (R153) -/

def fpCond (code : Nat) (a b : Num) : Bool × Flags :=
  let nan := a.isNan || b.isNan
  let quiet := sigFlags [a, b]
  let any := if nan then fNV else 0
  match code with
  | 0 => (numEq a b, quiet) | 1 => (!numEq a b, quiet)
  | 2 => (numLess a b, any) | 3 => (numLess a b || numEq a b, any)
  | 4 => (numLess b a, any) | 5 => (numLess b a || numEq a b, any)
  | 6 => (nan, quiet) | _ => (!nan, quiet)
def fcmpBody (o : FmtA) : State → Cur → Res :=
  computeP (formOf o.dst) o.ext17 fun s c l =>
    let r := readSrc s c (some o.ty) o.ty.width l
    fpCond (o.ext.extractLsb' 11 3).toNat (fpElem o.ty (r o.a) 0) (fpElem o.ty (r o.b) 0)
def execFcmp (o : FmtA) (s : State) : Host.Outcome State Fault Refusal := perform (.fcmp o) (fcmpBody o) s

/-! ### Correctly rounded functions (R154) -/

def oneNum : Num := .fin false 1 0
def execFrcp (o : FmtA) (s : State) : Host.Outcome State Fault Refusal :=
  perform (.frcp o) (fpAlu o fun _ a _ _ => divV oneNum a) s
def execFrsq (o : FmtA) (s : State) : Host.Outcome State Fault Refusal :=
  perform (.frsq o) (fpAlu o fun _ a _ _ => rsqV a) s
def execFsqrt (o : FmtA) (s : State) : Host.Outcome State Fault Refusal :=
  perform (.fsqrt o) (fpAlu o fun _ a _ _ => sqrtV a) s
def execFdiv (o : FmtA) (s : State) : Host.Outcome State Fault Refusal :=
  perform (.fdiv o) (fpAlu o fun _ a b _ => divV a b) s
def execFexp2 (o : FmtA) (s : State) : Host.Outcome State Fault Refusal := perform (.fexp2 o) (fpFn o exp2V) s
def execFlog2 (o : FmtA) (s : State) : Host.Outcome State Fault Refusal := perform (.flog2 o) (fpFn o log2V) s
def execFsinp (o : FmtA) (s : State) : Host.Outcome State Fault Refusal := perform (.fsinp o) (fpFn o sinpV) s
def execFcosp (o : FmtA) (s : State) : Host.Outcome State Fault Refusal := perform (.fcosp o) (fpFn o cospV) s
def execFtanh (o : FmtA) (s : State) : Host.Outcome State Fault Refusal := perform (.ftanh o) (fpFn o tanhV) s

/-! ### Conversions (R155 to R157) -/

/-- R155: the mode of destination element e: element 1 rounds with u rotated left by 16. -/
def elemMode (o : FmtA) (c : Cur) (u e : Nat) : Mode :=
  modeOf c.regs.fpmode o.rm (if e = 0 then u else rotl 32 u 16 % 2 ^ 32)

/-- Destination elements, each delivered under its own mode. -/
def convResult (o : FmtA) (c : Cur) (u : Nat) (f : Nat → Val) : Nat × Flags :=
  let r (e : Nat) := deliver o.ty.fmt (elemMode o c u e) (sclExp o.scl) o.clamp.toNat (f e)
  (ofElems o.ty fun e => (r e).1, (List.range o.ty.count).foldl (fun fl e => fl ||| (r e).2) 0)

/-- The element of a packed source that a scalar destination takes: H1 selects element 1. -/
def pickH1 (o : FmtA) (f : Ty) : Nat := if f.packed && o.ext.getLsbD 13 then 1 else 0

def fcvtFBody (o : FmtA) : State → Cur → Res :=
  let f := o.fromTy.getD .f32
  compute (formOf o.dst) (some o.ty) o.ty.width o.dst o.wbs fun s c l =>
    let r := readSrc s c (some f) f.width l
    let src (e : Nat) : Num :=
      if !o.ty.packed then fpElem f (r o.a) (pickH1 o f)
      else if f.packed then fpElem f (r o.a) e
      else fpElem f (r (if e = 0 then o.a else o.b)) 0
    convResult o c (readSrc s c none .w32 l o.c) fun e => (src e).val
def execFcvtF (o : FmtA) (s : State) : Host.Outcome State Fault Refusal := perform (.fcvtF o) (fcvtFBody o) s

def fcvtIBody (o : FmtA) : State → Cur → Res :=
  let f := o.fromTy.getD .f32
  compute (formOf o.dst) (some o.ty) o.ty.width o.dst o.wbs fun s c l =>
    let a := readSrc s c (some f) f.width l o.a
    let u := readSrc s c none .w32 l o.c
    let r := toRange (elemMode o c u 0) (sclExp o.scl) o.ty.lo o.ty.hi (fpElem f a (pickH1 o f))
    (unsignedOf o.ty.elem r.1, r.2)
def execFcvtI (o : FmtA) (s : State) : Host.Outcome State Fault Refusal := perform (.fcvtI o) (fcvtIBody o) s

def execFcvtRint (o : FmtA) (s : State) : Host.Outcome State Fault Refusal :=
  perform (.fcvtRint o) (fpAlu o fun m a _ _ => rintV m a) s

/-- An integer as an exact value; 0 is +0. -/
def intVal (x : Int) : Val := .real (decide (x < 0)) x.natAbs 0 false 0
def icvtBody (o : FmtA) : State → Cur → Res :=
  let f := o.fromTy.getD .i32
  compute (formOf o.dst) (some o.ty) o.ty.width o.dst o.wbs fun s c l =>
    let r := readSrc s c (some f) f.width l
    convResult o c (readSrc s c none .w32 l o.c) fun e => intVal (intElem f (r (if e = 0 then o.a else o.b)) 0)
def execIcvt (o : FmtA) (s : State) : Host.Outcome State Fault Refusal := perform (.icvt o) (icvtBody o) s

/-- FCLASS: element e's class stands 16 e bits up. -/
def fclassBody (o : FmtA) : State → Cur → Res :=
  computeVP (formOf o.dst) (some .u32) .w32 o.dst o.wbs o.ext17 fun s c l =>
    let a := readSrc s c (some o.ty) o.ty.width l o.a
    let k (e : Nat) := 2 ^ classBit o.ty.fmt (elemOf o.ty a e)
    ((List.range o.ty.count).foldl (fun n e => n + k e * 65536 ^ e) 0,
     (List.range o.ty.count).any fun e => k e &&& o.ext.toNat % 1024 != 0)
def execFclass (o : FmtA) (s : State) : Host.Outcome State Fault Refusal := perform (.fclass o) (fclassBody o) s

/-! ### Packed and dot products (R158 to R160) -/

def pfma2Body (o : FmtA) : State → Cur → Res :=
  compute (formOf o.dst) (some o.ty) o.ty.width o.dst o.wbs fun s c l =>
    let r := readSrc s c (some o.ty) o.ty.width l
    let m := fpMode o c
    let sel (e : Nat) : Nat := match o.ext.toNat % 4 with | 0 => e | 1 => 0 | 2 => 1 | _ => 1 - e
    fpResult o.ty m o.clamp o.scl fun e =>
      fmaV m (fpElem o.ty (r o.a) e) (fpElem o.ty (r o.b) (sel e)) (fpElem o.ty (r o.c) e)
def execPfma2 (o : FmtA) (s : State) : Host.Outcome State Fault Refusal := perform (.pfma2 o) (pfma2Body o) s

def fdot2Body (o : FmtA) : State → Cur → Res :=
  compute (formOf o.dst) (some .f32) .w32 o.dst o.wbs fun s c l =>
    let a := readSrc s c (some o.ty) .w32 l o.a
    let b := readSrc s c (some o.ty) .w32 l o.b
    let x := readSrc s c (some .f32) .w32 l o.c
    let m := fpMode o c
    deliver fp32 m (sclExp o.scl) o.clamp.toNat
      (dot2V m (fpElem o.ty a 0) (fpElem o.ty b 0) (fpElem o.ty a 1) (fpElem o.ty b 1) (numOf fp32 x))
def execFdot2 (o : FmtA) (s : State) : Host.Outcome State Fault Refusal := perform (.fdot2 o) (fdot2Body o) s

/-- A byte of IDOT4, read unsigned under `.UA` or `.UB`. -/
def dotByte (uns : Bool) (x i : Nat) : Int :=
  let b := elemOf .i8x4 x i
  if uns then b else signedOf 8 b
def idot4Body (o : FmtA) : State → Cur → Res :=
  compute (formOf o.dst) (some .i32) .w32 o.dst o.wbs fun s c l =>
    let a := readSrc s c (some .i8x4) .w32 l o.a
    let b := readSrc s c (some .i8x4) .w32 l o.b
    let x := readSrc s c (some .i32) .w32 l o.c
    let sum := (List.range 4).foldl (fun n i => n + dotByte (o.ext.getLsbD 0) a i * dotByte (o.ext.getLsbD 1) b i)
      (signedOf 32 x)
    (narrowInt .i32 o.clamp o.scl sum, 0)
def execIdot4 (o : FmtA) (s : State) : Host.Outcome State Fault Refusal := perform (.idot4 o) (idot4Body o) s

/-! ### Block quantisation (R161, R162) -/

/-- Sign, magnitude and exponent of a finite number. -/
def Num.parts : Num → Bool × Nat × Int
  | .fin n m e => (n, m, e) | .nan _ | .inf _ => (false, 0, 0)
def Num.finite : Num → Bool
  | .fin _ _ _ => true | .nan _ | .inf _ => false

/-- The largest magnitude of a block. -/
def maxMag (xs : List (Bool × Nat × Int)) : Nat × Int :=
  xs.foldl (fun b x => if leDyadic x.2.1 x.2.2 b.1 b.2 then b else x.2) (0, 0)

/-- R113, R114: the scale, the plane integers and the flags of a block of numbers, each with its rounding mode. For a block
with a NaN or an infinity R113 gives V = 0 in every format; BIN, which has no V = 0, stores s = 0 there, as R113 says of an
all-zero block (DEDUCED, log 62). -/
def quantBlock (p : PlaneFmt) (xs : List (Num × Mode)) : Nat × List Int × Flags :=
  let zeros := xs.map fun _ => (0 : Int)
  if xs.any fun x => !x.1.finite then (0x3FC, zeros, fNV)
  else
    let m := maxMag (xs.map (·.1.parts))
    if m.1 = 0 then (0, zeros, 0)
    else
      let sc := blockScale p m.1 m.2
      match scaleOf sc with
      | none => (sc, zeros, 0)
      | some (sm, se) =>
        let v (x : Num × Mode) : Int :=
          let (n, mg, e) := x.1.parts
          match p.kind with
          | .bin => if n then -1 else 1
          | .uns | .ter | .sgn | .flt _ _ => quantValue p x.2 n mg e sm se
        let differs (x : Num × Mode) : Bool :=
          let (n, mg, e) := x.1.parts
          let e' := p.off + se
          let lo := min e e'
          toInt n mg e lo != v x * sm * (2 ^ (e' - lo).toNat : Nat)
        (sc, xs.map v, if xs.any differs then fNX else 0)

/-- Word j of the block image. -/
def imageWord (p : PlaneFmt) (sc : Nat) (vs : List Int) (j : Nat) : Nat :=
  if j = 31 then sc
  else if j < p.bits then
    ((vs.zip (List.range 32)).foldl (fun n x => n + p.store x.1 * 2 ^ (p.bits * x.2)) 0) / 2 ^ (32 * j) % 2 ^ 32
  else 0

/-- BQNT in one block: the words of its active lanes, and the flags. -/
def bqntBlock (o : FmtA) (s : State) (c : Cur) (k : Nat) : List (Nat × Nat) × Flags :=
  let lanes := (List.range 32).map (32 * k + ·)
  let p := planeFmt o.planeFmt.toNat
  let x (l : Nat) : Num × Mode :=
    (if c.active.getLsbD l then numOf fp32 (readSrc s c (some .f32) .w32 (some l) o.a) else .fin false 0 0,
     modeOf c.regs.fpmode o.rm (readSrc s c none .w32 (some l) o.b))
  let (sc, vs, fl) := quantBlock p (lanes.map x)
  let act := lanes.filter fun l => c.active.getLsbD l
  (act.map fun l => (l, imageWord p sc vs (l % 32)), if act.isEmpty then 0 else fl)

/-- Words given to lanes, with the flags of two blocks. -/
def blockResult (o : FmtA) (s : State) (c : Cur) (a b : List (Nat × Nat) × Flags) : Res :=
  let out := a.1 ++ b.1
  let s' := s.modRegs c.pack c.who fun r =>
    (out.foldl (fun r e => writeDst r (some .f32) .w32 (some e.1) o.dst o.wbs e.2) r).raise (a.2 ||| b.2)
  .done { doneAt s' with dep := out.flatMap fun e => deposits c .w32 (some e.1) e.2 }

def execBqnt (o : FmtA) (s : State) : Host.Outcome State Fault Refusal :=
  perform (.bqnt o) (fun s c => blockResult o s c (bqntBlock o s c 0) (bqntBlock o s c 1)) s

/-- R115: the value of a plane integer under a scale. -/
def dequant (p : PlaneFmt) (sc : Nat) (v : Int) : Nat × Flags :=
  match scaleOf sc with
  | none => (fp32.nanBits, fNV)
  | some (sm, se) =>
    if v = 0 ∨ sm = 0 then (0, 0) else deliver fp32 .rne 0 0 (.real (decide (v < 0)) (v.natAbs * sm) (p.off + se) false 0)

def bdeqBlock (o : FmtA) (s : State) (c : Cur) (k : Nat) : List (Nat × Nat) × Flags :=
  let lanes := (List.range 32).map (32 * k + ·)
  let p := planeFmt o.planeFmt.toNat
  let w (j : Nat) : Nat := readSrc s c (some .f32) .w32 (some (32 * k + j)) o.a
  let image := (List.range 32).foldl (fun n j => n + w j * 2 ^ (32 * j)) 0
  let out := (lanes.filter fun l => c.active.getLsbD l).map fun l =>
    (l, dequant p (w 31 % 1024) (p.value (packedElem p.bits (l % 32) image)))
  (out.map fun e => (e.1, e.2.1), out.foldl (fun fl e => fl ||| e.2.2) 0)
def execBdeq (o : FmtA) (s : State) : Host.Outcome State Fault Refusal :=
  perform (.bdeq o) (fun s c => blockResult o s c (bdeqBlock o s c 0) (bdeqBlock o s c 1)) s

end Sys2Proof.Machine
end

