-- ==== Sys2Proof/Machine/Scratch.lean ====
section
/-! DEFINITION. The scratchpad of a workgroup (spec/07, R199 to R201, R209). -/

namespace Sys2Proof.Machine

def State.spad (s : State) (u wg : Nat) : Option Spad := (s.pack u).bind fun p => cget p.spads wg
def State.setSpad (s : State) (u wg : Nat) (x : Spad) : State := s.modPack u fun p => { p with spads := cset p.spads wg x }
def State.modSpad (s : State) (u wg : Nat) (f : Spad → Spad) : State :=
  match s.spad u wg with
  | none => s
  | some x => s.setSpad u wg (f x)

def Spad.readNat (x : Spad) (off n : Nat) : Nat := ofBytes ((List.range n).map fun i => rd 0 x.bytes (off + i))
/-- Bytes `off`, `off + 1`, … written; a write of whole granules replaces them (R209). -/
def putBytes : Cells Byte → Nat → List Byte → Cells Byte
  | m, _, [] => m
  | m, off, b :: r => putBytes (wr 0 m off b) (off + 1) r
def Spad.write (x : Spad) (off : Nat) (bs : List Byte) : Spad :=
  let stays (g : Nat) : Bool := !(decide (off ≤ g * 32) && decide (g * 32 + 32 ≤ off + bs.length))
  { x with bytes := putBytes x.bytes off bs, bad := x.bad.filter stays, corr := x.corr.filter stays }
/-- R200: every byte lies in the allocation. -/
def Spad.inside (x : Spad) (off n : Nat) : Bool := off + n ≤ x.size
/-- Whether a range touches an uncorrectable granule, or an EMPTY line. -/
def Spad.uncAt (x : Spad) (off n : Nat) : Bool := x.bad.any fun g => g * 32 < off + n && off < g * 32 + 32
def Spad.emptyAt (x : Spad) (off n : Nat) : Bool := x.emptyLines.any fun l => l * 128 < off + n && off < l * 128 + 128
/-- A line becomes EMPTY, or FULL (R201). -/
def Spad.markEmpty (x : Spad) (l : Nat) : Spad :=
  if x.emptyLines.contains l then x else { x with emptyLines := x.emptyLines ++ [l] }
def Spad.markFull (x : Spad) (l : Nat) : Spad := { x with emptyLines := x.emptyLines.filter (· != l) }

/-- The bank that holds an offset. -/
def Spad.bankOf (x : Spad) (off : Nat) : Nat := ((x.units[off / 4096]?).getD 0) / 32

/-- R209: correctable granules that are read are corrected and counted by their bank. -/
def State.spadCorrect (s : State) (u wg off n : Nat) : State :=
  match s.pack u, s.spad u wg with
  | some k, some x =>
    let hit := x.corr.filter fun g => g * 32 < off + n && off < g * 32 + 32
    if hit.isEmpty then s
    else
      let s := s.setSpad u wg { x with corr := x.corr.filter fun g => !hit.contains g }
      s.modCluster k.cluster fun cl =>
        hit.foldl (fun cl g => cl.countSoft (16 + x.bankOf (32 * g)) 1) cl
  | _, _ => s

end Sys2Proof.Machine
end

