-- ==== Sys2Proof/Machine/Engine.lean ====
section
/-! DEFINITION. The sequencer and the plane engines (spec/10). Every command is held in one list per cluster, in the order
in which the sequencer received it; the queue of an engine is the part of it that targets the engine. -/

namespace Sys2Proof.Machine

/-! ### Fields of a command (R280) -/

def EngCmd.fa (c : EngCmd) : PlaneFmt := planeFmt (c.params.extractLsb' 20 5).toNat
def EngCmd.fb (c : EngCmd) : PlaneFmt := planeFmt (c.params.extractLsb' 15 5).toNat
def EngCmd.slabs (c : EngCmd) : Nat := (c.params.extractLsb' 11 4).toNat + 1
/-- Bytes of a partial sum (R110). -/
def EngCmd.e (c : EngCmd) : Nat := psBytes (c.params.extractLsb' 20 5).toNat (c.params.extractLsb' 15 5).toNat
def EngCmd.acc (c : EngCmd) : Bool := c.params.getLsbD 10
/-- Rows of the A planes. -/
def EngCmd.height (c : EngCmd) : Nat := if c.params.getLsbD 9 then 64 else 128
def EngCmd.off1 (c : EngCmd) : Nat := c.s1.toNat % 2 ^ 32
def EngCmd.off1h (c : EngCmd) : Nat := c.s1.toNat / 2 ^ 32
def EngCmd.off2 (c : EngCmd) : Nat := c.s2.toNat % 2 ^ 32
def EngCmd.off2h (c : EngCmd) : Nat := c.s2.toNat / 2 ^ 32
def EngCmd.bias (c : EngCmd) : Nat := (c.params.extractLsb' 23 2).toNat
def EngCmd.act (c : EngCmd) : Nat := (c.params.extractLsb' 21 2).toNat
def EngCmd.out (c : EngCmd) : Nat := (c.params.extractLsb' 19 2).toNat
/-- The rounding mode of MSCALE and of MEPIL. -/
def EngCmd.mode (c : EngCmd) : Mode :=
  Mode.ofCode (match c.op with | .mscale => c.params.extractLsb' 9 2 | _ => c.params.extractLsb' 17 2)
def outBytes (out : Nat) : Nat := match out with | 0 => 4 | 1 => 2 | 2 => 2 | _ => 1

/-! ### Regions (R282) -/

/-- A region of a scratchpad: `home` says that it lies in the scratchpad of the B tile. -/
structure Region where
  home : Bool
  off : Nat
  len : Nat
deriving DecidableEq, Repr

/-- The regions of a command in the order of R288. -/
def EngCmd.regions (c : EngCmd) : List Region :=
  match c.op with
  | .mplane =>
    [⟨false, c.off1, c.slabs * c.fa.planes * c.height * 16⟩, ⟨true, c.off1h, c.slabs * c.fb.planes * 1024⟩,
     ⟨false, c.off2, c.slabs * 32768 * c.e⟩]
  | .mscale =>
    [⟨false, c.off1, c.slabs * 32768 * c.e⟩, ⟨false, c.off1h, 32768⟩, ⟨false, c.off2, 1024 * c.slabs⟩,
     ⟨false, c.off2h, 512 * c.slabs⟩]
  | .mepil =>
    [⟨false, c.off1, 32768⟩, ⟨false, c.off1h, 8192 * outBytes c.out⟩] ++
      (match c.bias with | 0 => [] | 1 => [⟨false, c.off2, 256⟩] | _ => [⟨false, c.off2, 512⟩])
  | .mzero => [⟨false, c.off1, 2048 * c.steps⟩]

/-- Whether two regions share a byte in one of the scratchpads: the B tile meets the others in its own workgroup only. -/
def EngCmd.clash (c : EngCmd) (a b : Region) : Bool :=
  decide (a.off < b.off + b.len) && decide (b.off < a.off + a.len) &&
    (a.home == b.home || c.wgs.contains c.home) &&
    !(c.op == .mepil && c.out == 0 && c.off1 == c.off1h && a.len == 32768 && b.len == 32768)

/-- The first region that shares a byte with one before it. -/
def EngCmd.firstClash (c : EngCmd) : List Region → List Region → Option Region
  | _, [] => none
  | before, r :: rest => if before.any (c.clash r) then some r else c.firstClash (before ++ [r]) rest

/-! ### Checks (R288) -/

/-- Distinct cores, and at least one, of workgroups that the pack has. -/
def maskOk (k : Pack) (wgs : List Nat) : Bool :=
  !wgs.isEmpty && wgs.all (fun g => decide (g < pkGroups k.packet)) &&
    (let cs := wgs.map fun g => (k.cores[g]?).getD 0
     cs.eraseDups.length == cs.length)

/-- Step 5 for an engine command, after SYNC.DETACHED: sub-code of SYNC.PRODUCER. -/
def engSync (k : Pack) (who : Nat) (bc : Bool) : Option Nat :=
  if !pkBaton k.packet then none
  else
    let holds :=
      who != spineWho &&
        (match cget k.batons ((k.cores[who / 16]?).getD 0) with
         | some b => b.holder == who / 16
         | none => false)
    if !holds then some 2 else if bc then some 3 else none

/-- Step 6 for an engine command: sub-codes 3, 1 and 2 of MEM.SPAD behind MEM.ALIGN. -/
def engCheck (k : Pack) (c : EngCmd) : Option (Nat × Nat × Nat) :=
  let size (r : Region) : Nat :=
    if r.home then ((cget k.spads c.home).map (·.size)).getD 0
    else (c.wgs.map fun g => ((cget k.spads g).map (·.size)).getD 0).foldl min (2 ^ 33)
  match c.regions.find? fun r => r.off % 128 != 0 with
  | some r => some (0x0D, 0, r.off)
  | none =>
    if !maskOk k c.wgs || decide (pkGroups k.packet ≤ c.home) then some (0x0E, 3, 0)
    else
      match c.regions.find? fun r => decide (size r < r.off + r.len) with
      | some r => some (0x0E, 1, r.off)
      | none => (c.firstClash [] c.regions).map fun r => (0x0E, 2, r.off)

/-! ### Receipt (R279) -/

/-- The cores a command runs on, and the length of an engine's queue. -/
def EngCmd.cores (c : EngCmd) (k : Pack) : List Nat := c.wgs.map fun g => (k.cores[g]?).getD 0
def State.onCore (s : State) (cl core : Nat) (c : EngCmd) : Bool :=
  match s.pack c.pack with
  | none => false
  | some k => k.cluster == cl && (c.cores k).contains core
def State.queue (s : State) (cl core : Nat) : List EngCmd := (s.cluster cl).cmds.filter (s.onCore cl core)
/-- Whether every queue of the command has room. -/
def State.engRoom (s : State) (k : Pack) (c : EngCmd) : Bool :=
  (c.cores k).all fun x => decide ((s.queue k.cluster x).length < 16)
/-- A command enters its queues: it no longer stands among those that wait for room. -/
def State.pushCmd (s : State) (cl : Nat) (c : EngCmd) : State :=
  s.modCluster cl fun x => { x with cmds := x.cmds ++ [c], arrivals := x.arrivals.filter fun y => y.1.id != c.id }

/-! ### Commands that wait for room (R279) -/

/-- A command has reached the sequencer and waits: with the lanes of its issuer, or 0 where it waits in a join slot. -/
def State.arrive (s : State) (cl : Nat) (c : EngCmd) (lanes : Lanes) : State :=
  s.modCluster cl fun x => { x with arrivals := x.arrivals ++ [(c, lanes)] }
/-- The command of a group that waits already. -/
def State.arrived (s : State) (cl u who : Nat) (lanes : Lanes) : Option EngCmd :=
  ((s.cluster cl).arrivals.find? fun x => x.1.pack == u && x.1.who == who && x.2 == lanes && x.2 != 0).map (·.1)
/-- Whether a waiting command can go on to its queues: its pack is not pre-empted and its group is not held or without its
page. One that cannot is passed over (DESIGN CHOICE, log 87). -/
def State.comes (s : State) (cl : Nat) (x : EngCmd × Lanes) : Bool :=
  match s.pack x.1.pack with
  | none => false
  | some k =>
    (match k.state with
     | .resident | .retired => true
     | .waiting | .placeable | .draining | .saved => false) &&
      (if x.2 = 0 then (s.cluster cl).joins.any fun j => j.2.go && (j.2.cmd.map (·.id)) == some x.1.id
       else match cget k.parties x.1.who with
        | none => false
        | some p => (p.replay == 0 || Config.groupsRunOn) && p.groups.any fun g => g.lanes == x.2 && g.wait.isSome && !g.held)
/-- A command that reached the sequencer before this one waits for a queue of the same engine: this one stays behind it. -/
def State.behind (s : State) (k : Pack) (c : EngCmd) : Bool :=
  ((s.cluster k.cluster).arrivals.takeWhile fun x => x.1.id != c.id).any fun x =>
    s.comes k.cluster x && ((s.pack x.1.pack).map fun k' => (x.1.cores k').any (c.cores k).contains).getD false

/-- R253: the s register of a token is marked, or receives its status. -/
def Spec.sNum : Spec → Nat
  | .s n => n.toNat
  | .v _ | .k _ | .h _ | .a _ | .const _ | .special _ => 0
def Party.markToken (p : Party) (t : Nat) : Party := { p with pending := p.pending ||| BitVec.twoPow 64 t }
def Party.giveToken (p : Party) (t : Nat) (x : Word64) : Party :=
  { p with regs := p.regs.writeS t x, pending := p.pending &&& ~~~(BitVec.twoPow 64 t) }
/-- The token of a live issuer is written; that of one that has ended is discarded. -/
def State.writeToken (s : State) (u who t : Nat) (x : Word64) : State :=
  s.modParty u who fun p => if p.ended then p else p.giveToken t x

/-! ### Steps (R283 to R286, R291 to R293) -/

/-- What a step reads and writes: whether in the B tile's scratchpad, offset, length. -/
structure StepUse where
  reads : List Region
  writes : List Region
deriving DecidableEq, Repr

/-- The planes that a pass over magnitude plane j reads (R284). -/
def PlaneFmt.planesRead (p : PlaneFmt) (j : Nat) : List Nat :=
  match p.kind with | .ter => [0, 1] | .bin => [0] | .uns | .sgn | .flt _ _ => [j]

/-- Slab and plane numbers of a step of MPLANE. -/
def EngCmd.split (c : EngCmd) (st : Nat) : Nat × Nat × Nat :=
  let rr := c.fa.rate * c.fb.rate
  (st / rr, st % rr / c.fb.rate, st % c.fb.rate)

def EngCmd.use (c : EngCmd) (st : Nat) : StepUse :=
  match c.op with
  | .mplane =>
    let (sl, ja, jb) := c.split st
    let h := c.height * 16
    let a := (c.fa.planesRead ja).map fun j => Region.mk false (c.off1 + sl * c.fa.planes * h + j * h) h
    let b := (c.fb.planesRead jb).map fun j => Region.mk true (c.off1h + sl * c.fb.planes * 1024 + j * 1024) 1024
    let ps := Region.mk false (c.off2 + sl * 32768 * c.e) (32768 * c.e)
    ⟨a ++ b ++ (if ja = 0 ∧ jb = 0 ∧ !c.acc then [] else [ps]), [ps]⟩
  | .mscale =>
    let nb := 4 * c.slabs
    let sa := (List.range 128).map fun r => Region.mk false (c.off2 + (r * nb + st) * 2) 2
    let sb := (List.range 64).map fun x => Region.mk false (c.off2h + (x * nb + st) * 2) 2
    ⟨Region.mk false (c.off1 + st / 4 * 32768 * c.e) (32768 * c.e) :: Region.mk false c.off1h 32768 :: (sa ++ sb),
     [Region.mk false c.off1h 32768]⟩
  | .mepil =>
    let bias := match c.bias with
      | 0 => [] | 1 => [Region.mk false c.off2 256] | _ => [Region.mk false (c.off2 + 4 * st) 4]
    ⟨Region.mk false (c.off1 + 256 * st) 256 :: bias,
     [Region.mk false (c.off1h + 64 * st * outBytes c.out) (64 * outBytes c.out)]⟩
  | .mzero => ⟨[], [Region.mk false (c.off1 + 2048 * st) 2048]⟩

/-- A region rewritten: the bytes outside it stand, in rising order. -/
def rewrite (m : Cells Byte) (off : Nat) (bs : List Byte) : Cells Byte :=
  m.filter (fun e => decide (e.1 < off)) ++
    ((List.range bs.length).zip bs).filterMap (fun e => if e.2 = 0 then none else some (off + e.1, e.2)) ++
    m.filter (fun e => decide (off + bs.length ≤ e.1))
def Spad.rewrite (x : Spad) (off : Nat) (bs : List Byte) : Spad :=
  let stays (g : Nat) : Bool := !(decide (off ≤ g * 32) && decide (g * 32 + 32 ≤ off + bs.length))
  { x with bytes := Machine.rewrite x.bytes off bs, bad := x.bad.filter stays, corr := x.corr.filter stays }

/-- Magnitude and select words of block j of a row (R284). -/
def maskWords (p : PlaneFmt) (j : Nat) (word : Nat → Nat) : Nat × Nat :=
  match p.kind with
  | .bin => (0xFFFFFFFF, word 0)
  | .ter => (word 0, word 1)
  | .uns | .sgn | .flt _ _ => (word j, 0)

/-- C of R285. -/
def pairSum (wa wb : Int) (a b : Nat × Nat) : Int :=
  let m := a.1 &&& b.1
  let x := a.2 ^^^ b.2
  wa * wb * ((popc 32 (m &&& (0xFFFFFFFF ^^^ x)) : Int) - popc 32 (m &&& x))

/-- The partial sum of output (r, col), block j, after a step. -/
def EngCmd.sumAt (c : EngCmd) (tgt home : Spad) (st r col j : Nat) : Nat :=
  let (sl, ja, jb) := c.split st
  let ha := c.height * 16
  let wordA (pl : Nat) := tgt.readNat (c.off1 + sl * c.fa.planes * ha + pl * ha + 16 * r + 4 * j) 4
  let wordB (pl : Nat) := home.readNat (c.off1h + sl * c.fb.planes * 1024 + pl * 1024 + 16 * col + 4 * j) 4
  let x : Int :=
    if c.height ≤ r then 0
    else pairSum (c.fa.weight ja) (c.fb.weight jb) (maskWords c.fa ja wordA) (maskWords c.fb jb wordB)
  let old := if ja = 0 ∧ jb = 0 ∧ !c.acc then 0
    else tgt.readNat (c.off2 + sl * 32768 * c.e + ((r * 64 + col) * 4 + j) * c.e) c.e
  unsignedOf (8 * c.e) (x + old)

/-- One iteration of R112 on an accumulator, with its flags. An accumulator that is a NaN, signalling ones among them, gives
the canonical NaN and raises nothing (DESIGN CHOICE, log 63). -/
def scaleStep (mode : Mode) (off : Int) (acc : Nat) (ps : Int) (sa sb : Nat) : Nat × Flags :=
  match scaleOf sa, scaleOf sb with
  | some (ma, ea), some (mb, eb) =>
    if (numOf fp32 acc).isNan then (fp32.nanBits, 0)
    else
      let m := ps.natAbs * ma * mb
      let t : Num := .fin (decide (ps < 0) && m != 0) m (ea + eb + off)
      deliver fp32 mode 0 0 (addV mode (numOf fp32 acc) t)
  | _, _ => (fp32.nanBits, fNV)

/-- A row element of MEPIL (R292): its stored bits and flags. -/
def epilElem (mode : Mode) (act out : Nat) (bias : Option Nat) (x : Nat) : Nat × Flags :=
  let (y, f1) := match bias with
    | none => (x, 0)
    | some b => f32Add mode x b
  let n := numOf fp32 y
  let (y, f2) : Nat × Flags := match act with
    | 0 => (y, 0)
    | 1 => (if n.isNan then fp32.nanBits else if n.neg || n.isZero then 0 else y, 0)
    | 2 => deliverFn fp32 mode 0 0 (tanhV n)
    | _ => deliverFn fp32 mode 0 0 (siluV n)
  let n := numOf fp32 y
  let (z, f3) : Nat × Flags := match out with
    | 0 => (y, 0)
    | 1 => deliver fp16 mode 0 0 n.val
    | 2 => deliver bf16 mode 0 0 n.val
    | _ => let r := toRange mode 0 (-128) 127 n; (unsignedOf 8 r.1, r.2)
  (z, f1 ||| f2 ||| f3)

/-- The bytes that a step writes, and its flags, for one target scratchpad. -/
def EngCmd.stepBytes (c : EngCmd) (tgt home : Spad) (st : Nat) : List Byte × Flags :=
  match c.op with
  | .mplane =>
    ((List.range 32768).flatMap fun i => bytesOf c.e (c.sumAt tgt home st (i / 256) (i / 4 % 64) (i % 4)), 0)
  | .mscale =>
    let nb := 4 * c.slabs
    let out := (List.range 8192).map fun i =>
      let r := i / 64
      let col := i % 64
      let ps := tgt.readNat (c.off1 + st / 4 * 32768 * c.e + (i * 4 + st % 4) * c.e) c.e
      scaleStep c.mode (c.fa.off + c.fb.off) (tgt.readNat (c.off1h + 4 * i) 4) (signedOf (8 * c.e) ps)
        (tgt.readNat (c.off2 + (r * nb + st) * 2) 2 % 1024) (tgt.readNat (c.off2h + (col * nb + st) * 2) 2 % 1024)
    (out.flatMap fun x => bytesOf 4 x.1, out.foldl (fun fl x => fl ||| x.2) 0)
  | .mepil =>
    let out := (List.range 64).map fun col =>
      let bias := match c.bias with
        | 0 => none
        | 1 => some (tgt.readNat (c.off2 + 4 * col) 4)
        | _ => some (tgt.readNat (c.off2 + 4 * st) 4)
      epilElem c.mode c.act c.out bias (tgt.readNat (c.off1 + 256 * st + 4 * col) 4)
    (out.flatMap fun x => bytesOf (outBytes c.out) x.1, out.foldl (fun fl x => fl ||| x.2) 0)
  | .mzero => (List.replicate 2048 0, 0)

/-- The scratchpad of a region for a target workgroup. -/
def EngCmd.padOf (c : EngCmd) (k : Pack) (wg : Nat) (r : Region) : Option Spad :=
  cget k.spads (if r.home then c.home else wg)

/-- Every line that the step reads or writes is FULL (R283, R286). -/
def EngCmd.linesFull (c : EngCmd) (k : Pack) : Bool :=
  let u := c.use c.next
  c.wgs.all fun g => (u.reads ++ u.writes).all fun r =>
    match c.padOf k g r with
    | some x => !x.emptyAt r.off r.len
    | none => false
/-- Some operand of the step is uncorrectable (R287). -/
def EngCmd.uncOperand (c : EngCmd) (k : Pack) : Bool :=
  c.wgs.any fun g => (c.use c.next).reads.any fun r =>
    match c.padOf k g r with
    | some x => x.uncAt r.off r.len
    | none => false

/-- The step, on every engine of the command. -/
def State.runStep (s : State) (k : Pack) (c : EngCmd) : State × EngCmd :=
  let home := (cget k.spads c.home).getD { size := 0, bytes := [], emptyLines := [], bad := [], corr := [], units := [] }
  let u := c.use c.next
  let s := c.wgs.foldl (fun s g => u.reads.foldl (fun s r =>
    s.spadCorrect c.pack (if r.home then c.home else g) r.off r.len) s) s
  let r := c.wgs.foldl (fun (acc : State × Flags) g =>
    match cget k.spads g with
    | none => acc
    | some tgt =>
      let (bs, fl) := c.stepBytes tgt home c.next
      (u.writes.foldl (fun s w => s.modSpad c.pack g fun x => x.rewrite w.off bs) acc.1, acc.2 ||| fl)) (s, 0)
  (r.1, { c with next := c.next + 1, fx := c.fx ||| r.2 })

/-- The command at the head of an engine's queue, when it stands at the head of all of its queues. -/
def State.headCmd (s : State) (cl core : Nat) : Option (Pack × EngCmd) :=
  match s.queue cl core with
  | [] => none
  | c :: _ =>
    match s.pack c.pack with
    | none => none
    | some k =>
      if (c.cores k).all fun x => ((s.queue cl x).head?).map (·.id) == some c.id then some (k, c) else none

def State.setCmd (s : State) (cl : Nat) (c : EngCmd) : State :=
  s.modCluster cl fun x => { x with cmds := x.cmds.map fun y => if y.id = c.id then c else y }

/-- Engines work for RESIDENT packs, and for a RETIRED one until its commands are done (R297). -/
def Pack.engines (k : Pack) : Bool :=
  match k.state with
  | .resident | .retired => true
  | .waiting | .placeable | .draining | .saved => false
/-- A step of an engine's command (R283, R287, R408). -/
def State.engStep (s : State) (cl core : Nat) (op : EngOp) : Option State :=
  match s.headCmd cl core with
  | none => none
  | some (k, c) =>
    if c.op ≠ op ∨ c.discard ∨ c.uncorr ∨ c.steps ≤ c.next ∨ !k.engines ∨ !c.linesFull k then none
    else if c.uncOperand k then some (s.setCmd cl { c with uncorr := true })
    else
      let (s, c) := s.runStep k c
      some ((s.setCmd cl c).count cl 6 c.wgs.length)
def execMplaneStep (cluster core : Nat) (s : State) : Host.Outcome State Fault Refusal :=
  occur (s.engStep cluster core .mplane)
def execMscaleStep (cluster core : Nat) (s : State) : Host.Outcome State Fault Refusal :=
  occur (s.engStep cluster core .mscale)
def execMepilStep (cluster core : Nat) (s : State) : Host.Outcome State Fault Refusal :=
  occur (s.engStep cluster core .mepil)
def execMzeroStep (cluster core : Nat) (s : State) : Host.Outcome State Fault Refusal :=
  occur (s.engStep cluster core .mzero)

/-- The status word of R287. -/
def EngCmd.status (c : EngCmd) : Word64 :=
  let code := if c.discard then 6 else if c.uncorr then 5 else 0
  u64 (c.fx.toNat * 2 ^ 35 + c.next % 65536 * 65536 + code)
/-- The command of an engine's queue that is over: a discarded one wherever it stands, since no step of it is under way
(R297), or the head of the queue. -/
def State.overCmd (s : State) (cl core : Nat) : Option EngCmd :=
  match (s.queue cl core).find? (·.discard) with
  | some c => some c
  | none =>
    match s.headCmd cl core with
    | none => none
    | some (_, c) => if c.uncorr || decide (c.steps ≤ c.next) then some c else none
/-- The completion of a command of an engine's queue. -/
def State.engComplete (s : State) (cl core : Nat) : Option State :=
  match s.overCmd cl core with
  | none => none
  | some c =>
    let s := s.modCluster cl fun x => { x with cmds := x.cmds.filter fun y => y.id != c.id }
    some ((s.writeToken c.pack c.who c.token c.status).tryRetire c.pack)
def execEngineCommandCompletion (cluster core : Nat) (s : State) : Host.Outcome State Fault Refusal :=
  occur (s.engComplete cluster core)

/-! ### MPLANE, MSCALE, MEPIL, MZERO (R279 to R281, R288) -/

/-- The workgroup of the issuer, or the one that the spine thread names. -/
def namedWg (who : Nat) (src : Nat) : Nat := if who = spineWho then src / 2 ^ 32 % 8 else who / 16

/-- The command of an instruction, as its sources give it. -/
def engCmdOf (o : FmtE) (op : EngOp) (bc : Bool) (s : State) (c : Cur) : EngCmd :=
  let x1 := u64 (readSrc s c none .w64 none o.s1)
  let x2 := if op = .mzero then 0 else u64 (readSrc s c none .w64 none o.s2)
  let x3 := readSrc s c none .w64 none o.s3
  let home := namedWg c.who x3
  { id := s.nextId, pack := c.pack, who := c.who, token := Spec.sNum o.token, op, bc,
    wgs := if bc then (List.range 8).filter fun g => x3.testBit g else [home],
    home, s1 := x1, s2 := x2, params := o.params, next := 0, fx := 0, discard := false, uncorr := false }

/-- Steps 5 and 6 of R288, for the commands themselves and for SCPMX.ARM. -/
def engTrap (k : Pack) (c : Cur) (cmd : EngCmd) : Option Trap :=
  match engSync k c.who cmd.bc with
  | some sub => some (trapOf cProducer sub c.lanes)
  | none => (engCheck k cmd).map fun e => { trapOf e.1 e.2.1 c.lanes with addr := u64 e.2.2 }

/-- The command enters its queues once its checks have passed and they have room, after those that came before it; until then
its group waits, and it is not checked again (R262, R279). -/
def engBody (o : FmtE) (op : EngOp) (bc : Bool) (s : State) (c : Cur) : Res :=
  match s.pack c.pack, s.party c.pack c.who with
  | some k, some p =>
    let enter (s : State) (cmd : EngCmd) : Res :=
      .done (doneAt ((s.pushCmd k.cluster cmd).modParty c.pack c.who fun p => p.markToken cmd.token))
    match (if c.again then s.arrived k.cluster c.pack c.who c.lanes else none) with
    | some cmd => if s.engRoom k cmd && !s.behind k cmd then enter s cmd else .wait s
    | none =>
      let cmd := engCmdOf o op bc s c
      if p.detached then .trap s (trapOf cDetached 1 c.lanes)
      else
        match engTrap k c cmd with
        | some t => .trap s t
        | none =>
          let ok := s.engRoom k cmd && !s.behind k cmd
          let s := { s with nextId := s.nextId + 1 }
          if ok then enter s cmd else .waiting (s.arrive k.cluster cmd c.lanes) c
  | _, _ => .wait s
def execMplane (o : FmtE) (s : State) : Host.Outcome State Fault Refusal := perform (.mplane o) (engBody o .mplane false) s
def execMplaneBc (o : FmtE) (s : State) : Host.Outcome State Fault Refusal := perform (.mplaneBc o) (engBody o .mplane true) s
def execMscale (o : FmtE) (s : State) : Host.Outcome State Fault Refusal := perform (.mscale o) (engBody o .mscale false) s
def execMepil (o : FmtE) (s : State) : Host.Outcome State Fault Refusal := perform (.mepil o) (engBody o .mepil false) s
def execMzero (o : FmtE) (s : State) : Host.Outcome State Fault Refusal := perform (.mzero o) (engBody o .mzero false) s

/-! ### Batons (R294 to R296) -/

/-- The ring of a warp's SIMT core. -/
def State.baton (s : State) (u who : Nat) : Option (Nat × Baton) :=
  match s.pack u with
  | none => none
  | some k =>
    let core := (k.cores[who / 16]?).getD 0
    (cget k.batons core).map fun b => (core, b)
def State.setBaton (s : State) (u core : Nat) (b : Baton) : State := s.modPack u fun k => { k with batons := cset k.batons core b }

def btakeBody (o : FmtE) (s : State) (c : Cur) : Res :=
  if ((s.party c.pack c.who).map (·.detached)).getD false then .trap s (trapOf cDetached 1 c.lanes)
  else if c.again then
    match s.servedFor c with
    | some vals => .done (doneAt (giveS s c o.token false ((vals.head?).getD 0)))
    | none => .wait s
  else
    match s.baton c.pack c.who with
    | none => .done (doneAt (giveS s c o.token false (batonWord 0 2)))
    | some (core, b) =>
      if b.holder = c.who / 16 then
        let (b, w) := b.take
        .done (doneAt (giveS (s.setBaton c.pack core b) c o.token false w))
      else .waiting (s.setBaton c.pack core { b with waits := b.waits ++ [(c.who, c.lanes)] }) c
def execBtake (o : FmtE) (s : State) : Host.Outcome State Fault Refusal := perform (.btake o) (btakeBody o) s

/-- A waiting BTAKE whose workgroup has become the holder is served. -/
def State.serveBtake (s : State) (u who : Nat) : Option State :=
  match s.baton u who with
  | none => none
  | some (core, b) =>
    match b.waits.find? fun x => x.1 == who with
    | none => none
    | some x =>
      if b.holder = who / 16 then
        let (b, w) := { b with waits := b.waits.erase x }.take
        some ((s.setBaton u core b).modParty u who fun p => p.serve x.2 [w])
      else none
def execBtakeService (pack who : Nat) (s : State) : Host.Outcome State Fault Refusal := occur (s.serveBtake pack who)

def bpassBody (o : FmtE) (s : State) (c : Cur) : Res :=
  if ((s.party c.pack c.who).map (·.detached)).getD false then .trap s (trapOf cDetached 1 c.lanes)
  else
    match s.baton c.pack c.who with
    | none => .done (doneAt (giveS s c o.token false (batonWord 0 2)))
    | some (core, b) =>
      if b.holder ≠ c.who / 16 then .trap s (trapOf cProducer 2 c.lanes)
      else if b.members.length ≤ 1 then
        .done (doneAt (giveS (s.setBaton c.pack core { b with taken := false }) c o.token false (batonWord b.holder 3)))
      else
        let h := b.next b.holder
        let s := (s.setBaton c.pack core { b with holder := h, taken := false }).modPack c.pack fun k => k.serveBaton core
        .done (doneAt (giveS s c o.token false (batonWord h 0)))
def execBpass (o : FmtE) (s : State) : Host.Outcome State Fault Refusal := perform (.bpass o) (bpassBody o) s

end Sys2Proof.Machine
end

