-- ==== Sys2Proof/Machine/Control.lean ====
section
/-! DEFINITION. Control transfers and the synchronisation of lanes and warps (spec/04, R137 to R144). -/

namespace Sys2Proof.Machine

/-! ### Faults of step 6 in several lanes (R83) -/

/-- R83: the lowest faulting lane's cause, with every lane of that cause. -/
def faultOfLanes (fs : List (Nat × LaneFault)) (acc : Nat) : Option Trap :=
  match fs with
  | [] => none
  | (_, f) :: _ =>
    some { code := f.code, sub := f.sub, detail := 0, addr := f.addr,
           lanes := maskOf ((fs.filter fun x => x.2.code == f.code).map (·.1)), acc, hint := f.hint }

/-- The asker and the cluster of the party that issues. -/
def State.asker (s : State) (c : Cur) : Asker :=
  match s.pack c.pack, s.party c.pack c.who with
  | some k, some p => askerOf k.ctx p.place (c.who == spineWho)
  | _, _ => askerDie 0 0
def State.here (s : State) (c : Cur) : Nat := s.clusterOf c.pack c.who

/-- The key of the uniform form among lanes is its lowest lane. -/
def laneKey (c : Cur) (l : Option Nat) : Nat := l.getD (lowLane c.lanes)
/-- The mask of a fault: the lanes themselves, or the issuing group in the uniform form (R415). -/
def Trap.widen (t : Trap) (c : Cur) (form : Form) : Trap :=
  match form with | .lane => t | .unif | .gather => { t with lanes := c.lanes }

/-! ### Transfers (R138) -/

/-- R49 for every lane that takes the transfer, in ascending lane order. -/
def checkTargets (a : Asker) (cl : Nat) : List (Nat × Word64) → State → State × List (Nat × LaneFault)
  | [], s => (s, [])
  | (l, t) :: r, s =>
    match s.checkTarget a cl t with
    | (s, some f) => let (s, fs) := checkTargets a cl r s; (s, (l, f) :: fs)
    | (s, none) => checkTargets a cl r s

/-- What a transfer does in one lane: its target, none when it falls through, and its register result. -/
structure Jump where
  target : Option Word64
  result : Option (Width × Nat)
deriving DecidableEq, Repr

/-- The jumps of the group: every lane of it in the uniform form. -/
def jumpsOf (c : Cur) (js : List (Option Nat × Jump)) : List (Nat × Word64) :=
  js.flatMap fun e =>
    match e.2.target with
    | none => []
    | some t => match e.1 with | some l => [(l, t)] | none => (lanesOf c.lanes).map fun l => (l, t)

/-- R138. -/
def transfer (dst : Spec) (f : State → Cur → Option Nat → Jump) (s : State) (c : Cur) : Res :=
  let form := formOf dst
  let js := (lanesFor form c.active).map fun l => (l, f s c l)
  let ts := js.filterMap fun e => e.2.target.map fun t => (laneKey c e.1, t)
  let (s, fs) := checkTargets (s.asker c) (s.here c) ts s
  match faultOfLanes fs Acc.fetch.code with
  | some t => .trap s (t.widen c form)
  | none =>
    let s := s.modRegs c.pack c.who fun r =>
      js.foldl (fun r e => match e.2.result with
        | none => r
        | some (w, x) => writeSpec r none w e.1 dst x) r
    .done { doneAt s with
      jumps := jumpsOf c js
      dep := js.flatMap fun e => match e.2.result with | none => [] | some (w, x) => deposits c w e.1 x }

/-- A target read from a source field. -/
def targetSrc (o : FmtB) (s : State) (c : Cur) (l : Option Nat) : Word64 :=
  u64 (readSrc s c none .w64 l o.target)

def execBra (o : FmtB) (s : State) : Host.Outcome State Fault Refusal :=
  perform (.bra o) (transfer o.link fun _ c _ => ⟨some (dispAddr c.pc o.disp), none⟩) s
def execBrx (o : FmtB) (s : State) : Host.Outcome State Fault Refusal :=
  perform (.brx o) (transfer o.link fun s c l => ⟨some (targetSrc o s c l), none⟩) s
def execCall (o : FmtB) (s : State) : Host.Outcome State Fault Refusal :=
  perform (.call o) (transfer o.link fun _ c _ =>
    ⟨some (dispAddr c.pc o.disp), some (.w64, (succAddr c.pc).toNat)⟩) s
def execCallIndirect (o : FmtB) (s : State) : Host.Outcome State Fault Refusal :=
  perform (.callIndirect o) (transfer o.link fun s c l =>
    ⟨some (targetSrc o s c l), some (.w64, (succAddr c.pc).toNat)⟩) s
def execRet (o : FmtB) (s : State) : Host.Outcome State Fault Refusal :=
  perform (.ret o) (transfer o.link fun s c l => ⟨some (targetSrc o s c l), none⟩) s

/-- LOOPS: the counter, one less, and the branch unless it is 0. -/
def loopsJump (o : FmtB) (s : State) (c : Cur) (l : Option Nat) : Jump :=
  let w : Width := if formOf o.link == .lane then .w32 else .w64
  let n := (readSpec s c none w l o.link + 2 ^ w.bits - 1) % 2 ^ w.bits
  ⟨if n = 0 then none else some (dispAddr c.pc o.disp), some (w, n)⟩
def execLoops (o : FmtB) (s : State) : Host.Outcome State Fault Refusal :=
  perform (.loops o) (transfer o.link (loopsJump o)) s

/-! ### YIELD and EXIT (R139, R140) -/

def Party.yieldLanes (p : Party) (m : Lanes) : Party :=
  { p with yield := (lanesOf m).foldl (fun y l => wr 0 y l 8) p.yield }
def yieldBody (s : State) (c : Cur) : Res :=
  .done (doneAt (if c.who = spineWho then s else s.modParty c.pack c.who fun p => p.yieldLanes c.active))
def execYield (o : FmtB) (s : State) : Host.Outcome State Fault Refusal := perform (.yield o) yieldBody s

def execExit (o : FmtB) (s : State) : Host.Outcome State Fault Refusal :=
  perform (.exit o) (fun s c => .done { doneAt s with exits := c.active }) s

/-! ### WSYNC (R141) -/

/-- The lanes of one execution join records in ascending order: the records, and the lanes in violation. -/
def joinSyncs : List (Nat × Lanes) → List SyncRec → List SyncRec × Lanes
  | [], rs => (rs, 0)
  | (l, m) :: rest, rs =>
    if !m.getLsbD l then
      let (rs', v) := joinSyncs rest rs
      (rs', v ||| laneBit l)
    else if rs.any (·.mask == m) then
      joinSyncs rest (rs.map fun r => if r.mask = m then { r with arrived := r.arrived ||| laneBit l } else r)
    else if rs.any fun r => r.mask &&& m != 0 then
      let (rs', v) := joinSyncs rest rs
      (rs', v ||| laneBit l)
    else joinSyncs rest (rs ++ [{ mask := m, arrived := laneBit l }])

/-- Lanes that stand in some record. -/
def Party.syncing (p : Party) : Lanes := p.syncs.foldl (fun m r => m ||| r.arrived) 0

/-- The lanes in `stay` wait inside the instruction, the others of the group leave it. -/
def stayIn (s : State) (c : Cur) (stay : Lanes) : Res :=
  if stay = c.lanes then .waiting s c
  else if stay = 0 then .done (doneAt s)
  else .done { doneAt (s.enterWait c) with stay := stay }

def wsyncBody (o : FmtB) (s : State) (c : Cur) : Res :=
  match s.party c.pack c.who with
  | none => .wait s
  | some p =>
    if c.again then stayIn s c (p.syncing &&& c.lanes)
    else
      let lm := (lanesOf c.active).map fun l => (l, u64 (readSrc s c none .w64 (readLane (formOf o.link) l) o.mask))
      let (rs, bad) := joinSyncs lm p.syncs
      if bad ≠ 0 then .trap s (trapOf cMask 0 bad)
      else
        let p := { p with syncs := rs }.closeSyncs
        stayIn (s.setParty c.pack c.who p) c (p.syncing &&& c.active)
def execWsync (o : FmtB) (s : State) : Host.Outcome State Fault Refusal := perform (.wsync o) (wsyncBody o) s

/-! ### BAR (R143) -/

/-- The lanes of a warp that the barrier record of its workgroup holds. -/
def State.barLanes (s : State) (u who : Nat) : Lanes :=
  match (s.pack u).bind fun k => cget k.bars (who / 16) with
  | none => 0
  | some b => rd 0 b.lanes (who % 16)

/-- The lanes in violation of R143 among lanes with their masks in ascending order: the mask leaves the warp out, differs
from that of an earlier lane, or from the pending mask. -/
def barViolations (w : Nat) (pending : Option (BitVec 16)) : List (BitVec 16) → List (Nat × BitVec 16) → Lanes
  | _, [] => 0
  | earlier, (l, m) :: r =>
    (if !m.getLsbD w || earlier.any (· != m) || (pending.isSome && pending != some m) then laneBit l else 0) |||
      barViolations w pending (m :: earlier) r

/-- BAR (R143). All 16 bits of the operand are the mask, as R143 and R66 say of `BAR` alone: R144's table shows those of a
workgroup of four warps only (DEDUCED, log 65). -/
def barBody (o : FmtB) (s : State) (c : Cur) : Res :=
  match s.pack c.pack, s.party c.pack c.who with
  | some k, some _ =>
    let wg := c.who / 16
    let w := c.who % 16
    if c.again then stayIn s c (s.barLanes c.pack c.who &&& c.lanes)
    else
      let lm := (lanesOf c.active).map fun l =>
        (l, BitVec.ofNat 16 (readSrc s c none .w64 (readLane (formOf o.link) l) o.mask))
      let b := (cget k.bars wg).getD { mask := none, lanes := [] }
      let bad := barViolations w b.mask [] lm
      if bad ≠ 0 then .trap s (trapOf cMask 0 bad)
      else
        let b : BarRec := { mask := lm.head?.map (·.2), lanes := wr 0 b.lanes w (rd 0 b.lanes w ||| c.active) }
        let s := (s.setPack c.pack { k with bars := cset k.bars wg b }).closeBar c.pack wg
        stayIn s c (s.barLanes c.pack c.who &&& c.active)
  | _, _ => .wait s
def execBar (o : FmtB) (s : State) : Host.Outcome State Fault Refusal := performWith { attached := true } (.bar o) (barBody o) s

end Sys2Proof.Machine
end

