-- ==== Sys2Proof/Machine/Mem.lean ====
section
/-! DEFINITION. Memory instructions (spec/07, R197, R198 and R210 to R224). The machine performs accesses one after another,
in the order of its steps, so orders and scopes change nothing that it does (log 1). -/

namespace Sys2Proof.Machine

/-! ### Addresses (R211) -/

/-- The effective address of a lane, or of the uniform form. -/
def effAddr (o : FmtM) (s : State) (c : Cur) (l : Option Nat) : Word64 :=
  u64 (readSrc s c none .w64 l o.base) + (BitVec.ofNat 32 (readSrc s c none .w32 l o.index)).signExtend 64 +
    o.offset.signExtend 64
/-- The scratchpad offset. -/
def effOffset (o : FmtM) (s : State) (c : Cur) (l : Option Nat) : Nat :=
  (readSrc s c none .w32 l o.base + readSrc s c none .w32 l o.index + o.offset.toNat) % 2 ^ 32
/-- Bytes of SIZE. -/
def sizeBytes (size : BitVec 3) : Nat := 2 ^ (size.toNat % 5)
/-- R205: `.STRM` makes a line the next victim, `.KEEP` retains it ahead of others, `.L2O` allocates nothing in L1, `.ONCE`
nothing in L1 or L2. -/
def hintAlloc (hint : BitVec 3) : Alloc :=
  { l1 := !(hint == 2#3 || hint == 4#3), l2 := hint != 4#3, rank := if hint = 1#3 then 0 else if hint = 3#3 then 2 else 1 }
def formM (o : FmtM) : Form := formOf o.data

/-! ### Accesses of all active lanes -/

/-- Whether a set of checks has passed: the lanes that pass with what their check gave, and the faults. -/
abbrev Checked := List (Option Nat × Nat) × List (Nat × LaneFault)

/-- R211 in every active lane, in ascending order. -/
def accessLanes (a : Asker) (c : Cur) (n : Nat) (acc : Acc) (consumes : Consumes) :
    List (Option Nat × Word64) → State → State × Checked
  | [], s => (s, ([], []))
  | (l, va) :: r, s =>
    let (s, x) := access s a va n acc consumes
    let (s, (ok, bad)) := accessLanes a c n acc consumes r s
    match x with
    | .ok pa => (s, ((l, pa) :: ok, bad))
    | .error f => (s, (ok, (laneKey c l, f) :: bad))

/-- The lanes that stay for a fault: every faulting lane, or the group in the uniform form. -/
def stayLanes (c : Cur) (form : Form) (bad : List (Nat × LaneFault)) : Lanes :=
  match form with | .lane => maskOf (bad.map (·.1)) | .unif | .gather => c.lanes

/-- R83: the fault ends the instruction, or, when it is replayable, the lanes without a fault complete. -/
def afterChecks (form : Form) (acc : Nat) (x : Checked)
    (act : List (Option Nat × Nat) → State → State × List (Nat × Latch)) (s : State) (c : Cur) : Res :=
  match faultOfLanes x.2 acc with
  | none =>
    let (s, dep) := act x.1 s
    .done { doneAt s with dep := dep }
  | some t =>
    if t.code = cPage then
      let (s, dep) := act x.1 s
      .done { doneAt s with dep := dep, stay := stayLanes c form x.2, trap := some (t.widen c form) }
    else .trap s (t.widen c form)

/-- A global access of `n` bytes in every active lane. -/
def globalBody (o : FmtM) (n : Nat) (acc : Acc) (consumes : Consumes)
    (act : Cur → List (Option Nat × Nat) → State → State × List (Nat × Latch)) (s : State) (c : Cur) : Res :=
  let ls := (lanesFor (formM o) c.active).map fun l => (l, effAddr o s c l)
  let (s, x) := accessLanes (s.asker c) c n acc consumes ls s
  afterChecks (formM o) acc.code x (act c) s c

/-! ### LD and ST (R213) -/

/-- A loaded value extended to 32 bits (R211). -/
def extendLoad (sx : Bool) (n raw : Nat) : Nat :=
  if sx && decide (n < 4) then ((BitVec.ofNat (8 * n) raw).signExtend 32).toNat else raw
/-- The type that extends a 32-bit value in an s register. -/
def loadTy (sx : Bool) : Option Ty := if sx then some .i32 else none

/-- A result of a memory instruction in a lane. -/
def giveM (o : FmtM) (w : Width) (c : Cur) (l : Option Nat) (x : Nat) (acc : State × List (Nat × Latch)) :
    State × List (Nat × Latch) :=
  (acc.1.modRegs c.pack c.who fun r => writeSpec r none w l o.data x, acc.2 ++ deposits c w l x)

/-- A loaded value, extended to the register's width: 64 bits in an s register (R211), which its latch receives (R72). -/
def giveLoad (sx : Bool) (o : FmtM) (w : Width) (c : Cur) (l : Option Nat) (x : Nat) (acc : State × List (Nat × Latch)) :
    State × List (Nat × Latch) :=
  (acc.1.modRegs c.pack c.who fun r => writeSpec r (loadTy sx) w l o.data x,
   acc.2 ++ (if l.isNone && w == .w32 then deposits c .w64 none (toS (loadTy sx) x).toNat else deposits c w l x))

def loadAct (sx : Bool) (o : FmtM) (c : Cur) (hits : List (Option Nat × Nat)) (s : State) : State × List (Nat × Latch) :=
  let n := sizeBytes o.size
  hits.foldl (fun acc h =>
    let x := extendLoad sx n (acc.1.readNat h.2 n)
    giveLoad sx o (sizeWidth o.size) c h.1 x (acc.1.readBy (acc.1.here c) h.2 n (hintAlloc o.hint), acc.2)) (s, [])
def execLd (sx : Bool) (o : FmtM) (s : State) : Host.Outcome State Fault Refusal :=
  perform (.ld sx o) (globalBody o (sizeBytes o.size) .read .near (loadAct sx o)) s

def storeAct (o : FmtM) (c : Cur) (hits : List (Option Nat × Nat)) (s : State) : State × List (Nat × Latch) :=
  let n := sizeBytes o.size
  (hits.foldl (fun s h =>
    s.writeBy (s.here c) h.2 (hintAlloc o.hint) (bytesOf n (readSpec s c none (sizeWidth o.size) h.1 o.data))) s, [])
def execSt (o : FmtM) (s : State) : Host.Outcome State Fault Refusal :=
  perform (.st o) (globalBody o (sizeBytes o.size) .write .nothing (storeAct o)) s

/-! ### Scratchpad accesses (R200, R211, R213) -/

/-- The checks of one scratchpad access. -/
def Spad.check (x : Spad) (off n align : Nat) (consumes : Bool) : Except LaneFault Nat :=
  if off % align ≠ 0 then .error ⟨cAlign, 0, u64 off, 0⟩
  else if !x.inside off n then .error ⟨cSpad, 0, u64 off, 0⟩
  else if consumes && !x.emptyAt off n && x.uncAt off n then .error ⟨cUncorr, 0, u64 off, 0⟩
  else .ok off

def splitChecks (c : Cur) : List (Option Nat × Except LaneFault Nat) → Checked
  | [] => ([], [])
  | (l, .ok off) :: r => ((l, off) :: (splitChecks c r).1, (splitChecks c r).2)
  | (l, .error f) :: r => ((splitChecks c r).1, (laneKey c l, f) :: (splitChecks c r).2)

/-- An access of `n` bytes to the workgroup's scratchpad in every active lane, which waits for EMPTY lines. -/
def spadBody (o : FmtM) (n : Nat) (consumes : Bool)
    (act : Cur → Nat → List (Option Nat × Nat) → State → State × List (Nat × Latch)) (s : State) (c : Cur) : Res :=
  let wg := c.who / 16
  match s.party c.pack c.who, s.spad c.pack wg with
  | some p, some sp =>
    if p.detached then .trap s (trapOf cDetached 1 c.active)
    else
      let x := splitChecks c ((lanesFor (formM o) c.active).map fun l => (l, sp.check (effOffset o s c l) n n consumes))
      if x.2.isEmpty && x.1.any (fun h => sp.emptyAt h.2 n) then .waiting s c
      else afterChecks (formM o) 0 x (act c wg) s c
  | some _, none => .trap s (trapOf cDetached 1 c.active)
  | none, _ => .wait s

def ldsAct (sx : Bool) (o : FmtM) (c : Cur) (wg : Nat) (hits : List (Option Nat × Nat)) (s : State) :
    State × List (Nat × Latch) :=
  let n := sizeBytes o.size
  hits.foldl (fun acc h =>
    let raw := ((acc.1.spad c.pack wg).map fun x => x.readNat h.2 n).getD 0
    giveLoad sx o (sizeWidth o.size) c h.1 (extendLoad sx n raw) (acc.1.spadCorrect c.pack wg h.2 n, acc.2)) (s, [])
def execLds (sx : Bool) (o : FmtM) (s : State) : Host.Outcome State Fault Refusal :=
  perform (.lds sx o) (spadBody o (sizeBytes o.size) true (ldsAct sx o)) s

def stsAct (o : FmtM) (c : Cur) (wg : Nat) (hits : List (Option Nat × Nat)) (s : State) : State × List (Nat × Latch) :=
  let n := sizeBytes o.size
  (hits.foldl (fun s h =>
    s.modSpad c.pack wg fun x => x.write h.2 (bytesOf n (readSpec s c none (sizeWidth o.size) h.1 o.data))) s, [])
def execSts (o : FmtM) (s : State) : Host.Outcome State Fault Refusal :=
  perform (.sts o) (spadBody o (sizeBytes o.size) false (stsAct o)) s

/-! ### SMARK (R218) -/

def smarkBody (o : FmtM) (mark : Spad → Nat → Spad) (s : State) (c : Cur) : Res :=
  let wg := c.who / 16
  let off := effOffset o s c none
  let n := readSpec s c none .w32 none o.data % 65536
  match s.party c.pack c.who, s.spad c.pack wg with
  | some p, some sp =>
    if p.detached then .trap s (trapOf cDetached 1 c.active)
    else if off % 128 ≠ 0 then .trap s { trapOf cAlign 0 c.lanes with addr := u64 off }
    else if n = 0 then .done (doneAt s)
    else if !sp.inside off (128 * n) then .trap s { trapOf cSpad 0 c.lanes with addr := u64 off }
    else .done (doneAt (s.setSpad c.pack wg ((List.range n).foldl (fun x i => mark x (off / 128 + i)) sp)))
  | _, _ => .trap s (trapOf cDetached 1 c.active)
def execSmarkE (o : FmtM) (s : State) : Host.Outcome State Fault Refusal :=
  perform (.smarkE o) (smarkBody o Spad.markEmpty) s
def execSmarkF (o : FmtM) (s : State) : Host.Outcome State Fault Refusal :=
  perform (.smarkF o) (smarkBody o Spad.markFull) s

/-! ### Atomics (R214 to R216) -/

/-- The new value of an operation on w bits. -/
def atomNew (op w old x : Nat) : Nat :=
  let lessS := decide (signedOf w old < signedOf w x)
  match op with
  | 0 => (old + x) % 2 ^ w
  | 1 => min old x
  | 2 => max old x
  | 3 => if lessS then old else x
  | 4 => if lessS then x else old
  | 5 => old &&& x
  | 6 => old ||| x
  | 7 => old ^^^ x
  | 8 => x
  | _ => (f32Add .rne old x).1

/-- The place where an atomic executes: its cluster's L1, or the home slice under `.FAR` (R216). -/
def farAtomic (o : FmtM) : Bool := o.hint == 5#3
def atomPlace (o : FmtM) : Consumes := if farAtomic o then .home else .near
def State.readAtomic (s : State) (o : FmtM) (c : Cur) (pa n : Nat) : State :=
  if farAtomic o then s.correct pa n else s.correctNear (s.here c) pa n
def State.writeAtomic (s : State) (o : FmtM) (c : Cur) (pa : Nat) (bs : List Byte) : State :=
  if farAtomic o then s.writeHome pa bs else s.writeBy (s.here c) pa Alloc.both bs
/-- What an atomic that writes nothing does to the line. -/
def State.holdAtomic (s : State) (o : FmtM) (c : Cur) (pa : Nat) : State :=
  match s.target pa with
  | .peer _ | .absent => s
  | .dram _ | .host _ =>
    if farAtomic o then s.recall (pa / 128)
    else if s.monitored (pa / 128) then (s.count (s.here c) 5 1).recall (pa / 128)
    else s.dirWrite (s.here c) pa 0 Alloc.both

def atomAct (op : Nat) (o : FmtM) (c : Cur) (hits : List (Option Nat × Nat)) (s : State) : State × List (Nat × Latch) :=
  let n := sizeBytes o.size
  let w := sizeWidth o.size
  hits.foldl (fun acc h =>
    let old := acc.1.readNat h.2 n
    let x := readSpec acc.1 c none w h.1 o.data
    giveM o w c h.1 old
      ((acc.1.readAtomic o c h.2 n).writeAtomic o c h.2 (bytesOf n (atomNew op (8 * n) old x)), acc.2)) (s, [])
def atomBody (op : Nat) (o : FmtM) : State → Cur → Res :=
  globalBody o (sizeBytes o.size) .rmw (atomPlace o) (atomAct op o)
def execAtomAdd (o : FmtM) (s : State) : Host.Outcome State Fault Refusal := perform (.atomAdd o) (atomBody 0 o) s
def execAtomUmin (o : FmtM) (s : State) : Host.Outcome State Fault Refusal := perform (.atomUmin o) (atomBody 1 o) s
def execAtomUmax (o : FmtM) (s : State) : Host.Outcome State Fault Refusal := perform (.atomUmax o) (atomBody 2 o) s
def execAtomSmin (o : FmtM) (s : State) : Host.Outcome State Fault Refusal := perform (.atomSmin o) (atomBody 3 o) s
def execAtomSmax (o : FmtM) (s : State) : Host.Outcome State Fault Refusal := perform (.atomSmax o) (atomBody 4 o) s
def execAtomAnd (o : FmtM) (s : State) : Host.Outcome State Fault Refusal := perform (.atomAnd o) (atomBody 5 o) s
def execAtomOr (o : FmtM) (s : State) : Host.Outcome State Fault Refusal := perform (.atomOr o) (atomBody 6 o) s
def execAtomXor (o : FmtM) (s : State) : Host.Outcome State Fault Refusal := perform (.atomXor o) (atomBody 7 o) s
def execAtomExch (o : FmtM) (s : State) : Host.Outcome State Fault Refusal := perform (.atomExch o) (atomBody 8 o) s
def execAtomFadd (o : FmtM) (s : State) : Host.Outcome State Fault Refusal := perform (.atomFadd o) (atomBody 9 o) s

/-- The compare and the new value of ACAS (R215). -/
def casValues (o : FmtM) (s : State) (c : Cur) (l : Option Nat) : Nat × Nat :=
  match (casUses o).map fun u => readSpec s c none u.2 l u.1 with
  | x :: y :: _ => (x, y)
  | _ => (0, 0)
def casAct (o : FmtM) (c : Cur) (hits : List (Option Nat × Nat)) (s : State) : State × List (Nat × Latch) :=
  let n := sizeBytes o.size
  hits.foldl (fun acc h =>
    let old := acc.1.readNat h.2 n
    let v := casValues o acc.1 c h.1
    let s := acc.1.readAtomic o c h.2 n
    giveM o (sizeWidth o.size) c h.1 old
      (if old = v.1 then s.writeAtomic o c h.2 (bytesOf n v.2) else s.holdAtomic o c h.2, acc.2)) (s, [])
def execAcas (o : FmtM) (s : State) : Host.Outcome State Fault Refusal :=
  perform (.acas o) (globalBody o (sizeBytes o.size) .rmw (atomPlace o) (casAct o)) s

/-! ### FENCE, CMAINT, PREF, ICINV, IFENCE (R217, R219 to R222) -/

/-- FENCE orders accesses that the machine performs in order anyway. -/
def execFence (o : FmtM) (s : State) : Host.Outcome State Fault Refusal :=
  perform (.fence o) (fun s _ => .done (doneAt s)) s

/-- The range of CMAINT and ICINV: a line address and a number of lines. -/
def lineRange (o : FmtM) (s : State) (c : Cur) : Nat × Nat :=
  ((effAddr o s c none).toNat / 128 * 128, min (readSpec s c none .w32 none o.data % 2 ^ 21) (2 ^ 20))
/-- The range cut at multiples of 64 KiB: first address and length of each piece. -/
def rangePieces (va len : Nat) : List (Nat × Nat) :=
  if len = 0 then []
  else (List.range ((va + len - 1) / 65536 - va / 65536 + 1)).map fun i =>
    let lo := max va ((va / 65536 + i) * 65536)
    let hi := min (va + len) ((va / 65536 + i + 1) * 65536)
    (lo % 2 ^ 64, hi - lo)

/-- Every piece translated as a read: the physical pieces, or the first fault. -/
def translatePieces (a : Asker) : List (Nat × Nat) → State → State × Except LaneFault (List (Nat × Nat))
  | [], s => (s, .ok [])
  | (va, len) :: r, s =>
    match translate s a va .read with
    | (s, .fault code sub h) => (s, .error ⟨code, sub, u64 va, h⟩)
    | (s, .ok pa _) =>
      match translatePieces a r s with
      | (s, .error f) => (s, .error f)
      | (s, .ok l) => (s, .ok ((pa, len) :: l))

/-- Lines of the directory within a physical range. -/
def State.linesIn (s : State) (pa len : Nat) : List Nat :=
  (s.lines.filter fun e => pa / 128 ≤ e.1 && e.1 * 128 < pa + len).map (·.1)

def rangeBody (o : FmtM) (f : State → Nat → Nat → State) (s : State) (c : Cur) : Res :=
  let (va, n) := lineRange o s c
  match translatePieces (s.asker c) (rangePieces va (128 * n)) s with
  | (s, .error e) =>
    .trap s { trapOf e.code e.sub c.lanes with addr := e.addr, acc := Acc.code .read, hint := e.hint }
  | (s, .ok l) => .done (doneAt (l.foldl (fun s x => f s x.1 x.2) s))

def State.wbL1 (s : State) (pa len : Nat) : State := (s.linesIn pa len).foldl State.cleanL1 s
def State.wbiL1 (s : State) (pa len : Nat) : State := (s.linesIn pa len).foldl State.recall s
/-- `.WB.MEM`: as `.WB.L1`, then the home slice writes the line on. -/
def State.wbMem (s : State) (pa len : Nat) : State :=
  let s := s.wbL1 pa len
  (s.linesIn pa len).foldl State.cleanL2 s
def execCmaintWbL1 (o : FmtM) (s : State) : Host.Outcome State Fault Refusal :=
  perform (.cmaintWbL1 o) (rangeBody o State.wbL1) s
def execCmaintWbiL1 (o : FmtM) (s : State) : Host.Outcome State Fault Refusal :=
  perform (.cmaintWbiL1 o) (rangeBody o State.wbiL1) s
def execCmaintWbMem (o : FmtM) (s : State) : Host.Outcome State Fault Refusal :=
  perform (.cmaintWbMem o) (rangeBody o State.wbMem) s

/-- Every instruction cache drops the lines of a range (R221). -/
def State.dropCode (s : State) (pa len : Nat) : State :=
  { s with icache := s.icache.filter fun e => !(decide (pa ≤ e.1 % 2 ^ 52 + 63) && decide (e.1 % 2 ^ 52 < pa + len)) }
def execIcinv (o : FmtM) (s : State) : Host.Outcome State Fault Refusal := perform (.icinv o) (rangeBody o State.dropCode) s

/-- PREF: a lane whose prefetch would fault drops it. -/
def prefBody (o : FmtM) (l1 : Bool) (s : State) (c : Cur) : Res :=
  .done (doneAt ((lanesFor (formM o) c.active).foldl (fun s l =>
    match translate s (s.asker c) (effAddr o s c l).toNat .read with
    | (s, .fault _ _ _) => s
    | (s, .ok pa _) =>
      match s.target pa with
      | .peer _ | .absent => s
      | .dram _ | .host _ =>
        if l1 then s.dirRead (s.here c) (pa / 128 * 128) 0 (hintAlloc o.hint)
        else (s.fillL2 (pa / 128)).retain (s.here c) (pa / 128) (hintAlloc o.hint)) s))
def execPrefL1 (o : FmtM) (s : State) : Host.Outcome State Fault Refusal := perform (.prefL1 o) (prefBody o true) s
def execPrefL2 (o : FmtM) (s : State) : Host.Outcome State Fault Refusal := perform (.prefL2 o) (prefBody o false) s

/-- IFENCE: no line stays fetched but the current one, for the lanes that stand in it, until they enter a line again
(R222). -/
def Party.ifence (p : Party) (c : Cur) : Party :=
  let va := lineVa c.pc
  let there := p.groups.foldl (fun m g => if lineVa g.pc = va then m ||| g.lanes else m) 0
  { p with lines := [], fenced := (p.lineFor c.pc c.lanes).map fun l => { va := va, line := l, lanes := there } }
def ifenceBody (s : State) (c : Cur) : Res := .done (doneAt (s.modParty c.pack c.who fun p => p.ifence c))
def execIfence (o : FmtM) (s : State) : Host.Outcome State Fault Refusal := perform (.ifence o) ifenceBody s

/-! ### BANKCFG (R197, R198) -/

/-- Whether a SPAD unit of a bank is allocated: a pack that has retired keeps those that something of it still uses. -/
def State.unitsUsed (s : State) (cl b : Nat) : Bool :=
  s.packs.any fun e => e.2.keepsUnits && e.2.cluster == cl && e.2.spads.any fun x => x.2.units.any fun u => u / 32 == b
def Cluster.cacheBanks (c : Cluster) : Nat := ((List.range 32).filter fun b => (c.bank b).mode == .cache).length

/-- The cell of R197: a status at once, or none for SWITCHING. A FIFO bank that BANKCFG finds in its own mode is done. -/
def bankCell (s : State) (cl b : Nat) (mode : Nat) : Option Nat :=
  let c := s.cluster cl
  let x := c.bank b
  match x.mode with
  | .cache => if mode = 0 then some 0 else if c.cacheBanks ≤ 1 then some 3 else none
  | .spad => if mode = 1 then some 0 else if s.unitsUsed cl b then some 1 else none
  | .fifo =>
    if mode = 2 then some 0
    else if c.taskBank = some b then some 4
    else if x.elems.isEmpty then none else some 2
  | .switching _ => none

/-- The L1 lines of a bank that leaves CACHE mode are written back and dropped. -/
def State.leaveCache (s : State) (cl b : Nat) : State :=
  let mine := (s.lines.filter fun e => e.2.heldBy cl && (e.2.copy cl).way == b).map (·.1)
  mine.foldl (fun s l => s.evictL1 cl l) s
/-- BANKCFG. A FIFO bank that a termination left bound to no context is bound again, and keeps its mode (R318). -/
def bankcfgBody (o : FmtA) (mode : Nat) (s : State) (c : Cur) : Res :=
  let cl := s.here c
  let b := readSrc s c none .w32 none o.a % 32
  let x := (s.cluster cl).bank b
  if c.again then
    match x.mode with
    | .switching _ => .wait s
    | .cache | .spad | .fifo => doneS s c o.dst o.wbs 0
  else
    let ctx := ((s.pack c.pack).map (·.ctx)).getD 0
    match bankCell s cl b mode with
    | some st =>
      let rebinds := decide (mode = 2 ∧ x.mode = .fifo ∧ x.bound = none ∧ (s.cluster cl).taskBank ≠ some b)
      let s := if rebinds then s.modCluster cl fun k => k.setBank b { x with bound := some ctx } else s
      doneS s c o.dst o.wbs (u64 st)
    | none =>
      let s := if x.mode == .cache then s.leaveCache cl b else s
      .waiting (s.modCluster cl fun k =>
        k.setBank b { mode := .switching (BitVec.ofNat 2 mode), bound := if mode = 2 then some ctx else none, elems := [] }) c
/-- R196, R198: only the owner. -/
def ownerOpts : Opts := { priv := fun s c => ((s.pack c.pack).map fun k => pkOwner k.packet).getD false }
def execBankcfgCache (o : FmtA) (s : State) : Host.Outcome State Fault Refusal :=
  performWith ownerOpts (.bankcfgCache o) (bankcfgBody o 0) s
def execBankcfgSpad (o : FmtA) (s : State) : Host.Outcome State Fault Refusal :=
  performWith ownerOpts (.bankcfgSpad o) (bankcfgBody o 1) s
def execBankcfgFifo (o : FmtA) (s : State) : Host.Outcome State Fault Refusal :=
  performWith ownerOpts (.bankcfgFifo o) (bankcfgBody o 2) s

/-- "Switch done" of R197. -/
def State.switchDone (s : State) (cl b : Nat) : Option State :=
  let x := (s.cluster cl).bank b
  match x.mode with
  | .switching m =>
    let mode : BankMode := match m.toNat with | 0 => .cache | 1 => .spad | _ => .fifo
    some (s.modCluster cl fun k => k.setBank b { x with mode := mode })
  | .cache | .spad | .fifo => none
def execBankSwitchDone (cluster bank : Nat) (s : State) : Host.Outcome State Fault Refusal :=
  occur (s.switchDone cluster bank)

/-! ### LCOPY (R224) -/

/-- One lane of an LCOPY: its source, its count and its destination. -/
def lcopyLane (o : FmtM) (s : State) (c : Cur) (l : Option Nat) : Word64 × Nat × Nat :=
  let d := readSpec s c none .w64 l o.data
  (effAddr o s c l, min (d / 2 ^ 32 % 64) 32, d % 2 ^ 32)

/-- The checks of one lane, in the order of R211. -/
def lcopyCheck (a : Asker) (sp : Spad) (s : State) (x : Word64 × Nat × Nat) : State × Except LaneFault Nat :=
  if x.1.toNat % 32 = 0 ∧ x.2.2 % 32 ≠ 0 then (s, .error ⟨cAlign, 0, u64 x.2.2, 0⟩)
  else
    match access s a x.1 32 .read .nothing with
    | (s, .error f) => (s, .error f)
    | (s, .ok pa) => if sp.inside x.2.2 32 then (s, .ok pa) else (s, .error ⟨cSpad, 0, u64 x.2.2, 0⟩)

def lcopyChecks (a : Asker) (sp : Spad) (c : Cur) : List (Option Nat × Word64 × Nat × Nat) → State → State × Checked
  | [], s => (s, ([], []))
  | (l, x) :: r, s =>
    let (s, y) := lcopyCheck a sp s x
    let (s, (ok, bad)) := lcopyChecks a sp c r s
    match y with
    | .ok pa => (s, ((l, pa) :: ok, bad))
    | .error f => (s, (ok, (laneKey c l, f) :: bad))

/-- A tag counter rises: from 0, the tag joins the order list (R396). -/
def Party.tagUp (p : Party) (t : Nat) : Party :=
  let n := rd 0 p.tags t
  { p with tags := wr 0 p.tags t (n + 1), order := if n = 0 then p.order ++ [t] else p.order }
def Party.tagDown (p : Party) (t : Nat) : Party :=
  let n := rd 0 p.tags t
  { p with tags := wr 0 p.tags t (n - 1), order := if n = 1 then p.order.filter (· != t) else p.order }

def lcopyBody (t : Nat) (o : FmtM) (s : State) (c : Cur) : Res :=
  let wg := c.who / 16
  match s.party c.pack c.who, s.spad c.pack wg with
  | some p, some sp =>
    if p.detached then .trap s (trapOf cDetached 1 c.active)
    else if rd 0 p.tags t = 255 then .waiting s c
    else
      let ls := (lanesFor .lane c.active).map fun l => (l, lcopyLane o s c l)
      let (s, x) := lcopyChecks (s.asker c) sp c ls s
      match faultOfLanes x.2 0 with
      | some f => .trap s f
      | none =>
        let mv := x.1.map fun h =>
          let y := lcopyLane o s c h.1
          (h.2, y.2.1, y.2.2)
        .done (doneAt ((s.modParty c.pack c.who fun p => p.tagUp t).modPack c.pack fun k =>
          { k with lcopies := k.lcopies ++
              [{ who := c.who, tag := t, hint := o.hint, lanes := c.active, moves := mv, lapsed := false }] }))
  | _, _ => .trap s (trapOf cDetached 1 c.active)
def execLcopy (t : BitVec 3) (o : FmtM) (s : State) : Host.Outcome State Fault Refusal :=
  perform (.lcopy t o) (lcopyBody t.toNat o) s

/-- One lane's 32 bytes land, read in the L1 of the cluster under the hint. An uncorrectable source granule lands as it
is; nothing is read for a count of 0. -/
def State.landMove (s : State) (u wg cl : Nat) (h : Alloc) (m : Nat × Nat × Nat) : State :=
  let (pa, n, d) := m
  let bs := (List.range 32).map fun i => if i < n then s.byteAt (pa + i) else 0
  let unc := decide (0 < n) && s.uncFor (some cl) pa n
  (if n = 0 then s else s.readBy cl pa n h).modSpad u wg fun x =>
    let x := x.write d bs
    if unc then { x with bad := x.bad ++ [d / 32] } else x

/-- Whether two executions write a byte in common for one lane. -/
def LaneCopy.overlaps (x y : LaneCopy) : Bool :=
  x.who == y.who &&
    ((lanesOf x.lanes).zip x.moves).any fun a => ((lanesOf y.lanes).zip y.moves).any fun b =>
      a.1 == b.1 && decide (a.2.2.2 < b.2.2.2 + 32) && decide (b.2.2.2 < a.2.2.2 + 32)
/-- R439: an execution lands after the earlier ones of its warp that write the same bytes for a lane. -/
def Pack.lcopyTurn (k : Pack) (idx : Nat) (x : LaneCopy) : Bool := !((k.lcopies.take idx).any fun y => y.overlaps x)

/-- An LCOPY execution of a pack lands whole. -/
def State.landLcopy (s : State) (u idx : Nat) : Option State :=
  match s.pack u with
  | none => none
  | some k =>
    match k.state, k.lcopies[idx]? with
    | .resident, some x | .draining, some x | .retired, some x =>
      if !k.lcopyTurn idx x then none
      else
        let wg := x.who / 16
        let unc := x.moves.any fun m => decide (0 < m.2.1) && s.uncFor (some k.cluster) m.1 m.2.1
        let s := x.moves.foldl (fun s m => s.landMove u wg k.cluster (hintAlloc x.hint) m) s
        let s := s.modPack u fun k => { k with lcopies := k.lcopies.eraseIdx idx }
        let s :=
          if x.lapsed then s
          else s.modParty u x.who fun p =>
            let p := p.tagDown x.tag
            if unc then { p with err := p.err ||| BitVec.twoPow 8 x.tag } else p
        some (s.tryRetire u)
    | _, _ => none
def execLcopyLanding (pack idx : Nat) (s : State) : Host.Outcome State Fault Refusal := occur (s.landLcopy pack idx)

end Sys2Proof.Machine
end

