-- ==== Sys2Proof/Machine/Streamer.lean ====
section
/-! DEFINITION. The streamer (spec/09). A copy moves in pieces: 16 bytes of the scratchpad image where it writes a
scratchpad, one row where it writes global memory. -/

namespace Sys2Proof.Machine

/-! ### Layout entries (R259, R361) -/

def lyField (e : BitVec 512) (byte bits : Nat) : Nat := (e.extractLsb' (8 * byte) bits).toNat
def lyBase (e : BitVec 512) : Nat := lyField e 0 64
def lyStride (e : BitVec 512) (i : Nat) : Nat := lyField e (8 + 6 * (i - 1)) 48
def lyExt (e : BitVec 512) (i : Nat) : Nat := lyField e (0x20 + 3 * i) 24
def lyBox (e : BitVec 512) (i : Nat) : Nat := lyField e (0x2F + i) 8 + 1
def lyFmt (e : BitVec 512) : Nat := lyField e 0x34 8
def lyPlane (e : BitVec 512) : Bool := lyFmt e < 0x14
def lyW (e : BitVec 512) : Nat := if lyPlane e then (planeFmt (lyFmt e)).bits else 8 * 2 ^ (lyFmt e % 4)
def lyValid (e : BitVec 512) : Bool := lyField e 0x35 8 / 128 == 1
def lyPt (e : BitVec 512) : Bool := lyField e 0x35 8 / 64 % 2 == 1
def lyDims (e : BitVec 512) : Nat := lyField e 0x35 8 % 8
def lyCtx (e : BitVec 512) : Nat := lyField e 0x36 8
/-- The entry of a handle of a context. -/
def layoutKey (ctx handle : Nat) : Nat := ctx * 65536 + handle
def State.layoutEntry (s : State) (ctx handle : Nat) : BitVec 512 := rd 0 s.layout (layoutKey ctx handle)

/-! ### Rows -/

/-- The elements of a row that are in extent: the address of the byte in which they begin, the first bit in it, the bytes
they touch, the bit of the row image at which they begin, and their bits. -/
structure Span where
  va : Nat
  sub : Nat
  n : Nat
  lo : Nat
  bits : Nat
deriving DecidableEq, Repr

/-- R259: the row with index (k1 … k4) of a box at coordinates `c`. -/
def spanOf (e : BitVec 512) (at0 : List Int) (ks : List Nat) : Option Span :=
  let co (i : Nat) : Int := (at0[i]?).getD 0 + (if i = 0 then 0 else ((ks[i - 1]?).getD 0 : Nat))
  let inside := [1, 2, 3, 4].all fun i => decide (0 ≤ co i) && decide (co i < (lyExt e i : Nat))
  let lo := (-(co 0)).toNat
  let hi := min (lyBox e 0 : Int) ((lyExt e 0 : Nat) - co 0)
  if !inside || decide (hi ≤ (lo : Int)) then none
  else
    let w := lyW e
    let bit0 := (co 0 + (lo : Nat)).toNat * w
    let bits := (hi.toNat - lo) * w
    let va := (lyBase e + bit0 / 8 + [1, 2, 3, 4].foldl (fun n i => n + (co i).toNat * lyStride e i) 0) % 2 ^ 64
    some { va, sub := bit0 % 8, n := (bit0 % 8 + bits + 7) / 8, lo := lo * w, bits }

/-- The part of a span within a window of the row image. -/
def Span.clip (x : Span) (a b : Nat) : Option Span :=
  let lo := max x.lo a
  let hi := min (x.lo + x.bits) b
  if hi ≤ lo then none
  else
    let at' := x.sub + (lo - x.lo)
    some { va := (x.va + at' / 8) % 2 ^ 64, sub := at' % 8, n := (at' % 8 + (hi - lo) + 7) / 8, lo, bits := hi - lo }

def Copy.byRow (c : Copy) : Bool :=
  match c.kind with | .gath | .scat => true | .g2s | .s2g | .g2g => false
def Copy.toPad (c : Copy) : Bool :=
  match c.kind with | .g2s | .gath => true | .s2g | .g2g | .scat => false
def Copy.nrows (c : Copy) : Nat :=
  if c.byRow then c.rows.length else lyBox c.entry 1 * lyBox c.entry 2 * lyBox c.entry 3 * lyBox c.entry 4
/-- The digits (k1 … k4) of a row number. -/
def boxDigits (e : BitVec 512) (r : Nat) : List Nat :=
  let x1 := lyBox e 1
  let x2 := lyBox e 2
  let x3 := lyBox e 3
  [r % x1, r / x1 % x2, r / (x1 * x2) % x3, r / (x1 * x2 * x3)]
/-- The span of row r in a layout entry (R259, R268). -/
def Copy.span (c : Copy) (e : BitVec 512) (r : Nat) : Option Span :=
  if c.byRow then spanOf e [(c.coords[0]?).getD 0, (c.rows[r]?).getD 0, 0, 0, 0] []
  else spanOf e c.coords (boxDigits e r)
def Copy.rowBytes (c : Copy) : Nat := (lyBox c.entry 0 * lyW c.entry + 7) / 8

/-! ### Images and pieces (R260, R261) -/

/-- R261: planes, plane height and tile size of a plane-transposed image. -/
def ptPlanes (e : BitVec 512) : Nat := (planeFmt (lyFmt e)).planes
def ptHeight (e : BitVec 512) : Nat := if lyBox e 1 ≤ 64 then 64 else 128
def ptTile (e : BitVec 512) : Nat := ptPlanes e * ptHeight e * 16
def Copy.pt (c : Copy) : Bool := c.kind == .g2s && lyPt c.entry
def Copy.imageLen (c : Copy) : Nat :=
  if c.pt then lyBox c.entry 2 * lyBox c.entry 3 * lyBox c.entry 4 * ptTile c.entry else c.nrows * c.rowBytes
def Copy.npieces (c : Copy) : Nat := if c.toPad then (c.imageLen + 15) / 16 else c.nrows
/-- The entry of the global side that is written. -/
def Copy.target (c : Copy) : BitVec 512 := if c.kind == .g2g then c.entry2 else c.entry
/-- Destination bytes of a piece. -/
def Copy.pieceBytes (c : Copy) (p : Nat) : Nat :=
  if c.toPad then min 16 (c.imageLen - 16 * p) else ((c.span c.target p).map (·.n)).getD 0
/-- The BYTES of a DONE status (R264, R265). -/
def Copy.total (c : Copy) : Nat :=
  if c.toPad then c.imageLen else (List.range c.nrows).foldl (fun n p => n + c.pieceBytes p) 0
/-- The scratchpad line of a piece of an image. -/
def Copy.lineOf (c : Copy) (p : Nat) : Nat := (c.offset + 16 * p) / 128
/-- Every piece of the image within a line. -/
def Copy.piecesIn (c : Copy) (l : Nat) : List Nat := (List.range c.npieces).filter fun p => c.lineOf p == l
def Copy.lines (c : Copy) : List Nat := ((List.range c.npieces).map c.lineOf).eraseDups

/-! ### What the pages let through -/

/-- The translation of an address as it stands. -/
def look (s : State) (a : Asker) (va : Nat) : Trans := (translate s a va .read).2

/-- The bytes from a virtual address, 0 where nothing is mapped. -/
def lookBytes (s : State) (a : Asker) (va n : Nat) : List Byte :=
  (List.range n).map fun i =>
    match look s a ((va + i) % 2 ^ 64) with
    | .ok pa _ => s.byteAt pa
    | .fault _ _ _ => 0
/-- What is read there is corrected where it stands (R209). -/
def lookCorrect (s : State) (a : Asker) (va n : Nat) : State :=
  (rangePieces va n).foldl (fun s q =>
    match look s a q.1 with
    | .ok pa _ => s.correct pa q.2
    | .fault _ _ _ => s) s
/-- The value of a span, at its place in the row image. -/
def Span.read (x : Span) (s : State) (a : Asker) : Nat :=
  ofBytes (lookBytes s a x.va x.n) / 2 ^ x.sub % 2 ^ x.bits * 2 ^ x.lo
/-- Whether a span touches an uncorrectable granule. -/
def Span.unc (x : Span) (s : State) (a : Asker) : Bool :=
  (rangePieces x.va x.n).any fun q => match look s a q.1 with | .ok pa _ => s.uncAt pa q.2 | .fault _ _ _ => false

/-- Every page of a span translated: the first fault, and whether some page gave the absent status. -/
def probePieces (a : Asker) (acc : Acc) : List (Nat × Nat) → State → State × Option LaneFault × Bool
  | [], s => (s, none, false)
  | (va, _) :: r, s =>
    match translate s a va acc with
    | (s, .fault code sub h) =>
      if code = 0x0C ∧ sub = 3 then
        let (s, f, _) := probePieces a acc r s
        (s, f, true)
      else (s, some ⟨code, sub, u64 va, h⟩, false)
    | (s, .ok _ _) => probePieces a acc r s
def probeSpan (a : Asker) (acc : Acc) (x : Option Span) (s : State) : State × Option LaneFault × Bool :=
  match x with
  | none => (s, none, false)
  | some x => probePieces a acc (rangePieces x.va x.n) s

/-- The element of a row in which a global fault stands. -/
def faultElem (w : Nat) (x : Option Span) (f : LaneFault) : Nat :=
  match x with
  | none => 0
  | some x => (x.lo + (8 * (f.addr.toNat - x.va) - x.sub)) / w

/-- A fault of a probe: the element in which it stands, the fault, and the access that met it (R327). -/
abbrev ElemFault := Nat × LaneFault × Nat
/-- The place of a cause among those of one element (R273). -/
def faultRank (f : LaneFault) : Nat :=
  if f.code = cAlign then 0 else if f.code = cPerm ∧ f.sub = 2 then 1 else if f.code = cPage then 2
  else if f.code = cPerm then 3 else 4
/-- The earlier of two faults by element; of one element, the one whose cause comes first, and of one cause the first. -/
def pickFault (x y : Option ElemFault) : Option ElemFault :=
  match x, y with
  | none, y => y
  | some x, none => some x
  | some x, some y => some (if y.1 < x.1 ∨ (y.1 = x.1 ∧ faultRank y.2.1 < faultRank x.2.1) then y else x)
/-- R273: an element of several bytes stands at a multiple of its size, as R211 asks of every access (DEDUCED, log 35). A row
holds its elements side by side, so its first element in extent decides. -/
def elemAlign (w : Nat) (x : Option Span) : Option ElemFault :=
  match x with
  | none => none
  | some x => if w % 8 = 0 ∧ x.va % (w / 8) ≠ 0 then some (x.lo / w, ⟨cAlign, 0, u64 x.va, 0⟩, 0) else none
/-- The scratchpad bytes of a row that a copy touches: where element 0 of the row stands and how many bits an element has there,
the first element and the bytes that are read or written. -/
structure PadRow where
  start : Nat
  width : Nat
  first : Nat
  off : Nat
  len : Nat
deriving DecidableEq, Repr
/-- Of a plane-transposed image the last plane decides, in which an element has one bit; a row of which no element is in extent
is written whole, and nothing of it is read (R259, R262). -/
def Copy.padRow (c : Copy) (r : Nat) (src : Option Span) : Option PadRow :=
  if c.pt then
    let tile := r / lyBox c.entry 1
    let off := c.offset + tile * ptTile c.entry + (ptPlanes c.entry - 1) * ptHeight c.entry * 16 +
      16 * ((boxDigits c.entry r).headD 0)
    some { start := off, width := 1, first := 0, off, len := 16 }
  else
    let start := c.offset + r * c.rowBytes
    if c.toPad then some { start, width := lyW c.entry, first := 0, off := start, len := c.rowBytes }
    else src.map fun x =>
      { start, width := lyW c.entry, first := x.lo / lyW c.entry, off := start + x.lo / 8, len := (x.lo % 8 + x.bits + 7) / 8 }
/-- R273: the first fault of a row by element: the alignment and the pages of the global sides, then the scratchpad. -/
def rowFault (c : Copy) (size : Option Nat) (src dst : Option Span) (f1 f2 : Option ElemFault) (row : Option PadRow) :
    Option ElemFault :=
  let w := lyW c.entry
  let pad : Option ElemFault := match size, row with
    | some a, some x =>
      if x.off + x.len ≤ a then none
      else some (max x.first (8 * (max a x.off - x.start) / x.width), ⟨cSpad, 0, u64 c.offset, 0⟩, 0)
    | _, _ => none
  pickFault (pickFault (pickFault (elemAlign w src) (elemAlign w dst)) (pickFault f1 f2)) pad

/-- The access of a probe to the side that the first entry names. -/
def Copy.firstAcc (c : Copy) : Acc := match c.kind with | .s2g | .scat => .probeWrite | .g2s | .g2g | .gath => .probeRead

/-- R262: the probe of the rows from `r`, `k` of them. -/
def probeRows (c : Copy) (a : Asker) (size : Option Nat) : Nat → Nat → State → State × Option ElemFault × Bool
  | 0, _, s => (s, none, false)
  | k + 1, r, s =>
    let src := c.span c.entry r
    let dst := if c.kind == .g2g then c.span c.entry2 r else none
    let (s, f1, ab1) := probeSpan a c.firstAcc src s
    let (s, f2, ab2) := probeSpan a .probeWrite dst s
    let f1 : Option ElemFault := f1.map fun f => (faultElem (lyW c.entry) src f, f, c.firstAcc.code)
    let f2 : Option ElemFault := f2.map fun f => (faultElem (lyW c.entry) dst f, f, Acc.probeWrite.code)
    match rowFault c size src dst f1 f2 (c.padRow r src) with
    | some f => (s, some f, false)
    | none =>
      let (s, f, ab) := probeRows c a size k (r + 1) s
      (s, f, ab1 || ab2 || ab)

/-- The whole probe: rows, then the rest of a plane-transposed image, then the transfer counter. -/
def probeAll (c : Copy) (a : Asker) (pad : Option Spad) (s : State) : State × Option (LaneFault × Nat) × Bool :=
  let size := if c.kind == .g2g then none else some ((pad.map (·.size)).getD 0)
  match probeRows c a size c.nrows 0 s with
  | (s, some f, _) => (s, some f.2, false)
  | (s, none, ab) =>
    let short (off len : Nat) : Bool := decide (((pad.map (·.size)).getD 0) < off + len)
    if c.toPad && short c.offset c.imageLen then (s, some (⟨cSpad, 0, u64 c.offset, 0⟩, 0), false)
    else
      match c.counter with
      | some t => if short t 8 then (s, some (⟨cSpad, 0, u64 t, 0⟩, 0), false) else (s, none, ab)
      | none => (s, none, ab)

/-! ### Transfer counters (R264, R405) -/

/-- PEND and ARR of a counter word lowered. -/
def Spad.countDown (x : Spad) (off bytes arr : Nat) : Spad :=
  let v := x.readNat off 8
  let pend := (v % 2 ^ 48 + 2 ^ 48 - bytes % 2 ^ 48) % 2 ^ 48
  let arr' := (v / 2 ^ 48 + 65536 - arr) % 65536
  x.write off (bytesOf 8 (arr' * 2 ^ 48 + pend))
def State.countDown (s : State) (c : Copy) (bytes arr : Nat) : State :=
  match c.counter with
  | none => s
  | some t => (s.spadCorrect c.pack c.wg t 8).modSpad c.pack c.wg fun x => x.countDown t bytes arr

/-! ### Join slots (R270) -/

def Cluster.setJoin (x : Cluster) (j : Nat) (v : Option Join) : Cluster :=
  { x with joins := match v with | some v => cset x.joins j v | none => cdel x.joins j }
/-- The status word that says JOIN. -/
def joinWord : Word64 := 4
/-- C: a copy joins a slot; none where its issuer waits. -/
def joinAdd (x : Option Join) (u : Nat) : Option Join :=
  match x with
  | none => some { owner := u, n := 1, f := false, cmd := none, go := false }
  | some j => if j.owner = u ∧ j.n < 255 ∧ !j.go then some { j with n := j.n + 1 } else none
/-- L and X: a copy of pack `u` that names the slot ends. A slot that is FREE, or another pack's meanwhile, is not its own: its
pack has retired, and its slots with it. -/
def State.joinEnd (s : State) (cl u : Nat) (slot : Option Nat) (ok : Bool) : State :=
  match slot with
  | none => s
  | some j =>
    match (cget (s.cluster cl).joins j).filter (·.owner == u) with
    | none => s
    | some x =>
      let x := { x with n := x.n - 1, f := x.f || !ok }
      match x.cmd with
      | none => s.modCluster cl fun k => k.setJoin j (some x)
      | some c =>
        if x.n ≠ 0 then s.modCluster cl fun k => k.setJoin j (some x)
        else if x.f then (s.modCluster cl fun k => k.setJoin j none).writeToken c.pack c.who c.token joinWord
        else (s.modCluster cl fun k => k.setJoin j (some { x with go := true })).arrive cl c 0

/-! ### Commands (R255 to R258, R267, R268, R271 to R273) -/

/-- R254: whether a party holds the producer right. -/
def holdsRight (k : Pack) (who : Nat) : Bool :=
  if pkProdw k.packet then who != spineWho && who % 16 == pkPwarp k.packet else who == spineWho

/-- R258: the first failing sub-code of HND.LAYOUT. -/
def layoutFault (ctx : Nat) (kind : CopyKind) (e e2 : BitVec 512) (c0 : Int) : Option Nat :=
  if !lyValid e then some 1
  else if lyCtx e ≠ ctx then some 2
  else if lyPt e && kind != .g2s then some 3
  else if lyPlane e && c0 % 32 != 0 then some 4
  else if kind == .g2g && (!lyValid e2 || lyCtx e2 != ctx || lyFmt e != lyFmt e2 ||
      [0, 1, 2, 3, 4].any fun i => lyBox e i != lyBox e2 i) then some 5
  else none

/-- The five coordinates of a pair, and the first of a row word. -/
def coordsOf (x : Nat) : List Int := (List.range 5).map fun i => signedOf 24 (x / 2 ^ (24 * i))

/-- The operands of a command (R257); its rows are read later. -/
def copyOf (o : FmtE) (kind : CopyKind) (xc : Bool) (join : Option Nat) (k : Pack) (s : State) (c : Cur) : Copy :=
  let h := readSrc s c none .w64 none o.s1 % 65536
  let pair := readSrc s c none .w128 none o.s2
  let word := readSrc s c none .w64 none o.s2
  let x3 := readSrc s c none .w64 none o.s3
  let byRow := kind == .gath || kind == .scat
  { id := s.nextId, pack := c.pack, who := c.who, wg := namedWg c.who x3, token := Spec.sNum o.token, kind,
    scope := o.csc, entry := s.layoutEntry k.ctx h, entry2 := s.layoutEntry k.ctx (x3 % 65536),
    coords := if byRow then [signedOf 24 word] else coordsOf pair, offset := x3 % 2 ^ 32, rows := [], join,
    counter := if xc then some (x3 / 2 ^ 36) else none, landed := [], bads := [], bytes := 0, counted := [], oob := false,
    unc := false, nanel := false, ended := none, pageWait := false, probing := false }

/-- Whether the command uses a scratchpad. -/
def Copy.usesPad (c : Copy) : Bool := c.kind != .g2g || c.counter.isSome

/-- A transfer-counter offset that is misaligned (R257). -/
def Copy.counterAlign (c : Copy) : Option LaneFault :=
  match c.counter with
  | some t => if t % 8 ≠ 0 then some ⟨cAlign, 0, u64 t, 0⟩ else none
  | none => none
/-- The image offset, or the first row offset, that is misaligned (R260, R261, R268). -/
def Copy.imageAlign (c : Copy) (rows : Nat) : Option LaneFault :=
  if c.kind == .g2g then none
  else if c.offset % (if c.pt then 128 else 16) ≠ 0 then some ⟨cAlign, 0, u64 c.offset, 0⟩
  else if c.byRow && decide (1 < rows) && c.rowBytes % 16 != 0 then some ⟨cAlign, 0, u64 (c.offset + c.rowBytes), 0⟩
  else none
/-- The command checks of step 6 (R273); `list` is the offset and length of an index list. -/
def copyAlign (k : Pack) (c : Copy) (list : Option (Nat × Nat)) : Option LaneFault :=
  if c.usesPad && decide (pkGroups k.packet ≤ c.wg) then some ⟨cSpad, 3, 0, 0⟩
  else
    match c.imageAlign ((list.map (·.2)).getD 0) with
    | some f => some f
    | none =>
      match list with
      | some (l, _) => if l % 4 ≠ 0 then some ⟨cAlign, 0, u64 l, 0⟩ else c.counterAlign
      | none => c.counterAlign

/-- The index list of SGATH and SSCAT: none while one of its lines is EMPTY. -/
def Spad.indices (x : Spad) (off n : Nat) : Option (List Int) :=
  if x.emptyAt off (4 * n) then none else some ((List.range n).map fun i => signedOf 32 (x.readNat (off + 4 * i) 4))

/-- What the checks of a command find: a fault, an index list that is not there yet, the absent status, or nothing. -/
inductive Probe where
  | trap (t : Trap) | wait (c : Copy) | absent (c : Copy) | pass (c : Copy)
deriving DecidableEq, Repr

def LaneFault.trap (f : LaneFault) (lanes : Lanes) (acc : Nat) : Trap :=
  { code := f.code, sub := f.sub, detail := 0, addr := f.addr, lanes, acc, hint := f.hint }

/-- The probe of R262, from the reading of the index list on. -/
def probeFrom (k : Pack) (cp : Copy) (list : Option (Nat × Nat)) (s : State) (c : Cur) : State × Probe :=
  let pad := cget k.spads cp.wg
  let rows : Except LaneFault (Option (List Int)) := match list with
    | none => .ok (some [])
    | some (off, n) =>
      match pad with
      | none => .error ⟨cSpad, 0, u64 off, 0⟩
      | some x => if x.inside off (4 * n) then .ok (x.indices off n) else .error ⟨cSpad, 0, u64 off, 0⟩
  match rows with
  | .error f => (s, .trap (f.trap c.lanes 0))
  | .ok none => (s, .wait cp)
  | .ok (some rows) =>
    let cp := { cp with rows := rows }
    let s := match list with | none => s | some (off, n) => s.spadCorrect c.pack cp.wg off (4 * n)
    match probeAll cp (askerCluster k.ctx k.cluster) pad s with
    | (s, some f, _) => (s, .trap (f.1.trap c.lanes f.2))
    | (s, none, true) => (s, .absent cp)
    | (s, none, false) => (s, .pass cp)

/-- Steps 5 and 6 of a streamer command. -/
def probeCmd (k : Pack) (p : Party) (cp : Copy) (list : Option (Nat × Nat)) (s : State) (c : Cur) : State × Probe :=
  if p.detached then (s, .trap (trapOf cDetached 1 c.lanes))
  else if !holdsRight k c.who then (s, .trap (trapOf cProducer 1 c.lanes))
  else
    match layoutFault k.ctx cp.kind cp.entry cp.entry2 ((cp.coords[0]?).getD 0) with
    | some sub => (s, .trap (trapOf cLayout sub c.lanes))
    | none =>
      match copyAlign k cp list with
      | some f => (s, .trap (f.trap c.lanes 0))
      | none => probeFrom k cp list s c

/-- The completion word of R265. -/
def copyWord (bytes : Nat) (oob unc nanel : Bool) (code : Nat) : Word64 :=
  u64 (bytes % 2 ^ 48 * 65536 + oob.toNat * 1024 + unc.toNat * 512 + nanel.toNat * 256 + code)

/-- The probe of a command passes: its destination lines become EMPTY (R201). -/
def State.copyPasses (s : State) (cp : Copy) : State :=
  if cp.toPad then s.modSpad cp.pack cp.wg fun x => cp.lines.foldl Spad.markEmpty x else s
/-- The command enters the queue: token pending. -/
def State.enqueueCopy (s : State) (k : Pack) (cp : Copy) : State :=
  let cp := { cp with id := s.nextId }
  let s := { s with nextId := s.nextId + 1 }
  let s := s.modCluster k.cluster fun x => { x with copies := x.copies ++ [cp] }
  s.modParty cp.pack cp.who fun p => p.markToken cp.token

/-- A copy that ends with ABSENT at its probe: its counter, its slot (C and then X), its token. -/
def absentBody (k : Pack) (cp : Copy) (slot : Option Join) (o : FmtE) (s : State) (c : Cur) : Res :=
  let s := s.countDown cp cp.total 1
  let s := match cp.join, slot with
    | some j, some x => (s.modCluster k.cluster fun y => y.setJoin j (some x)).joinEnd k.cluster cp.pack cp.join false
    | _, _ => s
  .done (doneAt (giveS s c o.token false (copyWord 0 false false false 2)))

/-- The group waits with the command as far as it has come. -/
def Res.waitingCopy (s : State) (c : Cur) (cp : Copy) : Res := .wait ((s.enterWait c).keepCopy c cp)

/-- What follows the probe: the queue, and the join slot, may make the party wait; the probe stands (R262, R270). A kept
command with ABSENT says so in `ended`. -/
def afterProbe (k : Pack) (cp : Copy) (o : FmtE) (s : State) (c : Cur) : Res :=
  let absent := cp.ended == some 2
  let cp' := if absent then { cp with ended := none } else cp
  if !absent && decide (64 ≤ (s.cluster k.cluster).copies.length) then .waitingCopy s c cp
  else
    match cp.join with
    | none => if absent then absentBody k cp' none o s c else .done (doneAt (s.enqueueCopy k cp))
    | some j =>
      match joinAdd (cget (s.cluster k.cluster).joins j) c.pack with
      | none => .waitingCopy s c cp
      | some x =>
        if absent then absentBody k cp' (some x) o s c
        else .done (doneAt ((s.modCluster k.cluster fun y => y.setJoin j (some x)).enqueueCopy k cp))
def copyGo (k : Pack) (o : FmtE) (c : Cur) : State × Probe → Res
  | (s, .trap t) => .trap s t
  | (s, .wait cp) => .waitingCopy s c cp
  | (s, .absent cp) => afterProbe k { cp with ended := some 2 } o s c
  | (s, .pass cp) => afterProbe k cp o (s.copyPasses cp) c

def copyBody (o : FmtE) (kind : CopyKind) (join : Option Nat) (s : State) (c : Cur) : Res :=
  match s.pack c.pack, s.party c.pack c.who with
  | some k, some p =>
    let list := if kind == .gath || kind == .scat then some (readSrc s c none .w64 none o.s2 / 2 ^ 32, o.rows) else none
    match s.keptCopy c with
    | some cp => if cp.byRow && cp.rows.isEmpty then copyGo k o c (probeFrom k cp list s c) else afterProbe k cp o s c
    | none => copyGo k o c (probeCmd k p (copyOf o kind o.xc join k s c) list s c)
  | _, _ => .wait s

def FmtE.copyKind (o : FmtE) : CopyKind := match o.dir with | 0 => .g2s | 1 => .s2g | _ => .g2g
def execScopy (o : FmtE) (s : State) : Host.Outcome State Fault Refusal :=
  perform (.scopy o) (copyBody o (FmtE.copyKind o) none) s
def execScpmxCopy (o : FmtE) (s : State) : Host.Outcome State Fault Refusal :=
  perform (.scpmxCopy o) (copyBody o (FmtE.copyKind o) (some o.slot)) s
def execSgath (o : FmtE) (s : State) : Host.Outcome State Fault Refusal := perform (.sgath o) (copyBody o .gath none) s
def execSscat (o : FmtE) (s : State) : Host.Outcome State Fault Refusal := perform (.sscat o) (copyBody o .scat none) s

/-- SPROBE (R272). -/
def sprobeBody (o : FmtE) (s : State) (c : Cur) : Res :=
  match s.pack c.pack, s.party c.pack c.who with
  | some k, some p =>
    match probeCmd k p (copyOf o (FmtE.copyKind o) false none k s c) none s c with
    | (s, .trap t) => .trap s t
    | (s, .wait _) => .waiting s c
    | (s, .absent _) => .done (doneAt (giveS s c o.token false (copyWord 0 false false false 2)))
    | (s, .pass _) => .done (doneAt (giveS s c o.token false (copyWord 0 false false false 0)))
  | _, _ => .wait s
def execSprobe (o : FmtE) (s : State) : Host.Outcome State Fault Refusal := perform (.sprobe o) (sprobeBody o) s

/-- SCPMX.ARM (R269, R270). -/
def armBody (o : FmtE) (s : State) (c : Cur) : Res :=
  match s.pack c.pack, s.party c.pack c.who with
  | some k, some p =>
    let cmd := engCmdOf o .mplane (o.armSub == 1) s c
    let mark (s : State) : State := ({ s with nextId := s.nextId + 1 }).modParty c.pack c.who fun p => p.markToken cmd.token
    let put (s : State) (x : Option Join) : State := s.modCluster k.cluster fun y => y.setJoin o.slot x
    let go (x : Join) : Res := .done (doneAt (mark ((put s (some x)).arrive k.cluster cmd 0)))
    if p.detached then .trap s (trapOf cDetached 1 c.lanes)
    else if !holdsRight k c.who then .trap s (trapOf cProducer 1 c.lanes)
    else
      match engTrap k c cmd with
      | some t => .trap s t
      | none =>
        match cget (s.cluster k.cluster).joins o.slot with
        | none => go { owner := c.pack, n := 0, f := false, cmd := some cmd, go := true }
        | some x =>
          if x.owner ≠ c.pack ∨ x.cmd.isSome then .waiting s c
          else if x.n ≠ 0 then .done (doneAt (mark (put s (some { x with cmd := some cmd }))))
          else if x.f then .done (doneAt (giveS (put s none) c o.token false joinWord))
          else go { x with cmd := some cmd, go := true }
  | _, _ => .wait s
def execScpmxArm (o : FmtE) (s : State) : Host.Outcome State Fault Refusal := perform (.scpmxArm o) (armBody o) s

/-- An attached MPLANE whose copies have landed enters its queues, after the commands that came before it (R279, R286). -/
def State.followOn (s : State) (cl slot : Nat) : Option State :=
  match cget (s.cluster cl).joins slot with
  | none => none
  | some x =>
    match x.cmd, s.pack x.owner with
    | some c, some k =>
      if x.go && k.engines && s.engRoom k c && !s.behind k c then
        some ((s.modCluster cl fun y => y.setJoin slot none).pushCmd cl c)
      else none
    | _, _ => none
def execFollowOnMplaneEntry (cluster slot : Nat) (s : State) : Host.Outcome State Fault Refusal :=
  occur (s.followOn cluster slot)

/-! ### Landing (R259 to R264) -/

def State.setCopy (s : State) (cl : Nat) (c : Copy) : State :=
  s.modCluster cl fun x => { x with copies := x.copies.map fun y => if y.id = c.id then c else y }

/-- The spans that a piece reads or writes, with the bit of the piece at which each row begins. -/
def Copy.pieceSpans (c : Copy) (p : Nat) : List (Span × Int) :=
  if c.pt then
    let tile := 16 * p / ptTile c.entry
    let r := 16 * p % ptTile c.entry / 16 % ptHeight c.entry
    if lyBox c.entry 1 ≤ r then []
    else ((c.span c.entry (tile * lyBox c.entry 1 + r)).map fun x => (x, (0 : Int))).toList
  else if c.toPad then
    let rb := c.rowBytes
    let first := 16 * p / rb
    (List.range ((16 * p + c.pieceBytes p - 1) / rb - first + 1)).filterMap fun i =>
      let r := first + i
      match c.span c.entry r with
      | none => none
      | some x => (x.clip (8 * (16 * p - r * rb)) (8 * (16 * p + 16 - r * rb))).map fun y =>
          (y, 8 * ((r * rb : Nat) : Int) - 8 * ((16 * p : Nat) : Int))
  else ((c.span c.entry p).map fun x => (x, (0 : Int))).toList

/-- Whether a piece holds an element out of extent. -/
def Copy.pieceOob (c : Copy) (p : Nat) : Bool :=
  let bits := lyBox c.entry 0 * lyW c.entry
  let row (e : BitVec 512) (r : Nat) : Bool := ((c.span e r).map (·.bits)).getD 0 != bits
  if c.pt then
    let tile := 16 * p / ptTile c.entry
    let r := 16 * p % ptTile c.entry / 16 % ptHeight c.entry
    decide (r < lyBox c.entry 1) && row c.entry (tile * lyBox c.entry 1 + r)
  else if c.toPad then
    (List.range (16 * p + c.pieceBytes p)).any fun b =>
      decide (16 * p ≤ b) &&
        (let r := b / c.rowBytes
         let t := 8 * (b % c.rowBytes)
         decide (t < bits) &&
         (match c.span c.entry r with
          | none => true
          | some x => decide (t < x.lo) || decide (x.lo + x.bits < min bits (t + 8))))
  else row c.entry p || (c.kind == .g2g && row c.entry2 p)

/-- R261: 16 bytes of a plane: bit e is plane j of element e of the row. -/
def planeRow (e : BitVec 512) (j row : Nat) : Nat :=
  let f := planeFmt (lyFmt e)
  (List.range 128).foldl (fun n i => n + (f.plane (row / 2 ^ (f.bits * i) % 2 ^ f.bits) j).toNat * 2 ^ i) 0

/-- Bits [n) of a value shifted by a signed number of places. -/
def shiftBits (x : Nat) (k : Int) : Nat := if 0 ≤ k then x * 2 ^ k.toNat else x / 2 ^ (-k).toNat

/-- The bytes of a piece of an image. -/
def Copy.pieceValue (c : Copy) (s : State) (a : Asker) (p : Nat) : Nat :=
  let sp := c.pieceSpans p
  if c.pt then
    let j := 16 * p % ptTile c.entry / (16 * ptHeight c.entry)
    let r := 16 * p % ptTile c.entry / 16 % ptHeight c.entry
    if lyBox c.entry 1 ≤ r then 0 else planeRow c.entry j (sp.foldl (fun n x => n + x.1.read s a) 0)
  else sp.foldl (fun n x => n + shiftBits (x.1.read s a) x.2) 0

/-- Whether a piece converts an E4M3 NaN (R107). -/
def Copy.pieceNan (c : Copy) (s : State) (a : Asker) (p : Nat) : Bool :=
  c.pt && (let f := planeFmt (lyFmt c.entry)
    (c.pieceSpans p).any fun x =>
      let row := x.1.read s a
      (List.range 128).any fun i => f.isNan (row / 2 ^ (f.bits * i) % 2 ^ f.bits))

/-- Bytes that run over several lines: each line's part is a write at its own home slice, in ascending order, and is seen
by that line's monitors (R203, R351). -/
def writeLines : Nat → Nat → List Byte → State → State
  | 0, _, _, s => s
  | k + 1, pa, bs, s =>
    let n := 128 - pa % 128
    let s := s.writeHome pa (bs.take n)
    if bs.length ≤ n then s else writeLines k (pa + n) (bs.drop n) s

/-- Bytes written at virtual addresses whose pages have been translated, at the home slices. -/
def putVirtual (a : Asker) : List (Nat × Nat) → List Byte → State → State
  | [], _, s => s
  | (va, n) :: r, bs, s =>
    putVirtual a r (bs.drop n) (match look s a va with
      | .ok pa _ => writeLines n pa (bs.take n) s
      | .fault _ _ _ => s)

/-- A span written with a value at its place in the row image. -/
def State.writeSpan (s : State) (a : Asker) (x : Span) (row : Nat) : State :=
  let old := ofBytes (lookBytes s a x.va x.n)
  let v := row / 2 ^ x.lo % 2 ^ x.bits
  let new := old % 2 ^ x.sub + v * 2 ^ x.sub + old / 2 ^ (x.sub + x.bits) * 2 ^ (x.sub + x.bits)
  putVirtual a (rangePieces x.va x.n) (bytesOf x.n new) s
/-- Granules at the home slice become uncorrectable. -/
def State.spoilAt (s : State) (pa n : Nat) : State :=
  match s.target pa with
  | .peer _ | .absent => s
  | .dram _ | .host _ =>
    (linesOf pa n).foldl (fun (s : State) l =>
      let m := granulesIn l pa n
      let x := s.line l
      if x.inL2 then s.setLine l { x with l2 := { x.l2 with unc := x.l2.unc ||| m } }
      else
        let y := s.dramChecks l
        s.setDramChecks l { y with unc := y.unc ||| m }) s
/-- The granules of a span become uncorrectable (R209). -/
def State.spoil (s : State) (a : Asker) (x : Span) : State :=
  (rangePieces x.va x.n).foldl (fun s q =>
    match look s a q.1 with
    | .ok pa _ => s.spoilAt pa q.2
    | .fault _ _ _ => s) s
/-- The bytes of a span that hold the bits from `b0` to `b1` of its row image. -/
def Span.cut (x : Span) (b0 b1 : Int) : Option Span :=
  let lo := max b0 x.lo
  let hi := min b1 (x.lo + x.bits : Nat)
  if hi ≤ lo then none
  else
    let at' := x.sub + (lo - x.lo).toNat
    let bits := (hi - lo).toNat
    some { va := x.va + at' / 8, sub := at' % 8, n := (at' % 8 + bits + 7) / 8, lo := lo.toNat, bits }
/-- R209: check bits travel with their data: of a row that is written, the granules become uncorrectable that take something of
an uncorrectable source granule, named by the first bit of each in the row image. -/
def State.spoilFrom (s : State) (a : Asker) (y : Span) (bad : List Int) : State :=
  bad.foldl (fun s b => match y.cut b (b + 256) with | none => s | some z => s.spoil a z) s
/-- The uncorrectable granules under a span, and under a row of a scratchpad. -/
def Span.badBits (x : Span) (s : State) (a : Asker) : List Int :=
  (((List.range ((x.va + x.n - 1) / 32 - x.va / 32 + 1)).map (x.va / 32 + ·)).filter fun g =>
    match look s a (32 * g) with | .ok pa _ => s.uncAt pa 32 | .fault _ _ _ => false).map fun (g : Nat) =>
      8 * ((32 * g : Nat) - x.va : Int) - x.sub + x.lo
def Spad.badBits (x : Spad) (start off n : Nat) : List Int :=
  (x.bad.filter fun g => decide (32 * g < off + n) && decide (off < 32 * g + 32)).map fun (g : Nat) => 8 * ((32 * g : Nat) - start : Int)

/-- The scratchpad bytes of row r that a write to global memory reads. -/
def Copy.rowWindow (c : Copy) (r : Nat) (x : Span) : Nat × Nat :=
  (c.offset + r * c.rowBytes + x.lo / 8, (x.lo % 8 + x.bits + 7) / 8)

/-- What the pages of a piece say at its landing: to go on, to wait for a page, or to end with REPROBE. -/
inductive PageCheck where
  | go | page (f : LaneFault) | reprobe
deriving DecidableEq, Repr
def pageCheck (a : Asker) (acc : Acc) : List Span → State → State × PageCheck
  | [], s => (s, .go)
  | x :: r, s =>
    match probePieces a acc (rangePieces x.va x.n) s with
    | (s, some f, ab) => (s, if f.code = cPage && !ab then .page f else .reprobe)
    | (s, none, true) => (s, .reprobe)
    | (s, none, false) => pageCheck a acc r s

/-- The spans read and written by a piece. -/
def Copy.sides (c : Copy) (p : Nat) : List Span × List Span :=
  match c.kind with
  | .g2s | .gath => ((c.pieceSpans p).map (·.1), [])
  | .s2g | .scat => ([], (c.span c.entry p).toList)
  | .g2g => ((c.span c.entry p).toList, (c.span c.entry2 p).toList)

/-- Pieces of an image in the 32-byte granule of one of them. -/
def Copy.granulePieces (c : Copy) (p : Nat) : List Nat :=
  [p - 1, p, p + 1].eraseDups.filter fun q => decide (q < c.npieces) && (c.offset + 16 * q) / 32 == (c.offset + 16 * p) / 32
/-- A piece is written into a scratchpad. A granule that the copy has written whole is correct, unless a part of it came from
an uncorrectable one (R209). -/
def Copy.putPiece (c : Copy) (p : Nat) (bs : List Byte) (unc : Bool) (x : Spad) : Spad :=
  let off := c.offset + 16 * p
  let g := off / 32
  let qs := c.granulePieces p
  let whole := qs.foldl (fun n q => n + c.pieceBytes q) 0 == 32 && qs.all fun q => q == p || c.landed.contains q
  let bad := unc || (whole && qs.any c.bads.contains)
  let x := x.write off bs
  let x := if whole then { x with bad := x.bad.filter (· != g), corr := x.corr.filter (· != g) } else x
  if bad && !x.bad.contains g then { x with bad := x.bad ++ [g] } else x

/-- The bytes of a piece are moved: the state, and whether an uncorrectable granule was among them. -/
def State.movePiece (s : State) (a : Asker) (c : Copy) (p : Nat) : State × Bool :=
  match c.kind with
  | .g2s | .gath =>
    let unc := (c.sides p).1.any fun x => x.unc s a
    let v := bytesOf (c.pieceBytes p) (c.pieceValue s a p)
    (((c.sides p).1.foldl (fun s x => lookCorrect s a x.va x.n) s).modSpad c.pack c.wg (c.putPiece p v unc), unc)
  | .s2g | .scat =>
    match s.spad c.pack c.wg, c.span c.entry p with
    | some pad, some x =>
      let (off, n) := c.rowWindow p x
      let row := pad.readNat off n * 2 ^ (8 * (x.lo / 8))
      let unc := pad.uncAt off n
      let s := (s.spadCorrect c.pack c.wg off n).writeSpan a x row
      (s.spoilFrom a x (pad.badBits (c.offset + p * c.rowBytes) off n), unc)
    | _, _ => (s, false)
  | .g2g =>
    match c.span c.entry2 p with
    | none => (s, false)
    | some y =>
      let src := c.span c.entry p
      let unc := (src.map fun x => x.unc s a).getD false
      let bad := (src.map fun x => x.badBits s a).getD []
      let s := match src with | none => s | some x => lookCorrect s a x.va x.n
      let s := s.writeSpan a y ((src.map fun x => x.read s a).getD 0)
      (s.spoilFrom a y bad, unc)

/-- A copy's own fault-queue entry (R263, R274). -/
def State.copyFault (s : State) (cl : Nat) (ctx : Nat) (c : Copy) (f : LaneFault) (acc : Nat) : State :=
  (s.setCopy cl { c with pageWait := true }).postFault (dieOf cl)
    (faultOf f.addr 0 (BitVec.ofNat 16 (cl % 12 * 8 + cl / 12)) ctx (accOf 2 acc) f.hint (.copy cl c.id))

/-- A piece that may land: not landed, in order for a scatter, its scratchpad source FULL. -/
def State.mayLand (s : State) (c : Copy) (p : Nat) : Bool :=
  decide (p < c.npieces) && !c.landed.contains p && c.ended.isNone && !c.pageWait && !c.probing &&
    (match c.kind with
     | .g2s | .gath | .g2g => true
     | .scat => c.landed.length == p
     | .s2g => true) &&
    (match c.kind with
     | .g2s | .gath | .g2g => true
     | .s2g | .scat =>
       match s.spad c.pack c.wg, c.span c.entry p with
       | some pad, some x => !pad.emptyAt (c.rowWindow p x).1 (c.rowWindow p x).2
       | _, _ => true)

/-- A piece of a copy lands. -/
def State.landPiece (s : State) (cl entry p : Nat) : Option State :=
  match (s.cluster cl).copies.find? fun c => c.id == entry with
  | none => none
  | some c =>
    match s.pack c.pack with
    | none => none
    | some k =>
      if !s.mayLand c p || !k.engines then none
      else
        let a := askerCluster k.ctx cl
        let (rs, ws) := c.sides p
        match pageCheck a .read rs s with
        | (s, .page f) => some (s.copyFault cl k.ctx c f 0)
        | (s, .reprobe) => some (s.setCopy cl { c with ended := some 3 })
        | (s, .go) =>
          match pageCheck a .write ws s with
          | (s, .page f) => some (s.copyFault cl k.ctx c f 1)
          | (s, .reprobe) => some (s.setCopy cl { c with ended := some 3 })
          | (s, .go) =>
            let nan := c.pieceNan s a p
            let n := c.pieceBytes p
            let (s, unc) := s.movePiece a c p
            let c' := { c with landed := p :: c.landed, bytes := c.bytes + n, bads := if unc then p :: c.bads else c.bads,
                               counted := if c.counted.contains p then c.counted else p :: c.counted,
                               oob := c.oob || c.pieceOob p, unc := c.unc || unc, nanel := c.nanel || nan }
            let s := if c.counted.contains p then s else s.countDown c n 0
            let s := (s.setCopy cl c').count cl 7 n
            some (if c.toPad && (c.piecesIn (c.lineOf p)).all c'.landed.contains then
                s.modSpad c.pack c.wg fun x => x.markFull (c.lineOf p)
              else s)
def execStreamerLanding (cluster entry piece : Nat) (s : State) : Host.Outcome State Fault Refusal :=
  occur (s.landPiece cluster entry piece)

/-- R262, R274: the probe of a copy that restarts; a page that is missing is waited for, and the probe then made again. -/
def State.probeCopy (s : State) (k : Pack) (cl : Nat) (c : Copy) : State :=
  match probeAll c (askerCluster k.ctx cl) (cget k.spads c.wg) s with
  | (s, some f, _) =>
    if f.1.code = cPage then s.copyFault cl k.ctx { c with probing := true } f.1 f.2
    else s.setCopy cl { c with ended := some 3, probing := false }
  | (s, none, true) => s.setCopy cl { c with ended := some 3, probing := false }
  | (s, none, false) => s.setCopy cl { c with probing := false, pageWait := false }

/-- The end of a copy (R263 to R265, R270): its counter, its token and its slot. Destination bytes not counted so far are
counted with it (R264). -/
def State.endCopy (s : State) (cl : Nat) (c : Copy) (code : Nat) : State :=
  let s := s.modCluster cl fun x => { x with copies := x.copies.filter fun y => y.id != c.id }
  let got := c.counted.foldl (fun n p => n + c.pieceBytes p) 0
  let s := s.countDown c (c.total - got) 1
  let s := s.writeToken c.pack c.who c.token (copyWord c.bytes c.oob c.unc c.nanel code)
  s.joinEnd cl c.pack c.join (code == 0)
def Copy.allLanded (c : Copy) : Bool := decide (c.npieces ≤ c.landed.length)
def State.completeCopy (s : State) (cl entry : Nat) : Option State :=
  match (s.cluster cl).copies.find? fun c => c.id == entry with
  | none => none
  | some c =>
    match c.ended with
    | some code => some ((s.endCopy cl c code.toNat).tryRetire c.pack)
    | none => if c.allLanded then some ((s.endCopy cl c 0).tryRetire c.pack) else none
def execStreamerCopyCompletion (cluster entry : Nat) (s : State) : Host.Outcome State Fault Refusal :=
  occur (s.completeCopy cluster entry)

/-- SCANCEL (R271): the issuer's copies that have not landed whole end with CANCELLED, and are counted. -/
def scancelBody (o : FmtE) (s : State) (c : Cur) : Res :=
  match s.pack c.pack, s.party c.pack c.who with
  | some k, some p =>
    if p.detached then .trap s (trapOf cDetached 1 c.lanes)
    else if !holdsRight k c.who then .trap s (trapOf cProducer 1 c.lanes)
    else
      let mine := (s.cluster k.cluster).copies.filter fun x =>
        x.pack == c.pack && x.ended.isNone && !x.allLanded && (c.who == spineWho || x.wg == c.who / 16)
      let s := mine.foldl (fun s x => s.endCopy k.cluster x 1) s
      .done (doneAt (giveS s c o.token false (u64 (mine.length % 65536))))
  | _, _ => .wait s
def execScancel (o : FmtE) (s : State) : Host.Outcome State Fault Refusal := perform (.scancel o) (scancelBody o) s

end Sys2Proof.Machine
end

