-- ==== Sys2Proof/Machine/Launch.lean ====
section
/-! DEFINITION. The launch packet's checks and the creation of packs (spec/11, R300 to R307), for LAUNCH and for host
submissions. -/

namespace Sys2Proof.Machine

/-! ### Checks (R303) -/

/-- SPAD units of a cluster in its present bank modes (log 15). -/
def Cluster.spadUnits (c : Cluster) : Nat := 32 * ((List.range 32).filter fun b => (c.bank b).mode == .spad).length
/-- Workgroups of a packet that fit one empty SIMT core (R16): quadrant 0 takes the most warps of each. -/
def groupsPerCore (p : BitVec 1024) : Nat := min 16 (512 / pkVregs p) / ((pkWarps p + 3) / 4)
/-- R19: a pack fits the cluster if nothing else is on it. -/
def fitsEmpty (c : Cluster) (p : BitVec 1024) : Bool :=
  decide (pkGroups p ≤ 4 * groupsPerCore p) && decide (pkGroups p * pkSpadu p ≤ c.spadUnits)

/-- The dies of a launch: those of DIEMASK, or that of the dispatcher that performs it (R301). -/
def launchDies (d : Nat) (p : BitVec 1024) : List Nat :=
  if pkDiemask p = 0 then [d] else (List.range 8).filter fun i => (pkDiemask p).testBit i
/-- N of R302. -/
def packCount (p : BitVec 1024) : Nat := pkExt p 0 * pkExt p 1 * pkExt p 2

def badShape (s : State) (d : Nat) (p : BitVec 1024) : Bool :=
  (launchDies d p).any (fun e => (List.range 12).all fun c => !fitsEmpty (s.cluster (12 * e + c)) p) ||
    (pkProdw p && decide (pkWarps p - 1 < pkPwarp p)) || (!pkProdw p && pkPwarp p != 0)
def badWidths (p : BitVec 1024) : Bool :=
  decide (4 < (pkWidths p)[1]?.getD 0) || decide (64 < (pkWidths p).foldl (· + ·) 0)
def badCounts (p : BitVec 1024) : Bool :=
  let w (i : Nat) : Nat := ((pkWidths p)[i]?).getD 0
  decide (2 ^ w 1 < pkWarps p) || decide (2 ^ w 2 < pkGroups p) ||
    [0, 1, 2].any (fun i => pkExt p i == 0 || decide (2 ^ w (3 + i) < pkExt p i)) ||
    decide (2 ^ 24 < packCount p) || (pkMap p == 1 && decide (pkPn p < packCount p))
/-- HANDLE bits that R412 reserves. -/
def handleReserved : Nat := 0xFFF80801
def badField (p : BitVec 1024) : Bool :=
  field p 0x10 30 2 != 0 || field p 0x14 26 6 != 0 || field p 0x1C 26 6 != 0 || decide (5 ≤ pkMap p) ||
    (pkMap p != 0 && (pkPbmap p == 0 || pkPn p == 0 || pkPe3 p == 0)) || (pkMap p == 0 && pkPbmap p != 0) ||
    [pkDone p, pkBmap p, pkPbmap p].any (fun a => a.toNat % 8 != 0) || pkWarp p == 0 ||
    (pkHandle p &&& handleReserved) != 0

/-- The first status of R303 that applies; `right` says that a set OWNER is accepted. -/
def launchCode (s : State) (d : Nat) (right : Bool) (p : BitVec 1024) : Option Nat :=
  if badShape s d p then some 0x10
  else if badWidths p then some 0x11
  else if badCounts p then some 0x12
  else if badField p then some 0x13
  else if pkOwner p && !right then some 0x14
  else if pkDiemask p != 0 && (launchDies d p).any (fun e => (s.die e).status != .online) then some 0x15
  else none

/-! ### Probes (R313) -/

/-- Every page of the bytes at an address, none where it is 0: the first fault. -/
def probeRange (a : Asker) (acc : Acc) (va : Word64) (n : Nat) (s : State) : State × Option LaneFault :=
  if va = 0 then (s, none)
  else
    match probePieces a acc (rangePieces va.toNat n) s with
    | (s, some f, _) => (s, some f)
    | (s, none, true) => (s, some ⟨cPerm, 3, va, 0⟩)
    | (s, none, false) => (s, none)
/-- Bytes of a completion bitmap. -/
def bitmapBytes (n : Nat) : Nat := (n + 63) / 64 * 8
/-- DONE and BMAP for write, PBMAP for read: the first fault, with its access code. -/
def launchProbe (a : Asker) (p : BitVec 1024) (s : State) : State × Option (LaneFault × Nat) :=
  match probeRange a .probeWrite (pkDone p) 8 s with
  | (s, some f) => (s, some (f, Acc.probeWrite.code))
  | (s, none) =>
    match probeRange a .probeWrite (pkBmap p) (bitmapBytes (packCount p)) s with
    | (s, some f) => (s, some (f, Acc.probeWrite.code))
    | (s, none) =>
      match probeRange a .probeRead (pkPbmap p) (bitmapBytes (pkPn p)) s with
      | (s, some f) => (s, some (f, Acc.probeRead.code))
      | (s, none) => (s, none)

/-! ### Dependent launches (R307) -/

/-- Whether pack i requires producer pack q. -/
def requires (p : BitVec 1024) (i q : Nat) : Bool :=
  let c := i % pkExt p 0
  let q3 := q % pkPe3 p
  match pkMap p with
  | 0 => false
  | 1 => q == i
  | 2 => q3 == c
  | 3 => decide (q3 ≤ c + pkWin p) && decide (c ≤ q3 + pkWin p) && q / pkPe3 p == i / pkExt p 0
  | _ => true

/-- The bit of a producer pack in the bitmap, as the dispatcher of a die reads it. -/
def producerBit (s : State) (d ctx : Nat) (p : BitVec 1024) (q : Nat) : Bool :=
  match look s (askerDie ctx d) ((pkPbmap p).toNat + 8 * (q / 64)) with
  | .ok pa _ => (s.readNat pa 8).testBit (q % 64)
  | .fault _ _ _ => false
def producersDone (s : State) (k : Pack) : Bool :=
  (List.range (pkPn k.packet)).all fun q => !requires k.packet k.num q || producerBit s k.die k.ctx k.packet q

/-- The words of the bitmap that the dispatcher reads are corrected where they stand (R209). -/
def State.producerReads (s : State) (k : Pack) : State :=
  (((List.range (pkPn k.packet)).filter fun q => requires k.packet k.num q).map (· / 64)).eraseDups.foldl (fun s w =>
    match look s (askerDie k.ctx k.die) ((pkPbmap k.packet).toNat + 8 * w) with
    | .ok pa _ => s.correct pa 8
    | .fault _ _ _ => s) s

/-- E1 of R35, for every pack of a die: the dispatcher's look at the bitmaps. -/
def State.promote (s : State) (d : Nat) : State :=
  let up (k : Pack) : Pack :=
    if k.state == .waiting && k.die == d && producersDone s k then { k with state := .placeable } else k
  let s := (s.packs.filter fun e => e.2.state == .waiting && e.2.die == d).foldl (fun s e => s.producerReads e.2) s
  { s with packs := s.packs.map fun (e : Nat × Pack) => (e.1, up e.2) }

/-! ### Creation (R299, R302, R313) -/

/-- Entries of a die's launch queue: launches with packs there that have not retired. -/
def State.launchEntries (s : State) (d : Nat) : Nat :=
  ((s.packs.filter fun e => e.2.die == d && e.2.state != .retired).map (·.2.launch)).eraseDups.length
def State.launchRoom (s : State) (d : Nat) (p : BitVec 1024) : Bool :=
  (launchDies d p).all fun e => decide (s.launchEntries e < 64)

/-- Pack i of a launch, before E1 is looked at. -/
def newPack (launch ctx d prio : Nat) (p : BitVec 1024) (i : Nat) : Pack :=
  let ds := launchDies d p
  { launch, num := i, ctx, packet := p,
    state := if (List.range (pkPn p)).any (requires p i) then .waiting else .placeable,
    prio, die := (ds[i % ds.length]?).getD 0, cluster := 0, thread := 0, cores := [], parties := [], kregs := [],
    spads := [], bars := [], batons := [], lcopies := [], deposits := [], copies := [], cmds := [], joins := [],
    heaps := [], lines := 0, placed := 0, savedAt := 0, victimOf := none, reserved := none, holds := [], gone := false }

/-- The launch enters the queues of its dies: its identifier. -/
def State.createLaunch (s : State) (d ctx prio : Nat) (p : BitVec 1024) : State × Nat :=
  let n := (s.die d).launchCount + 1
  let id := d * 2 ^ 29 + n % 2 ^ 29
  let count := packCount p
  let packs := (List.range count).map fun i => (s.nextPack + i, newPack id ctx d prio p i)
  let s := s.modDie d fun x => { x with launchCount := n }
  let s := { s with launches := cset s.launches id { ctx, packet := p, next := count, left := count, killed := 0, broken := false },
                    packs := s.packs ++ packs, nextPack := s.nextPack + count }
  ((launchDies d p).foldl State.promote s, id)

end Sys2Proof.Machine
end

