-- ==== Sys2Proof/Machine/Work.lean ====
section
/-! DEFINITION. LAUNCH, tasks and FIFO banks (spec/11, R308 to R318). -/

namespace Sys2Proof.Machine

/-! ### What the queue instructions share (R312) -/

/-- One access of the uniform form, and the trap of its fault. -/
def accessOne (s : State) (c : Cur) (va : Word64) (n : Nat) (acc : Acc) (consumes : Consumes) : State × Except Trap Nat :=
  match access s (s.asker c) va n acc consumes with
  | (s, .error f) => (s, .error (f.trap c.lanes acc.code))
  | (s, .ok pa) => (s, .ok pa)
/-- A source of format E. -/
def srcE (s : State) (c : Cur) (x : Src) : Word64 := u64 (readSrc s c none .w64 none x)
/-- The token is written at once (R312). -/
def doneToken (s : State) (c : Cur) (o : FmtE) (x : Nat) : Res := .done (doneAt (giveS s c o.token false (u64 x)))
/-- The context of the issuing party. -/
def State.ctxOf (s : State) (u : Nat) : Nat := ((s.pack u).map (·.ctx)).getD 0

/-- A block that the instruction reads at issue: the words it read before it waited, or those in memory. -/
def readBlock (s : State) (c : Cur) (va : Word64) (n : Nat) : State × Except Trap (List Word64) :=
  if c.again && !(s.keptFor c).isEmpty then (s, .ok (s.keptFor c))
  else
    match accessOne s c va n .read .near with
    | (s, .error t) => (s, .error t)
    | (s, .ok pa) => (s.readBy (s.here c) pa n Alloc.both, .ok ((List.range (n / 8)).map fun i => u64 (s.readNat (pa + 8 * i) 8)))
/-- The group waits with what it has read. -/
def Res.keeping (s : State) (c : Cur) (ws : List Word64) : Res := .wait ((s.enterWait c).keep c ws)
/-- Words side by side. -/
def joinWords : List Word64 → Nat
  | [] => 0
  | w :: r => w.toNat + 2 ^ 64 * joinWords r

/-! ### LAUNCH (R313) -/

/-- The launch enters its queues, or waits for room in them. -/
def submit (o : FmtE) (prio : Nat) (ctx : Nat) (p : BitVec 1024) (ws : List Word64) (s : State) (c : Cur) : Res :=
  let d := dieOf (s.here c)
  if s.launchRoom d p then
    let (s, id) := s.createLaunch d ctx prio p
    doneToken s c o (id * 2 ^ 32)
  else .keeping s c ws

def launchBody (o : FmtE) (s : State) (c : Cur) : Res :=
  match s.pack c.pack with
  | none => .wait s
  | some k =>
    match readBlock s c (srcE s c o.s1) 128 with
    | (s, .error t) => .trap s t
    | (s, .ok ws) =>
      let p := BitVec.ofNat 1024 (joinWords ws)
      let prio := min (pkPrio p) k.prio
      if c.again && !(s.keptFor c).isEmpty then submit o prio k.ctx p ws s c
      else
        match launchCode s (dieOf (s.here c)) (pkOwner k.packet) p with
        | some e => doneToken s c o e
        | none =>
          match launchProbe (s.asker c) p s with
          | (s, some (f, acc)) => .trap s (f.trap c.lanes acc)
          | (s, none) => submit o prio k.ctx p ws s c
def execLaunch (o : FmtE) (s : State) : Host.Outcome State Fault Refusal := perform (.launch o) (launchBody o) s

/-! ### Tasks (R308 to R310, R314 to R316) -/

def Task.hdr (t : Task) : Nat := (t.record.extractLsb' (8 * 0x20) 32).toNat
def Task.shape (t : Task) : Nat := t.hdr / 8 % 16
def Task.prio (t : Task) : Nat := t.hdr / 2 % 4
def Task.mig (t : Task) : Bool := t.hdr % 2 == 1

/-- Free slots of a cluster's task queue; none where it has no task bank. -/
def Cluster.taskRoom (x : Cluster) : Option Nat := x.taskBank.map fun _ => 2048 - x.tasks.length
/-- A record enters a queue; one that is full then has to gain room anew (R310). -/
def State.pushTask (s : State) (cl : Nat) (t : Task) : State :=
  let s := s.modCluster cl fun x => { x with tasks := x.tasks ++ [t] }
  if (s.cluster cl).taskRoom = some 0 then s.noRoom cl else s
/-- The queue of a cluster gains room while its die has records to spill (R310). -/
def State.gainRoom (s : State) (cl : Nat) : State :=
  s.modDie (dieOf cl) fun x =>
    if (x.spill.isEmpty && x.spillWait.isEmpty) || x.gained.contains cl then x else { x with gained := x.gained ++ [cl] }

/-- TASKQ (R314). -/
def taskqBody (o : FmtE) (s : State) (c : Cur) : Res :=
  match accessOne s c (srcE s c o.s1) 64 .read .near with
  | (s, .error t) => .trap s t
  | (s, .ok pa) =>
    let cl := s.here c
    let t : Task := { ctx := s.ctxOf c.pack, record := BitVec.ofNat 512 (s.readNat pa 64) }
    let s := s.readBy cl pa 64 Alloc.both
    match (s.cluster cl).taskRoom with
    | none => doneToken s c o 2
    | some 0 => doneToken s c o 1
    | some _ => doneToken (s.pushTask cl t) c o 0
def execTaskq (o : FmtE) (s : State) : Host.Outcome State Fault Refusal := perform (.taskq o) (taskqBody o) s

/-- The clusters that a TASKD searches, with their levels (R309). -/
def searchOrder (cl lim : Nat) : List (Nat × Nat) :=
  let d := dieOf cl
  [(0, cl)] ++
    (if lim = 2 then [] else (List.range 11).map fun i => (1, 12 * d + (cl % 12 + 1 + i) % 12)) ++
    (if lim = 0 then (List.range 7).flatMap fun i => (List.range 12).map fun j => (2, 12 * ((d + 1 + i) % 8) + j) else [])
/-- The oldest matching record of the highest priority in a queue. -/
def bestTask (ok : Task → Bool) (ts : List Task) : Option Task :=
  match ([3, 2, 1, 0].filterMap fun n => ts.find? fun t => ok t && t.prio == n) with
  | [] => none
  | t :: _ => some t
/-- R309: the level, the cluster and the record. -/
def findTask (s : State) (ctx shape : Nat) : List (Nat × Nat) → Option (Nat × Nat × Task)
  | [] => none
  | (lv, cl) :: r =>
    match bestTask (fun t => t.ctx == ctx && t.shape == shape && (decide (lv < 2) || t.mig)) (s.cluster cl).tasks with
    | some t => some (lv, cl, t)
    | none => findTask s ctx shape r

/-- The place of a scratchpad write of a queue instruction: its trap, or the offset. -/
def padTrap (sp : Spad) (c : Cur) (off n align : Nat) : Option Trap :=
  match sp.check off n align false with
  | .error f => some (f.trap c.lanes 0)
  | .ok _ => none

/-- TASKD (R315). The lines that the record is written to are waited for before it is taken. -/
def taskdBody (o : FmtE) (s : State) (c : Cur) : Res :=
  let wg := c.who / 16
  match s.pack c.pack, s.party c.pack c.who, s.spad c.pack wg with
  | some k, some p, some sp =>
    let off := (srcE s c o.s1).toNat % 2 ^ 32
    if p.detached then .trap s (trapOf cDetached 1 c.lanes)
    else
      match padTrap sp c off 64 64 with
      | some t => .trap s t
      | none =>
        match findTask s k.ctx (pkWarps k.packet - 1) (searchOrder (s.here c) o.dir) with
        | none => doneToken s c o 1
        | some (lv, cl, t) =>
          if sp.emptyAt off 64 then .waiting s c
          else
            let s := ((s.modCluster cl fun x => { x with tasks := x.tasks.erase t }).gainRoom cl).clearTaskBank cl
            let s := s.modSpad c.pack wg fun x => x.write off (bytesOf 64 t.record.toNat)
            doneToken s c o (dieOf cl * 2 ^ 24 + cl % 12 * 2 ^ 16 + lv * 256)
  | _, _, _ => .trap s (trapOf cDetached 1 c.lanes)
def execTaskd (o : FmtE) (s : State) : Host.Outcome State Fault Refusal := perform (.taskd o) (taskdBody o) s

/-- The queue of a die with the most free slots, the lowest cluster among equals. -/
def State.roomiest (s : State) (d : Nat) : Option Nat :=
  ((List.range 12).foldl (fun (best : Option (Nat × Nat)) i =>
    match (s.cluster (12 * d + i)).taskRoom with
    | none => best
    | some n =>
      if n = 0 then best
      else match best with
        | none => some (n, 12 * d + i)
        | some b => if b.1 < n then some (n, 12 * d + i) else best) none).map (·.2)
/-- R310: the successor's record is enqueued, or the firmware is asked for memory to keep it in the spill list. -/
def State.enqueueSuccessor (s : State) (d : Nat) (t : Task) : State :=
  match s.roomiest d with
  | some cl => s.pushTask cl t
  | none =>
    s.modDie d fun x =>
      { x with spillWait := x.spillWait ++ [t], gained := if x.spill.isEmpty && x.spillWait.isEmpty then [] else x.gained }

/-- TDONE (R316): the line is probed for read and for write, then the counter is one atomic at its home slice; the record is
read only when the counter goes from 1 to 0. -/
def tdoneBody (o : FmtE) (s : State) (c : Cur) : Res :=
  let a := srcE s c o.s1
  if a = 0 then doneToken s c o 3
  else
    match accessOne s c a 128 .probeRead .nothing with
    | (s, .error t) => .trap s t
    | (s, .ok _) =>
      match accessOne s c a 128 .probeWrite .nothing with
      | (s, .error t) => .trap s t
      | (s, .ok pa) =>
        if s.uncAt pa 8 then .trap s { trapOf cUncorr 0 c.lanes with addr := a }
        else
          let s := s.correct pa 8
          let old : Word64 := u64 (s.readNat pa 8)
          if old = 1 then
            let s := s.correct (pa + 64) 64
            let t : Task := { ctx := s.ctxOf c.pack, record := BitVec.ofNat 512 (s.readNat (pa + 64) 64) }
            let s := s.writeHome pa (bytesOf 8 0)
            doneToken (s.enqueueSuccessor ((s.homeDie pa).getD (dieOf (s.here c))) t) c o 1
          else if old.toInt ≤ 0 then doneToken (s.recall (pa / 128)) c o 2
          else doneToken (s.writeHome pa (bytesOf 8 (old.toNat - 1))) c o 0
def execTdone (o : FmtE) (s : State) : Host.Outcome State Fault Refusal := perform (.tdone o) (tdoneBody o) s

/-- The oldest spilled record of a die moves to the first queue that has gained room and has it still (R310). -/
def State.spillOne (s : State) (d : Nat) : Option State :=
  match (s.die d).spill with
  | [] => none
  | t :: rest =>
    ((s.die d).gained.find? fun cl => decide (0 < ((s.cluster cl).taskRoom).getD 0)).map fun cl =>
      (s.modDie d fun x => { x with spill := rest }).pushTask cl t

/-! ### FENQ and FDEQ (R317, R318) -/

/-- Elements that a FIFO bank holds at most. -/
def fifoSize : Nat := 8192
/-- W of FENQ and FDEQ. -/
def FmtA.waits (o : FmtA) : Bool := o.ext.getLsbD 0

/-- What step 6 finds of the bank: a fault, no FIFO, or the bank. -/
inductive FifoCheck where
  | trap | off | bank (x : Bank)
deriving DecidableEq, Repr
def fifoCheck (s : State) (k : Pack) (cl b : Nat) : FifoCheck :=
  let x := (s.cluster cl).bank b
  let isFifo := match x.mode with | .fifo => true | .cache | .spad | .switching _ => false
  if !(pkFifomask k.packet).testBit b || (s.cluster cl).taskBank == some b || (isFifo && x.bound != some k.ctx) then .trap
  else if isFifo then .bank x
  else .off

/-- The predicate in every active lane, or once. -/
def setAll (form : Form) (pd : BitVec 4) (b : Bool) (s : State) (c : Cur) : State :=
  s.modRegs c.pack c.who fun r => (lanesFor form c.active).foldl (fun r l => writePred r l pd b) r

def fenqLane (o : FmtA) (b : Nat) (c : Cur) (s : State) (l : Option Nat) : State :=
  let cl := s.here c
  let x := (s.cluster cl).bank b
  let room := decide (x.elems.length < fifoSize)
  let s :=
    if room then
      s.modCluster cl fun y => y.setBank b { x with elems := x.elems ++ [BitVec.ofNat 128 (readSrc s c none .w128 l o.b)] }
    else s
  s.modRegs c.pack c.who fun r => writePred r l o.ext17 room
def fdeqLane (o : FmtA) (b : Nat) (c : Cur) (s : State) (l : Option Nat) : State :=
  let cl := s.here c
  let x := (s.cluster cl).bank b
  match x.elems with
  | [] => s.modRegs c.pack c.who fun r => writePred r l o.ext17 false
  | e :: rest =>
    (s.modCluster cl fun y => y.setBank b { x with elems := rest }).modRegs c.pack c.who fun r =>
      writePred (writeSpec r none .w128 l o.dst e.toNat) l o.ext17 true

/-- The latches after FDEQ. R72 names FDEQ among the instructions that deposit the low half of a 128-bit result, and R317 says
that its latch is INVALID: which of the two holds is free (log 60). -/
def fdeqLatches (c : Cur) (x : Bank) (ls : List (Option Nat)) : List (Nat × Latch) :=
  if Config.fdeqDeposits then (ls.zip x.elems).flatMap fun e => deposits c .w64 e.1 e.2.toNat else []

/-- The body of FENQ and FDEQ. -/
def fifoBody (o : FmtA) (lane : Nat → Cur → State → Option Nat → State) (avail : Bank → Nat)
    (latches : Cur → Bank → List (Option Nat) → List (Nat × Latch)) (s : State) (c : Cur) : Res :=
  let form := formOf o.dst
  let b := readSrc s c none .w32 none o.a % 32
  match s.pack c.pack, s.party c.pack c.who with
  | some k, some p =>
    if p.detached then .trap s (trapOf cDetached 1 c.active)
    else
      match fifoCheck s k (s.here c) b with
      | .trap => .trap s (trapOf cPerm 5 c.active)
      | .off => .done (doneAt (setAll form o.ext17 false s c))
      | .bank x =>
        let ls := lanesFor form c.active
        if FmtA.waits o && decide (avail x < ls.length) then .waiting s c
        else .done { doneAt (ls.foldl (lane b c) s) with dep := latches c x ls }
  | _, _ => .wait s
def execFenq (o : FmtA) (s : State) : Host.Outcome State Fault Refusal :=
  perform (.fenq o) (fifoBody o (fenqLane o) (fun x => fifoSize - x.elems.length) fun _ _ _ => []) s
def execFdeq (o : FmtA) (s : State) : Host.Outcome State Fault Refusal :=
  perform (.fdeq o) (fifoBody o (fdeqLane o) (fun x => x.elems.length) fdeqLatches) s

end Sys2Proof.Machine
end

