-- ==== Sys2Proof/Machine/Kelpie.lean ====
section
/-! DEFINITION. Kelpie, the batch-forming queue of a die (spec/11, R319 to R324). -/

namespace Sys2Proof.Machine

/-! ### Rows (R319) -/

def rowOf (rowp stat : Word64) (seq pos iter : Nat) (pid ctx : Nat) : BitVec 256 :=
  BitVec.ofNat 256 (rowp.toNat + 2 ^ 64 * seq + 2 ^ 96 * pos + 2 ^ 128 * iter + 2 ^ 160 * pid + 2 ^ 176 * ctx +
    2 ^ 192 * stat.toNat)
def Row.ctx (r : Row) : Nat := (r.entry.extractLsb' 176 8).toNat
def Row.stat (r : Row) : Word64 := r.entry.extractLsb' 192 64

/-! ### Batches (R320, R321) -/

/-- A new OPEN batch of a group, while one of the 64 numbers is free. -/
def Die.openBatch (x : Die) (key : Nat) : Option Die :=
  if 64 ≤ x.batches.length then none
  else some { x with nextBatch := x.nextBatch + 1,
                     batches := x.batches ++
                       [{ number := (x.nextBatch + 1) % 2 ^ 32, group := key, st := .opened, rows := [] }] }
def Batch.openOf (key : Nat) (b : Batch) : Bool := b.group == key && b.st == .opened
/-- A row is appended to the OPEN batch of its group: the die, and the batch number; none where the row waits. -/
def Die.appendRow (x : Die) (key : Nat) (r : Row) : Option (Die × Nat) :=
  let opened := if x.batches.any (Batch.openOf key) then some x else x.openBatch key
  match opened with
  | none => none
  | some x =>
    match x.batches.find? (Batch.openOf key) with
    | none => none
    | some b =>
      let b' := { b with rows := b.rows ++ [r] }
      let full := decide (x.threshold ≤ b'.rows.length)
      let b' := if full then { b' with st := .ready } else b'
      let x := { x with batches := x.batches.map fun y => if y.number = b.number then b' else y }
      some (if full then (x.openBatch key).getD x else x, b.number)

/-! ### BQPOST (R322) -/

/-- The die and the share group of the issuing party. -/
def State.kelpieOf (s : State) (c : Cur) : Nat × Nat := (dieOf (s.here c), s.shareKey (s.ctxOf c.pack))
/-- The poster that source 1 names, when the issuing pack owns it. -/
def State.ownPoster (s : State) (c : Cur) (id : Nat) : Option Poster :=
  match cget (s.die (s.kelpieOf c).1).posters id with
  | none => none
  | some p => if p.pack = c.pack then some p else none

def joinBody (o : FmtE) (s : State) (c : Cur) : Res :=
  let (d, _) := s.kelpieOf c
  match (List.range 64).find? fun i => (cget (s.die d).posters i).isNone with
  | none => doneToken s c o 2
  | some i =>
    let x := s.ctxOf c.pack
    let p : Poster := { ctx := x, share := (s.context x).share, pack := c.pack, flag := false, iter := 0 }
    doneToken (s.modDie d fun x => { x with posters := cset x.posters i p }) c o (i * 256)
def execBqpostJoin (o : FmtE) (s : State) : Host.Outcome State Fault Refusal := perform (.bqpostJoin o) (joinBody o) s

def rowBody (o : FmtE) (s : State) (c : Cur) : Res :=
  let (d, key) := s.kelpieOf c
  let x1 := (srcE s c o.s1).toNat
  let x2 := (srcE s c o.s2).toNat
  let x3 := readSrc s c none .w128 none o.s3
  match s.ownPoster c (x1 % 64) with
  | none => doneToken s c o 3
  | some p =>
    let r := rowOf (u64 x3) (u64 (x3 / 2 ^ 64)) (x2 % 2 ^ 32) (x2 / 2 ^ 32) (x1 / 2 ^ 32) (x1 % 64) p.ctx
    match (s.die d).appendRow key { entry := r, reported := false } with
    | none => .waiting s c
    | some (x, n) => doneToken ((s.setDie d x).closeBatch d key) c o (n * 2 ^ 32)
def execBqpostRow (o : FmtE) (s : State) : Host.Outcome State Fault Refusal := perform (.bqpostRow o) (rowBody o) s

def stepBody (o : FmtE) (s : State) (c : Cur) : Res :=
  let (d, key) := s.kelpieOf c
  let x1 := (srcE s c o.s1).toNat
  match s.ownPoster c (x1 % 64) with
  | none => doneToken s c o 3
  | some p =>
    if x1 / 2 ^ 32 < p.iter.toNat then doneToken s c o 4
    else
      let p := { p with flag := true, iter := BitVec.ofNat 32 (x1 / 2 ^ 32) }
      doneToken ((s.modDie d fun x => { x with posters := cset x.posters (x1 % 64) p }).closeBatch d key) c o 0
def execBqpostStep (o : FmtE) (s : State) : Host.Outcome State Fault Refusal := perform (.bqpostStep o) (stepBody o) s

def leaveBody (o : FmtE) (s : State) (c : Cur) : Res :=
  let (d, key) := s.kelpieOf c
  let i := (srcE s c o.s1).toNat % 64
  match s.ownPoster c i with
  | none => doneToken s c o 3
  | some _ => doneToken ((s.modDie d fun x => { x with posters := cdel x.posters i }).closeBatch d key) c o 0
def execBqpostLeave (o : FmtE) (s : State) : Host.Outcome State Fault Refusal := perform (.bqpostLeave o) (leaveBody o) s

/-! ### BQGET (R323) -/

/-- The W bit of the parameters. -/
def FmtE.waits (o : FmtE) : Bool := o.params.getLsbD 24

def bqgetBody (o : FmtE) (s : State) (c : Cur) : Res :=
  let wg := c.who / 16
  let (d, key) := s.kelpieOf c
  match s.party c.pack c.who, s.spad c.pack wg with
  | some p, some sp =>
    let off := (srcE s c o.s1).toNat % 2 ^ 32
    if p.detached then .trap s (trapOf cDetached 1 c.lanes)
    else if off % 128 ≠ 0 then .trap s { trapOf cAlign 0 c.lanes with addr := u64 off }
    else
      match (s.die d).batches.find? fun b => b.group == key && b.st == .ready with
      | none => if FmtE.waits o then .waiting s c else doneToken s c o 1
      | some b =>
        let n := 32 * b.rows.length
        match padTrap sp c off n 128 with
        | some t => .trap s t
        | none =>
          if sp.emptyAt off n then .waiting s c
          else
            let s := s.modDie d fun x =>
              { x with batches := x.batches.map fun y => if y.number = b.number then { y with st := .taken } else y }
            let s := s.modSpad c.pack wg fun x => x.write off (b.rows.flatMap fun r => bytesOf 32 r.entry.toNat)
            doneToken s c o (b.number * 2 ^ 32 + b.rows.length * 256)
  | _, _ => .trap s (trapOf cDetached 1 c.lanes)
def execBqget (o : FmtE) (s : State) : Host.Outcome State Fault Refusal := perform (.bqget o) (bqgetBody o) s

/-! ### BQDONE (R324) -/

/-- The word that reports a row. -/
def statusWrite (n v : Nat) (r : Row) : StatusWrite :=
  { ctx := r.ctx, va := r.stat, word := u64 (n * 2 ^ 32 + v), orIn := false }
/-- Rows of a batch with the chosen ones reported, and those that are newly reported. -/
def reportRows (pick : Nat → Row → Bool) (rows : List Row) : List Row × List Row :=
  let ix := (List.range rows.length).zip rows
  let fresh (e : Nat × Row) : Bool := !e.2.reported && pick e.1 e.2
  (ix.map fun e => if fresh e then { e.2 with reported := true } else e.2, (ix.filter fresh).map (·.2))

def bqdoneBody (o : FmtE) (s : State) (c : Cur) : Res :=
  let (d, key) := s.kelpieOf c
  let x1 := (srcE s c o.s1).toNat
  let m := srcE s c o.s2
  let v := (srcE s c o.s3).toNat % 2 ^ 32
  let n := x1 % 2 ^ 32
  let f := x1 / 2 ^ 32 % 256
  match (s.die d).batches.find? fun b => b.number == n && b.group == key && b.st == .taken with
  | none => doneToken s c o 1
  | some b =>
    let (rows, new) := reportRows (fun i _ => decide (f ≤ i) && m.getLsbD (i - f)) b.rows
    let retired := rows.all (·.reported)
    let b' := { b with rows := rows }
    let s := s.modDie d fun x =>
      { x with batches :=
          if retired then x.batches.filter fun y => y.number != n else x.batches.map fun y => if y.number = n then b' else y }
    let s := new.foldl (fun s r => s.agentPost d (statusWrite n v r)) s
    doneToken s c o (retired.toNat * 2 ^ 17 + new.length * 256)
def execBqdone (o : FmtE) (s : State) : Host.Outcome State Fault Refusal := perform (.bqdone o) (bqdoneBody o) s

/-- A word that waited for its page is written, dropped, or waits for its page once more. -/
def State.retryWrite (s : State) (d : Nat) : List StatusWrite → Option State
  | [] => none
  | x :: r =>
    match s.agentWord d x.ctx x.va x.word x.orIn with
    | (s', .done) | (s', .dropped) => some (s'.modDie d fun y => { y with statusWrites := y.statusWrites.erase x })
    | (s', .page h) =>
      if s.asking d x.ctx x.va then s.retryWrite d r
      else some (s'.agentFault d x.ctx (if x.orIn then Acc.rmw.code else Acc.write.code) x.va h)
def execKelpieStatusWrite (die : Nat) (s : State) : Host.Outcome State Fault Refusal :=
  occur (s.retryWrite die (s.die die).statusWrites)

end Sys2Proof.Machine
end

