-- ==== Sys2Proof/Machine/Svc.lean ====
section
/-! DEFINITION. Service calls (spec/11, R325, R326). What files, namespaces and networks hold is outside the part: an event
carries the answer of the world, and is enabled only where the manual allows that answer. -/

namespace Sys2Proof.Machine

/-! ### SVC (R325) -/

/-- Calls that stand in the ring: those that no service core has received. -/
def Cluster.ring (x : Cluster) : List SvcCall := x.mailbox.filter fun m => m.answer.isNone

/-- The call enters the ring, or waits for a slot of it. -/
def callBody (o : FmtE) (ws : List Word64) (s : State) (c : Cur) : Res :=
  let cl := s.here c
  if 32 ≤ (s.cluster cl).ring.length then .keeping s c ws
  else
    let d := dieOf cl
    let n := ((s.die d).svcCount + 1) % 2 ^ 32
    let call : SvcCall :=
      { ctx := s.ctxOf c.pack, number := n, fn := (srcE s c o.s1).setWidth 16, args := ws, done := srcE s c o.s3,
        answer := none }
    let s := s.modDie d fun x => { x with svcCount := n }
    doneToken (s.modCluster cl fun x => { x with mailbox := x.mailbox ++ [call] }) c o (n * 2 ^ 32)

def svcBody (o : FmtE) (s : State) (c : Cur) : Res :=
  if c.again && !(s.keptFor c).isEmpty then callBody o (s.keptFor c) s c
  else
    match readBlock s c (srcE s c o.s2) 64 with
    | (s, .error t) => .trap s t
    | (s, .ok ws) =>
      match accessOne s c (srcE s c o.s3) 8 .probeWrite .nothing with
      | (s, .error t) => .trap s t
      | (s, .ok _) => callBody o ws s c
def execSvc (o : FmtE) (s : State) : Host.Outcome State Fault Refusal := perform (.svc o) (svcBody o) s

/-! ### The functions -/

def svcOK : Nat := 1
def svcIOERR : Nat := 2
def svcBADARG : Nat := 3
def svcBADHANDLE : Nat := 4
def svcBADFN : Nat := 5
def svcFAULT : Nat := 6
def svcRESET : Nat := 7
def svcSHORT : Nat := 8

/-- The completion word of R326. -/
def svcWord (code detail result : Nat) : Word64 := u64 (result % 2 ^ 32 * 2 ^ 32 + detail % 2 ^ 24 * 256 + code)
def SvcCall.arg (m : SvcCall) (i : Nat) : Word64 := (m.args[i]?).getD 0

/-- What a function needs: the kind of its handle (0 for none that the part keeps), its byte count where the arguments
give one, and its buffer with the access the firmware makes to it. -/
structure SvcNeeds where
  kind : Nat
  len : Option Nat
  va : Word64
  acc : Acc
deriving DecidableEq, Repr

/-- The limit of R325. -/
def svcLimit : Nat := 16 * 2 ^ 20

/-- How the buffer's pages answer: all there, one that paging has to supply first, or none that it can. -/
inductive Buffer where
  | there | page | bad
deriving DecidableEq, Repr
def bufferCheck (a : Asker) (acc : Acc) (va : Word64) (n : Nat) (s : State) : State × Buffer :=
  match probePieces a acc (rangePieces va.toNat n) s with
  | (s, none, false) => (s, .there)
  | (s, some f, _) => (s, if f.code = cPage then .page else .bad)
  | (s, none, true) => (s, .bad)

def handleKey (kind : Nat) (h : Word64) : Nat := 4 * h.toNat + kind
/-- Whether the context holds the handle (R325); namespace handles are the firmware's own. -/
def State.hasHandle (s : State) (ctx kind : Nat) (h : Word64) : Bool :=
  kind == 0 || (s.context ctx).handles.contains (handleKey kind h)

/-- The first call of a function that waits in a cluster's ring. -/
def State.nextCall (s : State) (cl fn : Nat) : Option SvcCall := (s.cluster cl).ring.find? fun m => m.fn.toNat == fn
/-- A call has its answer. -/
def State.answer (s : State) (cl : Nat) (m : SvcCall) (w : Word64) : State :=
  s.modCluster cl fun x =>
    { x with mailbox := x.mailbox.map fun y => if y.number = m.number && y.answer.isNone then { y with answer := some w } else y }

/-- The bytes of its buffer that a call touches: the count that its arguments give, or the answer's where the size of a block is
its host's. -/
def SvcNeeds.bytes (n : SvcNeeds) (reply : ExtReply) : Nat :=
  n.len.getD (if n.acc == .read then reply.result.toNat else reply.bytes.length)

/-- A service core receives the first call of a function and carries it out. FAULT is the answer of a call only where its
buffer is not there: paging may supply a missing page, or cannot (R326). BADARG and BADHANDLE come before the world is
asked; `act` does what the answer brings with it and says whether the manual allows that answer. -/
def State.serveCall (s : State) (cl fn : Nat) (needs : SvcCall → SvcNeeds) (reply : ExtReply)
    (act : SvcCall → State → Option (State × Nat × Nat)) : Option State :=
  match s.nextCall cl fn with
  | none => none
  | some m =>
    let n := needs m
    let code := reply.code.toNat
    let a := askerDie m.ctx (dieOf cl)
    if svcLimit < n.len.getD 0 then some (s.answer cl m (svcWord svcBADARG 0 0))
    else if !s.hasHandle m.ctx n.kind (m.arg 0) then some (s.answer cl m (svcWord svcBADHANDLE 0 0))
    else if code = svcOK || code = svcSHORT then
      match bufferCheck a n.acc n.va (n.bytes reply) s with
      | (_, .page) => none
      | (s, .bad) => some (s.answer cl m (svcWord svcFAULT 0 0))
      | (s, .there) =>
        let s := if n.acc == .read then lookCorrect s a n.va.toNat (n.bytes reply) else s
        (act m s).map fun r => r.1.answer cl m (svcWord r.2.1 reply.detail.toNat r.2.2)
    else if code = svcFAULT then
      match bufferCheck a n.acc n.va (n.bytes reply) s with
      | (_, .there) => none
      | (s, .page) | (s, .bad) => some (s.answer cl m (svcWord svcFAULT reply.detail.toNat 0))
    else if code = svcIOERR || code = svcBADARG || (code = svcBADHANDLE && n.kind = 0) then
      some (s.answer cl m (svcWord code reply.detail.toNat 0))
    else none

/-- Bytes that a read call delivers, all that were asked for, or fewer with SHORT. -/
def deliverBytes (cl : Nat) (va : SvcCall → Word64) (len : SvcCall → Option Nat) (reply : ExtReply) (m : SvcCall) (s : State) :
    Option (State × Nat × Nat) :=
  let n := reply.bytes.length
  let ok := match len m with
    | some l => if reply.code.toNat = svcOK then n == l else decide (n < l)
    | none => decide (n ≤ svcLimit)
  if ok then
    some (putVirtual (askerDie m.ctx (dieOf cl)) (rangePieces (va m).toNat n) reply.bytes s, reply.code.toNat, n)
  else none
/-- Bytes that a write call took, all that were offered, or fewer with SHORT. -/
def takeBytes (len : SvcCall → Option Nat) (reply : ExtReply) (m : SvcCall) (s : State) : Option (State × Nat × Nat) :=
  let n := reply.result.toNat
  let ok := match len m with
    | some l => if reply.code.toNat = svcOK then n == l else decide (n < l)
    | none => decide (n ≤ svcLimit)
  if ok then some (s, reply.code.toNat, n) else none
/-- A handle that the context opens: a new one. -/
def openHandle (kind : Nat) (reply : ExtReply) (m : SvcCall) (s : State) : Option (State × Nat × Nat) :=
  let x := s.context m.ctx
  let h := handleKey kind (reply.result.setWidth 64)
  if reply.code.toNat ≠ svcOK ∨ x.handles.contains h then none
  else some (s.setContext m.ctx { x with handles := x.handles ++ [h] }, svcOK, reply.result.toNat)
/-- A handle that the context closes. -/
def closeHandle (kind : Nat) (m : SvcCall) (s : State) : Option (State × Nat × Nat) :=
  let x := s.context m.ctx
  some (s.setContext m.ctx { x with handles := x.handles.filter (· != handleKey kind (m.arg 0)) }, svcOK, 0)

def len2 (m : SvcCall) : Option Nat := some (m.arg 2).toNat
def len1 (m : SvcCall) : Option Nat := some (m.arg 1).toNat

/-- The blocks of a namespace have the size that its host gives them: the byte count is the answer's. A block has at least
one byte, so a block count above the limit is BADARG. -/
def blockNeeds (acc : Acc) (m : SvcCall) : SvcNeeds :=
  { kind := 0, len := if svcLimit < (m.arg 2).toNat then some (m.arg 2).toNat else none, va := m.arg 3, acc }
def execBlkrd (cluster : Nat) (reply : ExtReply) (s : State) : Host.Outcome State Fault Refusal :=
  occur (s.serveCall cluster 0x0001 (blockNeeds .write) reply (deliverBytes cluster (·.arg 3) (fun _ => none) reply))
def execBlkwr (cluster : Nat) (reply : ExtReply) (s : State) : Host.Outcome State Fault Refusal :=
  occur (s.serveCall cluster 0x0002 (blockNeeds .read) reply (takeBytes (fun _ => none) reply))
def execFopen (cluster : Nat) (reply : ExtReply) (s : State) : Host.Outcome State Fault Refusal :=
  occur (s.serveCall cluster 0x0010 (fun m => { kind := 0, len := len1 m, va := m.arg 0, acc := .read }) reply
    (openHandle 2 reply))
def execFread (cluster : Nat) (reply : ExtReply) (s : State) : Host.Outcome State Fault Refusal :=
  occur (s.serveCall cluster 0x0011 (fun m => { kind := 2, len := len2 m, va := m.arg 3, acc := .write }) reply
    (deliverBytes cluster (·.arg 3) len2 reply))
def execFclose (cluster : Nat) (reply : ExtReply) (s : State) : Host.Outcome State Fault Refusal :=
  occur (s.serveCall cluster 0x0012 (fun _ => { kind := 2, len := some 0, va := 0, acc := .read }) reply (closeHandle 2))
def execNconn (cluster : Nat) (reply : ExtReply) (s : State) : Host.Outcome State Fault Refusal :=
  occur (s.serveCall cluster 0x0020 (fun m => { kind := 0, len := some 16, va := m.arg 0, acc := .read }) reply
    (openHandle 3 reply))
def execNread (cluster : Nat) (reply : ExtReply) (s : State) : Host.Outcome State Fault Refusal :=
  occur (s.serveCall cluster 0x0021 (fun m => { kind := 3, len := len1 m, va := m.arg 2, acc := .write }) reply
    (deliverBytes cluster (·.arg 2) len1 reply))
def execNwrite (cluster : Nat) (reply : ExtReply) (s : State) : Host.Outcome State Fault Refusal :=
  occur (s.serveCall cluster 0x0022 (fun m => { kind := 3, len := len1 m, va := m.arg 2, acc := .read }) reply
    (takeBytes len1 reply))
def execNclose (cluster : Nat) (reply : ExtReply) (s : State) : Host.Outcome State Fault Refusal :=
  occur (s.serveCall cluster 0x0023 (fun _ => { kind := 3, len := some 0, va := 0, acc := .read }) reply (closeHandle 3))

/-- NOTIFY (R325, R449): vectors 2 to 15 only; an interrupt that is pending already stays one. -/
def State.raiseMsix (s : State) (ctx v : Nat) : State :=
  if s.msix.contains (ctx, v) then s else { s with msix := s.msix ++ [(ctx, v)] }
def State.notifyCall (s : State) (cl : Nat) (reply : ExtReply) : Option State :=
  s.serveCall cl 0x0030 (fun _ => { kind := 0, len := some 0, va := 0, acc := .read }) { reply with code := 1#8 } fun m s =>
    let v := (m.arg 0).toNat
    if v < 2 ∨ 15 < v then some (s, svcBADARG, 0) else some (s.raiseMsix m.ctx v, svcOK, 0)
def execNotify (cluster : Nat) (reply : ExtReply) (s : State) : Host.Outcome State Fault Refusal :=
  occur (s.notifyCall cluster reply)

/-! ### Completion (R326) -/

def svcFunctions : List Nat := [0x0001, 0x0002, 0x0010, 0x0011, 0x0012, 0x0020, 0x0021, 0x0022, 0x0023, 0x0030]
/-- The word of a call that has been carried out; BADFN for a function that does not exist. -/
def SvcCall.result (m : SvcCall) : Option Word64 :=
  match m.answer with
  | some w => some w
  | none => if svcFunctions.contains m.fn.toNat then none else some (svcWord svcBADFN 0 0)
def State.completeCall (s : State) (cl : Nat) : Option State :=
  match (s.cluster cl).mailbox.find? fun m => m.result.isSome with
  | none => none
  | some m =>
    let s := s.modCluster cl fun x => { x with mailbox := x.mailbox.erase m }
    some (s.agentPost (dieOf cl) { ctx := m.ctx, va := m.done, word := m.result.getD 0, orIn := false })
def execSvcCompletion (cluster : Nat) (s : State) : Host.Outcome State Fault Refusal := occur (s.completeCall cluster)

end Sys2Proof.Machine
end

