-- ==== Sys2Proof/Machine/Groups.lean ====
section
/-! DEFINITION. Named groups (spec/12, R331 to R348). -/

namespace Sys2Proof.Machine

/-! ### Handles (R331, R332) -/

def handleOf (ctx entry : Nat) (gen : BitVec 8) : Word64 :=
  u64 (ctx % 256 * 2 ^ 24 + entry / 512 * 2 ^ 20 + gen.toNat * 2 ^ 12 + entry)
/-- The entry of a handle, or the first failing sub-code. -/
def State.handleEntry (s : State) (ctx : Nat) (h : Word64) : Except Nat Nat :=
  let x := h.toNat
  let entry := x % 4096
  if x = 0 ∨ 2 ^ 32 ≤ x ∨ x / 2 ^ 23 % 2 = 1 ∨ entry / 512 ≠ x / 2 ^ 20 % 8 then .error 4
  else if x / 2 ^ 24 ≠ ctx then .error 2
  else
    let g := s.group entry
    if g.st == .free || g.gen.toNat != x / 2 ^ 12 % 256 then .error 1 else .ok entry

/-- The member record of the issuing party. -/
def GroupEntry.mine (x : GroupEntry) (c : Cur) : Option Member :=
  x.members.find? fun m => m.pack == c.pack && m.who == c.who
def groupHandle (o : FmtA) (s : State) (c : Cur) : Except Nat Nat :=
  s.handleEntry (s.ctxOf c.pack) (u64 (readSrc s c none .w64 none o.a))

/-- A group instruction with its entry. -/
def onGroup (o : FmtA) (f : Nat → GroupEntry → Res) (s : State) (c : Cur) : Res :=
  match groupHandle o s c with
  | .error sub => .trap s (trapOf cGroup sub c.lanes)
  | .ok g => f g (s.group g)

/-! ### GOPEN (R333, R342) -/

/-- The next ONLINE socket from `d`, `n` tries; `d` itself where none is. -/
def State.onlineFrom (s : State) (d : Nat) : Option Nat :=
  ((List.range 8).map fun i => (d + i) % 8).find? fun e => (s.die e).status == .online
/-- The home die of a name. -/
def nameDie (n : Word64) : Nat := ((bytesOf 8 n.toNat).foldl (fun x b => x ^^^ b.toNat) 0) % 8

/-- The entry of a name: the state, and the handle or 0. -/
def State.openGroup (s : State) (ctx : Nat) (n : Word64) : State × Word64 :=
  match s.onlineFrom (nameDie n) with
  | none => (s, 0)
  | some d =>
    let slots := (List.range 512).map (512 * d + ·)
    let same (g : Nat) : Bool := let x := s.group g; x.st == .opened && x.ctx == ctx && x.name == n
    match slots.find? same with
    | some g => (s, handleOf ctx g (s.group g).gen)
    | none =>
      match slots.find? fun g => (s.group g).st == .free with
      | none => (s, 0)
      | some g =>
        let gen := (s.group g).gen
        (s.setGroup g { GroupEntry.zero with st := .opened, name := n, ctx := ctx, gen := gen }, handleOf ctx g gen)

def gopenBody (o : FmtA) (s : State) (c : Cur) : Res :=
  let (s, h) := s.openGroup (s.ctxOf c.pack) (u64 (readSrc s c none .w64 none o.a))
  doneS (s.modRegs c.pack c.who fun r => r.writeQ 0 (h != 0)) c o.dst o.wbs h
def execGopen (o : FmtA) (s : State) : Host.Outcome State Fault Refusal := perform (.gopen o) (gopenBody o) s

/-! ### GJOIN and GLEAVE (R343, R344) -/

/-- The status word of R343. -/
def joinStatus (phase : BitVec 32) (index code : Nat) : Word64 :=
  u64 (phase.toNat % 65536 * 2 ^ 48 + index * 256 + code)
/-- The first code of R343 that refuses a join. -/
def joinRefusal (s : State) (x : GroupEntry) (live mask : Lanes) (c : Cur) : Option Nat :=
  if mask &&& live = 0 then some 5
  else if 255 ≤ x.members.length then some 2
  else if 8 ≤ (s.groupsOf c.pack c.who).length then some 3
  else none

def gjoinBody (o : FmtA) (s : State) (c : Cur) : Res :=
  onGroup o (fun g x =>
    let live := ((s.party c.pack c.who).map (·.live)).getD 0
    let mask := if c.who = spineWho then 1#64 else u64 (readSrc s c none .w64 none o.b)
    let give (s : State) (w : Word64) : Res := doneS s c o.dst o.wbs w
    if x.st == .closing then give s (joinStatus (x.phase + 1) 0xFF 4)
    else
      match x.mine c with
      | some m => give s (joinStatus m.since m.index 1)
      | none =>
        match joinRefusal s x live mask c with
        | some code => give s (joinStatus (x.phase + 1) 0xFF code)
        | none =>
          let i := ((List.range 255).find? fun i => x.members.all fun m => m.index != i).getD 0
          let m : Member :=
            { pack := c.pack, who := c.who, index := i, since := x.phase + 1, mask, pending := true, lanes := 0,
              arrived := false, contrib := none, waits := [] }
          give ((s.setGroup g { x with members := x.members ++ [m] }).advance g) (joinStatus (x.phase + 1) i 0)) s c
def execGjoin (o : FmtA) (s : State) : Host.Outcome State Fault Refusal := perform (.gjoin o) (gjoinBody o) s

def gleaveBody (o : FmtA) (s : State) (c : Cur) : Res :=
  onGroup o (fun g x =>
    match x.mine c with
    | none => doneS s c o.dst o.wbs 1
    | some _ => doneS (s.depart g c.pack c.who false) c o.dst o.wbs 0) s c
def execGleave (o : FmtA) (s : State) : Host.Outcome State Fault Refusal := perform (.gleave o) (gleaveBody o) s

/-! ### GBAR, GVOTE and GRED (R337, R345, R346) -/

/-- CODE NOTMEMBER (R338). -/
def notMember : Word64 := 1

/-- An execution recorded in a member: the lanes of its mask, the first contribution, the waiting group. -/
def Member.record (m : Member) (c : Cur) (x : Word64) : Member :=
  { m with lanes := m.lanes ||| (c.lanes &&& m.mask), contrib := if m.contrib.isNone then some x else m.contrib,
           waits := m.waits ++ [c.lanes] }
/-- The entry after an execution of a kind that counts. -/
def GroupEntry.record (e : GroupEntry) (m : Member) (kind : Nat) (c : Cur) (x : Word64) : GroupEntry :=
  let e := { e with members := e.members.map fun (y : Member) => if y.index = m.index then y.record c x else y }
  if m.pending then { e with nextKind := some kind } else { e with kind := some kind }

/-- The result and the phase status of an execution, delivered by `post`. -/
def arriveBody (o : FmtA) (kind : Nat) (contrib : State → Cur → Word64) (post : State → Cur → Word64 → Word64 → Res)
    (s : State) (c : Cur) : Res :=
  let give (s : State) (vals : List Word64) : Res := post s c ((vals[0]?).getD 0) ((vals[1]?).getD 0)
  if c.again then
    match s.servedFor c with
    | some vals => give s vals
    | none => .wait s
  else
    onGroup o (fun g x =>
      let m := x.mine c
      let set := match m with
        | some m => if m.pending then x.nextKind else x.kind
        | none => x.kind
      if set.isSome && set != some kind then .trap s (trapOf cGroup 3 c.lanes)
      else
        match m with
        | none => post s c 0 notMember
        | some m =>
          if m.mask &&& c.lanes = 0 then post s c 0 notMember
          else
            let s := ((s.enterWait c).setGroup g (x.record m kind c (contrib s c))).advance g
            match s.servedFor c with
            | some vals => give s vals
            | none => .wait s) s c

/-- Where GBAR puts its status, and GVOTE and GRED their pair. -/
def giveStatus (o : FmtA) (s : State) (c : Cur) (_ st : Word64) : Res := doneS s c o.dst o.wbs st
def givePair (o : FmtA) (s : State) (c : Cur) (r st : Word64) : Res :=
  .done { doneAt (s.modRegs c.pack c.who fun x => writeSpec x none .w128 none o.dst (r.toNat + 2 ^ 64 * st.toNat)) with
    dep := deposits c .w64 none r.toNat }

def execGbar (o : FmtA) (s : State) : Host.Outcome State Fault Refusal :=
  perform (.gbar o) (arriveBody o (kindOf 0xD3 0 0 0) (fun _ _ => 0) (giveStatus o)) s

def gvoteBody (sub : Nat) (o : FmtA) : State → Cur → Res :=
  arriveBody o (kindOf 0xD4 sub 0 0) (fun s c => u64 (readSrc s c none .w64 none o.b)) (givePair o)
def execGvoteAny (o : FmtA) (s : State) : Host.Outcome State Fault Refusal := perform (.gvoteAny o) (gvoteBody 0 o) s
def execGvoteAll (o : FmtA) (s : State) : Host.Outcome State Fault Refusal := perform (.gvoteAll o) (gvoteBody 1 o) s
def execGvoteCount (o : FmtA) (s : State) : Host.Outcome State Fault Refusal := perform (.gvoteCount o) (gvoteBody 2 o) s

def gredBody (sub : Nat) (o : FmtA) : State → Cur → Res :=
  arriveBody o (kindOf 0xD5 sub o.ty.code.toNat o.rm.code.toNat)
    (fun s c => u64 (readSrc s c (some o.ty) o.ty.width none o.b)) (givePair o)
def execGredAdd (o : FmtA) (s : State) : Host.Outcome State Fault Refusal := perform (.gredAdd o) (gredBody 0 o) s
def execGredMin (o : FmtA) (s : State) : Host.Outcome State Fault Refusal := perform (.gredMin o) (gredBody 1 o) s
def execGredMax (o : FmtA) (s : State) : Host.Outcome State Fault Refusal := perform (.gredMax o) (gredBody 2 o) s
def execGredAnd (o : FmtA) (s : State) : Host.Outcome State Fault Refusal := perform (.gredAnd o) (gredBody 3 o) s
def execGredOr (o : FmtA) (s : State) : Host.Outcome State Fault Refusal := perform (.gredOr o) (gredBody 4 o) s
def execGredXor (o : FmtA) (s : State) : Host.Outcome State Fault Refusal := perform (.gredXor o) (gredBody 5 o) s

/-! ### GSTAT and GCLOSE (R334, R347, R348) -/

def GroupState.code : GroupState → Nat
  | .free => 0 | .opened => 1 | .closing => 2
/-- The word of R347. -/
def groupWord (s : State) (x : GroupEntry) (c : Cur) : Word64 :=
  let cur := x.current
  let kind := match x.kind with
    | none => 0
    | some k => k / 4096 - 0xD2
  let my := match cur.find? fun m => m.pack == c.pack && m.who == c.who with
    | some m => m.index
    | none => 0xFF
  u64 (x.phase.toNat % 65536 * 2 ^ 48 + cur.length * 2 ^ 40 + (cur.filter s.memberArrived).length * 2 ^ 32 +
    (x.members.filter (·.pending)).length * 2 ^ 24 + x.lastf.toNat * 2 ^ 16 + x.fdep.toNat * 2 ^ 15 +
    s.groupScope cur * 2 ^ 12 + kind * 2 ^ 10 + x.st.code * 256 + my)
def execGstat (o : FmtA) (s : State) : Host.Outcome State Fault Refusal :=
  perform (.gstat o) (fun s c => onGroup o (fun _ x => doneS s c o.dst o.wbs (groupWord s x c)) s c) s

def gcloseBody (o : FmtA) (s : State) (c : Cur) : Res :=
  onGroup o (fun g x =>
    if x.st == .closing then doneS s c o.dst o.wbs 2
    else if x.members.isEmpty then doneS (s.setGroup g x.freed) c o.dst o.wbs 0
    else doneS (s.setGroup g { x with st := .closing }) c o.dst o.wbs 1) s c
def execGclose (o : FmtA) (s : State) : Host.Outcome State Fault Refusal := perform (.gclose o) (gcloseBody o) s

end Sys2Proof.Machine
end

