-- ==== Sys2Proof/Machine/Monitors.lean ====
section
/-! DEFINITION. Condition monitors and translation queries (spec/12, R350 to R356, R360). -/

namespace Sys2Proof.Machine

/-! ### WAITC (R352) -/

def waitcBytes (o : FmtM) : Nat := if o.size == 3#3 then 8 else 4

/-- The word as read, and the status, in the pair; the latch holds the word. -/
def giveWord (o : FmtM) (s : State) (c : Cur) (w : Word64) (st : Nat) : Res :=
  .done { doneAt (s.modRegs c.pack c.who fun r => writeSpec r none .w128 none o.data (w.toNat + 2 ^ 64 * st)) with
    dep := deposits c .w64 none w.toNat }

/-- The entry of a WAITC. -/
def waitcEntry (cmp : WaitCmp) (o : FmtM) (s : State) (c : Cur) (pa : Nat) : Monitor :=
  let pair := readSpec s c none .w128 none o.data
  { pa, wide := o.size == 3#3, cmp, mask := u64 (pair / 2 ^ 64), exp := u64 pair, scope := o.scope, ctx := s.ctxOf c.pack,
    pack := c.pack, who := c.who, lanes := c.lanes, woken := false,
    overflow := decide (256 ≤ (s.sliceEntries (s.sliceOf pa)).length) }
/-- The entry is installed: its line leaves every L1 when a slice entry names it (R351). -/
def State.install (s : State) (m : Monitor) : State :=
  let s := { s with monitors := s.monitors ++ [m] }
  if m.overflow then s else s.recall (m.pa / 128)

def waitcBody (cmp : WaitCmp) (o : FmtM) (s : State) (c : Cur) : Res :=
  if c.again then
    match s.servedFor c with
    | some vals => giveWord o s c ((vals[0]?).getD 0) ((vals[1]?).getD 0).toNat
    | none => .wait s
  else
    match accessOne s c (effAddr o s c none) (waitcBytes o) .read .home with
    | (s, .error t) => .trap s t
    | (s, .ok pa) =>
      match s.target pa with
      | .peer _ | .absent => .trap s { trapOf cPerm 5 c.lanes with addr := effAddr o s c none }
      | .dram _ | .host _ =>
        let s := s.correct pa (waitcBytes o)
        let m := waitcEntry cmp o s c pa
        if m.met (m.word s) then giveWord o s c (m.word s) 0
        else .waiting (s.install m) c
def execWaitc (cmp : WaitCmp) (o : FmtM) (s : State) : Host.Outcome State Fault Refusal :=
  perform (.waitc cmp o) (waitcBody cmp o) s

/-! ### Eviction of a parked warp (R354) -/

/-- Every live lane of a warp is parked in WAITC. -/
def State.allParked (s : State) (u who : Nat) (p : Party) : Bool :=
  !p.groups.isEmpty && p.groups.all fun g =>
    s.monitors.any fun m => m.pack == u && m.who == who && m.lanes == g.lanes && !m.woken
/-- The part writes the registers of a parked warp to its save area and frees its slot. -/
def State.evictWarp (s : State) (u who : Nat) : Option State :=
  match s.party u who with
  | none => none
  | some p =>
    if who = spineWho ∨ p.evicted ∨ !p.running ∨ !s.allParked u who p then none
    else some (s.setParty u who { p with evicted := true })
def execWarpEviction (pack who : Nat) (s : State) : Host.Outcome State Fault Refusal := occur (s.evictWarp pack who)

/-! ### WAITX (R355) -/

/-- Whether the selector names a party. -/
def selects (sel : Nat) (who : Nat) : Bool :=
  sel / 256 % 2 == 1 || (if sel / 128 % 2 == 1 then who == spineWho else who == sel % 8 * 16 + sel / 8 % 16)

/-- The entries are freed with CANCELLED, then free slice entries are filled. -/
def cancelAll (hit : List Monitor) (s : State) : State :=
  let s := hit.foldl (fun s m => s.wakeMonitor m (m.word s) 1) s
  hit.foldl (fun s m => s.moveIn (s.sliceOf m.pa) s.monitors.length) s

def waitxBody (o : FmtA) (s : State) (c : Cur) : Res :=
  let a := u64 (readSrc s c none .w64 none o.a)
  let sel := readSrc s c none .w64 none o.b
  match accessOne s c a 1 .read .nothing with
  | (s, .error t) => .trap s t
  | (s, .ok pa) =>
    let hit := s.monitors.filter fun m =>
      m.pack == c.pack && !m.woken && selects sel m.who && decide (m.pa ≤ pa) && decide (pa < m.pa + m.bytes)
    doneS (cancelAll hit s) c o.dst o.wbs (u64 hit.length)
def execWaitx (o : FmtA) (s : State) : Host.Outcome State Fault Refusal := perform (.waitx o) (waitxBody o) s

/-! ### XLATE (R360) -/

/-- The two halves of the answer for one address. A page on its way to host ownership (R208) is not present for an access
issued at the same point, and so it is not here. -/
def xlateOf (s : State) (a : Asker) (va : Nat) : Word64 × Word64 :=
  let hide (e : Word64) : Word64 := e &&& ~~~(((BitVec.allOnes 44).setWidth 64) <<< 8)
  let ones : Word64 := BitVec.allOnes 64
  let leaf (log : Nat) (e : Word64) : Word64 × Word64 :=
    let pa := pteAddr e / 2 ^ log * 2 ^ log + va % 2 ^ log
    if s.flipping pa then (ones, (if pteU e then e else hide e) &&& ~~~1#64)
    else if pteU e then (u64 pa, e) else (ones, hide e)
  if 2 ^ 52 ≤ va then (ones, 0)
  else
    match (a.units.filterMap fun u => tlbFind s u a.ctx va).head? with
    | some e => leaf e.log e.entry
    | none =>
      match walk s a.ctx va with
      | (.leaf, _, e) => leaf (pteLog e) e
      | (.missing _, _, e) | (.malformed, _, e) => (ones, if pteU e then e else hide e)

/-- The entries that the answer is read from are corrected where they stand (R209); a TLB needs none. -/
def State.xlateReads (s : State) (a : Asker) (va : Nat) : State :=
  if 2 ^ 52 ≤ va ∨ (a.units.filterMap fun u => tlbFind s u a.ctx va) ≠ [] then s else s.correctWalk a.ctx va

def xlateBody (o : FmtM) (s : State) (c : Cur) : Res :=
  let out := (lanesFor (formM o) c.active).map fun l => (l, xlateOf s (s.asker c) (effAddr o s c l).toNat)
  let s := (lanesFor (formM o) c.active).foldl (fun s l => s.xlateReads (s.asker c) (effAddr o s c l).toNat) s
  let s := s.modRegs c.pack c.who fun r =>
    out.foldl (fun r e => writeSpec r none .w128 e.1 o.data (e.2.1.toNat + 2 ^ 64 * e.2.2.toNat)) r
  .done { doneAt s with dep := out.flatMap fun e => deposits c .w64 e.1 e.2.1.toNat }
def execXlate (o : FmtM) (s : State) : Host.Outcome State Fault Refusal := perform (.xlate o) (xlateBody o) s

end Sys2Proof.Machine
end

