-- ==== Sys2Proof/Machine/Bloodhound.lean ====
section
/-! DEFINITION. Sequence slots (spec/13, R366 to R383). -/

namespace Sys2Proof.Machine

/-! ### Handles (R366, R367) -/

def seqHandle (ctx key : Nat) (gen : BitVec 8) : Word64 :=
  u64 (ctx % 256 * 2 ^ 24 + key / 1024 * 2 ^ 20 + gen.toNat * 2 ^ 12 + key % 1024)
/-- Sub-codes 4, 2 and 6, or the key of the slot that the handle names. -/
def State.seqKey (s : State) (ctx : Nat) (h : Word64) : Except Nat Nat :=
  let x := h.toNat
  let d := x / 2 ^ 20 % 8
  if x = 0 ∨ 2 ^ 32 ≤ x ∨ x / 2 ^ 23 % 2 = 1 ∨ x / 2 ^ 10 % 4 ≠ 0 then .error 4
  else if x / 2 ^ 24 ≠ ctx then .error 2
  else if (s.die d).status = .offline then .error 6
  else .ok (1024 * d + x % 1024)
def seqGen (h : Word64) : BitVec 8 := h.extractLsb' 12 8

def State.slot (s : State) (k : Nat) : Slot := rd Slot.zero s.slots k
def State.setSlot (s : State) (k : Nat) (x : Slot) : State := { s with slots := wr Slot.zero s.slots k x }
/-- C of a slot, and n. -/
def Slot.c (x : Slot) : Nat := 2 ^ x.log2c
def Slot.n (x : Slot) : Nat := x.hist.length

/-! ### SQOPEN (R376) -/

/-- The lowest FREE slot of a die whose pool can supply 16 × C bytes. -/
def State.takeSlot (s : State) (d log2c : Nat) : Option Nat :=
  if (s.die d).status ≠ .online then none
  else
    let keys := (List.range 1024).map (1024 * d + ·)
    let held := keys.foldl (fun n k => let x := s.slot k; n + if x.st == .free then 0 else 16 * x.c) 0
    if Config.poolBytes d < held + 16 * 2 ^ log2c then none else keys.find? fun k => (s.slot k).st == .free
/-- A slot taken for a context (R371). -/
def State.bindSlot (s : State) (k ctx log2c lmin : Nat) (hist : List Word32) : State :=
  let x := s.slot k
  s.setSlot k { x with st := .opened, ctx := ctx, log2c := log2c, lmin := lmin, hist := hist, mlenD := 0, mlenL := 0,
                       rest := none, bad := false }
/-- The die that a parameter word selects. -/
def slotDie (s : State) (c : Cur) (prm : Nat) : Nat := if prm / 2 ^ 19 % 2 = 1 then prm / 2 ^ 16 % 8 else dieOf (s.here c)
/-- hd and q0: 1 when a slot was taken, also where its handle is 0 (log 30). -/
def giveHandle (s : State) (c : Cur) (o : FmtA) (ok : Bool) (h : Word64) : State :=
  giveS (s.modRegs c.pack c.who fun r => r.writeQ 0 ok) c o.dst o.wbs h

def sqopenBody (o : FmtA) (s : State) (c : Cur) : Res :=
  let prm := readSrc s c none .w64 none o.a
  let log2c := prm % 32
  let lmin := prm / 256 % 128
  if log2c < 12 ∨ 20 < log2c ∨ 64 < lmin then .trap s (trapOf cSeq 5 c.lanes)
  else
    let ctx := s.ctxOf c.pack
    match s.takeSlot (slotDie s c prm) log2c with
    | none => .done { doneAt (giveHandle s c o false 0) with dep := deposits c .w64 none 0 }
    | some k =>
      let h := seqHandle ctx k (s.slot k).gen
      .done { doneAt (giveHandle (s.bindSlot k ctx log2c (if lmin = 0 then 3 else lmin) []) c o true h) with
        dep := deposits c .w64 none h.toNat }
def execSqopen (o : FmtA) (s : State) : Host.Outcome State Fault Refusal := perform (.sqopen o) (sqopenBody o) s

/-! ### What a request does (R369, R370, R377 to R379, R382) -/

/-- Tokens appended one at a time: the history, the tokens left after an eviction, and whether one took place. -/
def appendTokens (cap : Nat) : List Word32 → List Word32 → List Word32 × List Word32 × Bool
  | hist, [] => (hist, [], false)
  | hist, t :: r =>
    let h := hist ++ [t]
    if h.length = cap then (h.drop (cap / 2), r, true) else appendTokens cap h r
/-- The status word. -/
def appStatus (n evict code : Nat) : Word64 := u64 (n * 2 ^ 32 + evict * 256 + code)

/-- Source B of SQAPP names a v register, read in any lane (R163). -/
def laneTokens (x : Src) (r : Regs) (cnt : Nat) : List Word32 :=
  match x with
  | .reg (.v n) _ _ => (List.range cnt).map fun j => r.readV j n.toNat
  | .reg _ _ _ | .latch _ _ _ => []

/-- What a served request answers: words for its destinations, a fault of R367 or of R211, or nothing before the rebuild that
it caused completes. -/
inductive SlotAnswer where
  | words (ws : List Word64) | fault (f : LaneFault) (acc : Nat) | later
deriving DecidableEq, Repr
/-- The answer as the waiting group keeps it. -/
def SlotAnswer.kept : SlotAnswer → Option (List Word64)
  | .words ws => some (0 :: ws)
  | .fault f acc => some [1, u64 f.code, u64 f.sub, f.addr, u64 f.hint, u64 acc]
  | .later => none
/-- HND.SEQ. -/
def seqFault (sub : Nat) : SlotAnswer := .fault ⟨cSeq, sub, 0, 0⟩ 0

/-- SQAPP: the tokens go into an OPEN slot. After an uncorrectable error, those before it have been appended. -/
def appendTo (k : Nat) (w : SlotWait) (cnt : Nat) (ts : List Word32) (s : State) : State × SlotAnswer :=
  let x := s.slot k
  let give (s : State) (n code : Nat) : State × SlotAnswer := (s, .words [appStatus n 0 code])
  if cnt = 0 ∨ 16 < cnt then give s x.n 2
  else if ts.any fun t => decide (2 ^ 24 ≤ t.toNat) then give s x.n 1
  else if x.bad then
    let ts := ts.take (min (Config.choose s.choices % (cnt + 1)) (x.c - 1 - x.n))
    let x := { x with hist := x.hist ++ ts }
    give ({ s with choices := s.choices + 1 }.setSlot k x) x.n 3
  else
    match appendTokens x.c x.hist ts with
    | (h, _, false) => give (s.setSlot k { x with hist := h }) h.length 0
    | (h, r, true) => (s.setSlot k { x with st := .rebuilding, hist := h, rest := some (w, r) }, .later)

/-- `m` tokens from position i. -/
def tokensAt (h : List Word32) (i m : Nat) : List Word32 := (h.drop i).take m
/-- The latest position below `k` at which the suffix of `len` tokens also stands. -/
def lastMatch (h : List Word32) (len : Nat) : Nat → Option Nat
  | 0 => none
  | i + 1 => if tokensAt h i len = h.drop (h.length - len) then some i else lastMatch h len i
/-- The longest match from a length downward: its length and position. -/
def longestMatch (h : List Word32) (lmin : Nat) : Nat → Option (Nat × Nat)
  | 0 => none
  | len + 1 =>
    if len + 1 < lmin then none
    else match lastMatch h (len + 1) (h.length - (len + 1)) with
      | some i => some (len + 1, i)
      | none => longestMatch h lmin len
/-- R368: L and the drafts. -/
def matchOf (h : List Word32) (lmin k : Nat) : Nat × List Word32 :=
  match longestMatch h lmin (min 64 (h.length - 1)) with
  | none => (0, [])
  | some (len, i) => (len, tokensAt h (i + len) k)

/-- The length word. -/
def lenWord (n d l code : Nat) : Word64 := u64 (n * 2 ^ 32 + d * 65536 + l * 256 + code)

/-- SQMATCH.MATCH: the length word and the drafts. -/
def searchIn (k cnt : Nat) (s : State) : State × SlotAnswer :=
  let x := s.slot k
  if x.bad then (s, .words [lenWord x.n 0 0 3])
  else
    let (l, ds) := matchOf x.hist x.lmin cnt
    (s.setSlot k { x with mlenD := ds.length, mlenL := l },
      .words (lenWord x.n ds.length l 0 :: ds.map fun t => t.setWidth 64))

/-- One bit of CRC-32C, on the reflected polynomial. -/
def crcBit (x : Nat) : Nat := if x % 2 = 1 then x / 2 ^^^ 0x82F63B78 else x / 2
def crcByte (x : Nat) (b : Byte) : Nat := (List.range 8).foldl (fun y _ => crcBit y) (x ^^^ b.toNat)
/-- CRC-32C (RFC 3720). -/
def crc32c (bs : List Byte) : Nat := bs.foldl crcByte 0xFFFFFFFF ^^^ 0xFFFFFFFF

/-- Bytes of the history section, padded. -/
def histBytes (n : Nat) : Nat := 64 * ((4 * n + 63) / 64)
def imageBytes (x : Slot) : Nat := 64 + histBytes x.n + 8 * x.c
/-- The header with the two check words given. -/
def headerBytes (x : Slot) (check checkx : Nat) : List Byte :=
  bytesOf 4 0x42485351 ++ bytesOf 2 1 ++ bytesOf 1 x.log2c ++ bytesOf 1 x.lmin ++ bytesOf 4 x.n ++ bytesOf 1 x.mlenL ++
    bytesOf 1 x.mlenD ++ bytesOf 1 1 ++ bytesOf 1 0 ++ bytesOf 8 (8 * x.c) ++ bytesOf 4 check ++ bytesOf 4 checkx ++
    bytesOf 32 0
/-- The image; `seed` numbers the contents of the index section, which are not architectural (log 12). -/
def imageOf (seed : Nat) (x : Slot) : List Byte :=
  let hist := x.hist.flatMap fun t => bytesOf 4 t.toNat
  let index := (List.range (8 * x.c)).map (Config.indexByte seed)
  headerBytes x (crc32c (headerBytes x 0 0 ++ hist)) (crc32c index) ++ hist ++
    List.replicate (histBytes x.n - 4 * x.n) 0 ++ index

/-- The address of an image: its alignment and its probe. -/
def probeImage (s : State) (a : Asker) (acc : Acc) (va : Word64) (n : Nat) : State × Option LaneFault :=
  if va.toNat % 64 ≠ 0 then (s, some ⟨cAlign, 0, va, 0⟩)
  else
    match probePieces a acc (rangePieces va.toNat n) s with
    | (s, some f, _) => (s, some f)
    | (s, none, true) => (s, some ⟨cPerm, 3, va, 0⟩)
    | (s, none, false) => (s, none)

/-- SQSAVE (R379). After an uncorrectable error, the bytes before it stand. -/
def saveTo (k : Nat) (a : Asker) (va len : Word64) (s : State) : State × SlotAnswer :=
  let x := s.slot k
  let n := imageBytes x
  let give (s : State) (code : Nat) : State × SlotAnswer := (s, .words [u64 (n * 2 ^ 32 + code)])
  if va.toNat % 64 ≠ 0 then (s, .fault ⟨cAlign, 0, va, 0⟩ 0)
  else if len < n then give s 4
  else
    match probeImage s a .probeWrite va n with
    | (s, some f) => (s, .fault f Acc.probeWrite.code)
    | (s, none) =>
      let bs := imageOf s.choices x
      let bs := if x.bad then bs.take (Config.choose (s.choices + 1) % n) else bs
      let s := { s with choices := s.choices + 2 }
      give (putVirtual a (rangePieces va.toNat bs.length) bs s) (if x.bad then 3 else 0)

/-- A slot becomes FREE with the next generation (R371); requests behind it keep their places. -/
def Slot.freed (x : Slot) : Slot := { Slot.zero with gen := x.gen + 1, queue := x.queue }

/-! ### The queue of a slot (R371, R372, R374) -/

/-- The requester of a waiting request. -/
def State.slotAsker (s : State) (w : SlotWait) : Asker :=
  askerOf (s.ctxOf w.pack) (((s.party w.pack w.who).map (·.place)).getD { cluster := 0, core := 0, quad := 0, slot := 0, age := 0, waits := 0 })
    (w.who == spineWho)
/-- A request is served on its slot; the generation of its handle is checked now (R367). -/
def State.serveReq (s : State) (k : Nat) (w : SlotWait) : State × SlotAnswer :=
  let x := s.slot k
  if x.st == .free || x.gen != w.gen then (s, seqFault 1)
  else
    match w.req with
    | .append cnt ts => appendTo k w cnt ts s
    | .search cnt => searchIn k cnt s
    | .length => (s, .words [lenWord x.n x.mlenD x.mlenL 0])
    | .save va len => saveTo k (s.slotAsker w) va len s
    | .close => (s.setSlot k x.freed, .words [0])
/-- The answer of a request stands with its PC group, whether that may issue now or not. -/
def State.giveAnswer (s : State) (w : SlotWait) (a : SlotAnswer) : State :=
  match a.kept with
  | none => s
  | some ws => s.modParty w.pack w.who fun p => p.serve w.lanes ws
/-- The unit serves the queue of a slot from its head, as far as the slot's state lets it. -/
def State.serveSlot (s : State) (k : Nat) : Nat → State
  | 0 => s
  | fuel + 1 =>
    let x := s.slot k
    match x.queue with
    | [] => s
    | w :: r =>
      if x.st == .rebuilding then s
      else
        let (s, a) := (s.setSlot k { x with queue := r }).serveReq k w
        (s.giveAnswer w a).serveSlot k fuel
def State.serveQueue (s : State) (k : Nat) : State := s.serveSlot k (s.slot k).queue.length

/-- An instruction on the handle in source A: its request joins the queue of the slot, and what the unit has answered goes to
its destinations. -/
def onSlot (o : FmtA) (req : State → Cur → SlotReq) (post : List Word64 → State → Cur → Res) (s : State) (c : Cur) : Res :=
  let answer (s : State) : Res :=
    match s.servedFor c with
    | none => .wait s
    | some (0 :: ws) => post ws s c
    | some ws =>
      let n (i : Nat) : Nat := ((ws[i]?).getD 0).toNat
      .trap s { (⟨n 1, n 2, u64 (n 3), n 4⟩ : LaneFault).trap c.lanes (n 5) with lanes := c.lanes }
  if c.again then answer s
  else
    let h := u64 (readSrc s c none .w64 none o.a)
    match s.seqKey (s.ctxOf c.pack) h with
    | .error sub => .trap s (trapOf cSeq sub c.lanes)
    | .ok k =>
      let w : SlotWait := { pack := c.pack, who := c.who, lanes := c.lanes, gen := seqGen h, req := req s c }
      let s := s.enterWait c
      let x := s.slot k
      answer ((s.setSlot k { x with queue := x.queue ++ [w] }).serveQueue k)

/-- The status word that most of them give. -/
def giveSeqWord (o : FmtA) (ws : List Word64) (s : State) (c : Cur) : Res := doneS s c o.dst o.wbs ((ws.head?).getD 0)

/-! ### SQAPP (R377) -/

def sqappReq (o : FmtA) (s : State) (c : Cur) : SlotReq :=
  let cnt := readSrc s c none .w32 none o.c % 32
  .append cnt (laneTokens o.b c.regs cnt)
def execSqapp (o : FmtA) (s : State) : Host.Outcome State Fault Refusal :=
  perform (.sqapp o) (onSlot o (sqappReq o) (giveSeqWord o)) s

/-- "Rebuild complete" of R371: the SQAPP that evicted appends its remaining tokens, and the queue is served. -/
def State.rebuilt (s : State) (k : Nat) : Option State :=
  let x := s.slot k
  if x.st ≠ .rebuilding then none
  else
    match x.rest with
    | none => some ((s.setSlot k { x with st := .opened }).serveQueue k)
    | some (w, r) =>
      let h := x.hist ++ r
      let s := s.setSlot k { x with st := .opened, hist := h, rest := none }
      some ((s.giveAnswer w (.words [appStatus h.length 1 0])).serveQueue k)
def execRebuildComplete (slot : Nat) (s : State) : Host.Outcome State Fault Refusal := occur (s.rebuilt slot)

/-! ### SQMATCH (R378) -/

/-- The length word, and the drafts in the live lanes; no draft with CODE UNCORR. -/
def giveDrafts (o : FmtA) (ws : List Word64) (s : State) (c : Cur) : Res :=
  let sd : Spec := .s (o.ext.extractLsb' 12 6)
  let w := (ws.head?).getD 0
  let cnt := if w.extractLsb' 0 8 = 3#8 then 0 else (o.ext.extractLsb' 0 5).toNat
  let live := ((s.party c.pack c.who).map (·.live)).getD 0
  let s := s.modRegs c.pack c.who fun r =>
    ((List.range cnt).filter fun j => live.getLsbD j).foldl (fun r j =>
      writeDst r none .w32 (some j) o.dst o.wbs ((ws[j + 1]?).getD 0xFFFFFFFF).toNat) r
  .done (doneAt (giveS s c sd false w))
def execSqmatch (o : FmtA) (s : State) : Host.Outcome State Fault Refusal :=
  perform (.sqmatch o) (onSlot o (fun _ _ => .search (o.ext.extractLsb' 0 5).toNat) (giveDrafts o)) s
def execSqmatchLen (o : FmtA) (s : State) : Host.Outcome State Fault Refusal :=
  perform (.sqmatchLen o) (onSlot o (fun _ _ => .length) (giveSeqWord o)) s

/-! ### SQSAVE (R379) -/

def sqsaveReq (o : FmtA) (s : State) (c : Cur) : SlotReq :=
  .save (u64 (readSrc s c none .w64 none o.b)) (u64 (readSrc s c none .w64 none o.c))
def execSqsave (o : FmtA) (s : State) : Host.Outcome State Fault Refusal :=
  perform (.sqsave o) (onSlot o (sqsaveReq o) (giveSeqWord o)) s

/-! ### SQLOAD (R381) -/

/-- A number in the bytes of an image. -/
def imgNat (bs : List Byte) (off n : Nat) : Nat := ofBytes ((bs.drop off).take n)
/-- Reasons 1 to 3 of R381. -/
def badHeader (bs : List Byte) : Option Nat :=
  let log2c := imgNat bs 6 1
  let lmin := imgNat bs 7 1
  if imgNat bs 0 4 ≠ 0x42485351 ∨ imgNat bs 4 2 ≠ 1 then some 1
  else if log2c < 12 ∨ 20 < log2c ∨ lmin = 0 ∨ 64 < lmin ∨ 2 ^ log2c ≤ imgNat bs 8 4 then some 2
  else if imgNat bs 0xF 1 ≠ 0 ∨ imgNat bs 0x20 32 ≠ 0 ∨ 16 < imgNat bs 0xD 1 ∨ 64 < imgNat bs 0xC 1 then some 3
  else none
/-- Reason 4: CHECK over the header, with the check words as zero, and the history. -/
def badCheck (bs : List Byte) : Bool :=
  let n := imgNat bs 8 4
  crc32c (bs.take 0x18 ++ bytesOf 8 0 ++ (bs.drop 0x20).take (0x20 + 4 * n)) != imgNat bs 0x18 4
/-- Whether a range that has been probed holds an uncorrectable granule. -/
def rangeUnc (s : State) (a : Asker) (va n : Nat) : Bool :=
  (rangePieces va n).any fun q => match look s a q.1 with | .ok pa _ => s.uncAt pa q.2 | .fault _ _ _ => false

/-- A part of the image probed for reading, and what it consumes. -/
def readImage (s : State) (c : Cur) (va : Word64) (n : Nat) : State × Option Trap :=
  match probeImage s (s.asker c) .probeRead va n with
  | (s, some f) => (s, some (f.trap c.lanes Acc.probeRead.code))
  | (s, none) =>
    if rangeUnc s (s.asker c) va.toNat n then (s, some { trapOf cUncorr 0 c.lanes with addr := va }) else (s, none)

/-- SQLOAD (R381). The index section never changes what the slot answers, so it is probed and not looked at. -/
def sqloadBody (o : FmtA) (s : State) (c : Cur) : Res :=
  let a := u64 (readSrc s c none .w64 none o.a)
  let prm := readSrc s c none .w64 none o.b
  let sd : Spec := .s (o.ext.extractLsb' 12 6)
  let give (s : State) (ok : Bool) (h w : Word64) : Res :=
    .done { doneAt (giveS (giveHandle s c o ok h) c sd false w) with dep := deposits c .w64 none h.toNat }
  match readImage s c a 64 with
  | (s, some t) => .trap s t
  | (s, none) =>
    let hd := lookBytes s (s.asker c) a.toNat 64
    let s := lookCorrect s (s.asker c) a.toNat 64
    match badHeader hd with
    | some e => give s false 0 (u64 (e * 256 + 5))
    | none =>
      let n := imgNat hd 8 4
      let log2c := imgNat hd 6 1
      let ix := if imgNat hd 0xE 1 = 1 ∧ imgNat hd 0x10 8 = 8 * 2 ^ log2c then 8 * 2 ^ log2c else 0
      match readImage s c a (64 + histBytes n + ix) with
      | (s, some t) => .trap s t
      | (s, none) =>
        let bs := lookBytes s (s.asker c) a.toNat (64 + 4 * n)
        let s := lookCorrect s (s.asker c) a.toNat (64 + 4 * n)
        if badCheck bs then give s false 0 (u64 (4 * 256 + 5))
        else
          match s.takeSlot (slotDie s c prm) log2c with
          | none => give s false 0 6
          | some k =>
            let ctx := s.ctxOf c.pack
            let hist := (List.range n).map fun i => BitVec.ofNat 32 (imgNat bs (64 + 4 * i) 4)
            give (s.bindSlot k ctx log2c (imgNat hd 7 1) hist) true (seqHandle ctx k (s.slot k).gen) (u64 (n * 2 ^ 32))
def execSqload (o : FmtA) (s : State) : Host.Outcome State Fault Refusal := perform (.sqload o) (sqloadBody o) s

/-! ### SQCLOSE (R382) -/

def execSqclose (o : FmtA) (s : State) : Host.Outcome State Fault Refusal :=
  perform (.sqclose o) (onSlot o (fun _ _ => .close) (giveSeqWord o)) s

end Sys2Proof.Machine
end

