-- ==== Sys2Proof/Machine/Sampling.lean ====
section
/-! DEFINITION. Sampling heaps and reproducible draws (spec/13, R385 to R393). -/

namespace Sys2Proof.Machine

/-! ### Candidates (R386) -/

def f32Of (x : Word32) : Num := numOf fp32 x.toNat
def negInf : Word32 := 0xFF800000
/-- Descending z, then ascending token. -/
def candBefore (a b : Word32 × Word32) : Bool :=
  let x := f32Of a.1
  let y := f32Of b.1
  numLess y x || (numEq x y && decide (a.2.toNat < b.2.toNat))
/-- The order in which a heap holds its candidates. Two of one token with z −0 and +0 are equal in R386's order, which makes the
contents a function of the set: the one with the smaller pattern, +0, stands first (DESIGN CHOICE, log 88). -/
def candFirst (a b : Word32 × Word32) : Bool := candBefore a b || (!candBefore b a && a.1.ult b.1)
def insertCand (e : Word32 × Word32) : List (Word32 × Word32) → List (Word32 × Word32)
  | [] => [e]
  | x :: r => if candFirst e x then e :: x :: r else x :: insertCand e r
/-- A candidate is entered: 256 stay. -/
def Heap.enter (h : Heap) (e : Word32 × Word32) : Heap :=
  let l := insertCand e h.cands
  { h with cands := l.take 256, disc := h.disc || decide (256 < l.length) }

/-! ### M and S (R387) -/

/-- The exact distance of two numbers, as a magnitude. -/
def distance (a b : Num) : Nat × Int :=
  match a, b with
  | .fin n m e, .fin n' m' e' =>
    let lo := min e e'
    ((toInt n m e lo - toInt n' m' e' lo).natAbs, lo)
  | .nan _, _ | .inf _, _ | .fin _ _ _, .nan _ | .fin _ _ _, .inf _ => (0, 0)

/-- round_f32 of A + B × e^(−t), RNE, for F32 values that are not negative; an infinite one stays so. -/
def expSum (a b : Word32) (t : Nat × Int) : Word32 :=
  let exact : Nat := (deliver fp32 .rne 0 0 (addV .rne (f32Of a) (f32Of b))).1
  BitVec.ofNat 32 (match f32Of a, f32Of b with
    | .fin _ ma ea, .fin _ mb eb =>
      if t.1 = 0 ∨ mb = 0 then exact
      else (deliverFn fp32 .rne 0 0 (.irr false fun P =>
        let Q := P + 64
        let lo := min ea eb
        let cut := bitLen mb + (eb - lo).toNat
        let x := mb * expNegFix Q t.1 t.2 * 2 ^ (eb - lo).toNat + ma * 2 ^ ((ea - lo).toNat + Q)
        (x / 2 ^ cut, lo - Q + cut))).1
    | .nan _, _ | .inf _, _ | .fin _ _ _, .nan _ | .fin _ _ _, .inf _ => exact)
def oneF32 : Word32 := 0x3F800000

/-- "accept z". -/
def Heap.accept (h : Heap) (z : Word32) : Heap :=
  let x := f32Of z
  let m := f32Of h.m
  if numLess m x then
    { h with m := z, s := if h.m = negInf then oneF32 else expSum oneF32 h.s (distance x m) }
  else if z = negInf then h
  else { h with s := expSum h.s oneF32 (distance m x) }
/-- "merge (M', S')". -/
def Heap.mergeSum (h : Heap) (m s : Word32) : Heap :=
  if m = negInf then h
  else if h.m = negInf then { h with m := m, s := s }
  else if numLess (f32Of h.m) (f32Of m) then { h with m := m, s := expSum s h.s (distance (f32Of m) (f32Of h.m)) }
  else { h with s := expSum h.s s (distance (f32Of h.m) (f32Of m)) }

/-! ### PUSH and MERGE (R388) -/

def isPosInf (x : Num) : Bool := x == .inf false
def Heap.push (h : Heap) (x tok : Word32) : Heap :=
  let z : Word32 := BitVec.ofNat 32 (deliver fp32 .rne 0 0 (mulV (f32Of x) (f32Of h.invt))).1
  if (f32Of z).isNan || isPosInf (f32Of z) || decide (2 ^ 24 ≤ tok.toNat) then
    { h with refused := BitVec.ofNat 16 (min (h.refused.toNat + 1) 0xFFFF) }
  else ({ h with pushed := h.pushed + 1 }.accept z).enter (z, tok)

/-- Candidates stand in the order of R386. -/
def candsSorted : List (Word32 × Word32) → Bool
  | [] => true
  | [_] => true
  | a :: b :: r => !candBefore b a && candsSorted (b :: r)
/-- Whether the part of an image could be a heap's state. -/
def imageFits (h x : Heap) (count : Nat) : Bool :=
  let m := f32Of x.m
  let s := f32Of x.s
  decide (x.invt = h.invt) && decide (count ≤ 256) && candsSorted x.cands && !m.isNan && !isPosInf m &&
    (if x.m = negInf then decide (x.s = 0) else !s.isNan && s != .inf false && s != .inf true && !numLess s (f32Of oneF32)) &&
    x.cands.all fun e =>
      !(f32Of e.1).isNan && !isPosInf (f32Of e.1) && !numLess m (f32Of e.1) && decide (e.2.toNat < 2 ^ 24)
def Heap.merge (h x : Heap) : Heap :=
  let h := x.cands.foldl Heap.enter (h.mergeSum x.m x.s)
  { h with disc := h.disc || x.disc, pushed := h.pushed + x.pushed,
           refused := BitVec.ofNat 16 (min (h.refused.toNat + x.refused.toNat) 0xFFFF) }

/-! ### Images (R389) -/

def heapImageLen : Nat := 2112
def Heap.image (h : Heap) : List Byte :=
  bytesOf 4 h.m.toNat ++ bytesOf 4 h.s.toNat ++ bytesOf 4 h.invt.toNat ++ bytesOf 2 h.cands.length ++
    bytesOf 1 h.disc.toNat ++ bytesOf 1 0 ++ bytesOf 8 h.pushed.toNat ++ bytesOf 2 h.refused.toNat ++ bytesOf 38 0 ++
    (h.cands.flatMap fun e => bytesOf 4 e.1.toNat ++ bytesOf 4 e.2.toNat) ++
    List.replicate (8 * (256 - h.cands.length)) 0
/-- The image at an offset of a scratchpad, and its COUNT. -/
def Spad.heapImage (x : Spad) (off : Nat) : Heap × Nat :=
  let w (o n : Nat) : Nat := x.readNat (off + o) n
  let count := w 0xC 2
  ({ owner := 0, m := BitVec.ofNat 32 (w 0 4), s := BitVec.ofNat 32 (w 4 4), invt := BitVec.ofNat 32 (w 8 4),
     disc := w 0xE 1 % 2 == 1, pushed := BitVec.ofNat 48 (w 0x10 6), refused := BitVec.ofNat 16 (w 0x18 2),
     cands := (List.range (min count 256)).map fun j => (BitVec.ofNat 32 (w (0x40 + 8 * j) 4), BitVec.ofNat 32 (w (0x44 + 8 * j) 4)) },
   count)

/-! ### HEAP (R385, R388) -/

def FmtA.heapNo (o : FmtA) : Nat := (o.ext.extractLsb' 0 2).toNat
def State.setHeap (s : State) (cl n : Nat) (h : Heap) : State := s.modCluster cl fun x => { x with heaps := cset x.heaps n h }

/-- The heap of the issuer's pack: SYNC.DETACHED, HND.SEQ 8, or `f`. -/
def onHeap (o : FmtA) (f : Heap → Res) (s : State) (c : Cur) : Res :=
  if ((s.party c.pack c.who).map (·.detached)).getD false then .trap s (trapOf cDetached 1 c.active)
  else
    match cget (s.cluster (s.here c)).heaps (FmtA.heapNo o) with
    | none => .trap s (trapOf cSeq 8 c.active)
    | some h => if h.owner = c.pack then f h else .trap s (trapOf cSeq 8 c.active)

def heapClrBody (o : FmtA) (s : State) (c : Cur) : Res :=
  let cl := s.here c
  let n := FmtA.heapNo o
  let invt := BitVec.ofNat 32 (readSrc s c (some .f32) .w32 none o.a)
  let clear : State :=
    s.setHeap cl n { owner := c.pack, invt := invt, m := negInf, s := 0, disc := false, pushed := 0, refused := 0, cands := [] }
  if ((s.party c.pack c.who).map (·.detached)).getD false then .trap s (trapOf cDetached 1 c.active)
  else
    match cget (s.cluster cl).heaps n with
    | none => doneS clear c o.dst o.wbs 0
    | some h => if h.owner = c.pack then doneS clear c o.dst o.wbs 0 else doneS s c o.dst o.wbs 1
def execHeapClr (o : FmtA) (s : State) : Host.Outcome State Fault Refusal := perform (.heapClr o) (heapClrBody o) s

def heapPushBody (o : FmtA) (s : State) (c : Cur) : Res :=
  onHeap o (fun h =>
    let h := (lanesOf c.active).foldl (fun h l =>
      h.push (BitVec.ofNat 32 (readSrc s c (some .f32) .w32 (some l) o.a))
        (BitVec.ofNat 32 (readSrc s c none .w32 (some l) o.b))) h
    .done (doneAt (s.setHeap (s.here c) (FmtA.heapNo o) h))) s c
def execHeapPush (o : FmtA) (s : State) : Host.Outcome State Fault Refusal := perform (.heapPush o) (heapPushBody o) s

/-- The scratchpad range of MERGE and READ: its checks, then its EMPTY lines. -/
def onImage (o : FmtA) (consumes : Bool) (f : Nat → Spad → Heap → Res) (s : State) (c : Cur) : Res :=
  onHeap o (fun h =>
    let off := readSrc s c none .w32 none o.a
    match s.spad c.pack (c.who / 16) with
    | none => .trap s { trapOf cSpad 0 c.lanes with addr := u64 off }
    | some sp =>
      match sp.check off heapImageLen 128 consumes with
      | .error e => .trap s (e.trap c.lanes 0)
      | .ok _ => if sp.emptyAt off heapImageLen then .waiting s c else f off sp h) s c

def heapMergeBody (o : FmtA) (s : State) (c : Cur) : Res :=
  onImage o true (fun off sp h =>
    let (x, count) := sp.heapImage off
    let s := s.spadCorrect c.pack (c.who / 16) off heapImageLen
    if imageFits h x count then doneS (s.setHeap (s.here c) (FmtA.heapNo o) (h.merge x)) c o.dst o.wbs 0
    else doneS s c o.dst o.wbs 2) s c
def execHeapMerge (o : FmtA) (s : State) : Host.Outcome State Fault Refusal := perform (.heapMerge o) (heapMergeBody o) s

def heapReadBody (o : FmtA) (s : State) (c : Cur) : Res :=
  onImage o false (fun off sp h =>
    doneS (s.setSpad c.pack (c.who / 16) (sp.write off h.image)) c o.dst o.wbs 0) s c
def execHeapRead (o : FmtA) (s : State) : Host.Outcome State Fault Refusal := perform (.heapRead o) (heapReadBody o) s

/-! ### HEAP.DRAW (R390, R391) -/

/-- p of a candidate: round_f32 of e^(z − M) / S. -/
def Heap.prob (h : Heap) (z : Word32) : Nat :=
  if z = negInf then 0
  else
    let t := distance (f32Of z) (f32Of h.m)
    match f32Of h.s with
    | .fin _ ms es =>
      if t.1 = 0 ∨ ms = 0 then (deliver fp32 .rne 0 0 (divV (f32Of oneF32) (f32Of h.s))).1
      else (deliverFn fp32 .rne 0 0 (.irr false fun P =>
        (expNegFix (P + 64) t.1 t.2 * 2 ^ 24 / ms / 2 ^ 64, -((P : Int) + 24) - es))).1
    | .nan _ | .inf _ => (deliver fp32 .rne 0 0 (divV (f32Of oneF32) (f32Of h.s))).1
/-- Running sums from the one before. -/
def cumulate (c : Nat) : List Nat → List Nat
  | [] => []
  | p :: r => let x := (f32Add .rne c p).1; x :: cumulate x r
/-- The first place at which a condition holds. -/
def firstWhere (f : Nat → Bool) : Nat → List Nat → Option Nat
  | _, [] => none
  | i, x :: r => if f x then some i else firstWhere f (i + 1) r

/-- w × Q < c × 2^24, exactly. -/
def below24 (w q c : Nat) : Bool :=
  match numOf fp32 q, numOf fp32 c with
  | .fin _ m e, .fin _ m' e' =>
    let lo := min e e'
    decide (w * m * 2 ^ (e - lo).toNat < m' * 2 ^ ((e' - lo).toNat + 24))
  | .nan _, _ | .inf _, _ | .fin _ _ _, .nan _ | .fin _ _ _, .inf _ => false

/-- How many candidates the filters keep; none where they need some that the heap discarded. -/
def Heap.keep (h : Heap) (k topp : Nat) (cs : List Nat) : Option Nat :=
  let n := h.cands.length
  let t := numOf fp32 topp
  let filters := numLess (.fin false 0 0) t && numLess t (f32Of oneF32)
  let byK : Option Nat := if k = 0 then none else some k
  let byP : Option Nat :=
    if !filters then none
    else
      match firstWhere (fun c => !numLess (numOf fp32 c) t) 0 cs with
      | some j => some (j + 1)
      | none => if h.disc then none else some n
  let keep : Option Nat := match byK, byP with
    | none, x => x
    | some a, none => some a
    | some a, some b => some (min a b)
  match keep with
  | some x => if x ≤ n then some x else if h.disc then none else some n
  | none => if h.disc then none else some n

/-- The token drawn, with its rank and probability; `any` stands for the rank where no sum is above 0 (log 17). -/
def Heap.draw (h : Heap) (cs ps : List Nat) (keep u any : Nat) : Word64 :=
  let q := (cs[keep - 1]?).getD 0
  let r := (firstWhere (below24 (u / 256) q) 0 (cs.take keep)).getD (any % keep)
  u64 ((ps[r]?).getD 0 * 2 ^ 32 + r * 2 ^ 24 + (((h.cands[r]?).map fun e => e.2.toNat).getD 0))

/-- The fields of a heap that a draw may depend on. -/
def Heap.fields (h : Heap) : List (Word32 × Word32) := (h.m, h.s) :: (h.invt, if h.disc then 1 else 0) :: h.cands

def heapDrawBody (o : FmtA) (s : State) (c : Cur) : Res :=
  onHeap o (fun h =>
    if h.cands.isEmpty ∨ h.m = negInf then doneS s c o.dst o.wbs (BitVec.allOnes 64)
    else
      let ps := h.cands.map fun e => h.prob e.1
      let cs := match ps with | [] => [] | p :: r => p :: cumulate p r
      match h.keep (readSrc s c none .w32 none o.a) (readSrc s c (some .f32) .w32 none o.b) cs with
      | none => .trap s (trapOf cFilt 0 c.lanes)
      | some keep =>
        let a := readSrc s c none .w32 none o.a
        let b := readSrc s c (some .f32) .w32 none o.b
        let u := readSrc s c none .w32 none o.c
        doneS s c o.dst o.wbs (h.draw cs ps keep u (Config.drawRank (u64 a) (u64 b) (u64 u) h.fields))) s c
def execHeapDraw (o : FmtA) (s : State) : Host.Outcome State Fault Refusal := perform (.heapDraw o) (heapDrawBody o) s

/-! ### DRAW (R393) -/

def drawMix (x k : Word64) (n : Nat) : Word64 := let y := x * k; y ^^^ (y >>> n)
/-- u of R393. -/
def drawU (seed : Word64) (pos q : Word32) (g : Byte) : Word32 :=
  let x := seed ^^^ (q ++ pos)
  let x := drawMix x 0xA3B195C74E2D6F19 31
  let x := drawMix x 0xC2B73E915A4D08F5 27
  let x := x ^^^ g.setWidth 64
  let x := drawMix x 0x9E6D41A7B3C82E0B 33
  let x := drawMix x 0xE5F17C2A98D3461B 29
  x.extractLsb' 32 32
def execDraw (o : FmtA) (s : State) : Host.Outcome State Fault Refusal :=
  perform (.draw o) (compute (formOf o.dst) none .w32 o.dst o.wbs fun s c l =>
    let sq := u64 (readSrc s c none .w64 none o.c)
    ((drawU (u64 (readSrc s c none .w64 none o.a)) (BitVec.ofNat 32 (readSrc s c none .w32 l o.b)) (sq.setWidth 32)
      (sq.extractLsb' 32 8)).toNat, 0)) s

end Sys2Proof.Machine
end

