-- ==== Sys2Proof/Machine/Counters.lean ====
section
/-! DEFINITION. Counter instructions (spec/14, R400 to R409). -/

namespace Sys2Proof.Machine

/-- The registers of the issuing party as they stand now: deposits and landings reach a group that waits. -/
def liveRegs (s : State) (c : Cur) : Regs := ((s.party c.pack c.who).map (·.regs)).getD Regs.zero

/-! ### LCWAIT (R404) -/

/-- The status word. -/
def tagStatus (t code : Nat) : Word64 := u64 (t * 256 + code)
/-- The wait for tag t, and its result. -/
def tagWait (o : FmtA) (t : Nat) (s : State) (c : Cur) : Res :=
  match s.party c.pack c.who with
  | none => .wait s
  | some p =>
    if rd 0 p.tags t ≠ 0 then .keeping s c [u64 t]
    else
      let code := if p.err.getLsbD t then 2 else 0
      doneS (s.modParty c.pack c.who fun p => { p with err := p.err &&& ~~~(BitVec.twoPow 8 t) }) c o.dst o.wbs (tagStatus t code)
def execLcwait (o : FmtA) (s : State) : Host.Outcome State Fault Refusal :=
  perform (.lcwait o) (tagWait o (o.ext.toNat % 8)) s
/-- `.OLDEST` keeps the tag that it found at issue. -/
def oldestBody (o : FmtA) (s : State) (c : Cur) : Res :=
  match (if c.again then s.keptFor c else []), ((s.party c.pack c.who).map (·.order)).getD [] with
  | t :: _, _ => tagWait o t.toNat s c
  | [], t :: _ => tagWait o t s c
  | [], [] => doneS s c o.dst o.wbs (tagStatus 0xFF 1)
def execLcwaitOldest (o : FmtA) (s : State) : Host.Outcome State Fault Refusal := perform (.lcwaitOldest o) (oldestBody o) s

/-! ### ASET and AWAIT (R401, R402) -/

def execAset (o : FmtA) (s : State) : Host.Outcome State Fault Refusal :=
  perform (.aset o) (fun s c => .done (doneAt (giveS s c o.dst false (u64 (readSrc s c none .w32 none o.a))))) s

def aNumber : Src → Nat
  | .reg (.a n) _ _ => n.toNat
  | .reg _ _ _ | .latch _ _ _ => 0
def awaitBody (o : FmtA) (cond : BitVec 16 → BitVec 16 → Bool) (s : State) (c : Cur) : Res :=
  let a := (liveRegs s c).readA (aNumber o.a)
  if cond a (BitVec.ofNat 16 (readSrc s c none .w32 none o.b)) then doneS s c o.dst o.wbs (a.setWidth 64) else .waiting s c
def execAwaitGe (o : FmtA) (s : State) : Host.Outcome State Fault Refusal :=
  perform (.awaitGe o) (awaitBody o fun a v => decide ((a - v).toNat < 2 ^ 15)) s
def execAwaitEq (o : FmtA) (s : State) : Host.Outcome State Fault Refusal :=
  perform (.awaitEq o) (awaitBody o fun a v => a == v) s

/-! ### Transfer counters (R405 to R407) -/

/-- The word that XEXP and XWAIT name, in the order of R211; line bits are ignored. -/
def counterWord (o : FmtM) (s : State) (c : Cur) (f : Spad → Nat → Res) : Res :=
  let off := effOffset o s c none
  let bad (code : Nat) : Res := .trap s { trapOf code 0 c.lanes with addr := u64 off }
  match s.party c.pack c.who, s.spad c.pack (c.who / 16) with
  | some p, some sp =>
    if p.detached then .trap s (trapOf cDetached 1 c.lanes)
    else if off % 8 ≠ 0 then bad cAlign
    else if !sp.inside off 8 then bad cSpad
    else if sp.uncAt off 8 then bad cUncorr
    else f sp off
  | _, _ => .trap s (trapOf cDetached 1 c.lanes)

/-- PEND and ARR raised. -/
def chargeCounter (old x : Nat) : Nat :=
  (old / 2 ^ 48 + x / 2 ^ 48) % 2 ^ 16 * 2 ^ 48 + (old + x) % 2 ^ 48
def xexpBody (o : FmtM) (s : State) (c : Cur) : Res :=
  counterWord o s c fun sp off =>
    let old := sp.readNat off 8
    let x := readSpec s c none .w64 none o.data
    let s := (s.setSpad c.pack (c.who / 16) (sp.write off (bytesOf 8 (chargeCounter old x)))).spadCorrect c.pack (c.who / 16) off 8
    .done { doneAt (s.modRegs c.pack c.who fun r => writeSpec r none .w64 none o.data old) with dep := deposits c .w64 none old }
def execXexp (o : FmtM) (s : State) : Host.Outcome State Fault Refusal := perform (.xexp o) (xexpBody o) s

def xwaitBody (o : FmtM) (s : State) (c : Cur) : Res :=
  counterWord o s c fun sp off =>
    let s := s.spadCorrect c.pack (c.who / 16) off 8
    if sp.readNat off 8 = 0 then .done (doneAt s) else .waiting s c
def execXwait (o : FmtM) (s : State) : Host.Outcome State Fault Refusal := perform (.xwait o) (xwaitBody o) s

/-! ### PCNT (R408, R409) -/

/-- A counter by its number. -/
def counterValue (s : State) (cl n : Nat) : Word64 :=
  if n = 0x30 then ((s.die (dieOf cl)).softL2).setWidth 64
  else if n = 0x31 then ((s.die (dieOf cl)).softDram).setWidth 64
  else if n ≤ 9 || (0x10 ≤ n && n ≤ 0x2F) || n = 0x32 then rd 0 (s.cluster cl).counters n
  else 0
def execPcnt (o : FmtA) (s : State) : Host.Outcome State Fault Refusal :=
  perform (.pcnt o) (fun s c =>
    doneS s c o.dst o.wbs (counterValue s (s.here c) (readSrc s c none .w32 none o.a % 256))) s

end Sys2Proof.Machine
end

