-- ==== Sys2Proof/Machine/Placement.lean ====
section
/-! DEFINITION. Warp slots and register space of quadrants, SPAD units and spine threads of clusters, and where a pack or a
landed warp can stand (spec/01, R16, R19, R457; spec/11, R304; spec/10, R294, R297; spec/15, R411). -/

namespace Sys2Proof.Machine

/-! ### Quadrants (R16) -/

/-- Warps that take a slot: core, quadrant, slot number, vector registers. -/
abbrev Occ := List (Nat × Nat × Nat × Nat)

/-- Whether a killed warp's record is not written yet (R418). -/
def State.recordDue (s : State) (u : Nat) (p : Party) : Bool :=
  p.life == .killed && (s.die (dieOf p.place.cluster)).kills.any fun r => r.pack == u && r.req == reqOf p.place false
/-- Whether a warp holds its slot. The slot of a killed warp is held until its kill record is written (R418). -/
def State.holdsSlot (s : State) (u : Nat) (k : Pack) (who : Nat) (p : Party) : Bool :=
  who != spineWho && !p.evicted &&
    match p.life with
    | .running => p.detached || k.onCluster
    | .exited | .migrating _ => false
    | .killed => s.recordDue u p
/-- The slots of a cluster that warps hold. -/
def State.slotsOf (s : State) (cl : Nat) : Occ :=
  s.packs.flatMap fun e => e.2.parties.filterMap fun (q : Nat × Party) =>
    if q.2.place.cluster == cl && s.holdsSlot e.1 e.2 q.1 q.2 then
      some (q.2.place.core, q.2.place.quad, q.2.place.slot, pkVregs e.2.packet)
    else none
/-- What R457 reserves on a cluster for packs other than `self`. -/
def State.holdsOn (s : State) (cl : Nat) (self : Option Nat) : List Hold :=
  s.packs.flatMap fun e => if self != some e.1 && e.2.reserved == some cl then e.2.holds else []
/-- The slots that are taken for a placement of pack `self`: those that are held, and those reserved for another pack. -/
def State.occOf (s : State) (cl : Nat) (self : Option Nat) : Occ :=
  (s.slotsOf cl ++ (s.holdsOn cl self).flatMap (·.slots)).eraseDups

/-- One warp more in a quadrant: the lowest free slot. -/
def Occ.add (occ : Occ) (core quad vregs : Nat) : Option (Nat × Occ) :=
  let here := occ.filter fun e => e.1 == core && e.2.1 == quad
  let regs := here.foldl (fun n e => n + e.2.2.2) 0
  if 512 < regs + vregs then none
  else
    match (List.range 16).find? fun i => here.all fun e => e.2.2.1 != i with
    | none => none
    | some slot => some (slot, (core, quad, slot, vregs) :: occ)
/-- The warps of a workgroup on a SIMT core: the slots that they take. -/
def Occ.addGroup (core vregs : Nat) : List Nat → Occ → Option (List (Nat × Nat) × Occ)
  | [], occ => some ([], occ)
  | w :: r, occ =>
    match Occ.add occ core (w % 4) vregs with
    | none => none
    | some (slot, occ) => (Occ.addGroup core vregs r occ).map fun x => ((w, slot) :: x.1, x.2)
/-- Every workgroup on the core that an assignment gives it: warps as 16 g + w, with core and slot. -/
def Occ.addAll (vregs : Nat) (need : Nat → List Nat) : List (Nat × Nat) → Occ → Option (List (Nat × Nat × Nat))
  | [], _ => some []
  | (g, core) :: r, occ =>
    match Occ.addGroup core vregs (need g) occ with
    | none => none
    | some (ps, occ) => (Occ.addAll vregs need r occ).map fun x => ps.map (fun e => (16 * g + e.1, core, e.2)) ++ x

/-! ### What a pack needs -/

/-- A pack that has run before. -/
def Pack.started (k : Pack) : Bool := !k.parties.isEmpty
/-- Warps of a workgroup that need a slot: all of a new pack, the live ones that are not detached of a saved pack. -/
def Pack.needWarps (k : Pack) (g : Nat) : List Nat :=
  if k.started then
    (List.range 16).filter fun w =>
      match cget k.parties (16 * g + w) with
      | some p => !p.ended && !p.detached
      | none => false
  else List.range (pkWarps k.packet)
/-- SPAD units of a workgroup. -/
def Pack.needUnits (k : Pack) (g : Nat) : Nat :=
  if k.started then ((cget k.spads g).map fun x => x.size / 4096).getD 0 else pkSpadu k.packet
def Pack.groupsList (k : Pack) : List Nat := List.range (pkGroups k.packet)

/-- SPAD units of a cluster that no pack holds and that are not reserved for a pack other than `self`. -/
def State.freeUnits (s : State) (cl : Nat) (self : Option Nat) : List Nat :=
  let used := (s.packs.flatMap fun e =>
    if e.2.cluster == cl && e.2.keepsUnits then e.2.spads.flatMap (·.2.units) else []) ++
    (s.holdsOn cl self).flatMap (·.units)
  ((List.range 32).filter fun b => ((s.cluster cl).bank b).mode == .spad).flatMap fun b =>
    ((List.range 32).map (32 * b + ·)).filter fun n => !used.contains n
/-- The lowest free spine hardware thread. -/
def State.freeThread (s : State) (cl : Nat) (self : Option Nat) : Option Nat :=
  (List.range 4).find? fun t =>
    s.packs.all (fun e => !(e.2.cluster == cl && e.2.onCluster && e.2.thread == t)) &&
      (s.holdsOn cl self).all fun h => h.thread != t

/-! ### Assignments of workgroups to SIMT cores -/

def assignments : Nat → List (List Nat)
  | 0 => [[]]
  | n + 1 => [0, 1, 2, 3].flatMap fun c => (assignments n).map (c :: ·)
/-- R294: a pack with batons keeps the partition of its workgroups. -/
def Pack.samePartition (k : Pack) (cs : List Nat) : Bool :=
  !(k.started && pkBaton k.packet) ||
    k.groupsList.all fun a => k.groupsList.all fun b => (k.cores[a]? == k.cores[b]?) == (cs[a]? == cs[b]?)
/-- R297: the workgroups of a broadcast stand apart, and its engines have room. -/
def Pack.engineRoom (s : State) (k : Pack) (cl : Nat) (cs : List Nat) : Bool :=
  let coresOf (c : EngCmd) : List Nat := c.wgs.map fun g => (cs[g]?).getD 0
  k.cmds.all (fun c => decide ((coresOf c).eraseDups.length = c.wgs.length)) &&
    [0, 1, 2, 3].all fun core =>
      decide ((s.queue cl core).length + (k.cmds.filter fun c => (coresOf c).contains core).length ≤ 16)
/-- Every assignment that a cluster can take, with the places of the warps. -/
def State.fits (s : State) (u : Nat) (k : Pack) (cl : Nat) : List (List Nat × List (Nat × Nat × Nat)) :=
  let occ := s.occOf cl (some u)
  (assignments (pkGroups k.packet)).filterMap fun cs =>
    if k.samePartition cs && k.engineRoom s cl cs then
      (Occ.addAll (pkVregs k.packet) k.needWarps (k.groupsList.zip cs) occ).map fun x => (cs, x)
    else none

/-- R304: the owner right is free, and not reserved for a pack other than `u` (R457). -/
def State.ownerOk (s : State) (u : Nat) (k : Pack) (cl : Nat) : Bool :=
  !pkOwner k.packet ||
    (s.packs.all (fun e => !(e.2.onCluster && e.2.cluster == cl && pkOwner e.2.packet)) &&
      (s.holdsOn cl (some u)).all fun h => !h.owner)
/-- A task pack stands on the cluster that is not pre-empted for another pack. -/
def State.taskShared (s : State) (cl : Nat) : Bool :=
  s.packs.any fun e => e.2.onCluster && e.2.cluster == cl && pkTaskp e.2.packet && e.2.victimOf.isNone
/-- R304: the bank of task packs, which is not reserved for a pack other than `u`, or is shared already (R457). -/
def State.taskOk (s : State) (u : Nat) (k : Pack) (cl : Nat) : Bool :=
  let x := s.cluster cl
  let b := x.bank (pkTqbank k.packet)
  !pkTaskp k.packet ||
    ((x.taskBank.isNone || x.taskBank == some (pkTqbank k.packet)) && b.mode == .fifo && b.elems.isEmpty &&
      (s.taskShared cl || (s.holdsOn cl (some u)).all fun h => !h.task))
/-- R385: the heaps of a saved pack find their numbers FREE. R270: and so do its join slots. -/
def State.tablesOk (s : State) (k : Pack) (cl : Nat) : Bool :=
  let x := s.cluster cl
  k.heaps.all (fun e => (cget x.heaps e.1).isNone) && k.joins.all (fun e => (cget x.joins e.1).isNone) &&
    decide (x.copies.length + k.copies.length ≤ 64)

/-- R452: a context that is frozen by reason 1 or 2 keeps its packs SAVED. -/
def Context.stopped (x : Context) : Bool := x.frozen.contains 1 || x.frozen.contains 2

/-- What R19, R304, R452 and a saved pack's own state ask of a cluster, beside warp slots. -/
def State.admits (s : State) (u : Nat) (k : Pack) (cl : Nat) : Bool :=
  dieOf cl == k.die && !(s.cluster cl).frozen && !(s.context k.ctx).stopped && (s.die k.die).status != .offline &&
    (s.freeThread cl (some u)).isSome &&
    decide (k.groupsList.foldl (fun n g => n + k.needUnits g) 0 ≤ (s.freeUnits cl (some u)).length) &&
    s.ownerOk u k cl && s.taskOk u k cl && s.tablesOk k cl
def State.canTake (s : State) (u : Nat) (k : Pack) (cl : Nat) : Bool := s.admits u k cl && !(s.fits u k cl).isEmpty

/-! ### Slots for single warps -/

/-- A warp whose registers were written to the save area takes a slot of its quadrant again (R354). R30 gives an age at
placement, resume and landing only: the reload gives a new age too, and a wait count of 0 (DESIGN CHOICE, log 79). -/
def State.reload (s : State) (u who : Nat) : Option State :=
  match s.pack u, s.party u who with
  | some k, some p =>
    if !p.evicted then some s
    else
      (Occ.add (s.occOf p.place.cluster none) p.place.core p.place.quad (pkVregs k.packet)).map fun x =>
        let (n, s) := s.fresh
        s.setParty u who { p with evicted := false, place := { p.place with slot := x.1, age := n, waits := 0 } }
  | _, _ => none

/-- Landed warps of a SIMT core (R411); a killed one keeps its landing slot until its record is written (R418). -/
def State.landedOn (s : State) (cl core : Nat) : Nat :=
  s.packs.foldl (fun n e => n + (e.2.parties.filter fun (q : Nat × Party) =>
    q.2.detached && !q.2.evicted && (q.2.life == .running || s.recordDue e.1 q.2) &&
      q.2.place.cluster == cl && q.2.place.core == core).length) 0
/-- The first place of a die for a landing warp (R427): cluster, core, quadrant, slot. -/
def State.landingPlace (s : State) (d vregs : Nat) : Option (Nat × Nat × Nat × Nat) :=
  let tries := (List.range 48).flatMap fun i => [0, 2].map fun q => (12 * d + i / 4, i % 4, q)
  (tries.filterMap fun (t : Nat × Nat × Nat) =>
    if 2 ≤ s.landedOn t.1 t.2.1 then none
    else (Occ.add (s.occOf t.1 none) t.2.1 t.2.2 vregs).map fun x => (t.1, t.2.1, t.2.2, x.1)).head?

end Sys2Proof.Machine
end

