-- ==== Sys2Proof/Machine/System.lean ====
section
/-! DEFINITION. Traps, special registers, migration, TLB invalidation and snapshots (spec/15, R419 to R423, R427, R433,
R437). -/

namespace Sys2Proof.Machine

/-! ### TRAP and RTE (R420, R421) -/

def execTrap (o : FmtT) (s : State) : Host.Outcome State Fault Refusal :=
  perform (.trap o) (fun s c => .trap s { trapOf cTrap 0 c.active with detail := o.code.toNat }) s

/-- Step 3: INTRAP is set. -/
def inTrapOpts : Opts := { priv := fun s c => ((s.party c.pack c.who).map fun p => p.frame.isSome).getD false }
def execRte (o : FmtB) (s : State) : Host.Outcome State Fault Refusal := performWith inTrapOpts (.rte o) (rteBody false) s
def execRteNext (o : FmtB) (s : State) : Host.Outcome State Fault Refusal := performWith inTrapOpts (.rteNext o) (rteBody true) s

/-! ### MFS and MTS (R422, R423) -/

def execMfs (o : FmtA) (s : State) : Host.Outcome State Fault Refusal :=
  perform (.mfs o) (compute (formOf o.dst) (some o.ty) o.ty.width o.dst o.wbs fun s c l =>
    (readSrc s c none o.ty.width l o.a, 0)) s

/-- A special register written. -/
def writeSpecial (r : Regs) (d : Spec) (x : Word64) : Regs :=
  match d with
  | .special .fpmode => { r with fpmode := x.extractLsb' 0 2 }
  | .special .fpflags => { r with fpflags := x.extractLsb' 0 5 }
  | .special .xpc => { r with xpc := x }
  | .special .xvec => { r with xvec := x }
  | .special _ | .v _ | .s _ | .k _ | .h _ | .a _ | .const _ => r
def mtsBody (o : FmtA) (s : State) (c : Cur) : Res :=
  .done (doneAt (s.modRegs c.pack c.who fun r => writeSpecial r o.dst (u64 (readSrc s c none .w64 none o.a))))
def execMts (o : FmtA) (s : State) : Host.Outcome State Fault Refusal := perform (.mts o) (mtsBody o) s

/-! ### MIGRATE (R427) -/

/-- Step 5. -/
def migrateTrap (s : State) (p : Party) (c : Cur) : Option Trap :=
  if p.live &&& ~~~c.lanes ≠ 0 then some (trapOf cMask 0 c.lanes)
  else if !p.tags.isEmpty then some (trapOf cDetached 2 c.lanes)
  else if ((s.spad c.pack (c.who / 16)).map (·.size)).getD 0 ≠ 0 then some (trapOf cDetached 3 c.lanes)
  else none
def migrateStatus (d code : Nat) : Word64 := u64 (d * 256 + code)

/-- The warp leaves its quadrant for the landing queue of a die. -/
def State.depart' (s : State) (c : Cur) (d : Nat) : State :=
  let s := (s.enterWait c).modParty c.pack c.who fun p => { p with life := .migrating d, detached := true }
  let s := s.modDie d fun x => { x with landing := x.landing ++ [(c.pack, c.who)] }
  s.closeBar c.pack (c.who / 16)

def migrateBody (o : FmtM) (s : State) (c : Cur) : Res :=
  match (if c.again then s.servedFor c else none), s.party c.pack c.who with
  | some vals, _ => doneS s c o.data false ((vals.head?).getD 0)
  | none, none => .wait s
  | none, some p =>
    match migrateTrap s p c with
    | some t => .trap s t
    | none =>
      let va := effAddr o s c none
      match translate s (s.asker c) va.toNat .read with
      | (s, .fault code sub h) => .trap s { trapOf code sub c.lanes with addr := va, acc := Acc.read.code, hint := h }
      | (s, .ok pa e) =>
        let d := pteHome e % 8
        if s.lost pa then .trap s { trapOf cUncorr 0 c.lanes with addr := va }
        else if d = dieOf (s.here c) then doneS s c o.data false (migrateStatus d 1)
        else if p.pending ≠ 0 then .waiting s c
        else .wait (s.depart' c d)
def execMigrate (o : FmtM) (s : State) : Host.Outcome State Fault Refusal := perform (.migrate o) (migrateBody o) s

/-- Whether a warp waits in the landing queue of a die, and its pack is not pre-empted (R427). -/
def State.awaitsLanding (s : State) (d : Nat) (e : Nat × Nat) : Bool :=
  ((s.party e.1 e.2).map fun p => p.life == .migrating d).getD false
def State.landsNext (s : State) (d : Nat) (e : Nat × Nat) : Bool :=
  s.awaitsLanding d e && ((s.pack e.1).map (·.state)) == some .resident
/-- The first warp of a die's landing queue that may land does so, when a place is free for it. A warp that pre-emption has
stopped stays in the queue, and those behind it land (DESIGN CHOICE, log 73). -/
def State.landWarp (s : State) (d : Nat) : Option State :=
  match (s.die d).landing.find? (s.landsNext d) with
  | none => none
  | some (u, w) =>
    match s.pack u, s.party u w with
    | some k, some p =>
      match s.landingPlace d (pkVregs k.packet) with
      | none => none
      | some (cl, core, quad, slot) =>
        let (n, s) := s.fresh
        let left := ((s.die d).landing.erase (u, w)).filter (s.awaitsLanding d)
        let s := s.modDie d fun x => { x with landing := left }
        let s := s.setParty u w
          { p with life := .running, place := { cluster := cl, core := core, quad := quad, slot := slot, age := n, waits := 0 } }
        some (s.modParty u w fun p => p.serve p.live [migrateStatus d 0])
    | _, _ => none
def execMigrateLanding (die : Nat) (s : State) : Host.Outcome State Fault Refusal :=
  occur (if (s.die die).status = .offline then none else s.landWarp die)

/-! ### TLBINV (R430, R433) -/

/-- R430: only the service firmware's own context. -/
def firmwareOpts : Opts := { priv := fun s c => s.ctxOf c.pack == 0 }
def tlbinvBody (o : FmtM) (drop : Nat → Nat → TlbEntry → Bool) (s : State) (c : Cur) : Res :=
  let ctx := readSpec s c none .w64 none o.data % 256
  let va := (effAddr o s c none).toNat
  .done (doneAt { s with tlb := s.tlb.filter fun e => !drop ctx va e })
def execTlbinvPage (o : FmtM) (s : State) : Host.Outcome State Fault Refusal :=
  performWith firmwareOpts (.tlbinvPage o) (tlbinvBody o fun ctx va e => e.ctx == ctx && e.va / 2 ^ e.log == va / 2 ^ e.log) s
def execTlbinvCtx (o : FmtM) (s : State) : Host.Outcome State Fault Refusal :=
  performWith firmwareOpts (.tlbinvCtx o) (tlbinvBody o fun ctx _ e => e.ctx == ctx) s
def execTlbinvAll (o : FmtM) (s : State) : Host.Outcome State Fault Refusal :=
  performWith firmwareOpts (.tlbinvAll o) (tlbinvBody o fun _ _ _ => true) s

/-! ### SNAP (R437, R454) -/

/-- A trigger is taken: the word that it writes. -/
def State.fireTrigger (s : State) (port : Bool) (req : BitVec 16) (tag : BitVec 16) : State :=
  let seq : BitVec 16 := s.trigger.extractLsb' 48 16 + 1
  { s with trigger := u64 (seq.toNat * 2 ^ 48 + port.toNat * 2 ^ 32 + req.toNat * 65536 + tag.toNat), triggered := true }
def snapBody (o : FmtA) (s : State) (c : Cur) : Res :=
  let tag := BitVec.ofNat 16 (readSrc s c none .w32 none o.a)
  match s.party c.pack c.who with
  | none => .wait s
  | some p =>
    if !(s.context (s.ctxOf c.pack)).snap then doneS s c o.dst o.wbs 1
    else if s.triggered then doneS s c o.dst o.wbs 2
    else doneS (s.fireTrigger false (reqOf p.place (c.who == spineWho)) tag) c o.dst o.wbs 0
def execSnap (o : FmtA) (s : State) : Host.Outcome State Fault Refusal := perform (.snap o) (snapBody o) s

end Sys2Proof.Machine
end

