-- ==== Sys2Proof/Machine/Dispatcher.lean ====
section
/-! DEFINITION. The issue counters of a warp (spec/01, R25 to R29, R456), and the dispatcher: placement, pre-emption, resume
and completion (spec/01, R32 to R37, R457; spec/11, R304, R306; spec/15, R424, R425; spec/18, R449). -/

namespace Sys2Proof.Machine

/-! ### Issue counters (R25, R28, R456) -/

/-- Live lanes whose skip count has reached 32 and that are not forced yet. -/
def Party.newlyForced (p : Party) : Lanes :=
  maskOf ((lanesOf (p.live &&& ~~~p.forced)).filter fun l => 32 ≤ (rd 0 p.skip l).toNat)
/-- R25: their groups are forced from the next issue on. -/
def State.forceSkips (s : State) (u who : Nat) : Option State :=
  match s.party u who with
  | none => none
  | some p => if p.newlyForced = 0 then none else some (s.setParty u who { p with forced := p.forced ||| p.newlyForced })
def execSkipCountForce (pack who : Nat) (s : State) : Host.Outcome State Fault Refusal := occur (s.forceSkips pack who)

/-- R28: the last count of a lane's countdown. -/
def State.endYield (s : State) (u who lane : Nat) : Option State :=
  match s.party u who with
  | none => none
  | some p => if rd 0 p.yield lane = 1 then some (s.setParty u who { p with yield := cdel p.yield lane }) else none
def execYieldCountdownExpiry (pack who lane : Nat) (s : State) : Host.Outcome State Fault Refusal :=
  occur (s.endYield pack who lane)

/-- Lanes that R456 sent back and that may issue again: their warp runs and they are not held. -/
def Party.returning (p : Party) : Lanes :=
  if p.replay != 0 || !p.running then 0
  else p.reissue &&& (p.groups.foldl (fun m g => if g.held then m else m ||| g.lanes) 0)
/-- R456: the group that port 0's fault sent back takes part in the selection again. -/
def State.reissueGroup (s : State) (u who : Nat) : Option State :=
  match s.party u who with
  | none => none
  | some p => if p.returning = 0 then none else some (s.setParty u who { p with reissue := p.reissue &&& ~~~p.returning })
def execPort1Reissue (pack who : Nat) (s : State) : Host.Outcome State Fault Refusal := occur (s.reissueGroup pack who)

/-! ### Waiting packs and their order (R37) -/

def Pack.waitsFor (k : Pack) : Bool :=
  match k.state with
  | .placeable | .saved => true
  | .waiting | .resident | .draining | .retired => false
def Pack.resident (k : Pack) : Bool := k.state == .resident

/-- Class 1 of R37: the pack holds a member that has not arrived in the current phase of a group in which some party
waits. -/
def State.awaited (s : State) (u : Nat) : Bool :=
  s.groups.any fun e =>
    e.2.members.any (fun m => m.pack == u && !m.pending && !s.memberArrived m) && e.2.members.any fun m => !m.waits.isEmpty
/-- Place in the order: priority, class, time of saving or order of creation. -/
def State.rank (s : State) (u : Nat) (k : Pack) : Nat × Nat × Nat :=
  (3 - k.prio, if k.state == .saved then (if s.awaited u then 0 else 1) else 2, if k.state == .saved then k.savedAt else u)
def before (a b : Nat × Nat × Nat) : Bool :=
  decide (a.1 < b.1) || (a.1 == b.1 && (decide (a.2.1 < b.2.1) || (a.2.1 == b.2.1 && decide (a.2.2 < b.2.2))))

def clustersOf (d : Nat) : List Nat := (List.range 12).map (12 * d + ·)
/-- No cluster of its die can take the pack. -/
def State.homeless (s : State) (u : Nat) (k : Pack) : Bool := (clustersOf k.die).all fun cl => !s.canTake u k cl
/-- No pack that comes before it could take the cluster (R37); a pack for which R457 reserved the cluster goes first. -/
def State.selected (s : State) (u : Nat) (k : Pack) (cl : Nat) : Bool :=
  s.canTake u k cl &&
    (k.reserved == some cl ||
      s.packs.all fun e =>
        !(e.1 != u && e.2.waitsFor && e.2.die == k.die && before (s.rank e.1 e.2) (s.rank u k) && s.canTake e.1 e.2 cl))

/-! ### Placement of a new pack (R116, R199, R294, R301 to R305) -/

/-- One of several that the manual does not choose among. -/
def State.pick {α : Type} (s : State) (l : List α) : Option α := l[Config.choose s.choices % l.length]?

/-- SINIT in s0 to s4, XVEC, everything else 0. -/
def entryRegs (p : BitVec 1024) : Regs :=
  (List.range 5).foldl (fun r i => r.writeS i (pkSinit p i)) { Regs.zero with xvec := pkXvec p }
/-- A party at its entry address, which counts as a stop point as the target of a taken transfer does (R34; DESIGN CHOICE,
log 76). -/
def newParty (r : Regs) (pc : Word64) (lanes : Lanes) (pl : Place) : Party :=
  { regs := r, groups := if lanes = 0 then [] else [{ pc, lanes, wait := none, held := false }], skip := [], forced := 0,
    yield := [], intrap := false, frame := none, pending := 0, tags := [], order := [], err := 0, syncs := [], lines := [],
    place := pl, life := if lanes = 0 then .exited else .running, detached := false, evicted := false, fenced := none,
    replay := 0, busy := [], jumped := lanes, reissue := 0 }
/-- R305: a SPINE of 0 creates the thread exited. -/
def newSpine (p : BitVec 1024) (pl : Place) : Party :=
  newParty (entryRegs p) (pkSpine p) (if pkSpine p = 0 then 0 else 1) pl

/-- Units handed out in ascending order: what each workgroup gets. -/
def shareUnits : List (Nat × Nat) → List Nat → List (Nat × List Nat)
  | [], _ => []
  | (g, n) :: r, free => (g, free.take n) :: shareUnits r (free.drop n)
/-- `n` units chosen freely, in ascending order, and those that are left. -/
def takeUnits : Nat → Nat → List Nat → List Nat × List Nat
  | 0, _, free => ([], free)
  | n + 1, c, free =>
    match free[Config.choose c % free.length]? with
    | none => ([], free)
    | some x =>
      let (t, rest) := takeUnits n (c + 1) (free.erase x)
      (t.takeWhile (· < x) ++ x :: t.dropWhile (· < x), rest)
/-- What each workgroup of a resumed pack gets: R199 orders the units of a workgroup, and says nothing of which they are. -/
def chooseUnits : List (Nat × Nat) → Nat → List Nat → Nat × List (Nat × List Nat)
  | [], c, _ => (c, [])
  | (g, n) :: r, c, free =>
    let (t, rest) := takeUnits n c free
    let (c', ts) := chooseUnits r (c + n) rest
    (c', (g, t) :: ts)
def newSpad (units : List Nat) : Spad :=
  { size := 4096 * units.length, bytes := [], emptyLines := [], bad := [], corr := [], units }

/-- R277: the rings of a pack. -/
def newBatons (p : BitVec 1024) (cores : List Nat) : Cells Baton :=
  if !pkBaton p then []
  else
    [0, 1, 2, 3].filterMap fun c =>
      match (List.range cores.length).filter fun g => cores[g]? == some c with
      | [] => none
      | g :: r => some (c, { holder := g, taken := false, members := g :: r, waits := [] })

/-- The pre-emptions made for a pack serve it no longer (R457). -/
def State.endReservation (s : State) (u : Nat) : State :=
  let free (k : Pack) : Pack := if k.victimOf == some u then { k with victimOf := none } else k
  { s with packs := s.packs.map fun (e : Nat × Pack) => (e.1, free e.2) }

/-- A pack that uses tasks gives its cluster a task bank (R304): a queue with room (R310). -/
def State.useTaskBank (s : State) (p : BitVec 1024) (cl : Nat) : State :=
  if !pkTaskp p || (s.cluster cl).taskBank == some (pkTqbank p) then s
  else (s.modCluster cl fun x => { x with taskBank := some (pkTqbank p) }).gainRoom cl

/-- E2 of a PLACEABLE pack: all its parties at once. -/
def State.placeNew (s : State) (u : Nat) (k : Pack) (cl : Nat) : Option State :=
  match s.pick (s.fits u k cl), s.freeThread cl (some u) with
  | some (cores, ws), some t =>
    let n := s.nextId
    let units := shareUnits (k.groupsList.map fun g => (g, k.needUnits g)) (s.freeUnits cl (some u))
    let warps := (List.range ws.length).zip ws |>.map fun (e : Nat × Nat × Nat × Nat) =>
      (e.2.1, newParty (entryRegs k.packet) (pkWarp k.packet) (BitVec.allOnes 64)
        { cluster := cl, core := e.2.2.1, quad := e.2.1 % 4, slot := e.2.2.2, age := n + e.1, waits := 0 })
    let spine := newSpine k.packet { cluster := cl, core := 0, quad := 0, slot := t, age := n, waits := 0 }
    let k' : Pack :=
      { k with state := .resident, cluster := cl, thread := t, cores, kregs := [], bars := [], lines := 0, placed := n,
               parties := ((spineWho, spine) :: warps).foldl (fun m e => cset m e.1 e.2) [],
               spads := units.map fun e => (e.1, newSpad e.2), batons := newBatons k.packet cores,
               victimOf := none, reserved := none, holds := [] }
    let s := { s with nextId := n + ws.length + 1, choices := s.choices + 1 }
    let s := (s.setPack u k').endReservation u
    some (s.useTaskBank k.packet cl)
  | _, _ => none

/-- A group stands before an instruction that uses a register whose token is pending (R266): it waits in it. -/
def Party.stalled (p : Party) (g : Group) : Bool :=
  p.pending != 0 &&
    match p.lineFor g.pc g.lanes with
    | none => false
    | some l =>
      match decode (slotWord l (slotOf g.pc)) with
      | .error _ => false
      | .ok i => (i.shape.map (stalls p.pending)).getD false

/-! ### Resume (R425) -/

/-- Whether a unit or a record has the request of a waiting group of a pack: a shared register (R181), a sync or barrier
record (R141, R143), a baton ring (R294), a named group (R340), a monitor (R354), or a rebuild (R374). -/
def State.unitHolds (s : State) (u : Nat) (k : Pack) (who : Nat) (p : Party) (g : Group) : Bool :=
  k.kregs.any (fun e => e.2.queue.any fun w => w.who == who && w.lanes == g.lanes) ||
    p.syncs.any (fun r => r.arrived &&& g.lanes != 0) ||
    (who != spineWho && k.bars.any fun e => e.1 == who / 16 && rd 0 e.2.lanes (who % 16) &&& g.lanes != 0) ||
    k.batons.any (fun e => e.2.waits.contains (who, g.lanes)) ||
    s.groups.any (fun e => e.2.members.any fun m => m.pack == u && m.who == who && m.waits.contains g.lanes) ||
    s.monitors.any (fun m => m.pack == u && m.who == who && m.lanes == g.lanes) ||
    s.slots.any fun e => (e.2.rest.map fun r => r.1.pack == u && r.1.who == who && r.1.lanes == g.lanes).getD false
/-- A group as it stands after the resume of its pack: it still waits where a unit has its request or has answered it; any
other instruction is executed again from its start (R213, R274, R312, R317, R374, R400). -/
def Group.resumed (held : Group → Bool) (g : Group) : Group :=
  { g with wait := g.wait.bind fun w => if w.served.isSome || held g then some w else none }
/-- A party as it stands after the resume of its pack: its place, and only the copies of lines in which a group waits inside
its instruction, or for a token before it (R266). -/
def Party.resumed (p : Party) (held : Group → Bool) (pl : Place) : Party :=
  let gs := p.groups.map (Group.resumed held)
  let stays := gs.filter fun g => g.wait.isSome || p.stalled g
  let old (f : Fenced) : Option Fenced :=
    match stays.foldl (fun m g => if lineVa g.pc = f.va ∧ g.lanes &&& ~~~f.lanes = 0 then m ||| g.lanes else m) (0 : Lanes) with
    | 0 => none
    | m => some { f with lanes := m }
  { p with place := pl, evicted := false, groups := gs, fenced := p.fenced.bind old, busy := [],
           lines := p.lines.filter fun e => stays.any fun g => lineVa g.pc == e.1 }
/-- A restartable record as a queue entry: the pieces of its lines that are FULL are not moved again, and no byte of the
restarted copy has landed (R274, R276). -/
def Copy.restarted (c : Copy) (pad : Option Spad) : Copy :=
  let full (l : Nat) : Bool := (pad.map fun x => !x.emptyLines.contains l).getD false
  let keep := if c.toPad then (List.range c.npieces).filter fun p => full (c.lineOf p) else []
  { c with landed := keep, bads := c.bads.filter keep.contains, bytes := 0, pageWait := false, probing := true }
/-- The restart probe (R274). -/
def State.restartCopy (s : State) (k : Pack) (cl : Nat) (c : Copy) : State :=
  let c := if c.ended.isSome then c else c.restarted (cget k.spads c.wg)
  let s := s.modCluster cl fun x => { x with copies := x.copies ++ [c] }
  if c.ended.isSome then s else s.probeCopy k cl c

/-- Step 3 of R425: the registers are there; the scan of R181, once per register. -/
def State.scanAll (s : State) (u : Nat) : State :=
  (List.range 64).foldl (fun s n => s.kScan u n (s.kreg u n).queue.length) s

/-- E2 of a SAVED pack, in the order of R425. -/
def State.resumePack (s : State) (u : Nat) (k : Pack) (cl : Nat) : Option State :=
  match s.pick (s.fits u k cl), s.freeThread cl (some u) with
  | some (cores, ws), some t =>
    let n := s.nextId
    let (m, units) := chooseUnits (k.groupsList.map fun g => (g, k.needUnits g)) (s.choices + 1) (s.freeUnits cl (some u))
    let placeOf (who : Nat) (p : Party) : Place :=
      if who = spineWho then { p.place with cluster := cl, slot := t }
      else
        match ((List.range ws.length).zip ws).find? fun (e : Nat × Nat × Nat × Nat) => e.2.1 == who with
        | none => p.place
        | some e => { cluster := cl, core := e.2.2.1, quad := who % 4, slot := e.2.2.2, age := n + e.1, waits := 0 }
    let back (e : Nat × Party) : Nat × Party :=
      if e.2.detached then e else (e.1, e.2.resumed (s.unitHolds u k e.1 e.2) (placeOf e.1 e.2))
    let unitsOf (g : Nat) : List Nat := ((units.find? fun x => x.1 == g).map (·.2)).getD []
    let ring (e : Nat × Baton) : Nat × Baton := ((cores[e.2.holder]?).getD 0, e.2)
    let k' : Pack :=
      { k with state := .resident, cluster := cl, thread := t, cores, lines := 0, placed := n, parties := k.parties.map back,
               spads := k.spads.map fun (e : Nat × Spad) => (e.1, { e.2 with units := unitsOf e.1 }),
               batons := (k.batons.map ring).foldl (fun m e => cset m e.1 e.2) [],
               copies := [], cmds := [], joins := [], heaps := [], victimOf := none, reserved := none, holds := [] }
    let s := { s with nextId := n + ws.length + 1, choices := m }
    let s := ((s.setPack u k').endReservation u).scanAll u
    let s := (s.modCluster cl fun x =>
      { x with heaps := k.heaps.foldl (fun m e => cset m e.1 e.2) x.heaps,
               joins := k.joins.foldl (fun m e => cset m e.1 e.2) x.joins,
               arrivals := x.arrivals ++ k.joins.filterMap fun e => if e.2.go then e.2.cmd.map fun y => (y, 0) else none,
               cmds := x.cmds ++ k.cmds }).useTaskBank k.packet cl
    let s := k.copies.foldl (fun s c => s.restartCopy k' cl c) s
    some ((s.freeMonitors fun m => m.pack == u && m.woken).tryRetire u)
  | _, _ => none

/-- E2: the pack comes onto a cluster that can take it. -/
def State.bring (s : State) (u cl : Nat) : Option State :=
  match s.pack u with
  | none => none
  | some k =>
    match k.state with
    | .placeable => s.placeNew u k cl
    | .saved => s.resumePack u k cl
    | .waiting | .resident | .draining | .retired => none

/-- The dispatcher looks at the bitmaps of its die first (R307). -/
def State.dispatch (s : State) (u cl : Nat) (want : PackState) : Option State :=
  match s.pack u with
  | none => none
  | some k0 =>
    let s := s.promote k0.die
    match s.pack u with
    | none => none
    | some k => if k.state == want && s.selected u k cl then s.bring u cl else none
def execPackPlacement (pack cluster : Nat) (s : State) : Host.Outcome State Fault Refusal :=
  occur (s.dispatch pack cluster .placeable)
def execPackResume (pack cluster : Nat) (s : State) : Host.Outcome State Fault Refusal :=
  occur (s.dispatch pack cluster .saved)

/-! ### Stop points and the image (R34, R424) -/

/-- Lanes of a group that are at their stop point. -/
def Party.atStop (p : Party) (g : Group) : Lanes :=
  if slotOf g.pc = 0 || g.wait.isSome || g.held || p.stalled g then g.lanes else g.lanes &&& p.jumped
/-- Lanes that stand where they stand: those that wait for a page, and with them those that R456 sent back (log 19). -/
def Party.parked (p : Party) : Lanes := if p.replay = 0 then 0 else p.replay ||| p.reissue
/-- A warp of a DRAINING pack has stopped. One that waits for a page stands whole where its groups do not run on (log 59). -/
def Party.stopped (p : Party) : Bool :=
  p.ended || p.detached || (p.replay != 0 && !Config.groupsRunOn) ||
    p.groups.all fun g => (g.lanes &&& ~~~p.parked &&& ~~~(p.atStop g)) == 0
/-- R198: the thread waits inside a BANKCFG. -/
def Party.inBankcfg (p : Party) : Bool :=
  p.groups.any fun g => g.wait.isSome &&
    ((p.lineFor g.pc g.lanes).map fun l => (slotWord l (slotOf g.pc)).extractLsb' 88 8 == 0x9C#8).getD false
/-- E4: every party has stopped, and no deposit is on its way. -/
def Pack.allStopped (k : Pack) : Bool :=
  k.deposits.isEmpty && k.parties.all fun e => if e.1 = spineWho then !e.2.inBankcfg else e.2.stopped

/-- The image is written and the resources are freed. Queue entries become restartable records. -/
def State.savePack (s : State) (u : Nat) (k : Pack) : State :=
  let c := s.cluster k.cluster
  let (n, s) := s.fresh
  let k' : Pack :=
    { k with state := .saved, savedAt := n, victimOf := none,
             copies := k.copies ++ c.copies.filter (·.pack == u),
             cmds := k.cmds ++ c.cmds.filter (·.pack == u),
             joins := c.joins.filter (·.2.owner == u), heaps := c.heaps.filter (·.2.owner == u) }
  let s := (s.setPack u k').modCluster k.cluster fun x =>
    { x with copies := x.copies.filter (·.pack != u), cmds := x.cmds.filter (·.pack != u),
             joins := x.joins.filter (·.2.owner != u), heaps := x.heaps.filter (·.2.owner != u),
             arrivals := x.arrivals.filter (·.1.pack != u) }
  let stays (who : Nat) : Bool := ((cget k.parties who).map (·.detached)).getD false
  (s.slotForget fun w => w.pack == u && !stays w.who).clearTaskBank k.cluster

/-- The last of the packs pre-empted for a pack is SAVED, and none of them holds anything of its own on the cluster: one that
has retired meanwhile may do so until its copies have landed and its kill records are written. -/
def State.drainsOver (s : State) (u : Nat) (k : Pack) : Bool :=
  s.packs.all (fun x => x.2.victimOf != some u) &&
    k.holds.all fun h =>
      match s.pack h.victim with
      | none => true
      | some v => !(v.state == .retired && (v.onCluster || !v.spads.isEmpty || s.killPending h.victim))
/-- A pack for which the last pre-emption is complete, and the cluster that was reserved for it (R457). -/
def State.servedNow (s : State) : Option (Nat × Nat) :=
  s.packs.findSome? fun e =>
    e.2.reserved.bind fun cl => if e.2.waitsFor && s.drainsOver e.1 e.2 then some (e.1, cl) else none
/-- R457: it comes onto the cluster. R457 reserves what the pre-empted packs held: where room that was free at the decision has
gone since, and the pack does not fit, its reservation ends, and it is one of the waiting packs again, for which the
dispatcher decides anew by R32, R33 and R37 (DESIGN CHOICE, log 80). -/
def State.serveReserved (s : State) : State :=
  match s.servedNow with
  | none => s
  | some (v, cl) =>
    let fits := ((s.pack v).map fun k => s.canTake v k cl).getD false
    (if fits then s.bring v cl else none).getD (s.modPack v fun k => { k with reserved := none, holds := [] })

/-- E4 of R35. -/
def State.completeDrain (s : State) (u : Nat) : Option State :=
  match s.pack u with
  | none => none
  | some k =>
    if k.state == .draining && k.allStopped then
      let s := s.savePack u k
      some (match k.victimOf with | none => s | some _ => s.serveReserved)
    else none
def execPackDrainComplete (pack : Nat) (s : State) : Host.Outcome State Fault Refusal := occur (s.completeDrain pack)

/-! ### Pre-emption (R32, R33, R457) -/

/-- E3 of R35, for a served pack or for none. -/
def State.drain (s : State) (u : Nat) (served : Option Nat) : State :=
  s.modPack u fun k => if k.resident then { k with state := .draining, victimOf := served } else k

/-- E3 of R35 for every pack for which a test holds, with no pack served. -/
def State.drainAll (s : State) (p : Pack → Bool) : State :=
  let one (k : Pack) : Pack := if p k && k.resident then { k with state := .draining, victimOf := none } else k
  { s with packs := s.packs.map fun (e : Nat × Pack) => (e.1, one e.2) }

/-- Packs in an order: each is put behind those that come before it. -/
def insertPack (first : Pack → Pack → Bool) (e : Nat × Pack) : List (Nat × Pack) → List (Nat × Pack)
  | [] => [e]
  | x :: r => if first e.2 x.2 then e :: x :: r else x :: insertPack first e r
def sortPacks (first : Pack → Pack → Bool) (l : List (Nat × Pack)) : List (Nat × Pack) :=
  l.foldl (fun acc e => insertPack first e acc) []
/-- Lowest priority first, and most recently placed first within a priority. -/
def removedFirst (a b : Pack) : Bool := decide (a.prio < b.prio) || (a.prio == b.prio && decide (b.placed < a.placed))

/-- The least number of packs of a cluster, in the order of removal, without which it can take the pack. -/
def State.removals (s : State) (u : Nat) (k : Pack) (cl : Nat) : Option (List (Nat × Pack)) :=
  let l := sortPacks removedFirst (s.packs.filter fun e => e.2.resident && e.2.cluster == cl && decide (e.2.prio < k.prio))
  ((List.range l.length).map fun i => l.take (i + 1)).find? fun vs =>
    (vs.foldl (fun s e => s.savePack e.1 e.2) s).canTake u k cl
/-- The tests of R32: the highest priority removed, the number of packs, the cluster. -/
def State.bestRemovals (s : State) (u : Nat) (k : Pack) : Option (Nat × List (Nat × Pack)) :=
  let key (x : Nat × List (Nat × Pack)) : Nat × Nat × Nat := (x.2.foldl (fun n e => max n e.2.prio) 0, x.2.length, x.1)
  ((clustersOf k.die).filterMap fun cl => (s.removals u k cl).map fun l => (cl, l)).foldl (fun best x =>
    match best with
    | none => some x
    | some b => if before (key x) (key b) then some x else some b) none

/-- What R457 reserves of a pack that is pre-empted. -/
def State.holdOf (s : State) (cl u : Nat) (k : Pack) : Hold :=
  { victim := u, thread := k.thread,
    slots := k.parties.filterMap fun (q : Nat × Party) =>
      if q.2.place.cluster == cl && !q.2.detached && s.holdsSlot u k q.1 q.2 then
        some (q.2.place.core, q.2.place.quad, q.2.place.slot, pkVregs k.packet)
      else none,
    units := k.spads.flatMap (·.2.units), owner := pkOwner k.packet, task := pkTaskp k.packet }
def State.preemptFor (s : State) (u : Nat) : Option State :=
  match s.pack u with
  | none => none
  | some k0 =>
    let s := s.promote k0.die
    match s.pack u with
    | none => none
    | some k =>
      if !k.waitsFor || k.reserved.isSome || (s.context k.ctx).stopped || !s.homeless u k then none
      else
        (s.bestRemovals u k).map fun x =>
          x.2.foldl (fun s e => s.drain e.1 (some u))
            (s.modPack u fun k => { k with reserved := some x.1, holds := x.2.map fun e => s.holdOf x.1 e.1 e.2 })
def execPriorityPreemption (pack : Nat) (s : State) : Host.Outcome State Fault Refusal := occur (s.preemptFor pack)

/-- R33: most lines since placement, then most recently placed. -/
def slicedFirst (a b : Pack) : Bool := decide (b.lines < a.lines) || (a.lines == b.lines && decide (b.placed < a.placed))
def State.sliceDue (s : State) (cl : Nat) : Bool := decide (2 ^ (s.die (dieOf cl)).sliceLog ≤ (s.cluster cl).lineCount)
/-- R33. R38 promises a pack a slice length of lines of residence; the count of R33 is the cluster's and does not restart when
a pack is placed, so that one placed late in a slice may be the pack that drains at its end: R33 is followed (DESIGN CHOICE,
log 81). -/
def State.expireSlice (s : State) (cl : Nat) : Option State :=
  if !s.sliceDue cl then none
  else
    let d := dieOf cl
    let s := (s.promote d).modCluster cl fun x => { x with lineCount := 0 }
    let waiting := s.packs.filter fun e =>
      e.2.waitsFor && e.2.die == d && e.2.reserved.isNone && !(s.context e.2.ctx).stopped && s.homeless e.1 e.2
    some (match waiting with
      | [] => s
      | _ =>
        let p := waiting.foldl (fun n e => max n e.2.prio) 0
        match sortPacks slicedFirst (s.packs.filter fun e => e.2.resident && e.2.cluster == cl && e.2.prio == p) with
        | [] => s
        | e :: _ => s.drain e.1 none)
def execSliceExpiry (cluster : Nat) (s : State) : Host.Outcome State Fault Refusal := occur (s.expireSlice cluster)

/-! ### Completion (R306, R449) -/

def Launch.word (l : Launch) (broken : Bool) : Word64 := u64 (l.killed * 2 ^ 32 + if broken then 2 else 1)
/-- The die of the dispatcher that made a launch. -/
def launchDie (id : Nat) : Nat := id / 2 ^ 29
def State.dropLaunch (s : State) (id : Nat) : State := { s with launches := cdel s.launches id }
/-- After the word: MSI-X vector 1 for a host that waits (R449). -/
def State.launchWritten (s : State) (id : Nat) (l : Launch) : State :=
  (if pkHostw l.packet then s.raiseMsix l.ctx 1 else s).dropLaunch id

def State.completeLaunch (s : State) (id : Nat) : Option State :=
  match cget s.launches id with
  | none => none
  | some l =>
    let va := pkDone l.packet
    if l.left ≠ 0 then none
    else if va = 0 then some (s.dropLaunch id)
    else
      match s.agentWord (launchDie id) l.ctx va (l.word l.broken) false with
      | (s', .done) => some (s'.launchWritten id l)
      | (s', .dropped) => some (s'.dropLaunch id)
      | (s', .page h) => if s.asking (launchDie id) l.ctx va then none else some (s'.agentFault (launchDie id) l.ctx Acc.write.code va h)
def execLaunchCompletionWrite (launch : Nat) (s : State) : Host.Outcome State Fault Refusal := occur (s.completeLaunch launch)

/-! ### Submission areas (R448, R449) -/

/-- A control word, and its write. -/
def State.ctl (s : State) (ctx off : Nat) : Nat := s.readNat ((s.context ctx).area + off) 8
def State.setCtl (s : State) (ctx off v : Nat) : State := s.writeHome ((s.context ctx).area + off) (bytesOf 8 v)

/-- LSTAT, then LDONE. -/
def State.consumePacket (s : State) (ctx i status : Nat) : State :=
  (s.setCtl ctx 0x20 (i % 2 ^ 32 * 2 ^ 32 + status)).setCtl ctx 0x08 (i + 1)

/-- The dispatcher performs the LAUNCH of the next posted packet (R42, R449). -/
def State.serveSubmission (s : State) (ctx : Nat) : Option State :=
  let x := s.context ctx
  let i := s.ctl ctx 0x08
  if !x.enabled || x.stopped || s.ctl ctx 0 ≤ i then none
  else
    let d := (s.homeDie x.area).getD 0
    let slot := x.area + 0x1000 + 128 * (i % 256)
    let p := BitVec.ofNat 1024 (s.readNat slot 128)
    let s := (s.correct x.area 64).correct slot 128
    match launchCode s d true p with
    | some e => some (s.consumePacket ctx i e)
    | none =>
      match launchProbe (askerDie ctx d) p s with
      | (s', some (f, acc)) =>
        if f.code = cPage then (if s.asking d ctx f.addr then none else some (s'.agentFault d ctx acc f.addr f.hint))
        else some (s'.consumePacket ctx i (Config.submitStatus i).toNat)
      | (s', none) =>
        if s'.launchRoom d p then some ((s'.createLaunch d ctx (pkPrio p) p).1.consumePacket ctx i 0) else none
def execDispatcherLaunchService (ctx : Nat) (s : State) : Host.Outcome State Fault Refusal := occur (s.serveSubmission ctx)

end Sys2Proof.Machine
end

