-- ==== Sys2Proof/Machine/Firmware.lean ====
section
/-! DEFINITION. The service firmware: kill records, the fault queue, contexts and their termination, submission areas, layout
tables and page tables (spec/07, R206, R208; spec/11, R320, R321, R327, R328; spec/12, R357, R358, R361 to R364; spec/15, R418,
R431, R434 to R437; spec/18, R447 to R449, R452). -/

namespace Sys2Proof.Machine

/-- What the world outside the package or its service firmware does: nothing of it happens while bring-up has not exposed the
ports (R455). -/
def State.up (s : State) : Bool := s.ports.all (· == .exposed)
def occurUp (s : State) (r : Option State) : Host.Outcome State Fault Refusal := occur (if s.up then r else none)

/-! ### Ranges of memory -/

/-- A range of memory holds zeros and no errors, and no cache holds a line of it. -/
def State.clearRange (s : State) (pa n : Nat) : State :=
  let inside (a : Nat) : Bool := decide (pa ≤ a) && decide (a < pa + n)
  { s with mem := s.mem.filter fun e => !inside e.1
           stale := s.stale.filter fun e => !inside e.1
           unc := s.unc.filter fun g => !inside (32 * g)
           corr := s.corr.filter fun g => !inside (32 * g)
           lines := s.lines.filter fun e => !inside (128 * e.1) }
/-- The firmware clears a range: its monitored words change too (R351). -/
def State.zeroRange (s : State) (pa n : Nat) : State := (s.clearRange pa n).notifyRange pa n
/-- Dirty lines of a range are written back from every L1 and L2, and no L1 holds one (R208, step 3). -/
def State.flushRange (s : State) (pa n : Nat) : State :=
  (s.linesIn pa n).foldl (fun s l =>
    (s.recall l).cleanL2 l) s
/-- Translations into a range leave every TLB (R208, step 1). -/
def State.dropInto (s : State) (pa n : Nat) : State :=
  { s with tlb := s.tlb.filter fun e => !(decide (pa < pteAddr e.entry + 2 ^ e.log) && decide (pteAddr e.entry < pa + n)) }

/-! ### Kill records (R418, R449) -/

def KillRec.bytes (r : KillRec) : List Byte :=
  bytesOf 8 r.xpc.toNat ++ bytesOf 8 r.xaddr.toNat ++ bytesOf 4 r.xcause.toNat ++ bytesOf 2 r.req.toNat ++ bytesOf 1 r.ctx ++
    bytesOf 1 r.flags.toNat ++ bytesOf 4 r.seq ++ bytesOf 4 0
/-- Whether the kill ring of a record's context has room, or there is no such ring. -/
def State.killRoom (s : State) (r : KillRec) : Bool :=
  let x := s.context r.ctx
  x.area == 0 ||
    (!x.frozen.contains 3 && decide ((s.ctl r.ctx 0x30 + 2 ^ 64 - s.ctl r.ctx 0x38) % 2 ^ 64 < 128))
/-- The oldest record that finds room is written, and the killed party's resources are free. A context without a
submission area has no host to forward it to. -/
def State.writeKill (s : State) (d : Nat) : Option State :=
  match (s.die d).kills.find? s.killRoom with
  | none => none
  | some r =>
    let s := s.modDie d fun x => { x with kills := x.kills.erase r }
    let a := (s.context r.ctx).area
    let s :=
      if a = 0 then s
      else
        let n := s.ctl r.ctx 0x30
        let s := s.correct a 64
        ((s.writeHome (a + 0xA000 + 32 * (n % 128)) r.bytes).setCtl r.ctx 0x30 (n + 1)).raiseMsix r.ctx 0
    some (s.sweep r.pack)
def execKillRecordWrite (die : Nat) (s : State) : Host.Outcome State Fault Refusal := occur (s.writeKill die)

/-! ### Context termination (R436) -/

/-- The word of an agent that does not wait: written when its page is there and not lost. -/
def State.wordIfThere (s : State) (d ctx : Nat) (va w : Word64) : State × Bool :=
  match s.agentWord d ctx va w false with
  | (s', .done) => (s', true)
  | (_, .dropped) | (_, .page _) => (s, false)

/-- R321: the rows of a context leave an OPEN batch, and are reported in the others. -/
def State.loseRows (s : State) (d ctx : Nat) : State :=
  let mine (r : Row) : Bool := Row.ctx r == ctx
  let after (b : Batch) : Batch :=
    if b.st == .opened then { b with rows := b.rows.filter fun r => !mine r }
    else { b with rows := b.rows.map fun r => if mine r then { r with reported := true } else r }
  let gone := (s.die d).batches.flatMap fun b =>
    if b.st == .opened then [] else (b.rows.filter fun r => mine r && !r.reported).map (statusWrite b.number 0xFFFFFFFF)
  let s := s.modDie d fun x => { x with batches := x.batches.map after }
  gone.foldl (fun s w => (s.wordIfThere d w.ctx w.va w.word).1) s

/-- The calls of a context are completed with RESET (R326). -/
def State.resetCalls (s : State) (cl ctx : Nat) : State :=
  let mine := (s.cluster cl).mailbox.filter (·.ctx == ctx)
  let s := if mine.isEmpty then s else s.modCluster cl fun x => { x with mailbox := x.mailbox.filter (·.ctx != ctx) }
  mine.foldl (fun s m => (s.wordIfThere (dieOf cl) ctx m.done (svcWord svcRESET 0 0)).1) s

/-- The launches of a context end: KILLED where the word's page is there (R306). -/
def State.endLaunches (s : State) (ctx : Nat) : State :=
  (s.launches.filter fun e => e.2.ctx == ctx).foldl (fun s e =>
    let va := pkDone e.2.packet
    if va = 0 then s.dropLaunch e.1
    else
      match s.wordIfThere (launchDie e.1) ctx va (e.2.word true) with
      | (s, true) => s.launchWritten e.1 e.2
      | (s, false) => s.dropLaunch e.1) s

/-- Entries leave the fault ring of a die, and the list of those that wait for it. -/
def Die.dropFaults (x : Die) (gone : FaultEntry → Bool) : Die :=
  { x with faults := x.faults.filter fun e => !gone e, faultCons := x.faultCons + (x.faults.filter gone).length,
           faultWait := x.faultWait.filter fun e => !gone e }
/-- What the dies and clusters hold for a context is discarded. -/
def State.forgetContext (s : State) (ctx : Nat) : State :=
  let bank (e : Nat × Bank) : Nat × Bank :=
    if e.2.bound == some ctx then (e.1, { e.2 with bound := none, elems := [] }) else e
  let cluster (x : Cluster) : Cluster :=
    { x with banks := x.banks.map bank, tasks := x.tasks.filter (·.ctx != ctx) }
  let die (x : Die) : Die :=
    { x.dropFaults fun e => e.ctx == ctx with
      statusWrites := x.statusWrites.filter (·.ctx != ctx), spill := x.spill.filter (·.ctx != ctx),
      spillWait := x.spillWait.filter (·.ctx != ctx) }
  let freed := (s.clusters.filter fun e => e.2.tasks.any (·.ctx == ctx)).map (·.1)
  let s := (s.clusters.map (·.1)).foldl (fun s cl => s.modCluster cl cluster) s
  let s := (s.dies.map (·.1)).foldl (fun s d => s.modDie d die) s
  (List.range 96).foldl State.clearTaskBank (freed.foldl State.gainRoom s)

/-- Tables of the package: groups, slots, monitors, the layout table, TLBs. -/
def State.forgetTables (s : State) (ctx : Nat) : State :=
  let group (x : GroupEntry) : GroupEntry := if x.st != .free && x.ctx == ctx then x.freed else x
  let slot (x : Slot) : Slot := if x.st != .free && x.ctx == ctx then x.freed else x
  let invalid (e : Nat × BitVec 512) : Nat × BitVec 512 :=
    if e.1 / 65536 = ctx then (e.1, e.2 &&& ~~~(BitVec.twoPow 512 (8 * 0x35 + 7))) else e
  let s := { s with groups := s.groups.map fun (e : Nat × GroupEntry) => (e.1, group e.2)
                    slots := s.slots.map fun (e : Nat × Slot) => (e.1, slot e.2)
                    layout := (s.layout.map invalid).filter fun e => e.2 != 0
                    tlb := s.tlb.filter fun e => e.ctx != ctx }
  let s := s.freeMonitors fun m => m.ctx == ctx
  -- the firmware's own context has no tables until it launches again (R303)
  if ctx = 0 then s.setContext 0 { s.context 0 with root := 0 } else s

/-- R436, with the KILL sub-code of its kill records. -/
def State.terminate (s : State) (ctx sub : Nat) : State :=
  let s := s.setContext ctx { s.context ctx with enabled := false, handles := [] }
  let s := (List.range 8).foldl (fun s d => s.loseRows d ctx) s
  let s := (List.range 96).foldl (fun s cl => s.resetCalls cl ctx) s
  let s := (s.packs.filter fun e => e.2.ctx == ctx).foldl (fun s e => s.killPack e.1 sub none) s
  ((s.endLaunches ctx).forgetContext ctx).forgetTables ctx

/-- R436, R446, R452: the control words are cleared, and the function is no longer frozen. -/
def State.resetFunction (s : State) (ctx : Nat) : Option State :=
  if ctx = 0 then none
  else
    let s := s.terminate ctx 2
    let x := s.context ctx
    let s := if x.area = 0 then s else (List.range 8).foldl (fun s i => s.setCtl ctx (8 * i) 0) s
    some (s.setContext ctx { s.context ctx with frozen := [] })
def execVirtualFunctionReset (ctx : Nat) (s : State) : Host.Outcome State Fault Refusal := occurUp s (s.resetFunction ctx)

/-- Nothing of an earlier context of the tag is left (R436). -/
def State.tagFree (s : State) (ctx : Nat) : Bool :=
  !(s.context ctx).enabled && s.packs.all (fun e => e.2.ctx != ctx) && s.launches.all (fun e => e.2.ctx != ctx) &&
    (List.range 8).all fun d => (s.die d).kills.all fun r => r.ctx != ctx
/-- R447, R448: a function is enabled with a cleared submission area and a layout table of invalid entries. -/
def State.enableFunction (s : State) (ctx area root : Nat) : Option State :=
  match s.target area with
  | .dram d =>
    if ctx = 0 ∨ area = 0 ∨ !s.tagFree ctx ∨ (s.die d).status = .offline then none
    else
      let s := s.zeroRange area 65536
      let s := { s with layout := s.layout.filter fun e => e.1 / 65536 != ctx }
      some (s.setContext ctx { enabled := true, root, share := 0, snap := false, area, frozen := [], handles := [] })
  | .host _ | .peer _ | .absent => none
def execVirtualFunctionEnable (ctx area root : Nat) (s : State) : Host.Outcome State Fault Refusal :=
  occurUp s (s.enableFunction ctx area root)

/-! ### Settings (R320, R321, R33, R437) -/

def execSetShareGroup (ctx group : Nat) (s : State) : Host.Outcome State Fault Refusal :=
  occurUp s (if 256 ≤ group then none else some (s.setContext ctx { s.context ctx with share := group }))
def execSnapshotEnable (ctx : Nat) (on : Bool) (s : State) : Host.Outcome State Fault Refusal :=
  occurUp s (some (s.setContext ctx { s.context ctx with snap := on }))
def execSetSliceLength (die log2 : Nat) (s : State) : Host.Outcome State Fault Refusal :=
  occurUp s (if log2 < 16 ∨ 24 < log2 then none else some (s.modDie die fun x => { x with sliceLog := log2 }))
/-- An OPEN batch that holds T rows already is READY. -/
def execSetBatchThreshold (die t : Nat) (s : State) : Host.Outcome State Fault Refusal :=
  let close (b : Batch) : Batch := if b.st == .opened && decide (t ≤ b.rows.length) then { b with st := .ready } else b
  occurUp s (if t < 1 ∨ 256 < t then none
    else some (s.modDie die fun x => { x with threshold := t, batches := x.batches.map close }))

/-! ### Posts and freezing (R448, R449, R452) -/

/-- A function is frozen for a reason, unless it is already: FRZ shows the reason that came first, and its packs are
pre-empted for reasons 1 and 2 (DESIGN CHOICE, log 74). -/
def State.freeze (s : State) (ctx reason : Nat) : State :=
  let x := s.context ctx
  if x.frozen.contains reason then s
  else
    let y := { x with frozen := x.frozen ++ [reason] }
    let s := (s.setContext ctx y).setCtl ctx 0x28 (256 + (y.frozen.head?).getD 0)
    if reason = 3 then s
    else s.drainAll (·.ctx == ctx)
/-- After a write to the control words: a count that decreased, or runs too far ahead of what has been consumed, freezes. -/
def State.checkControl (s0 s : State) (ctx : Nat) : State :=
  let ahead (off limit : Nat) (s : State) : Bool :=
    decide (s.ctl ctx off < s0.ctl ctx off) || decide (limit < s.ctl ctx off - s.ctl ctx (off + 8))
  let s := if ahead 0 256 s then s.freeze ctx 1 else s
  let s := if ahead 0x10 64 s then s.freeze ctx 2 else s
  if s.ctl ctx 0x30 < s.ctl ctx 0x38 then s.freeze ctx 3 else s
/-- A host writes a control word of its submission area. -/
def State.writeControl (s : State) (ctx off : Nat) (v : Word64) : Option State :=
  if !(s.context ctx).enabled then none else some (State.checkControl s (s.setCtl ctx off v.toNat) ctx)
def execHostSubmissionPost (ctx : Nat) (value : BitVec 64) (s : State) : Host.Outcome State Fault Refusal :=
  occurUp s (s.writeControl ctx 0 value)
def execLayoutRingPost (ctx : Nat) (value : BitVec 64) (s : State) : Host.Outcome State Fault Refusal :=
  occurUp s (s.writeControl ctx 0x10 value)
def execHostControlWordWrite (ctx offset : Nat) (value : BitVec 64) (s : State) : Host.Outcome State Fault Refusal :=
  occurUp s (if offset = 0 ∨ offset = 0x10 ∨ 0x40 ≤ offset ∨ offset % 8 ≠ 0 then none else s.writeControl ctx offset value)

/-! ### Layout commands (R361 to R363) -/

/-- The first failing reason of R362. -/
def layoutRefusal (e : BitVec 512) : Option Nat :=
  let f := lyFmt e
  let d := lyDims e
  let dims := [0, 1, 2, 3, 4]
  if !(decide (f < 0x14) || (decide (0x20 ≤ f) && decide (f ≤ 0x23))) then some 1
  else if d < 1 ∨ 5 < d ∨ lyField e 0x37 72 ≠ 0 ∨ lyField e 0x35 8 / 8 % 8 ≠ 0 then some 2
  else if dims.any fun i =>
      if i < d then lyExt e i == 0 || decide (2 ^ 23 < lyExt e i)
      else lyExt e i != 1 || lyBox e i != 1 || (i != 0 && lyStride e i != 0) then some 3
  else if lyPt e && (!lyPlane e || lyBox e 0 != 128 || decide (128 < lyBox e 1)) then some 4
  else none
/-- CTX set to the context and VALID to 1. -/
def layoutInstalled (ctx : Nat) (e : BitVec 512) : BitVec 512 :=
  (e &&& ~~~(BitVec.ofNat 512 (0xFF * 2 ^ (8 * 0x36)))) ||| BitVec.ofNat 512 (ctx * 2 ^ (8 * 0x36) + 2 ^ (8 * 0x35 + 7))

/-- A layout command. -/
structure LayoutCmd where
  opc : Nat
  count : Nat
  first : Nat
  reserved : Bool
  src : Word64
  done : Word64
deriving DecidableEq, Repr
def State.layoutCmd (s : State) (ctx i : Nat) : LayoutCmd :=
  let a := (s.context ctx).area + 0x9000 + 64 * (i % 64)
  { opc := s.readNat a 4, count := s.readNat (a + 4) 4, first := s.readNat (a + 8) 4,
    reserved := s.readNat (a + 0xC) 4 != 0 || s.readNat (a + 0x20) 32 != 0, src := u64 (s.readNat (a + 0x10) 8),
    done := u64 (s.readNat (a + 0x18) 8) }
def LayoutCmd.bad (x : LayoutCmd) : Bool :=
  !(x.opc == 1 || x.opc == 2) || decide (x.count < 1) || decide (65536 < x.count) || decide (65536 < x.first + x.count) ||
    x.reserved || (x.opc == 1 && x.src.toNat % 64 != 0) || x.done.toNat % 8 != 0

def State.setLayout (s : State) (ctx h : Nat) (e : BitVec 512) : State := { s with layout := wr 0 s.layout (layoutKey ctx h) e }
/-- Entries copied in ascending handle order: the state, and the handle and reason of the first that is refused. -/
def copyEntries (a : Asker) (ctx src : Nat) : List Nat → State → State × Option (Nat × Nat)
  | [], s => (s, none)
  | h :: r, s =>
    let e := BitVec.ofNat 512 (ofBytes (lookBytes s a src 64))
    let s := lookCorrect s a src 64
    match layoutRefusal e with
    | some n => (s, some (h, n))
    | none => copyEntries a ctx (src + 64) r (s.setLayout ctx h (layoutInstalled ctx e))
def clearEntries (ctx : Nat) (hs : List Nat) (s : State) : State :=
  hs.foldl (fun s h => s.setLayout ctx h (s.layoutEntry ctx h &&& ~~~(BitVec.twoPow 512 (8 * 0x35 + 7)))) s

/-- The completion word of R363. -/
def layoutWord (index reason code : Nat) : Word64 := u64 (index * 2 ^ 32 + reason * 256 + code)
/-- What a command does, and its completion word. -/
def State.layoutEffect (s : State) (ctx d : Nat) (x : LayoutCmd) : State × Word64 :=
  let a := askerDie ctx d
  let hs := (List.range x.count).map (x.first + ·)
  let there (acc : Acc) (va : Word64) (n : Nat) : Bool := (bufferCheck a acc va n s).2 == .there
  if x.bad then (s, layoutWord 0 0 3)
  else if (x.opc == 1 && !there .read x.src (64 * x.count)) || !there .write x.done 8 then (s, layoutWord 0 0 4)
  else if x.opc = 2 then (clearEntries ctx hs s, layoutWord 0 0 1)
  else
    match copyEntries a ctx x.src.toNat hs s with
    | (s, none) => (s, layoutWord 0 0 1)
    | (s, some (h, n)) => (s, layoutWord h n 2)
/-- The firmware serves the next command of a ring: INVAL in one event, everything else in the other. -/
def State.serveLayout (s : State) (ctx : Nat) (inval : Bool) : Option State :=
  let y := s.context ctx
  let i := s.ctl ctx 0x18
  let x := s.layoutCmd ctx i
  if !y.enabled || y.stopped || s.ctl ctx 0x10 ≤ i || (x.opc == 2) != inval then none
  else
    let d := (s.homeDie y.area).getD 0
    let s := (s.correct y.area 64).correct (y.area + 0x9000 + 64 * (i % 64)) 64
    let (s, w) := s.layoutEffect ctx d x
    let s := if x.done.toNat % 8 = 0 then (s.wordIfThere d ctx x.done w).1 else s
    some (s.setCtl ctx 0x18 (i + 1))
def execLayoutSet (ctx : Nat) (s : State) : Host.Outcome State Fault Refusal := occur (s.serveLayout ctx false)
def execLayoutInval (ctx : Nat) (s : State) : Host.Outcome State Fault Refusal := occur (s.serveLayout ctx true)

/-! ### Page tables (R357, R358) -/

def execPageTableUpdate (pa : Nat) (entry : BitVec 64) (s : State) : Host.Outcome State Fault Refusal :=
  occurUp s (match s.target pa with
    | .dram _ => if pa % 8 = 0 then some (s.writeHome pa (bytesOf 8 entry.toNat)) else none
    | .host _ | .peer _ | .absent => none)

/-- The level, and the address of the entry, at which a walk finds no present entry. -/
def missingFrom (s : State) (va : Nat) : Nat → Nat → Nat → Option (Nat × Nat)
  | 0, _, _ => none
  | k + 1, level, t =>
    let at' := t + 8 * pteIndex level va
    let e := u64 (s.readNat at' 8)
    if !pteP e then some (level, at')
    else if pteBad s level e || pteLeaf e then none
    else missingFrom s va k (level + 1) (pteAddr e)

/-- An entry written into a table: at its place, or at the 16 places of a 32 MiB page (R357). -/
def State.writePlaces (s : State) (wide : Bool) (at' : Nat) (e : Word64) : State :=
  if wide then (List.range 16).foldl (fun s i => s.writeHome (at' / 128 * 128 + 8 * i) (bytesOf 8 e.toNat)) s
  else s.writeHome at' (bytesOf 8 e.toNat)
/-- An entry is a leaf of 32 MiB. -/
def pteWide (e : Word64) : Bool := pteLeaf e && pteSize e == 2
/-- An entry written into a table; a 32 MiB leaf fills its 16 places. -/
def State.writeEntry (s : State) (at' : Nat) (e : Word64) : State := s.writePlaces (pteWide e) at' e
/-- R431, step 3: a page is cleared and mapped where the walk found nothing. -/
def State.mapPage (s : State) (ctx va : Nat) (e : Word64) : Option State :=
  match missingFrom s va 4 0 (s.context ctx).root with
  | none => some s
  | some (level, at') =>
    if pteP e && pteLeaf e && !pteBad s level e && s.target (pteAddr e) != .absent then
      some ((s.zeroRange (pteAddr e) (2 ^ pteLog e)).writeEntry at' e)
    else none

/-! ### Spilled records (R310) -/

/-- The firmware answers a request for memory for one record more: the record enters the list, or its context is terminated;
otherwise the oldest record of the list moves to the queue that gained room first. -/
def State.spillMove (s : State) (d : Nat) : Option State :=
  let x := s.die d
  match x.spillWait with
  | [] => s.spillOne d
  | t :: rest =>
    let s := s.setDie d { x with spillWait := rest }
    some (if Config.spillMemory d x.spill.length then s.modDie d fun y => { y with spill := y.spill ++ [t] }
      else s.terminate t.ctx 1)
def execSpillMove (die : Nat) (s : State) : Host.Outcome State Fault Refusal := occur (s.spillMove die)

/-! ### The launch of the service firmware (R303) -/

/-- A launch in the firmware's own context, whose packet keeps the PRIO that it gives. -/
def State.firmwareLaunch (s : State) (d root : Nat) (p : BitVec 1024) : Option State :=
  if (s.die d).status = .offline ∨ (launchCode s d true p).isSome then none
  else
    let s := s.setContext 0 { s.context 0 with root := root }
    match launchProbe (askerDie 0 d) p s with
    | (_, some _) => none
    | (s, none) => if s.launchRoom d p then some (s.createLaunch d 0 (pkPrio p) p).1 else none

/-! ### The fault queue (R327, R328, R431) -/

/-- The 32 bytes of an entry (R327). -/
def FaultEntry.bytes (e : FaultEntry) (valid : Nat) : List Byte :=
  bytesOf 8 e.va.toNat ++ bytesOf 8 e.lanes.toNat ++ bytesOf 4 e.seq ++ bytesOf 2 e.merge ++ bytesOf 2 e.req.toNat ++
    bytesOf 1 e.ctx ++ bytesOf 1 e.acc.toNat ++ bytesOf 1 e.hint.toNat ++ bytesOf 1 valid ++ bytesOf 4 0
/-- Every field of an entry is written to its place in the ring, and then VALID. -/
def State.writeFault (s : State) (e : FaultEntry) : State :=
  if e.place = 0 then s else (s.writeHome e.place (e.bytes 0)).writeHome (e.place + 0x1B) [1]
/-- The next entry enters the ring of its die, which has 2^n places of 32 bytes from its base (R299); as long as the firmware
has given no base it stands nowhere in memory (log 55). -/
def State.enterFault (s : State) (d : Nat) : Option State :=
  let x := s.die d
  match x.faultWait with
  | [] => none
  | e :: rest =>
    if 2 ^ x.faultLog ≤ x.faultProd - x.faultCons then none
    else
      let place := if x.faultBase = 0 then 0 else x.faultBase + 32 * (x.faultProd % 2 ^ x.faultLog)
      let e := { e with seq := x.faultSeq % 2 ^ 32, place }
      some ((s.setDie d { x with faultWait := rest, faults := x.faults ++ [e],
                                 faultSeq := x.faultSeq + 1, faultProd := x.faultProd + 1 }).writeFault e)
/-- The service firmware gives the ring of a die its place in device memory and its size (R299, R327); entries in it stay. -/
def State.setFaultRing (s : State) (d base log : Nat) : Option State :=
  let x := s.die d
  let there := match s.target base with | .dram _ => base != 0 | .host _ | .peer _ | .absent => false
  if 8 ≤ d ∨ !there ∨ 2 ^ log < x.faultProd - x.faultCons then none else some (s.setDie d { x with faultBase := base, faultLog := log })
def execFaultQueueEntryWrite (die : Nat) (s : State) : Host.Outcome State Fault Refusal := occur (s.enterFault die)

/-- A requester resumes. -/
def State.replay (s : State) (r : Requester) : State :=
  match r with
  | .party u w lanes => s.modParty u w fun p => { p with replay := p.replay &&& ~~~lanes }
  | .copy cl id =>
    match (s.cluster cl).copies.find? fun c => c.id == id with
    | none => s
    | some c =>
      match s.pack c.pack with
      | none => s
      | some k =>
        if c.probing then s.probeCopy k cl { c with pageWait := false } else s.setCopy cl { c with pageWait := false }
  | .agent => s
/-- Whether an address of a context lies in a page on its way to host ownership. -/
def State.vaFlips (s : State) (f : Nat → Bool) (e : FaultEntry) : Bool :=
  match walk s e.ctx (e.va.toNat % 2 ^ 52) with
  | (.leaf, _, p) => f (pteAddr p / 2 ^ pteLog p * 2 ^ pteLog p + e.va.toNat % 2 ^ pteLog p)
  | (.missing _, _, _) | (.malformed, _, _) => false
/-- The oldest entry of a die whose page is not on its way to host ownership is served: with the page mapped its requesters resume, and with them those of every entry of
the same page; without a page its context is terminated. -/
def State.serveFault (s : State) (d : Nat) (entry : Option Word64) : Option State :=
  match (s.die d).faults.find? fun e => !s.vaFlips s.flipping e with
  | none => none
  | some e =>
    match entry with
    | none => some (s.terminate e.ctx 1)
    | some w =>
      (s.mapPage e.ctx (e.va.toNat % 2 ^ 52) w).map fun s =>
        let same (x : FaultEntry) : Bool := x == e || x.covers e.ctx e.va
        let hit := (s.die d).faults.filter same
        let s := s.modDie d fun x => { x.dropFaults same with faultWait := x.faultWait }
        (hit.flatMap (·.list)).foldl State.replay s
def execFaultService (die : Nat) (entry : Option (BitVec 64)) (s : State) : Host.Outcome State Fault Refusal :=
  occurUp s (s.serveFault die entry)

/-! ### Moving pages (R208, R434) -/

def tableEntries (level : Nat) : Nat := match level with | 0 => 1024 | 1 => 8192 | 2 => 256 | _ => 32
/-- Every present entry of a context's tables, with its address. -/
def entriesFrom (s : State) : Nat → Nat → Nat → List (Nat × Word64)
  | 0, _, _ => []
  | k + 1, level, t =>
    (List.range (tableEntries level)).flatMap fun i =>
      let at' := t + 8 * i
      let e := u64 (s.readNat at' 8)
      if !pteP e || pteBad s level e then []
      else (at', e) :: (if pteLeaf e then [] else entriesFrom s k (level + 1) (pteAddr e))
def State.allEntries (s : State) : List (Nat × Word64) :=
  s.contexts.flatMap fun e => entriesFrom s 4 0 e.2.root

/-- R208, step 1: the device's translations of a page go; from now on its page is present for nobody. -/
def State.startFlip (s : State) (ctx va : Nat) (entry : Word64) : Option State :=
  match walk s ctx va with
  | (.leaf, at', e) =>
    let n := 2 ^ pteLog e
    if s.flips.any fun f => decide (f.pa < pteAddr e + n) && decide (pteAddr e < f.pa + 2 ^ f.log) then none
    else
      let s := s.dropInto (pteAddr e) n
      some { s with flips := s.flips ++ [{ pa := pteAddr e, log := pteLog e, place := at', entry, stage := .invalidated }] }
  | (.missing _, _, _) | (.malformed, _, _) => none
def execOwnershipFlip (ctx va : Nat) (entry : BitVec 64) (s : State) : Host.Outcome State Fault Refusal :=
  occurUp s (s.startFlip ctx va entry)
/-- A lane copy that was translated before has not moved its bytes yet (R208, step 2). -/
def State.inFlight (s : State) (f : Flip) : Bool :=
  s.packs.any fun e => e.2.lcopies.any fun x => x.moves.any fun m =>
    decide (m.1 < f.pa + 2 ^ f.log) && decide (f.pa < m.1 + m.2.1)
/-- Step 5: the table entry named becomes what the firmware gave; an entry of another place that maps the frame maps nothing
any more (DESIGN CHOICE, log 75); the accesses that met the flip are replayed. -/
def State.endFlip (s : State) (f : Flip) : State :=
  let mine (a : Nat) : Bool := decide (f.pa ≤ a) && decide (a < f.pa + 2 ^ f.log)
  let same (a : Nat) : Bool := if f.log = 25 then a / 128 == f.place / 128 else a == f.place
  let others := s.allEntries.filter fun e => pteLeaf e.2 && mine (pteAddr e.2) && !same e.1
  let waits := s.vaFlips mine
  let hit := (List.range 8).flatMap fun d => ((s.die d).faults ++ (s.die d).faultWait).filter waits
  let s := (List.range 8).foldl (fun s d => s.modDie d fun x => x.dropFaults waits) s
  let s := others.foldl (fun s e => s.writeHome e.1 (bytesOf 8 (e.2 &&& ~~~1#64).toNat))
    (s.writePlaces (f.log == 25 || pteWide f.entry) f.place f.entry)
  let s := { s with flips := s.flips.erase f }
  (hit.flatMap (·.list)).foldl State.replay s
/-- The next step of a page on its way to host ownership. -/
def State.stepFlip (s : State) (pa : Nat) : Option State :=
  match s.flips.find? fun f => f.pa == pa with
  | none => none
  | some f =>
    let step (st : FlipStage) (s : State) : State := { s with flips := s.flips.map fun x => if x.pa = pa then { x with stage := st } else x }
    match f.stage with
    | .invalidated => if s.inFlight f then none else some (step .quiet s)
    | .quiet => some (step .written (s.flushRange pa (2 ^ f.log)))
    | .written => some (step .transferred s)
    | .transferred => some (s.endFlip f)

/-- A physical address after a page has moved. -/
def movedTo (pa n new a : Nat) : Nat := if pa ≤ a ∧ a < pa + n then new + (a - pa) else a
/-- An entry that leads into a page that moves. -/
def movedEntry (s : State) (pa n new : Nat) (e : Word64) : Word64 :=
  let a := movedTo pa n new (pteAddr e)
  let home := match s.target a with | .dram d | .host d => d | .peer _ | .absent => pteHome e
  (e &&& ~~~(u64 (2 ^ 52 - 256)) &&& ~~~(u64 (15 * 2 ^ 56))) ||| u64 (a / 256 * 256) ||| u64 (home * 2 ^ 56)

/-- The bytes and the errors of a range stand in another. -/
def State.moveRange (s : State) (pa n new : Nat) : State :=
  let inside (a : Nat) : Bool := decide (pa ≤ a) && decide (a < pa + n)
  let bytes := s.mem.filter fun e => inside e.1
  let shift (g : Nat) : Nat := movedTo pa n new (32 * g) / 32
  let bad := s.unc.filter fun g => inside (32 * g)
  let corr := s.corr.filter fun g => inside (32 * g)
  let s := (s.clearRange new n).clearRange pa n
  { s with mem := bytes.foldl (fun m e => wr 0 m (movedTo pa n new e.1) e.2) s.mem
           unc := s.unc ++ bad.map shift, corr := s.corr ++ corr.map shift }

/-- The entries of a slice beyond the 256 that it has room for stand in the overflow list (R350). -/
def State.spread (s : State) (ms : List Monitor) : List Monitor :=
  ms.foldl (fun acc m =>
    let here := acc.filter fun x => !x.overflow && s.sliceOf x.pa == s.sliceOf m.pa
    acc ++ [if 256 ≤ here.length then { m with overflow := true } else m]) []
/-- The monitors of a page follow it: where its new slices have room, and those of slices that it leaves (R350, R353). -/
def State.moveMonitors (s : State) (pa n new : Nat) : State :=
  let mine := s.monitors.filter fun m => decide (pa ≤ m.pa) && decide (m.pa < pa + n)
  let slices := ((mine.map fun m => s.sliceOf m.pa) ++ mine.map fun m => s.sliceOf (movedTo pa n new m.pa)).eraseDups
  let s := { s with monitors := s.spread (s.monitors.map fun (m : Monitor) => { m with pa := movedTo pa n new m.pa }) }
  (slices.foldl (fun s x => s.moveIn x s.monitors.length) s).notifyRange new n

/-- R434: a page moves off a DRAINING die by the steps of R208, and everything that names it follows: table entries, roots,
submission areas, fault rings, monitors and lane copies. Tables and submission areas stay in device memory (R357, R448;
DEDUCED, log 90). -/
def State.evacuate (s : State) (pa log new : Nat) : Option State :=
  let n := 2 ^ log
  let inside (a : Nat) : Bool := decide (pa ≤ a) && decide (a < pa + n)
  let hits := s.allEntries.filter fun e => inside (pteAddr e.2)
  match s.target pa with
  | .dram d =>
    let free := match s.target new with
      | .dram d' => (s.die d').status == .online
      | .host _ => hits.all (fun e => pteLeaf e.2) && s.contexts.all fun e => !((e.1 != 0 && inside e.2.area) || inside e.2.root)
      | .peer _ | .absent => false
    let free := free && !s.flips.any fun f => decide (f.pa < pa + n) && decide (pa < f.pa + 2 ^ f.log)
    if (s.die d).status ≠ .draining ∨ !free ∨ hits.any (fun e => pteLeaf e.2 && decide (log < pteLog e.2)) then none
    else
      let s := ((s.dropInto pa n).flushRange pa n).dropCode pa n
      let s := hits.foldl (fun s e => s.writeHome e.1 (bytesOf 8 (movedEntry s pa n new e.2).toNat)) s
      let s := s.moveRange pa n new
      let moved (a : Nat) : Nat := movedTo pa n new a
      let ctx (x : Context) : Context :=
        { x with root := if x.enabled || x.root != 0 then moved x.root else 0, area := if x.area = 0 then 0 else moved x.area }
      let place (a : Nat) : Nat := if a = 0 then 0 else moved a
      let entry (y : FaultEntry) : FaultEntry := { y with place := place y.place }
      let ring (y : Die) : Die := { y with faultBase := place y.faultBase, faults := y.faults.map entry }
      let copy (x : LaneCopy) : LaneCopy := { x with moves := x.moves.map fun m => (moved m.1, m.2) }
      let pack (k : Pack) : Pack := { k with lcopies := k.lcopies.map copy }
      let s := { s with ctxs := s.ctxs.map fun (e : Nat × Context) => (e.1, ctx e.2)
                        packs := s.packs.map fun (e : Nat × Pack) => (e.1, pack e.2)
                        dies := s.dies.map fun (e : Nat × Die) => (e.1, ring e.2) }
      some (s.moveMonitors pa n new)
  | .host _ | .peer _ | .absent => none
def execPageEvacuation (pa log newPa : Nat) (s : State) : Host.Outcome State Fault Refusal := occurUp s (s.evacuate pa log newPa)

end Sys2Proof.Machine
end

