-- ==== Sys2Proof/Machine/Package.lean ====
section
/-! DEFINITION. Hosts, peers, dies, power, freezing, security, snapshots and bring-up (spec/01, R13, R45; spec/07, R206;
spec/08, R245; spec/14, R398; spec/15, R434, R435; spec/18, R446, R450 to R455). -/

namespace Sys2Proof.Machine

/-! ### Accesses from outside (R206, R245, R450) -/

/-- The new value of an atomic of an outside party. -/
def outerNew (op w old : Nat) (x cmp : Word64) : Nat :=
  if op = 10 then (if old = cmp.toNat % 2 ^ w then x.toNat % 2 ^ w else old) else atomNew op w old (x.toNat % 2 ^ w)
/-- An access performed at the home slice: L1 copies are recalled. -/
def State.outerAccess (s : State) (a : OuterAccess) : State :=
  match a with
  | .read pa n => (s.recall (pa / 128)).correct pa n
  | .write pa bs => s.writeHome pa bs
  | .atomic pa wide op x cmp =>
    let n := if wide then 8 else 4
    s.writeHome pa (bytesOf n (outerNew op (8 * n) (s.readNat pa n) x cmp))
def outerPa : OuterAccess → Nat
  | .read pa _ | .write pa _ | .atomic pa _ _ _ _ => pa
def outerLen : OuterAccess → Nat
  | .read _ n => n | .write _ bs => bs.length | .atomic _ wide _ _ _ => if wide then 8 else 4
/-- The address lies in device memory or in a host window. -/
def State.reachable (s : State) (pa : Nat) : Bool :=
  match s.target pa with | .dram _ | .host _ => true | .peer _ | .absent => false
/-- A host's access; after a write, the control words of the submission area that it may have changed are checked (R452). -/
def State.hostAccess (s : State) (a : OuterAccess) : State :=
  let write (pa : Nat) (bs : List Byte) : State :=
    let s' := s.writeHome pa bs
    (s.ctxs.filter fun e => e.2.enabled && decide (e.2.area ≤ pa) && decide (pa < e.2.area + 0x40)).foldl
      (fun t e => State.checkControl s t e.1) s'
  match a with
  | .read _ _ => s.outerAccess a
  | .write pa bs => write pa bs
  | .atomic pa wide op x cmp =>
    let n := if wide then 8 else 4
    write pa (bytesOf n (outerNew op (8 * n) (s.readNat pa n) x cmp))

def execHostMemoryAccess (acc : OuterAccess) (s : State) : Host.Outcome State Fault Refusal :=
  occurUp s (if acc.wf && s.reachable (outerPa acc) then some (s.hostAccess acc) else none)
/-- A host snoop of a line of a host window. -/
def execHostSnoop (pa : Nat) (s : State) : Host.Outcome State Fault Refusal :=
  occurUp s (match s.target pa with
    | .host _ => some (s.recall (pa / 128))
    | .dram _ | .peer _ | .absent => none)

def State.linkIdle (s : State) (l : Nat) : Bool := s.linkDown.getLsbD l || s.linkFrozen.getLsbD l
/-- The access lies in a window that was granted to the remote package of the link (R450). -/
def State.granted (s : State) (link package : Nat) (a : OuterAccess) : Bool :=
  s.grants.any fun g =>
    g.link == link && g.package == package && decide (g.base ≤ outerPa a) && decide (outerPa a + outerLen a ≤ g.base + g.size)
def State.freezeLink (s : State) (link : Nat) : State := { s with linkFrozen := s.linkFrozen ||| BitVec.twoPow 12 link }
/-- R450, R452: performed, answered absent, or the end of the link's service; a window opened, or refused. -/
def State.peerFlit (s : State) (link : Nat) (flit : PeerFlit) : State :=
  if s.linkIdle link then s
  else
    match flit with
    | .access p a => if !s.granted link p a then s.freezeLink link else if s.reachable (outerPa a) then s.outerAccess a else s
    | .malformed => s.freezeLink link
    | .request p base size ok => if ok then { s with grants := s.grants ++ [{ link, package := p, base, size }] } else s
def execPeerAccess (link : Nat) (flit : PeerFlit) (s : State) : Host.Outcome State Fault Refusal :=
  occurUp s (if 12 ≤ link ∨ !flit.wf then none else some (s.peerFlit link flit))
def execPeerLinkDown (link : Nat) (s : State) : Host.Outcome State Fault Refusal :=
  occurUp s (if 12 ≤ link then none else some { s with linkDown := s.linkDown ||| BitVec.twoPow 12 link })
def execLinkRetrain (link : Nat) (s : State) : Host.Outcome State Fault Refusal :=
  occurUp s (if s.linkFrozen.getLsbD link then some { s with linkFrozen := s.linkFrozen &&& ~~~(BitVec.twoPow 12 link) } else none)

/-- R206: the service firmware defines a window, or ends one. -/
def execWindowDefinition (window : Nat) (binding : Option Window) (s : State) : Host.Outcome State Fault Refusal :=
  occurUp s (if window < 1 ∨ 4096 ≤ window then none
    else some { s with windows := match binding with | some w => cset s.windows window w | none => cdel s.windows window })

/-! ### Power (R451) -/

def powerFloor (h : Nat) : Nat := if h < 8 then 160 else if h < 10 then 45 else if h = 10 then 60 else 0
def poolHolder : Nat := 11
def State.heldUnits (s : State) (h : Nat) : Nat := (s.held[h]?).getD 0
def State.lendable (s : State) (h : Nat) : Nat := s.heldUnits h - powerFloor h
/-- Units move from one holder to another. -/
def State.moveUnits (s : State) (a b n : Nat) : State :=
  { s with held := (s.held.set a (s.heldUnits a - n)).set b ((s.held.set a (s.heldUnits a - n))[b]?.getD 0 + n) }
/-- Whom a die asks: the pool, then the other compute dies in ascending order from its own. -/
def lendersOf (b : Nat) : List Nat :=
  poolHolder :: (if b < 8 then (List.range 7).map fun i => (b + 1 + i) % 8 else List.range 8)
/-- A loan grows by n units. -/
def addLoan (l : List Loan) (lender borrower n : Nat) : List Loan :=
  if l.any fun x => x.lender == lender && x.borrower == borrower then
    l.map fun x => if x.lender = lender ∧ x.borrower = borrower then { x with units := x.units + n } else x
  else l ++ [{ lender, borrower, units := n, recalled := 0 }]
/-- A request to the first holder in the order that can lend, which grants what it has above its floor. -/
def State.borrow (s : State) (b l n : Nat) : Option State :=
  if 10 ≤ b ∨ n = 0 ∨ !(lendersOf b).contains l ∨ ((lendersOf b).takeWhile (· != l)).any fun x => s.lendable x != 0 then none
  else
    let g := min n (s.lendable l)
    some (if g = 0 then s else { s.moveUnits l b g with loans := addLoan s.loans l b g })
def execBorrowRequest (borrower lender units : Nat) (s : State) : Host.Outcome State Fault Refusal :=
  occurUp s (s.borrow borrower lender units)

def State.loan (s : State) (l b : Nat) : Option Loan := s.loans.find? fun x => x.lender == l && x.borrower == b
def State.setLoan (s : State) (y : Loan) : State :=
  { s with loans := (s.loans.map fun x => if x.lender = y.lender ∧ x.borrower = y.borrower then y else x).filter fun x =>
      x.units != 0 }
/-- A lender recalls units that are lent and not recalled yet. -/
def execLoanRecall (lender borrower units : Nat) (s : State) : Host.Outcome State Fault Refusal :=
  occurUp s (match s.loan lender borrower with
    | none => none
    | some x =>
      if units = 0 ∨ x.units < x.recalled + units then none else some (s.setLoan { x with recalled := x.recalled + units }))
/-- The borrower repays recalled units that it holds. -/
def execLoanRepayment (lender borrower units : Nat) (s : State) : Host.Outcome State Fault Refusal :=
  occurUp s (match s.loan lender borrower with
    | none => none
    | some x =>
      if units = 0 ∨ x.recalled < units ∨ s.heldUnits borrower < units then none
      else some ((s.moveUnits borrower lender units).setLoan { x with units := x.units - units, recalled := x.recalled - units }))

/-- A die repays what it owes as far as it holds units: what it still owes to each lender. -/
def State.repayAll (d : Nat) : List Loan → State → State × List (Nat × Nat)
  | [], s => (s, [])
  | x :: r, s =>
    let n := min x.units (s.heldUnits d)
    let (s, owed) := State.repayAll d r (s.moveUnits d x.lender n)
    (s, if x.units = n then owed else (x.lender, x.units - n) :: owed)
/-- What a borrower owes to the die passes to those that the die still owes, in order, and the rest of it to the pool. -/
def passClaim (borrower : Nat) : Nat → List (Nat × Nat) → List Loan → List (Nat × Nat) × List Loan
  | n, [], l => ([], if n = 0 then l else addLoan l poolHolder borrower n)
  | n, (a, m) :: owed, l =>
    let k := min n m
    let l := if a = borrower ∨ k = 0 then l else addLoan l a borrower k
    if k = m then passClaim borrower (n - k) owed l else ((a, m - k) :: owed, l)
def passClaims (owed : List (Nat × Nat)) (claims others : List Loan) : List Loan :=
  (claims.foldl (fun (x : List (Nat × Nat) × List Loan) y => passClaim y.borrower y.units x.1 x.2) (owed, others)).2
/-- R451: a die that goes OFFLINE repays its loans and returns its own units to the pool. What it lent is owed to those that
it cannot repay, and then to the pool (DESIGN CHOICE, log 20). -/
def State.powerOff (s : State) (d : Nat) : State :=
  let mine := s.loans.filter fun x => x.borrower == d && x.lender != d
  let claims := s.loans.filter fun x => x.lender == d && x.borrower != d
  let others := s.loans.filter fun x => x.borrower != d && x.lender != d
  let (s, owed) := State.repayAll d mine s
  { s.moveUnits d poolHolder (s.heldUnits d) with loans := passClaims owed claims others }

/-- R452, reason 4: a power guard trips and nobody can lend: the cluster is frozen and its packs are pre-empted. -/
def State.tripGuard (s : State) (cl : Nat) : Option State :=
  if 96 ≤ cl ∨ (lendersOf (dieOf cl)).any fun h => s.lendable h != 0 then none
  else
    let s := s.modCluster cl fun x => { x with frozen := true }
    some (s.drainAll (·.cluster == cl))
def execPowerGuardTrip (cluster : Nat) (s : State) : Host.Outcome State Fault Refusal := occurUp s (s.tripGuard cluster)

/-! ### Die states (R434, R435, R455) -/

def State.setStatus (s : State) (d : Nat) (st : DieStatus) (r : OfflineRequest) : State :=
  s.modDie d fun x => { x with status := st, request := r }

def execOrderlyOfflineRequest (die : Nat) (s : State) : Host.Outcome State Fault Refusal :=
  occurUp s (match (s.die die).status with
    | .online => some (s.setStatus die .draining .pending)
    | .draining => some s
    | .offline => some (s.setStatus die .offline .done))
def execEvacuationFailed (die : Nat) (s : State) : Host.Outcome State Fault Refusal :=
  occurUp s (match (s.die die).status with
    | .draining => some (s.setStatus die .draining .failed)
    | .online | .offline => none)
def execOfflineRequestCancel (die : Nat) (s : State) : Host.Outcome State Fault Refusal :=
  occurUp s (match (s.die die).status with
    | .draining => some (s.setStatus die .online .none)
    | .online | .offline => some s)

/-- Landed warps of a die, and warps in its landing queue. -/
def State.landed (s : State) (d : Nat) : List (Nat × Nat) :=
  s.packs.flatMap fun e => (e.2.parties.filter fun (q : Nat × Party) =>
    q.2.detached && !q.2.ended &&
      (match q.2.life with
       | .migrating t => t == d
       | .running => dieOf q.2.place.cluster == d
       | .exited | .killed => false)).map fun q => (e.1, q.1)
/-- A page is homed on the die: a submission area, a table, or a page that an entry maps. -/
def State.pagesOn (s : State) (x : Context) (d : Nat) : Bool :=
  let on (a : Nat) : Bool := match s.target a with | .dram e => e == d | .host _ | .peer _ | .absent => false
  (x.area != 0 && on x.area) || on x.root ||
    (entriesFrom s 4 0 x.root).any fun e => if pteLeaf e.2 then pteHome e.2 == d else on (pteAddr e.2)
/-- Records that R435 discards with a die, of a context. -/
def State.recordsOn (s : State) (ctx d : Nat) : Bool :=
  (clustersOf d).any (fun cl => (s.cluster cl).tasks.any (·.ctx == ctx)) || (s.die d).spill.any (·.ctx == ctx) ||
    (s.die d).spillWait.any (·.ctx == ctx) ||
    (s.die d).batches.any (fun b => b.rows.any fun r => Row.ctx r == ctx) ||
    s.monitors.any fun m => m.ctx == ctx && s.homeDie m.pa == some d
def groupKeys (d : Nat) : List Nat := (List.range 512).map (512 * d + ·)
def slotKeys (d : Nat) : List Nat := (List.range 1024).map (1024 * d + ·)
/-- R434: nothing is left on the die. -/
def State.drained (s : State) (d : Nat) : Bool :=
  let x := s.die d
  s.packs.all (fun e => e.2.die != d || e.2.state == .retired) && (s.landed d).isEmpty &&
    (groupKeys d).all (fun g => (s.group g).st == .free) && (slotKeys d).all (fun k => (s.slot k).st == .free) &&
    (clustersOf d).all (fun cl => (s.cluster cl).tasks.isEmpty) && x.spill.isEmpty && x.spillWait.isEmpty && x.batches.all (·.rows.isEmpty) &&
    x.faults.isEmpty && x.faultWait.isEmpty && s.contexts.all fun e => !s.pagesOn e.2 d
def execDrainComplete (die : Nat) (s : State) : Host.Outcome State Fault Refusal :=
  occurUp s (match (s.die die).status with
    | .draining => if s.drained die then some ((s.setStatus die .offline .done).powerOff die) else none
    | .online | .offline => none)

/-- Groups and slots of a die that is lost (R340, R383): free; the parties that wait on a group leave it, and those that wait
for a slot are released with HND.SEQ sub-code 6. -/
def State.loseTables (s : State) (d : Nat) : State :=
  let s := (groupKeys d).foldl (fun s g =>
    let x := s.group g
    if x.st == .free then s
    else (x.members.foldl (fun s m => s.release m [0, notMember]) s).setGroup g x.freed) s
  (slotKeys d).foldl (fun s k =>
    let x := s.slot k
    if x.st == .free then s
    else
      (x.queue ++ (x.rest.map (·.1)).toList).foldl (fun s w => s.giveAnswer w (seqFault 6))
        (s.setSlot k { x.freed with queue := [] })) s

/-- R435: a landed warp is killed by itself. -/
def State.loseWarp (s : State) (e : Nat × Nat) : State :=
  match s.party e.1 e.2 with
  | none => s
  | some p => if p.ended then s else ((s.killRecord e.1 e.2 p.killPc 0 0x315 false).endParty e.1 e.2 true).tryRetire e.1

def State.forceOffline (s : State) (d : Nat) : State :=
  let owners := (s.contexts.filter fun e => s.pagesOn e.2 d || s.recordsOn e.1 d).map (·.1)
  let away := s.landed d
  let s := { s.setStatus d .offline (s.die d).request with lostDies := s.lostDies ++ [d] }
  let s := (s.packs.filter fun e => e.2.die == d).foldl (fun s e => s.killPack e.1 3 none) s
  let s := away.foldl State.loseWarp s
  let s := s.loseTables d
  let s := owners.foldl (fun s ctx => s.terminate ctx 2) s
  let s := s.modDie d fun x =>
    { x.dropFaults fun _ => true with
      posters := [], batches := [], statusWrites := [], spill := [], spillWait := [], gained := [], landing := [] }
  let s := (clustersOf d).foldl (fun s cl => s.modCluster cl fun x => { x with tasks := [], mailbox := [] }) s
  s.powerOff d
def execForcedOffline (die : Nat) (s : State) : Host.Outcome State Fault Refusal :=
  occurUp s (match (s.die die).status with
    | .online | .draining => some (s.forceOffline die)
    | .offline => some s)

/-- A die reset clears the state of an OFFLINE die: its clusters, tables, TLBs, caches and memory. Kill records that it
has not written yet are waited for. -/
def State.resetDie (s : State) (d : Nat) : Option State :=
  if (s.die d).status ≠ .offline ∨ !(s.die d).kills.isEmpty then none
  else
    let mine (cl : Nat) : Bool := dieOf cl == d
    let s := (clustersOf d).foldl (fun s cl =>
      ((s.lines.filter fun e => e.2.heldBy cl).map (·.1)).foldl (fun s l => s.evictL1 cl l) s) s
    let s := s.zeroRange (d * 2 ^ 36) (2 ^ 36)
    some { s with
      dies := wr Die.zero s.dies d { Die.zero with status := .offline, cleared := true, request := (s.die d).request }
      clusters := s.clusters.filter fun e => !mine e.1
      groups := s.groups.filter fun e => e.1 / 512 != d
      slots := s.slots.filter fun e => e.1 / 1024 != d
      tlb := s.tlb.filter fun e =>
        !(if e.unit < 100 then e.unit == d else if e.unit < 1000 then mine (e.unit - 100) else mine ((e.unit - 1000) / 16))
      icache := s.icache.filter fun e => !mine (e.1 / 2 ^ 52)
      lostDies := s.lostDies.filter (· != d) }
def execDieReset (die : Nat) (s : State) : Host.Outcome State Fault Refusal := occurUp s (s.resetDie die)
def execDieReadmission (die : Nat) (s : State) : Host.Outcome State Fault Refusal :=
  occurUp s (match (s.die die).status with
    | .online => some s
    | .draining => none
    | .offline =>
      if (s.die die).cleared then
        some (s.modDie die fun x => { x with status := .online, cleared := false, request := .none })
      else none)

/-- R453: both signatures of an image verify under the fused keys, and its version is not below the fuse. -/
def imageAccepted (x : SignedImage) : Bool :=
  x.rsaOk && x.slhOk && x.rsaKey == Config.rsaDigest && x.slhKey == Config.slhDigest && decide (Config.fusedVersion ≤ x.version)
/-- R455: the stages of bring-up. Stages 1 and 2 hold reset, an image that is refused leaves recovery mode, and the die whose
self-test fails stays OFFLINE. -/
def State.bringUp (s : State) (o : BringUp) : State :=
  let port : Port := if !(o.power && o.boot) then .silent else if !imageAccepted o.image then .recovery else .exposed
  let up (d : Nat) : Bool := port == .exposed && o.selfTest.getLsbD d
  let dies := (List.range 8).foldl (fun m d => if up d then m else cset m d { Die.zero with status := .offline }) []
  { State.reset with
    dies := dies, ports := List.replicate 4 port, choices := s.choices
    images := if port == .exposed then [o.image.measure] else [], version := if port == .exposed then o.image.version else 0 }
def execPackageReset (outcome : BringUp) (s : State) : Host.Outcome State Fault Refusal := occur (some (s.bringUp outcome))

/-! ### Security, snapshots, counters (R45, R398, R453, R454) -/

/-- What a report states now, and its signatures. -/
def State.attest (s : State) (nonce : BitVec 256) : Report :=
  let body : Attested :=
    { nonce, identity := Config.identity, version := s.version, images := s.images,
      dies := (List.range 8).filter fun d => (s.die d).status == .online,
      functions := (s.ctxs.filter (·.2.enabled)).map (·.1) }
  { body, rsa := (Config.signatures body).1, slh := (Config.signatures body).2 }
def execAttestationRequest (nonce : BitVec 256) (s : State) : Host.Outcome State Fault Refusal :=
  occurUp s (some { s with report := some (s.attest nonce) })
/-- It works only with the debug fuse, and latches nothing before the last snapshot is read out. -/
def execDebugPortTrigger (s : State) : Host.Outcome State Fault Refusal :=
  occurUp s (some (if Config.debugFuse && !s.triggered then s.fireTrigger true 0 0 else s))
def execSnapshotReadout (s : State) : Host.Outcome State Fault Refusal :=
  occurUp s (if s.triggered then some { s with triggered := false } else none)

def execArithmeticClockCycle (cluster : Nat) (s : State) : Host.Outcome State Fault Refusal :=
  occurUp s (if 96 ≤ cluster then none else some (s.count cluster 0 1))
/-- The counters of R408 that count soft errors: of a bank, of the refetches, of the die's L2 and of its stack. -/
def execSoftErrorCounterClear (cluster number : Nat) (s : State) : Host.Outcome State Fault Refusal :=
  occurUp s (if 96 ≤ cluster then none
    else if number = 0x30 then some (s.modDie (dieOf cluster) fun x => { x with softL2 := 0 })
    else if number = 0x31 then some (s.modDie (dieOf cluster) fun x => { x with softDram := 0 })
    else if (0x10 ≤ number ∧ number ≤ 0x2F) ∨ number = 0x32 then
      some (s.modCluster cluster fun x => { x with counters := cdel x.counters number })
    else none)

/-! ### What no row of the opcode table names (log 72) -/

/-- An error in a granule of a copy. -/
def Checks.strike (x : Checks) (i : Nat) (unc : Bool) : Checks :=
  let b : BitVec 4 := BitVec.twoPow 4 i
  if unc then { unc := x.unc ||| b, corr := x.corr &&& ~~~b } else { x with corr := x.corr ||| (b &&& ~~~x.unc) }
/-- A soft error strikes a copy that stands somewhere (R209), or a fetch line on its way (R51). -/
def State.strike (s : State) (x : Strike) : Option State :=
  match x with
  | .dram g unc =>
    match s.target (32 * g) with
    | .dram _ | .host _ => some (s.setDramChecks (g / 4) ((s.dramChecks (g / 4)).strike (g % 4) unc))
    | .peer _ | .absent => none
  | .l2 g unc =>
    let y := s.line (g / 4)
    if y.inL2 then some (s.setLine (g / 4) { y with l2 := y.l2.strike (g % 4) unc }) else none
  | .l1 c g unc =>
    let y := s.line (g / 4)
    let z := y.copy c
    if y.heldBy c then
      some (s.setLine (g / 4) { y with copies := cset y.copies c { z with chk := z.chk.strike (g % 4) unc } })
    else none
  | .spad u wg g unc =>
    match s.spad u wg with
    | none => none
    | some y =>
      if y.size ≤ 32 * g then none
      else if unc then
        some (s.setSpad u wg { y with bad := if y.bad.contains g then y.bad else y.bad ++ [g], corr := y.corr.filter (· != g) })
      else if y.bad.contains g || y.corr.contains g then none
      else some (s.setSpad u wg { y with corr := y.corr ++ [g] })
  | .slot k => if (s.slot k).st == .free then none else some (s.setSlot k { s.slot k with bad := true })
  | .fetch c pa =>
    if pa % 64 ≠ 0 ∨ 96 ≤ c ∨ s.linePar.contains (icKey c pa) then none else some { s with linePar := s.linePar ++ [icKey c pa] }
/-- What happens around the part, where it can. -/
def State.outerAct (s : State) (x : Outer) : Option State :=
  if !s.up then none
  else
    match x with
    | .firmwareLaunch d root p => s.firmwareLaunch d root p
    | .faultRing d base log => s.setFaultRing d base log
    | .peerStore pa bs =>
      match s.target pa with
      | .peer _ => if pa % 128 + bs.length ≤ 128 then some (s.putHome pa bs) else none
      | .dram _ | .host _ | .absent => none
    | .strike x => s.strike x

end Sys2Proof.Machine
end

