-- ==== Sys2Proof/Machine/Dispatch.lean ====
section
/-! DEFINITION. The meaning of every step: one arm per constructor of `Instr`, each one direct call. -/

namespace Sys2Proof.Machine

def exec (i : Instr) (s : State) : Host.Outcome State Fault Refusal :=
  match i with
  | .nop o => Sys2Proof.Machine.execNop o s
  | .mov o => Sys2Proof.Machine.execMov o s
  | .movi o => Sys2Proof.Machine.execMovi o s
  | .moviSx o => Sys2Proof.Machine.execMoviSx o s
  | .moviZx o => Sys2Proof.Machine.execMoviZx o s
  | .moviHi o => Sys2Proof.Machine.execMoviHi o s
  | .iadd o => Sys2Proof.Machine.execIadd o s
  | .isub o => Sys2Proof.Machine.execIsub o s
  | .imul o => Sys2Proof.Machine.execImul o s
  | .imulh o => Sys2Proof.Machine.execImulh o s
  | .imad o => Sys2Proof.Machine.execImad o s
  | .imin o => Sys2Proof.Machine.execImin o s
  | .imax o => Sys2Proof.Machine.execImax o s
  | .iabsd o => Sys2Proof.Machine.execIabsd o s
  | .and o => Sys2Proof.Machine.execAnd o s
  | .or o => Sys2Proof.Machine.execOr o s
  | .xor o => Sys2Proof.Machine.execXor o s
  | .andn o => Sys2Proof.Machine.execAndn o s
  | .lut3 o => Sys2Proof.Machine.execLut3 o s
  | .shl o => Sys2Proof.Machine.execShl o s
  | .shr o => Sys2Proof.Machine.execShr o s
  | .sar o => Sys2Proof.Machine.execSar o s
  | .rot o => Sys2Proof.Machine.execRot o s
  | .bfx sx o => Sys2Proof.Machine.execBfx sx o s
  | .bfi o => Sys2Proof.Machine.execBfi o s
  | .popc o => Sys2Proof.Machine.execPopc o s
  | .clz o => Sys2Proof.Machine.execClz o s
  | .brev o => Sys2Proof.Machine.execBrev o s
  | .icmp o => Sys2Proof.Machine.execIcmp o s
  | .sel o => Sys2Proof.Machine.execSel o s
  | .lea m o => Sys2Proof.Machine.execLea m o s
  | .xtnd sx o => Sys2Proof.Machine.execXtnd sx o s
  | .plop o => Sys2Proof.Machine.execPlop o s
  | .pmovPack o => Sys2Proof.Machine.execPmovPack o s
  | .pmovLoad o => Sys2Proof.Machine.execPmovLoad o s
  | .idivQ o => Sys2Proof.Machine.execIdivQ o s
  | .idivR o => Sys2Proof.Machine.execIdivR o s
  | .bra o => Sys2Proof.Machine.execBra o s
  | .brx o => Sys2Proof.Machine.execBrx o s
  | .call o => Sys2Proof.Machine.execCall o s
  | .callIndirect o => Sys2Proof.Machine.execCallIndirect o s
  | .ret o => Sys2Proof.Machine.execRet o s
  | .yield o => Sys2Proof.Machine.execYield o s
  | .exit o => Sys2Proof.Machine.execExit o s
  | .loops o => Sys2Proof.Machine.execLoops o s
  | .wsync o => Sys2Proof.Machine.execWsync o s
  | .bar o => Sys2Proof.Machine.execBar o s
  | .fadd o => Sys2Proof.Machine.execFadd o s
  | .fsub o => Sys2Proof.Machine.execFsub o s
  | .fmul o => Sys2Proof.Machine.execFmul o s
  | .ffma o => Sys2Proof.Machine.execFfma o s
  | .fmin o => Sys2Proof.Machine.execFmin o s
  | .fmax o => Sys2Proof.Machine.execFmax o s
  | .fcmp o => Sys2Proof.Machine.execFcmp o s
  | .frcp o => Sys2Proof.Machine.execFrcp o s
  | .frsq o => Sys2Proof.Machine.execFrsq o s
  | .fsqrt o => Sys2Proof.Machine.execFsqrt o s
  | .fdiv o => Sys2Proof.Machine.execFdiv o s
  | .fexp2 o => Sys2Proof.Machine.execFexp2 o s
  | .flog2 o => Sys2Proof.Machine.execFlog2 o s
  | .fsinp o => Sys2Proof.Machine.execFsinp o s
  | .fcosp o => Sys2Proof.Machine.execFcosp o s
  | .ftanh o => Sys2Proof.Machine.execFtanh o s
  | .fcvtF o => Sys2Proof.Machine.execFcvtF o s
  | .fcvtI o => Sys2Proof.Machine.execFcvtI o s
  | .fcvtRint o => Sys2Proof.Machine.execFcvtRint o s
  | .icvt o => Sys2Proof.Machine.execIcvt o s
  | .fclass o => Sys2Proof.Machine.execFclass o s
  | .pfma2 o => Sys2Proof.Machine.execPfma2 o s
  | .fdot2 o => Sys2Proof.Machine.execFdot2 o s
  | .idot4 o => Sys2Proof.Machine.execIdot4 o s
  | .bqnt o => Sys2Proof.Machine.execBqnt o s
  | .bdeq o => Sys2Proof.Machine.execBdeq o s
  | .shflMap o => Sys2Proof.Machine.execShflMap o s
  | .shflRot o => Sys2Proof.Machine.execShflRot o s
  | .shflGath o => Sys2Proof.Machine.execShflGath o s
  | .voteTest o => Sys2Proof.Machine.execVoteTest o s
  | .voteMask o => Sys2Proof.Machine.execVoteMask o s
  | .voteSum o => Sys2Proof.Machine.execVoteSum o s
  | .wredAdd o => Sys2Proof.Machine.execWredAdd o s
  | .wredMin o => Sys2Proof.Machine.execWredMin o s
  | .wredMax o => Sys2Proof.Machine.execWredMax o s
  | .wredAnd o => Sys2Proof.Machine.execWredAnd o s
  | .wredOr o => Sys2Proof.Machine.execWredOr o s
  | .wredXor o => Sys2Proof.Machine.execWredXor o s
  | .wscanAdd o => Sys2Proof.Machine.execWscanAdd o s
  | .wscanMin o => Sys2Proof.Machine.execWscanMin o s
  | .wscanMax o => Sys2Proof.Machine.execWscanMax o s
  | .wscanAnd o => Sys2Proof.Machine.execWscanAnd o s
  | .wscanOr o => Sys2Proof.Machine.execWscanOr o s
  | .wscanXor o => Sys2Proof.Machine.execWscanXor o s
  | .rdlane o => Sys2Proof.Machine.execRdlane o s
  | .rdlaneRank o => Sys2Proof.Machine.execRdlaneRank o s
  | .wrlane o => Sys2Proof.Machine.execWrlane o s
  | .wrlaneRank o => Sys2Proof.Machine.execWrlaneRank o s
  | .matchClass o => Sys2Proof.Machine.execMatchClass o s
  | .matchPeers o => Sys2Proof.Machine.execMatchPeers o s
  | .elect o => Sys2Proof.Machine.execElect o s
  | .kput o => Sys2Proof.Machine.execKput o s
  | .kget o => Sys2Proof.Machine.execKget o s
  | .kpeek o => Sys2Proof.Machine.execKpeek o s
  | .karm o => Sys2Proof.Machine.execKarm o s
  | .kred o => Sys2Proof.Machine.execKred o s
  | .kclr o => Sys2Proof.Machine.execKclr o s
  | .kstat o => Sys2Proof.Machine.execKstat o s
  | .rdep o => Sys2Proof.Machine.execRdep o s
  | .rdepLanding pack => Sys2Proof.Machine.execRdepLanding pack s
  | .ld sx o => Sys2Proof.Machine.execLd sx o s
  | .st o => Sys2Proof.Machine.execSt o s
  | .lds sx o => Sys2Proof.Machine.execLds sx o s
  | .sts o => Sys2Proof.Machine.execSts o s
  | .smarkE o => Sys2Proof.Machine.execSmarkE o s
  | .smarkF o => Sys2Proof.Machine.execSmarkF o s
  | .atomAdd o => Sys2Proof.Machine.execAtomAdd o s
  | .atomUmin o => Sys2Proof.Machine.execAtomUmin o s
  | .atomUmax o => Sys2Proof.Machine.execAtomUmax o s
  | .atomSmin o => Sys2Proof.Machine.execAtomSmin o s
  | .atomSmax o => Sys2Proof.Machine.execAtomSmax o s
  | .atomAnd o => Sys2Proof.Machine.execAtomAnd o s
  | .atomOr o => Sys2Proof.Machine.execAtomOr o s
  | .atomXor o => Sys2Proof.Machine.execAtomXor o s
  | .atomExch o => Sys2Proof.Machine.execAtomExch o s
  | .atomFadd o => Sys2Proof.Machine.execAtomFadd o s
  | .acas o => Sys2Proof.Machine.execAcas o s
  | .fence o => Sys2Proof.Machine.execFence o s
  | .cmaintWbL1 o => Sys2Proof.Machine.execCmaintWbL1 o s
  | .cmaintWbiL1 o => Sys2Proof.Machine.execCmaintWbiL1 o s
  | .cmaintWbMem o => Sys2Proof.Machine.execCmaintWbMem o s
  | .prefL1 o => Sys2Proof.Machine.execPrefL1 o s
  | .prefL2 o => Sys2Proof.Machine.execPrefL2 o s
  | .icinv o => Sys2Proof.Machine.execIcinv o s
  | .ifence o => Sys2Proof.Machine.execIfence o s
  | .bankcfgCache o => Sys2Proof.Machine.execBankcfgCache o s
  | .bankcfgSpad o => Sys2Proof.Machine.execBankcfgSpad o s
  | .bankcfgFifo o => Sys2Proof.Machine.execBankcfgFifo o s
  | .bankSwitchDone cluster bank => Sys2Proof.Machine.execBankSwitchDone cluster bank s
  | .lcopy t o => Sys2Proof.Machine.execLcopy t o s
  | .lcopyLanding pack idx => Sys2Proof.Machine.execLcopyLanding pack idx s
  | .scopy o => Sys2Proof.Machine.execScopy o s
  | .scpmxCopy o => Sys2Proof.Machine.execScpmxCopy o s
  | .scpmxArm o => Sys2Proof.Machine.execScpmxArm o s
  | .sgath o => Sys2Proof.Machine.execSgath o s
  | .sscat o => Sys2Proof.Machine.execSscat o s
  | .scancel o => Sys2Proof.Machine.execScancel o s
  | .sprobe o => Sys2Proof.Machine.execSprobe o s
  | .streamerLanding cluster entry piece => Sys2Proof.Machine.execStreamerLanding cluster entry piece s
  | .streamerCopyCompletion cluster entry => Sys2Proof.Machine.execStreamerCopyCompletion cluster entry s
  | .followOnMplaneEntry cluster slot => Sys2Proof.Machine.execFollowOnMplaneEntry cluster slot s
  | .mplane o => Sys2Proof.Machine.execMplane o s
  | .mplaneBc o => Sys2Proof.Machine.execMplaneBc o s
  | .mscale o => Sys2Proof.Machine.execMscale o s
  | .mepil o => Sys2Proof.Machine.execMepil o s
  | .mzero o => Sys2Proof.Machine.execMzero o s
  | .mplaneStep cluster core => Sys2Proof.Machine.execMplaneStep cluster core s
  | .mscaleStep cluster core => Sys2Proof.Machine.execMscaleStep cluster core s
  | .mepilStep cluster core => Sys2Proof.Machine.execMepilStep cluster core s
  | .mzeroStep cluster core => Sys2Proof.Machine.execMzeroStep cluster core s
  | .engineCommandCompletion cluster core => Sys2Proof.Machine.execEngineCommandCompletion cluster core s
  | .btake o => Sys2Proof.Machine.execBtake o s
  | .bpass o => Sys2Proof.Machine.execBpass o s
  | .btakeService pack who => Sys2Proof.Machine.execBtakeService pack who s
  | .launch o => Sys2Proof.Machine.execLaunch o s
  | .taskq o => Sys2Proof.Machine.execTaskq o s
  | .taskd o => Sys2Proof.Machine.execTaskd o s
  | .tdone o => Sys2Proof.Machine.execTdone o s
  | .spillMove die => Sys2Proof.Machine.execSpillMove die s
  | .fenq o => Sys2Proof.Machine.execFenq o s
  | .fdeq o => Sys2Proof.Machine.execFdeq o s
  | .bqpostJoin o => Sys2Proof.Machine.execBqpostJoin o s
  | .bqpostRow o => Sys2Proof.Machine.execBqpostRow o s
  | .bqpostStep o => Sys2Proof.Machine.execBqpostStep o s
  | .bqpostLeave o => Sys2Proof.Machine.execBqpostLeave o s
  | .bqget o => Sys2Proof.Machine.execBqget o s
  | .bqdone o => Sys2Proof.Machine.execBqdone o s
  | .kelpieStatusWrite die => Sys2Proof.Machine.execKelpieStatusWrite die s
  | .svc o => Sys2Proof.Machine.execSvc o s
  | .svcCompletion cluster => Sys2Proof.Machine.execSvcCompletion cluster s
  | .gopen o => Sys2Proof.Machine.execGopen o s
  | .gjoin o => Sys2Proof.Machine.execGjoin o s
  | .gleave o => Sys2Proof.Machine.execGleave o s
  | .gbar o => Sys2Proof.Machine.execGbar o s
  | .gvoteAny o => Sys2Proof.Machine.execGvoteAny o s
  | .gvoteAll o => Sys2Proof.Machine.execGvoteAll o s
  | .gvoteCount o => Sys2Proof.Machine.execGvoteCount o s
  | .gredAdd o => Sys2Proof.Machine.execGredAdd o s
  | .gredMin o => Sys2Proof.Machine.execGredMin o s
  | .gredMax o => Sys2Proof.Machine.execGredMax o s
  | .gredAnd o => Sys2Proof.Machine.execGredAnd o s
  | .gredOr o => Sys2Proof.Machine.execGredOr o s
  | .gredXor o => Sys2Proof.Machine.execGredXor o s
  | .gstat o => Sys2Proof.Machine.execGstat o s
  | .gclose o => Sys2Proof.Machine.execGclose o s
  | .waitc cmp o => Sys2Proof.Machine.execWaitc cmp o s
  | .warpEviction pack who => Sys2Proof.Machine.execWarpEviction pack who s
  | .waitx o => Sys2Proof.Machine.execWaitx o s
  | .xlate o => Sys2Proof.Machine.execXlate o s
  | .sqopen o => Sys2Proof.Machine.execSqopen o s
  | .sqapp o => Sys2Proof.Machine.execSqapp o s
  | .rebuildComplete slot => Sys2Proof.Machine.execRebuildComplete slot s
  | .sqmatch o => Sys2Proof.Machine.execSqmatch o s
  | .sqmatchLen o => Sys2Proof.Machine.execSqmatchLen o s
  | .sqsave o => Sys2Proof.Machine.execSqsave o s
  | .sqload o => Sys2Proof.Machine.execSqload o s
  | .sqclose o => Sys2Proof.Machine.execSqclose o s
  | .heapClr o => Sys2Proof.Machine.execHeapClr o s
  | .heapPush o => Sys2Proof.Machine.execHeapPush o s
  | .heapMerge o => Sys2Proof.Machine.execHeapMerge o s
  | .heapRead o => Sys2Proof.Machine.execHeapRead o s
  | .heapDraw o => Sys2Proof.Machine.execHeapDraw o s
  | .draw o => Sys2Proof.Machine.execDraw o s
  | .lcwait o => Sys2Proof.Machine.execLcwait o s
  | .lcwaitOldest o => Sys2Proof.Machine.execLcwaitOldest o s
  | .aset o => Sys2Proof.Machine.execAset o s
  | .awaitGe o => Sys2Proof.Machine.execAwaitGe o s
  | .awaitEq o => Sys2Proof.Machine.execAwaitEq o s
  | .xexp o => Sys2Proof.Machine.execXexp o s
  | .xwait o => Sys2Proof.Machine.execXwait o s
  | .pcnt o => Sys2Proof.Machine.execPcnt o s
  | .trap o => Sys2Proof.Machine.execTrap o s
  | .rte o => Sys2Proof.Machine.execRte o s
  | .rteNext o => Sys2Proof.Machine.execRteNext o s
  | .mfs o => Sys2Proof.Machine.execMfs o s
  | .mts o => Sys2Proof.Machine.execMts o s
  | .migrate o => Sys2Proof.Machine.execMigrate o s
  | .migrateLanding die => Sys2Proof.Machine.execMigrateLanding die s
  | .tlbinvPage o => Sys2Proof.Machine.execTlbinvPage o s
  | .tlbinvCtx o => Sys2Proof.Machine.execTlbinvCtx o s
  | .tlbinvAll o => Sys2Proof.Machine.execTlbinvAll o s
  | .snap o => Sys2Proof.Machine.execSnap o s
  | .skipCountForce pack who => Sys2Proof.Machine.execSkipCountForce pack who s
  | .yieldCountdownExpiry pack who lane => Sys2Proof.Machine.execYieldCountdownExpiry pack who lane s
  | .port1Reissue pack who => Sys2Proof.Machine.execPort1Reissue pack who s
  | .killRecordWrite die => Sys2Proof.Machine.execKillRecordWrite die s
  | .faultQueueEntryWrite die => Sys2Proof.Machine.execFaultQueueEntryWrite die s
  | .dispatcherLaunchService ctx => Sys2Proof.Machine.execDispatcherLaunchService ctx s
  | .layoutSet ctx => Sys2Proof.Machine.execLayoutSet ctx s
  | .layoutInval ctx => Sys2Proof.Machine.execLayoutInval ctx s
  | .packPlacement pack cluster => Sys2Proof.Machine.execPackPlacement pack cluster s
  | .packResume pack cluster => Sys2Proof.Machine.execPackResume pack cluster s
  | .priorityPreemption pack => Sys2Proof.Machine.execPriorityPreemption pack s
  | .packDrainComplete pack => Sys2Proof.Machine.execPackDrainComplete pack s
  | .launchCompletionWrite launch => Sys2Proof.Machine.execLaunchCompletionWrite launch s
  | .drainComplete die => Sys2Proof.Machine.execDrainComplete die s
  | .arithmeticClockCycle cluster => Sys2Proof.Machine.execArithmeticClockCycle cluster s
  | .sliceExpiry cluster => Sys2Proof.Machine.execSliceExpiry cluster s
  | .blkrd cluster reply => Sys2Proof.Machine.execBlkrd cluster reply s
  | .blkwr cluster reply => Sys2Proof.Machine.execBlkwr cluster reply s
  | .fopen cluster reply => Sys2Proof.Machine.execFopen cluster reply s
  | .fread cluster reply => Sys2Proof.Machine.execFread cluster reply s
  | .fclose cluster reply => Sys2Proof.Machine.execFclose cluster reply s
  | .nconn cluster reply => Sys2Proof.Machine.execNconn cluster reply s
  | .nread cluster reply => Sys2Proof.Machine.execNread cluster reply s
  | .nwrite cluster reply => Sys2Proof.Machine.execNwrite cluster reply s
  | .nclose cluster reply => Sys2Proof.Machine.execNclose cluster reply s
  | .notify cluster reply => Sys2Proof.Machine.execNotify cluster reply s
  | .faultService die entry => Sys2Proof.Machine.execFaultService die entry s
  | .ownershipFlip ctx va entry => Sys2Proof.Machine.execOwnershipFlip ctx va entry s
  | .hostSnoop pa => Sys2Proof.Machine.execHostSnoop pa s
  | .hostMemoryAccess acc => Sys2Proof.Machine.execHostMemoryAccess acc s
  | .hostSubmissionPost ctx value => Sys2Proof.Machine.execHostSubmissionPost ctx value s
  | .layoutRingPost ctx value => Sys2Proof.Machine.execLayoutRingPost ctx value s
  | .hostControlWordWrite ctx offset value => Sys2Proof.Machine.execHostControlWordWrite ctx offset value s
  | .virtualFunctionReset ctx => Sys2Proof.Machine.execVirtualFunctionReset ctx s
  | .setSliceLength die log2 => Sys2Proof.Machine.execSetSliceLength die log2 s
  | .setBatchThreshold die t => Sys2Proof.Machine.execSetBatchThreshold die t s
  | .setShareGroup ctx group => Sys2Proof.Machine.execSetShareGroup ctx group s
  | .orderlyOfflineRequest die => Sys2Proof.Machine.execOrderlyOfflineRequest die s
  | .evacuationFailed die => Sys2Proof.Machine.execEvacuationFailed die s
  | .offlineRequestCancel die => Sys2Proof.Machine.execOfflineRequestCancel die s
  | .forcedOffline die => Sys2Proof.Machine.execForcedOffline die s
  | .dieReadmission die => Sys2Proof.Machine.execDieReadmission die s
  | .dieReset die => Sys2Proof.Machine.execDieReset die s
  | .packageReset outcome => Sys2Proof.Machine.execPackageReset outcome s
  | .borrowRequest borrower lender units => Sys2Proof.Machine.execBorrowRequest borrower lender units s
  | .loanRecall lender borrower units => Sys2Proof.Machine.execLoanRecall lender borrower units s
  | .loanRepayment lender borrower units => Sys2Proof.Machine.execLoanRepayment lender borrower units s
  | .powerGuardTrip cluster => Sys2Proof.Machine.execPowerGuardTrip cluster s
  | .peerAccess link flit => Sys2Proof.Machine.execPeerAccess link flit s
  | .peerLinkDown link => Sys2Proof.Machine.execPeerLinkDown link s
  | .linkRetrain link => Sys2Proof.Machine.execLinkRetrain link s
  | .attestationRequest nonce => Sys2Proof.Machine.execAttestationRequest nonce s
  | .debugPortTrigger => Sys2Proof.Machine.execDebugPortTrigger s
  | .snapshotReadout => Sys2Proof.Machine.execSnapshotReadout s
  | .softErrorCounterClear cluster number => Sys2Proof.Machine.execSoftErrorCounterClear cluster number s
  | .virtualFunctionEnable ctx area root => Sys2Proof.Machine.execVirtualFunctionEnable ctx area root s
  | .pageTableUpdate pa entry => Sys2Proof.Machine.execPageTableUpdate pa entry s
  | .windowDefinition window binding => Sys2Proof.Machine.execWindowDefinition window binding s
  | .pageEvacuation pa log newPa => Sys2Proof.Machine.execPageEvacuation pa log newPa s
  | .snapshotEnable ctx on => Sys2Proof.Machine.execSnapshotEnable ctx on s

end Sys2Proof.Machine
end

