-- ==== Sys2Proof/Machine/Issue.lean ====
section
/-! DEFINITION. What one step of the package is (spec/01, R24 to R31; spec/02, R82, R84, R85): fetching and decoding an
instruction, the selection of PC groups and of warps, pairs, groups that leave an instruction, the events of the part's
units, and what moves next (log 2). -/

namespace Sys2Proof.Machine

/-! ### Fetch and decode (R46, R50, R51, R80, steps 1 and 2 of R82) -/

/-- The instruction in a slot of a line. -/
def lineInstr (l : BitVec 512) (pc : Word64) (lanes : Lanes) : Except Trap Instr :=
  if !parOk l then .error (trapOf cLine 2 lanes)
  else if !reservedOk l then .error (trapOf cLine 1 lanes)
  else
    match decode (slotWord l (slotOf pc)) with
    | .ok i => .ok i
    | .error .opcode => .error (trapOf cOpcode 0 lanes)
    | .error .field => .error (trapOf cField 0 lanes)

/-- The instruction of a group of a party, or the fault that its fetch meets. -/
def State.instrAt (s : State) (u who : Nat) (pc : Word64) (lanes : Lanes) : State × Except Trap Instr :=
  match s.fetchLine u who pc lanes with
  | (s, .error f) => (s, .error { trapOf f.code f.sub lanes with addr := f.addr, acc := Acc.fetch.code, hint := f.hint })
  | (s, .ok l) => (s, lineInstr l pc lanes)

/-! ### Groups (R24, R27) -/

/-- Lanes of equal PC outside every instruction form one group. -/
def mergeGroups (gs : List Group) : List Group :=
  gs.foldl (fun acc g => if g.wait.isSome || g.held then acc ++ [g] else addLanes acc g.pc g.lanes) []
def Party.merged (p : Party) : Party := { p with groups := mergeGroups p.groups }

/-- Some lanes of a group issue without the others, which stand at their stop point or have come to the PC since. -/
def splitGroups (gs : List Group) (m : Lanes) : List Group :=
  gs.flatMap fun g =>
    if g.wait.isNone && !g.held && g.lanes &&& m != 0 && g.lanes &&& ~~~m != 0 then
      [{ g with lanes := g.lanes &&& m }, { g with lanes := g.lanes &&& ~~~m }]
    else [g]
def Party.split (p : Party) (m : Lanes) : Party := { p with groups := splitGroups p.groups m }

/-- The party executes instructions: it lives, waits for no page, and is on a cluster. Of a warp in which some lanes wait for
a page, R39 says that it stands whole and R432 that its other PC groups run: which of the two is free (log 59). -/
def Pack.executes (k : Pack) (p : Party) : Bool :=
  p.running && (p.replay == 0 || Config.groupsRunOn) && !p.evicted &&
    (p.detached || match k.state with
      | .resident | .draining => true
      | .waiting | .placeable | .saved | .retired => false)

/-- Lanes of a group that may issue: outside every instruction, not held, not sent back (R456), not waiting for a page (R39),
not stopped (R34). -/
def Pack.mayIssue (k : Pack) (who : Nat) (p : Party) (g : Group) : Lanes :=
  if g.wait.isSome || g.held || g.lanes &&& p.reissue != 0 then 0
  else if k.state == .draining && !p.detached then
    (if who = spineWho then 0 else g.lanes &&& ~~~p.replay &&& ~~~(p.atStop g))
  else g.lanes &&& ~~~p.replay

/-! ### The scoreboard (R25, R441) -/

/-- Registers that an operand of a width takes. -/
def specCells (w : Width) : Spec → List Spec
  | .v n => (List.range (w.bits / 32)).map fun i => Spec.v (n + BitVec.ofNat 8 i)
  | .s n => if w = .w128 then [.s n, .s (n + 1)] else [.s n]
  | .k n => [.k n]
  | .h n => [.h n]
  | .a n => [.a n]
  | .const _ => []
  | .special r => [.special r]

def Src.cells (w : Width) : Src → List Spec
  | .reg r _ _ => specCells w r
  | .latch _ _ _ => []
def opOf (i : Instr) : Nat := (i.opSub.map (·.1.toNat)).getD 0
/-- The registers that an instruction reads and writes. -/
def shapeCells (z : Shape) : List Spec :=
  (z.uses.flatMap fun u => Src.cells u.width u.src) ++ z.defs.flatMap fun d => specCells d.2 d.1
/-- A register of a lane, or of the whole party, whose result has not come back. -/
def Busy.blocks (b : Busy) (lanes : Lanes) (cells : List Spec) : Bool :=
  b.regs.any fun r => cells.contains r && (match r with | .v _ => b.lanes &&& lanes != 0 | _ => true)
def Party.lacks (p : Party) (lanes : Lanes) (z : Shape) : Bool := p.busy.any fun b => b.blocks lanes (shapeCells z)
/-- Instructions that read memory deliver their result later: LD, LDS, ATOM and ACAS. The lanes of the group that have left
the instruction wait for it at its next use. -/
def State.markBusy (s : State) (c : Cur) (i : Instr) : State :=
  let op := opOf i
  if op = 0x90 ∨ op = 0x92 ∨ op = 0x95 ∨ op = 0x96 then
    s.modParty c.pack c.who fun p =>
      let m := maskOf ((lanesOf c.lanes).filter fun l => p.pcOf l != c.pc)
      let regs := ((i.shape.map fun z => z.defs.flatMap fun d => specCells d.2 d.1)).getD []
      if m = 0 || regs.isEmpty then p else { p with busy := p.busy ++ [{ lanes := m, regs }] }
  else s
/-- The result comes back. -/
def State.deliver (s : State) (u who : Nat) (b : Busy) : State :=
  s.modParty u who fun p => { p with busy := p.busy.erase b }

/-- A group executes the instruction at its PC. -/
def State.execAt (s : State) (c : Cur) : Host.Outcome State Fault Refusal :=
  match s.instrAt c.pack c.who c.pc c.lanes with
  | (s, .error t) => .next (takeFault s c t)
  | (s, .ok i) =>
    match exec i { s with cur := some c } with
    | .next t => .next (t.markBusy c i)
    | .fault f => .fault f
    | .refused r => .refused r

/-- R25, R266: the group's instruction needs a token that is pending, or a result that has not come back. -/
def State.stalled (s : State) (u who : Nat) (p : Party) (pc : Word64) (lanes : Lanes) : Bool :=
  (p.pending != 0 || !p.busy.isEmpty) &&
    match s.instrAt u who pc lanes with
    | (_, .ok i) => (i.shape.map fun z => stalls p.pending z || p.lacks lanes z).getD false
    | (_, .error _) => false

/-- The eligible PC groups of a party (R25). -/
def State.eligible (s : State) (u who : Nat) (k : Pack) (p : Party) : List (Word64 × Lanes) :=
  if !k.executes p then []
  else
    p.merged.groups.filterMap fun g =>
      let m := k.mayIssue who p g
      if m = 0 || s.stalled u who p g.pc m then none else some (g.pc, m)

/-! ### Selection of groups (R25) -/

/-- The lanes that count for `pop`. -/
def Party.voters (p : Party) (gs : List (Word64 × Lanes)) (m : Lanes) : Lanes :=
  let ready (m : Lanes) : Lanes := maskOf ((lanesOf m).filter fun l => rd 0 p.yield l == 0)
  if gs.any fun g => ready g.2 != 0 then ready m else m
/-- The greatest by a measure, ties to the lower PC. -/
def bestBy (f : Lanes → Nat) (gs : List (Word64 × Lanes)) : Option (Word64 × Lanes) :=
  gs.foldl (fun best g =>
    match best with
    | none => some g
    | some b => if f b.2 < f g.2 || (f b.2 == f g.2 && g.1.ult b.1) then some g else some b) none
/-- The greatest skip count among lanes. -/
def Party.topSkip (p : Party) (m : Lanes) : Nat := (lanesOf m).foldl (fun n l => max n (rd 0 p.skip l).toNat) 0

/-- The groups that ports 0 and 1 issue. -/
def Party.choose (p : Party) (gs : List (Word64 × Lanes)) : Option ((Word64 × Lanes) × Option (Word64 × Lanes)) :=
  let pop (m : Lanes) : Nat := popLanes (p.voters gs m)
  match bestBy pop gs with
  | none => none
  | some first =>
    let others := gs.filter fun g => g.2 != first.2
    match others.filter fun g => g.2 &&& p.forced != 0 with
    | [] => some (first, bestBy pop others)
    | forced => some (first, bestBy p.topSkip forced)

/-- Skip counts and yield countdowns after an issue; a countdown of 1 expires by its own event. -/
def Party.counted (p : Party) (issued : Lanes) : Party :=
  let live := lanesOf p.live
  let up (x : BitVec 7) : BitVec 7 := BitVec.ofNat 7 (min (x.toNat + 1) 127)
  { p with
    skip := live.foldl (fun m l => wr 0 m l (if issued.getLsbD l then 0 else up (rd 0 m l))) p.skip
    forced := p.forced &&& ~~~issued
    yield := live.foldl (fun m l => if 2 ≤ (rd 0 m l).toNat then wr 0 m l (rd 0 m l - 1) else m) p.yield }
/-- The events that follow from the counts. -/
def Party.countEvents (u who : Nat) (p : Party) (expiring : List Nat) : List Action :=
  expiring.map (fun l => Action.event (.yieldCountdownExpiry u who l)) ++
    (if p.newlyForced = 0 then [] else [Action.event (.skipCountForce u who)])

/-! ### Pairs (R26, R84, R85) -/

/-- A predicate: p n as n, q n as 8 + n; the constant p7 is none. -/
def predCell (f : BitVec 4) : List Nat :=
  if f.toNat < 7 ∨ (8 ≤ f.toNat ∧ f.toNat < 12) then [f.toNat] else []
def guardCell (form : Form) : Guard → List Nat
  | .pred n _ => [if form = .unif then 8 + n.toNat % 4 else n.toNat]
  | .always | .never => []
/-- The predicates that a format A word names: what it reads and what it writes. -/
def predsA (op sub : Nat) (form : Form) (o : FmtA) : List Nat × List Nat :=
  let all : List Nat := if form = .unif then [8, 9, 10, 11] else [0, 1, 2, 3, 4, 5, 6]
  let named : List Nat := all.filter fun n => o.ext.getLsbD (n % 8)
  match op, sub with
  | 0x19, _ => ([], predCell o.ext17)
  | 0x1A, _ => (predCell o.ext17, [])
  | 0x1E, 0 => (all, [])
  | 0x1E, _ => ([], named)
  | 0x46, _ | 0x52, _ | 0x60, _ | 0x66, _ | 0x67, _ => ([], predCell o.ext17)
  | 0x61, 0 => (predCell (o.ext.extractLsb' 10 4), predCell o.ext17 ++ predCell (o.ext.extractLsb' 5 4))
  | 0x61, _ => (predCell (o.ext.extractLsb' 10 4), [])
  | _, _ => ([], [])
def preds (i : Instr) (form : Form) : List Nat × List Nat :=
  match i.fields, i.opSub with
  | .a o, some (op, sub) => predsA op.toNat sub.toNat form o
  | .p o, _ =>
    (predCell (o.ext.extractLsb' 14 4) ++ predCell (o.ext.extractLsb' 10 4) ++ predCell (o.ext.extractLsb' 6 4),
     predCell (o.ext.extractLsb' 2 4))
  | _, _ => ([], [])

/-- Rules 2 and 3 of R85: the class of an opcode that may pair. -/
def pairClass (op : Nat) : Option Nat :=
  if 0x01 ≤ op ∧ op ≤ 0x1E then some 0
  else if 0x40 ≤ op ∧ op ≤ 0x57 then some 1
  else if 0x60 ≤ op ∧ op ≤ 0x67 then some 2
  else if 0x90 ≤ op ∧ op ≤ 0x93 then some 3
  else none
def Src.latch? : Src → Option Nat
  | .latch n _ _ => some n.toNat
  | .reg _ _ _ => none
def meets {α : Type} [BEq α] (a b : List α) : Bool := a.any b.contains

/-- R147: instructions that may set bits of FPFLAGS. -/
def raisesFlags : Instr → Bool
  | .fclass _ | .idot4 _ => false
  | .wredAdd o | .wredMin o | .wredMax o | .wscanAdd o | .wscanMin o | .wscanMax o => o.ty == .f32
  | i => pairClass (opOf i) == some 1
/-- R85, for the instructions of slots `slot` and `slot` + 1. The second reads no flag that the first may set; flags that both
set are ORed (R101). A gathering form is neither the lane form nor the uniform form of condition 4, and does not pair
(DESIGN CHOICE, log 61). -/
def mayPair (slot : Nat) (a b : Instr) : Bool :=
  match a.shape, b.shape, pairClass (opOf a), pairClass (opOf b) with
  | some x, some y, some ca, some cb =>
    let writes (z : Shape) : List Spec := z.defs.flatMap fun d => specCells d.2 d.1
    let pa := preds a x.form
    let pb := preds b y.form
    slot ≤ 3 && (ca == 0 || ca != cb) && x.form == y.form && x.form != .gather &&
      !meets (y.uses.flatMap fun u => Src.cells u.width u.src) (writes x ++ if raisesFlags a then [.special .fpflags] else []) &&
      !meets (y.uses.filterMap fun u => Src.latch? u.src) [slot] &&
      !meets (pb.1 ++ guardCell y.form y.guard) pa.2 &&
      !meets (writes x) (writes y) && !meets pa.2 pb.2
  | _, _, _, _ => false

/-- A converged warp co-issues the slot of its PC and the next one. R84 names the rules of R85 alone; a second slot that
waits for a result still on its way (R25) does not co-issue either (DESIGN CHOICE, log 78). -/
def State.pairs (s : State) (u who : Nat) (p : Party) (pc : Word64) (lanes : Lanes) : Bool :=
  match s.fetchLine u who pc lanes with
  | (_, .error _) => false
  | (_, .ok l) =>
    lanes == p.live && pairBit l (slotOf pc) &&
      match lineInstr l pc lanes, lineInstr l (succAddr pc) lanes with
      | .ok a, .ok b => mayPair (slotOf pc) a b && !((b.shape.map (p.lacks lanes)).getD false)
      | _, _ => false

/-! ### The issue of a party -/

def curOf (u who : Nat) (lanes : Lanes) (pc : Word64) (port : Nat) (r : Regs) : Cur :=
  { pack := u, who, lanes, pc, port, regs := r, active := lanes, served := none, kvals := [], again := false }

/-- R30, R408: the issue is counted; the others of the quadrant that could have issued wait one period more. Past 271, where
the condition of R38 fails, the nine bits go on to 511 and stay there (DESIGN CHOICE, log 58). -/
def State.chargeIssue (s : State) (u who : Nat) (pl : Place) (pair : Bool) : State :=
  let same (x : Place) : Bool := x.cluster == pl.cluster && x.core == pl.core && x.quad == pl.quad
  let wait (s0 : State) (v : Nat) (k : Pack) (e : Nat × Party) : Nat × Party :=
    if e.1 = spineWho || !same e.2.place then e
    else if v = u ∧ e.1 = who then (e.1, { e.2 with place := { e.2.place with waits := 0 } })
    else if (s0.eligible v e.1 k e.2).isEmpty && !(k.executes e.2 && e.2.returning != 0) then e
    else (e.1, { e.2 with place := { e.2.place with waits := min (e.2.place.waits + 1) 511 } })
  let s' := { s with packs := s.packs.map fun (e : Nat × Pack) =>
                (e.1, { e.2 with parties := e.2.parties.map (wait s e.1 e.2) }) }
  s'.modCluster pl.cluster fun x => if pair then (x.count 2 1).count 3 1 else x.count 2 1

/-- R31: the rotation of the spine core goes on behind this thread. -/
def State.chargeSpine (s : State) (pl : Place) : State := s.modCluster pl.cluster fun x => { x with turn := (pl.slot + 1) % 4 }

/-- A spine thread issues. -/
def State.issueSpine (s : State) (u : Nat) (p : Party) (g : Word64 × Lanes) : Host.Outcome State Fault Refusal :=
  (s.chargeSpine p.place).execAt (curOf u spineWho g.2 g.1 0 p.regs)

/-- A warp issues one or two groups, or a pair. -/
def State.issueWarp (s : State) (u who : Nat) (p : Party) (first : Word64 × Lanes) (second : Option (Word64 × Lanes)) :
    Host.Outcome State Fault Refusal :=
  let pair := second.isNone && s.pairs u who p first.1 first.2
  let one : Option PortOne :=
    match second with
    | some g => some { pack := u, who, lanes := g.2, pc := g.1, regs := some p.regs }
    | none => if pair then some { pack := u, who, lanes := first.2, pc := succAddr first.1, regs := none } else none
  let issued := first.2 ||| (second.map (·.2)).getD 0
  let expiring := (lanesOf p.live).filter fun l => rd 0 p.yield l == 1
  let q := (((p.merged.split first.2).split ((second.map (·.2)).getD 0)).counted issued)
  let s := (s.chargeIssue u who p.place pair).modParty u who fun x => { q with place := x.place }
  let s := { s with agenda := q.countEvents u who expiring ++ s.agenda, port1 := one }
  s.execAt (curOf u who first.2 first.1 0 p.regs)

/-- A party issues; a group that R456 sent back is put back first. -/
def State.issue (s : State) (u who : Nat) : Host.Outcome State Fault Refusal :=
  match s.pack u, s.party u who with
  | some k, some p =>
    if p.returning ≠ 0 then exec (.port1Reissue u who) { s with agenda := .issue u who :: s.agenda }
    else
      match p.choose (s.eligible u who k p) with
      | none => .next s
      | some (first, second) => if who = spineWho then s.issueSpine u p first else s.issueWarp u who p first second
  | _, _ => .next s

/-- Port 1 follows port 0 (R84, R118, R148). -/
def State.issuePortOne (s : State) (q : PortOne) : Host.Outcome State Fault Refusal :=
  let s := { s with port1 := none }
  match s.party q.pack q.who with
  | none => .next s
  | some p =>
    let p := p.split q.lanes
    if p.groups.any fun g => g.lanes == q.lanes && g.pc == q.pc && g.wait.isNone && !g.held then
      let r := match q.regs with
        | none => p.regs
        | some r => { r with fpmode := p.regs.fpmode, fpflags := p.regs.fpflags }
      (s.setParty q.pack q.who p).execAt (curOf q.pack q.who q.lanes q.pc 1 r)
    else .next s

/-! ### Groups that leave an instruction -/

/-- The waiting group looks at what it waits for again. -/
def State.wake (s : State) (u who : Nat) (lanes : Lanes) : Host.Outcome State Fault Refusal :=
  match s.reload u who with
  | none => .next s
  | some s =>
    match (s.party u who).bind fun p => p.groups.find? fun g => g.lanes == lanes with
    | none => .next s
    | some g =>
      match g.wait with
      | none => .next s
      | some w => s.execAt { curOf u who lanes g.pc w.port w.regs with served := w.served, kvals := w.kvals, again := true }

/-- Waiting groups that may leave: their party is not descheduled, held or stopped. -/
def Pack.mayWake (k : Pack) (who : Nat) (p : Party) : List Lanes :=
  if { p with evicted := false } |> k.executes then
    if k.state == .draining && !p.detached && !(who == spineWho && p.inBankcfg) then []
    else (p.groups.filter fun g => g.wait.isSome && !g.held).map (·.lanes)
  else []
/-- The group gets further. -/
def State.wakes (s : State) (u who : Nat) (lanes : Lanes) : Bool :=
  match s.wake u who lanes with
  | .next s' => decide (s'.party u who ≠ s.party u who)
  | .fault _ | .refused _ => false

/-! ### What may move -/

/-- R30: a party's place in the order of its quadrant. -/
def issueRank (k : Pack) (p : Party) : Nat × Nat × Nat :=
  (3 - k.prio, if 256 ≤ p.place.waits then 512 - p.place.waits else 512, p.place.age)
/-- Parties that can issue. -/
def State.ready (s : State) : List (Nat × Nat × Pack × Party) :=
  s.packs.flatMap fun e =>
    e.2.parties.filterMap fun (x : Nat × Party) =>
      if (e.2.executes x.2 && x.2.returning != 0) || !(s.eligible e.1 x.1 e.2 x.2).isEmpty then
        some (e.1, x.1, e.2, x.2)
      else none
/-- R30, R31: whether another ready party issues before this one. -/
def State.yieldsTo (s : State) (a b : Nat × Nat × Pack × Party) : Bool :=
  let pa := a.2.2.2.place
  let pb := b.2.2.2.place
  pa.cluster == pb.cluster &&
    (if a.2.1 = spineWho then
      b.2.1 == spineWho &&
        decide ((pb.slot + 4 - (s.cluster pa.cluster).turn) % 4 < (pa.slot + 4 - (s.cluster pa.cluster).turn) % 4)
    else
      b.2.1 != spineWho && pa.core == pb.core && pa.quad == pb.quad &&
        before (issueRank b.2.2.1 b.2.2.2) (issueRank a.2.2.1 a.2.2.2))
/-- R27, R141, R143, R177: a group that has been served or released leaves its instruction, and merges, before its party
issues again; its quadrant waits for it. -/
def State.leaves (s : State) (u who : Nat) (k : Pack) (p : Party) : Bool :=
  (k.mayWake who p).any fun m =>
    (p.groups.any fun g => g.lanes == m && (g.wait.bind (·.served)).isSome) && s.wakes u who m
def State.issues (s : State) : List Action :=
  let r := s.ready
  ((r.filter fun a => !r.any fun b => s.yieldsTo a b).filter fun a => !s.leaves a.1 a.2.1 a.2.2.1 a.2.2.2).map fun a =>
    Action.issue a.1 a.2.1
def State.wakeups (s : State) : List Action :=
  s.packs.flatMap fun e =>
    e.2.parties.flatMap fun (x : Nat × Party) =>
      ((e.2.mayWake x.1 x.2).filter fun m => s.wakes e.1 x.1 m).map fun m => Action.wake e.1 x.1 m

/-- Lines that a cluster, or a home slice, may evict: which and when is free (R204; log 69), lines that are retained ahead of
others last (R205). -/
def State.evictions (s : State) : List Action :=
  (s.lines.flatMap fun e => ((List.range 96).filter fun c => e.2.heldBy c && s.nextOut c e.1 (e.2.copy c).rank).map fun c =>
      Action.evict c e.1) ++
    (s.lines.filter fun e => e.2.inL2 && (s.l2Victims ((s.homeDie (128 * e.1)).getD 0)).contains e.1).map fun e =>
      Action.evictL2 e.1
/-- Results that are to come back. -/
def State.deliveries (s : State) : List Action :=
  s.packs.flatMap fun e => e.2.parties.flatMap fun (x : Nat × Party) => x.2.busy.map fun b => Action.deliver e.1 x.1 b
/-- Pages on their way to host ownership (R208). -/
def State.flipSteps (s : State) : List Action :=
  (s.flips.filter fun f => (s.stepFlip f.pa).isSome).map fun f => Action.flip f.pa

/-- Events of a pack, a cluster, a die and a context. -/
def packEvents (e : Nat × Pack) : List Instr :=
  [.rdepLanding e.1, .priorityPreemption e.1, .packDrainComplete e.1] ++
    (List.range e.2.lcopies.length).map (Instr.lcopyLanding e.1) ++
    (e.2.batons.flatMap fun (b : Nat × Baton) => b.2.waits.map fun w => Instr.btakeService e.1 w.1) ++
    (e.2.parties.map fun (x : Nat × Party) => Instr.warpEviction e.1 x.1) ++
    (clustersOf e.2.die).flatMap fun c => [Instr.packPlacement e.1 c, Instr.packResume e.1 c]
def clusterEvents (e : Nat × Cluster) : List Instr :=
  [.svcCompletion e.1] ++ (List.range 32).map (Instr.bankSwitchDone e.1) ++
    (List.range 8).map (Instr.followOnMplaneEntry e.1) ++
    ((List.range 4).flatMap fun c =>
      [Instr.mplaneStep e.1 c, .mscaleStep e.1 c, .mepilStep e.1 c, .mzeroStep e.1 c, .engineCommandCompletion e.1 c]) ++
    e.2.copies.flatMap fun (x : Copy) =>
      .streamerCopyCompletion e.1 x.id :: (List.range x.npieces).map (Instr.streamerLanding e.1 x.id)
def dieEvents (d : Nat) : List Instr :=
  [.spillMove d, .kelpieStatusWrite d, .migrateLanding d, .killRecordWrite d, .faultQueueEntryWrite d, .drainComplete d]
def contextEvents (c : Nat) : List Instr := [.dispatcherLaunchService c, .layoutSet c, .layoutInval c]

/-- An event can occur. -/
def State.occurs (s : State) (i : Instr) : Bool :=
  match exec i s with
  | .next _ => true
  | .fault _ | .refused _ => false
/-- Events that only an issue brings about (R25, R28, R456). -/
def ofIssue : Instr → Bool
  | .skipCountForce _ _ | .yieldCountdownExpiry _ _ _ | .port1Reissue _ _ => true
  | _ => false

/-- The events of the part's own units that can occur. -/
def State.unitEvents (s : State) : List Action :=
  let is := s.packs.flatMap packEvents ++ s.clusters.flatMap clusterEvents ++ (List.range 8).flatMap dieEvents ++
    s.slots.map (fun (e : Nat × Slot) => Instr.rebuildComplete e.1) ++
    s.launches.map (fun (e : Nat × Launch) => Instr.launchCompletionWrite e.1) ++
    s.ctxs.flatMap fun (e : Nat × Context) => contextEvents e.1
  (is.filter s.occurs).map Action.event
/-- The event of the world outside, if it is one that can occur now. -/
def State.outsideEvents (s : State) : List Action :=
  match Config.outside s.choices with
  | none => []
  | some i => if i.shape.isNone && i.wf && !ofIssue i && s.occurs i then [.event i] else []
/-- The same of what no row of the opcode table names. -/
def State.outerEvents (s : State) : List Action :=
  match Config.outer s.choices with
  | none => []
  | some x => if (s.outerAct x).isSome then [.outer x] else []
/-- The clocks of the clusters can always go on once bring-up is complete (R45, R455). -/
def State.clockEvents (s : State) : List Action :=
  if s.up then (List.range 96).map fun c => Action.event (.arithmeticClockCycle c) else []

/-- What the part owes progress to (R38). -/
def State.moves (s : State) : List Action :=
  s.issues ++ s.wakeups ++ s.unitEvents ++ s.flipSteps ++ s.deliveries ++ s.clockEvents
/-- Everything that may move. -/
def State.candidates (s : State) : List Action := s.moves ++ s.outsideEvents ++ s.outerEvents ++ s.evictions
/-- What the part does where it likes: it may leave a parked warp where it is (R354). -/
def Action.optional : Action → Bool
  | .event (.warpEviction _ _) => true
  | _ => false
/-- How often an action has been passed over. -/
def State.passes (s : State) (a : Action) : Nat := ((s.passed.find? fun e => e.1 == a).map (·.2)).getD 0
/-- R38: what has been passed over `Config.patience` times moves, the longest passed over first. -/
def State.overdue (s : State) (moves : List Action) : Option Action :=
  (moves.filter fun a => decide (Config.patience ≤ s.passes a)).foldl (fun best a =>
    match best with
    | none => some a
    | some b => if s.passes b < s.passes a then some a else some b) none
/-- The others of what could have moved are passed over once more. -/
def State.passOver (s : State) (moves : List Action) (a : Action) : State :=
  { s with passed := (moves.filter (· != a)).map fun b => (b, s.passes b + 1) }
/-- What moves next. -/
def State.chosen (s : State) : Option (State × Action) :=
  let moves := s.moves.filter fun a => !a.optional
  match s.overdue moves with
  | some a => some (s.passOver moves a, a)
  | none => (s.pick s.candidates).map fun a => ({ s.passOver moves a with choices := s.choices + 1 }, a)
/-- Slices that have run out (R33). -/
def State.dueSlices (s : State) : List Nat := (s.clusters.map (·.1)).filter s.sliceDue

/-- One action. -/
def State.act (s : State) : Action → Host.Outcome State Fault Refusal
  | .issue u w => s.issue u w
  | .wake u w m => s.wake u w m
  | .event i => exec i s
  | .evict c l => .next (s.evictL1 c l)
  | .evictL2 l => .next (s.evictL2 l)
  | .flip pa => .next ((s.stepFlip pa).getD s)
  | .deliver u w b => .next (s.deliver u w b)
  | .outer x => .next ((s.outerAct x).getD s)

/-- One step of the package: port 1 of an issue under way, what is due, or what is chosen next. -/
def tick (s : State) : Host.Outcome State Fault Refusal :=
  match s.port1 with
  | some q => s.issuePortOne q
  | none =>
    match s.agenda with
    | .event i :: rest =>
      let s := { s with agenda := rest }
      if s.occurs i then exec i s else .next s
    | a :: rest => { s with agenda := rest }.act a
    | [] =>
      if s.servedNow.isSome then .next s.serveReserved
      else
        match s.dueSlices with
        | c :: _ => execSliceExpiry c s
        | [] =>
          match s.chosen with
          | none => .next s
          | some (s, a) => s.act a

end Sys2Proof.Machine
end

