-- ==== Sys2Proof/Machine/Load.lean ====
section
/-! DEFINITION. A program of one instruction, loaded from outside the machine as a host's launch would leave it (log 22):
a resident pack with a warp and a spine thread whose code line is mapped and stands in device memory. -/

namespace Sys2Proof.Machine

/-- R81: the NOP that fills slots. -/
def nopWord : Word96 := 0x000700000000000000000000#96
/-- A fetch line with an instruction in slot 0, every slot a legal target, and its PAR (R48). -/
def codeLine (w : Word96) : BitVec 512 :=
  let body : BitVec 512 := (nopWord ++ nopWord ++ nopWord ++ nopWord ++ w ++ 0xF8000000#32)
  body ||| (parOf body).setWidth 512

/-- The page of the code, mapped one to one: P, W, X, U, leaf, 64 KiB. -/
def codeVa : Nat := 0x10000
def codeEntry : Word64 := u64 (codeVa + 0x1F)
/-- Sixteen warps' worth of registers: 256 vector registers for each warp, one warp, one workgroup. -/
def codePacket : BitVec 1024 := BitVec.ofNat 1024 (0x780 * 2 ^ 128)

def codePlace (slot : Nat) : Place := { cluster := 0, core := 0, quad := 0, slot, age := 0, waits := 0 }
def codePack (u : Nat) : Pack :=
  { launch := 1, num := 0, ctx := 0, packet := codePacket, state := .resident, prio := 0, die := 0, cluster := 0,
    thread := 0, cores := [0],
    parties := [(0, newParty Regs.zero (u64 codeVa) (BitVec.allOnes 64) (codePlace 0)),
                (spineWho, newParty Regs.zero (u64 codeVa) 1 (codePlace 0))],
    kregs := [], spads := [], bars := [], batons := [], lcopies := [], deposits := [], copies := [], cmds := [],
    joins := [], heaps := [], lines := 0, placed := u, savedAt := 0, victimOf := none, reserved := none, holds := [],
    gone := false }

/-- The party that is to issue an instruction: the spine thread where only it may (R68). -/
def issuerOf (w : Word96) : Nat :=
  match decode w with
  | .ok i => match i.shape with
    | some sh => if sh.runs = .spine then spineWho else 0
    | none => 0
  | .error _ => 0

/-- The line in memory, with nothing cached or damaged in its place. -/
def State.loadLine (s : State) (pa : Nat) (l : BitVec 512) : State :=
  let s := s.putHome pa (bytesOf 64 l.toNat)
  { s with icache := s.icache.filter (fun e => e.1 % 2 ^ 52 != pa), linePar := s.linePar.filter (· % 2 ^ 52 != pa),
           lines := s.lines.filter (fun e => e.1 != pa / 128), flips := s.flips.filter fun f => !f.covers pa,
           unc := s.unc.filter fun g => !(decide (pa ≤ g * 32) && decide (g * 32 < pa + 64)),
           lostDies := s.lostDies.filter (· != 0) }

/-- One instruction placed where the next step fetches it. -/
def State.loadWord (s : State) (w : Word96) : State :=
  let u := s.nextPack
  let s := (s.loadLine codeVa (codeLine w)).setPack u (codePack u)
  { s with nextPack := u + 1, port1 := none, agenda := [.issue u (issuerOf w)],
           tlb := { unit := quadUnit (codePlace 0), ctx := 0, va := codeVa, log := 16, entry := codeEntry } ::
             { unit := 100, ctx := 0, va := codeVa, log := 16, entry := codeEntry } ::
             s.tlb.filter fun e => !(e.ctx == 0 && e.va / 65536 == 1) }

end Sys2Proof.Machine
end

