-- ==== Sys2Proof/Machine/Step.lean ====
section
/-! DEFINITION. One step of the package. -/

namespace Sys2Proof.Machine

/-- One step (log 2). -/
def step (s : State) : Host.Outcome State Fault Refusal := tick s

/-- The state with an instruction loaded where the next step fetches it (log 22). -/
def State.withFetchWord (s : State) (_nbits w : Nat) : State := s.loadWord (BitVec.ofNat 96 w)

end Sys2Proof.Machine
end

