-- ==== Sys2Proof/Safety.lean ====
section
/-! DEFINITION. Runs, what counts as a safe one, and the terms in which the statements speak: when an instruction executes
(R82), and what it changes and leaves alone when it does. -/

namespace Sys2Proof

open Machine

/-- States that a run reaches from a state. -/
inductive Reaches : State → State → Prop where
  | refl (s : State) : Reaches s s
  | step {s t u : State} : Reaches s t → Machine.step t = .next u → Reaches s u

/-- A state in which the machine goes on. -/
def Machine.State.goes (s : State) : Prop := ∃ t, Machine.step s = .next t

/-- A run is safe when the machine goes on from every state that it reaches. -/
def SafeFrom (s : State) : Prop := ∀ t, Reaches s t → t.goes

/-- Device memory is in its canonical form. -/
def Machine.State.memWf (s : State) : Prop := Memory.wf s.mem = true

namespace Machine

/-! ### When an instruction executes -/

/-- The state that the body of an instruction starts from. -/
def State.idle (s : State) : State := { s with cur := none }

/-- The lanes of the issuing group that execute: those whose guard holds. -/
def execLanes (sh : Shape) (r : Cur) : Lanes := guardLanes r.regs sh.form r.lanes sh.guard

/-- R82: the group `r` issues instruction `i`, of shape `sh`, no check before step 5 turns it away, some lane's guard
holds, its warp is attached where that comes first (R143), no latch that an executing lane reads is unfit (R75), and its k
operands have been acquired (R68). `c` is the issue
as the body sees it; `k` and `p` are the pack and the party. -/
structure Ready (o : Opts) (i : Instr) (s : State) (sh : Shape) (r c : Cur) (k : Pack) (p : Party) : Prop where
  cur : s.cur = some r
  shape : i.shape = some sh
  pack : s.pack r.pack = some k
  party : s.party r.pack r.who = some p
  types : sh.typeOk = true
  fields : sh.fieldOk = true
  alloc : allocOk (pkVregs k.packet) sh = true
  priv : o.priv s.idle r = true
  unit : unitOk sh r.who = true
  tokens : stalls p.pending sh = false
  lanes : execLanes sh r ≠ 0
  attached : (o.attached && p.detached) = false
  latches : latchFault o sh r.regs (execLanes sh r) = false
  operands : acquireK p.detached (kOperands o sh r.regs (execLanes sh r)) s.idle { r with active := execLanes sh r } = .ok s.idle c

/-! ### What an instruction writes -/

/-- A destination register holds a result of a type and width (R117). -/
def Regs.holds (r : Regs) (t : Option Ty) (w : Width) (lane : Option Nat) (d : Spec) (x : Nat) : Prop :=
  match d with
  | .v n =>
    match w with
    | .w32 => r.readV (lane.getD 0) n.toNat = BitVec.ofNat 32 x
    | .w64 => r.readV64 (lane.getD 0) n.toNat = u64 x
    | .w128 =>
      r.readV64 (lane.getD 0) n.toNat = u64 x ∧ r.readV64 (lane.getD 0) (n.toNat + 2) = u64 (x / 2 ^ 64)
  | .s n =>
    match w with
    | .w32 => r.readS n.toNat = toS t x
    | .w64 => r.readS n.toNat = u64 x
    | .w128 => r.readS n.toNat = u64 x ∧ r.readS (n.toNat + 1) = u64 (x / 2 ^ 64)
  | .h n => r.readH n.toNat = u64 x
  | .a n => r.readA n.toNat = BitVec.ofNat 16 x
  | .k _ | .const _ | .special _ => False

/-- The result `f` of every executing lane, or of the party, stands in destination `d`, unless `wbs` is set, and no other
v, s, h or a register has changed. -/
structure Written (c : Cur) (p q : Regs) (t : Option Ty) (w : Width) (d : Spec) (wbs : Bool) (form : Form)
    (f : Option Nat → Nat) : Prop where
  holds : wbs = false → ∀ l ∈ lanesFor form c.active, q.holds t w l d (f l)
  v : ∀ (l : Nat) (n : BitVec 8), wbs = true ∨ c.active.getLsbD l = false ∨ Spec.v n ∉ specCells w d →
    q.readV l n.toNat = p.readV l n.toNat
  s : ∀ n : BitVec 6, wbs = true ∨ Spec.s n ∉ specCells w d → q.readS n.toNat = p.readS n.toNat
  h : ∀ n : BitVec 3, wbs = true ∨ Spec.h n ∉ specCells w d → q.readH n.toNat = p.readH n.toNat
  a : ∀ n : BitVec 3, wbs = true ∨ Spec.a n ∉ specCells w d → q.readA n.toNat = p.readA n.toNat

/-- No v, s, h or a register has changed. -/
def ValuesKept (p q : Regs) : Prop := q.v = p.v ∧ q.s = p.s ∧ q.h = p.h ∧ q.a = p.a
/-- No predicate has changed. -/
def PredsKept (p q : Regs) : Prop := q.p = p.p ∧ q.q = p.q
/-- FPMODE and the trap registers are as they were. -/
def Fixed (p q : Regs) : Prop :=
  q.fpmode = p.fpmode ∧ q.xcause = p.xcause ∧ q.xaddr = p.xaddr ∧ q.xpc = p.xpc ∧ q.xstat = p.xstat ∧ q.xvec = p.xvec

/-- The predicate destination `f` holds `g` in every executing lane, or for the party; p7 discards it (R116, R121); every
other predicate is as it was. -/
structure Predicated (c : Cur) (p q : Regs) (form : Form) (f : BitVec 4) (g : Option Nat → Bool) : Prop where
  holds : f ≠ 7#4 → ∀ l ∈ lanesFor form c.active, readPred q l f = g l
  lanes : ∀ l n, l < 64 → n < 7 → c.active.getLsbD l = false ∨ f.toNat ≠ n → q.readP l n = p.readP l n
  unif : ∀ n, n < 4 → f.toNat ≠ 8 + n → q.readQ n = p.readQ n

/-- FPFLAGS after the flags of every executing lane, or of the party, are ORed in (R101). -/
def Flagged (c : Cur) (p q : Regs) (form : Form) (g : Option Nat → Flags) : Prop :=
  q.fpflags = (lanesFor form c.active).foldl (fun fl l => fl ||| g l) p.fpflags

/-- R72: the latch that a result of a width leaves in a lane of the issuing group. -/
def latchOf (c : Cur) (form : Form) (w : Width) (f : Option Nat → Nat) (l : Nat) : Latch :=
  let wide := w != .w32
  let cut (x : Nat) : Word64 := u64 (x % 2 ^ (if wide then 64 else 32))
  match form with
  | .lane => if c.active.getLsbD l then .lane wide (cut (f (some l))) else .invalid
  | .unif | .gather => .uniform wide (cut (f none))

/-- R72, R73: the latches after sequential flow. The slot's latch of every lane of the group holds its deposit, or all five
are INVALID once the group has left the line; other lanes keep theirs. -/
structure Latched (c : Cur) (p q : Regs) (dep : Nat → Latch) : Prop where
  here : slotOf c.pc < 4 → ∀ l i, c.lanes.getLsbD l = true → i < 5 →
    q.readL l i = if i = slotOf c.pc then dep l else p.readL l i
  left : slotOf c.pc = 4 → ∀ l i, c.lanes.getLsbD l = true → i < 5 → q.readL l i = .invalid
  others : ∀ l i, c.lanes.getLsbD l = false → i < 5 → q.readL l i = p.readL l i

/-! ### What an instruction leaves alone -/

/-- Sequential flow (R47, R138): the lanes of the group stand at the successor, the others where they stood. -/
structure Advances (c : Cur) (p q : Party) : Prop where
  go : ∀ l, c.lanes.getLsbD l = true → q.pcOf l = succAddr c.pc
  stay : ∀ l, c.lanes.getLsbD l = false → q.pcOf l = p.pcOf l
  live : q.live = p.live ||| c.lanes

/-- Nothing of the package changes but the issuing party, the line counts (R33, R408) and the issue itself; of the party
only its registers, its PC groups and the fetch lines at which they stand. -/
structure Elsewhere (c : Cur) (s t : State) (k : Pack) (p q : Party) : Prop where
  state : { t with packs := s.packs, clusters := s.clusters, cur := s.cur } = s
  packs : ∀ u, u ≠ c.pack → t.pack u = s.pack u
  pack : ∃ k', t.pack c.pack = some k' ∧ { k' with parties := k.parties, lines := k.lines } = k ∧
    ∀ w, w ≠ c.who → cget k'.parties w = cget k.parties w
  clusters : ∀ n, { t.cluster n with counters := (s.cluster n).counters, lineCount := (s.cluster n).lineCount } =
    s.cluster n
  counters : ∀ n j, n ≠ p.place.cluster ∨ j ≠ 1 → rd 0 (t.cluster n).counters j = rd 0 (s.cluster n).counters j
  party : { q with regs := p.regs, groups := p.groups, jumped := p.jumped, lines := p.lines, fenced := p.fenced } = p
  issue : t.cur = none

/-- `i` takes a next state in which the issuing party stands at the successor, with `post` true of its registers before and
after, and nothing else changed. -/
def Completes (i : Instr) (s : State) (c : Cur) (k : Pack) (p : Party) (post : Regs → Regs → Prop) : Prop :=
  ∃ t q, exec i s = .next t ∧ t.party c.pack c.who = some q ∧ Advances c p q ∧ Elsewhere c s t k p q ∧
    post p.regs q.regs

/-- A result: written, raised as flags and deposited in the latch; nothing else of the registers changes. -/
def Result (c : Cur) (t : Option Ty) (w : Width) (d : Spec) (wbs : Bool) (form : Form) (f : Option Nat → Nat × Flags)
    (p q : Regs) : Prop :=
  Written c p q t w d wbs form (fun l => (f l).1) ∧ PredsKept p q ∧ Fixed p q ∧
    Flagged c p q form (fun l => (f l).2) ∧ Latched c p q (latchOf c form w fun l => (f l).1)

/-- A predicate result: the latch is left INVALID (R72). -/
def PredResult (c : Cur) (form : Form) (d : BitVec 4) (g : Option Nat → Bool × Flags) (p q : Regs) : Prop :=
  ValuesKept p q ∧ Predicated c p q form d (fun l => (g l).1) ∧ Fixed p q ∧ Flagged c p q form (fun l => (g l).2) ∧
    Latched c p q fun _ => .invalid

/-- A value and a predicate. -/
def BothResult (c : Cur) (t : Option Ty) (w : Width) (d : Spec) (wbs : Bool) (form : Form) (pd : BitVec 4)
    (f : Option Nat → Nat × Bool) (p q : Regs) : Prop :=
  Written c p q t w d wbs form (fun l => (f l).1) ∧ Predicated c p q form pd (fun l => (f l).2) ∧ Fixed p q ∧
    q.fpflags = p.fpflags ∧ Latched c p q (latchOf c form w fun l => (f l).1)

/-- Nothing of the registers changes but the latches, whose deposits are `dep`. -/
def Deposits (c : Cur) (dep : Nat → Latch) (p q : Regs) : Prop :=
  ValuesKept p q ∧ PredsKept p q ∧ Fixed p q ∧ q.fpflags = p.fpflags ∧ Latched c p q dep

/-- Once its effect has made the state `a`, the issuing group leaves the instruction with latch deposits `dep`: nothing
else changes. -/
def Leaves (c : Cur) (dep : Nat → Latch) (a t : State) : Prop :=
  ∃ k p q, a.pack c.pack = some k ∧ a.party c.pack c.who = some p ∧ t.party c.pack c.who = some q ∧ Advances c p q ∧
    Elsewhere c a t k p q ∧ Deposits c dep p.regs q.regs

/-- `i` takes a next state: its effect makes the state `a`, and the group leaves it with deposits `dep`. -/
def CompletesIn (i : Instr) (s : State) (c : Cur) (a : State) (dep : Nat → Latch) : Prop :=
  ∃ t, exec i s = .next t ∧ Leaves c dep a t

/-- A 64-bit result of the uniform form in the latch. -/
def deposited (x : Word64) : Nat → Latch := fun _ => .uniform true x
/-- No result in the latch. -/
def noDeposit : Nat → Latch := fun _ => .invalid

/-- Nothing of the registers changes but the latches, which are left INVALID. -/
def NoResult (c : Cur) (p q : Regs) : Prop := Deposits c noDeposit p q

end Machine
end Sys2Proof
end

