-- ==== Sys2Proof/Certificates/Slice0/Obligations.lean ====
section
/-! DEFINITION. The statements for the provers, family by family of the opcode table. Names under `Sys2Proof.Claims` say in
the words of the spec what an instruction computes or makes. -/


/-! ### What an instruction computes -/

namespace Sys2Proof.Claims
open Sys2Proof.Machine

/-- A result that an instruction computes in every executing lane, or once: its type, width and destination, whether WBS is
set, its form, and the value and flags of a lane, or of the party. -/
structure Calc where
  i : Instr
  ty : Option Ty
  w : Width
  dst : Spec
  wbs : Bool
  form : Form
  val : State → Cur → Option Nat → Nat × Flags

/-- It completes with that result (R72, R101, R117, R124). -/
def Calc.completes (x : Calc) (o : Opts) : Prop :=
  ∀ (s : State) (sh : Shape) (r c : Cur) (k : Pack) (p : Party), Ready o x.i s sh r c k p →
    Completes x.i s c k p (Result c x.ty x.w x.dst x.wbs x.form (x.val s c))

/-- A format A instruction whose result has the type's width. -/
def typed (i : FmtA → Instr) (form : FmtA → Form) (val : FmtA → State → Cur → Option Nat → Nat × Flags) (o : FmtA) : Calc :=
  { i := i o, ty := some o.ty, w := o.ty.width, dst := o.dst, wbs := o.wbs, form := form o, val := val o }
/-- One whose result has a fixed width and type. -/
def fixed (i : FmtA → Instr) (ty : Option Ty) (w : Width) (form : FmtA → Form)
    (val : FmtA → State → Cur → Option Nat → Nat × Flags) (o : FmtA) : Calc :=
  { i := i o, ty, w, dst := o.dst, wbs := o.wbs, form := form o, val := val o }
/-- The form that the destination's class selects (R68). -/
def own (o : FmtA) : Form := formOf o.dst

/-- What a source supplies, read by the instruction's type. -/
def src (o : FmtA) (s : State) (c : Cur) (l : Option Nat) (x : Src) : Nat := readSrc s c (some o.ty) o.ty.width l x
/-- What a source supplies, read at a stated width (R66). -/
def word (w : Width) (s : State) (c : Cur) (l : Option Nat) (x : Src) : Nat := readSrc s c none w l x

/-! ### Integers (spec/04, R127 to R132) -/

/-- Element `e` of a source as a number (R92, R127), and as a string of bits. -/
def elemI (o : FmtA) (s : State) (c : Cur) (l : Option Nat) (x : Src) (e : Nat) : Int := intElem o.ty (src o s c l x) e
def elemB (o : FmtA) (s : State) (c : Cur) (l : Option Nat) (x : Src) (e : Nat) : Nat := elemOf o.ty (src o s c l x) e

/-- R71: `y` is the exact integer `x` scaled by an SCL code: codes 0 to 3 multiply by 1, 2, 4, 8; codes 4 to 7 divide by 16,
8, 4, 2, toward minus infinity for signed types, truncating for unsigned ones. -/
def Scaled (t : Ty) (scl : BitVec 3) (x y : Int) : Prop :=
  match scl.toNat with
  | 0 => y = x | 1 => y = 2 * x | 2 => y = 4 * x | 3 => y = 8 * x
  | n =>
    let d : Int := match n with | 4 => 16 | 5 => 8 | 6 => 4 | _ => 2
    if t.isSigned then y * d ≤ x ∧ x < (y + 1) * d else y = x.tdiv d

/-- R93: `z` is the delivered element of an exact result: scaled, then wrapped, or saturated under CLAMP 11. -/
def Delivered (t : Ty) (clamp : BitVec 2) (scl : BitVec 3) (x z : Int) : Prop :=
  ∃ y, Scaled t scl x y ∧ t.lo ≤ z ∧ z ≤ t.hi ∧
    if clamp = 3#2 then z = max t.lo (min t.hi y) else ∃ m : Int, z = y + m * (2 ^ t.elem : Nat)

/-- The exact results of R128 and R132. -/
def arithmetic : List ((FmtA → Instr) × (Ty → Int → Int → Int → Int)) :=
  [(.iadd, fun _ a b _ => a + b), (.isub, fun _ a b _ => a - b), (.imul, fun _ a b _ => a * b),
   (.imulh, fun t a b _ => a * b / (2 ^ t.elem : Nat)), (.imad, fun _ a b c => a * b + c),
   (.imin, fun _ a b _ => if a ≤ b then a else b), (.imax, fun _ a b _ => if a ≤ b then b else a),
   (.iabsd, fun _ a b _ => if a ≤ b then b - a else a - b),
   (.shl, fun t a b _ => a * (2 ^ (b % (2 ^ t.elem : Nat)).toNat : Nat)),
   (.idivQ, fun t a b _ => if b = 0 then (if t.isSigned then -1 else (2 ^ t.elem : Nat) - 1) else a.tdiv b),
   (.idivR, fun _ a b _ => if b = 0 then a else a - a.tdiv b * b)]

/-- R128, R129: bit `j` of the result of one element, from the bits of the sources' elements of `w` bits. -/
def bitwise : List ((FmtA → Instr) × (FmtA → (w a b c j : Nat) → Bool)) :=
  [(.and, fun _ _ a b _ j => a.testBit j && b.testBit j), (.or, fun _ _ a b _ j => a.testBit j || b.testBit j),
   (.xor, fun _ _ a b _ j => a.testBit j != b.testBit j), (.andn, fun _ _ a b _ j => a.testBit j && !b.testBit j),
   (.lut3, fun o _ a b c j =>
     o.ext.getLsbD (4 * (a.testBit j).toNat + 2 * (b.testBit j).toNat + (c.testBit j).toNat)),
   (.shr, fun _ w a n _ j => decide (j + n < w) && a.testBit (j + n)),
   (.sar, fun _ w a n _ j => a.testBit (min (j + n) (w - 1))),
   (.rot, fun _ w a n _ j => a.testBit ((j + (w - n % w)) % w)), (.brev, fun _ w a _ _ j => a.testBit (w - 1 - j)),
   (.bfx false, fun _ w a b c j => decide (j < min (c % 256) (w - b % 256)) && a.testBit (b % 256 + j)),
   (.bfx true, fun _ w a b c j =>
     let n := min (c % 256) (w - b % 256)
     decide (0 < n) && a.testBit (b % 256 + min j (n - 1))),
   (.bfi, fun _ w a b c j =>
     let pos := c % 256
     if pos ≤ j ∧ j < pos + min (c / 256 % 256) (w - pos) then b.testBit (j - pos) else a.testBit j)]

/-- R125, R126, R128, R130, R131, R134, R136: moves, counts, addresses, extension, selection. -/
def moves : List (FmtA → Calc) :=
  [typed .mov own fun o s c l => (src o s c l o.a, 0),
   fixed .popc (some .u32) .w32 own fun o s c l => (((List.range o.ty.elem).countP fun j => (src o s c l o.a).testBit j), 0),
   fixed .clz (some .u32) .w32 own fun o s c l =>
     (((List.range o.ty.elem).findIdx fun j => (src o s c l o.a).testBit (o.ty.elem - 1 - j)), 0),
   fixed (.lea .x64) (some .u64) .w64 own fun o s c l =>
     ((word .w64 s c l o.a + word .w64 s c l o.b * 2 ^ (o.ext.toNat % 64)) % 2 ^ 64, 0),
   fixed (.lea .s32) (some .u64) .w64 own fun o s c l =>
     ((((word .w64 s c l o.a : Nat) : Int) + signedOf 32 (word .w32 s c l o.b) * (2 ^ (o.ext.toNat % 64) : Nat)) % (2 ^ 64 : Nat)
       |>.toNat, 0),
   fixed (.lea .u32) (some .u64) .w64 own fun o s c l =>
     ((word .w64 s c l o.a + word .w32 s c l o.b * 2 ^ (o.ext.toNat % 64)) % 2 ^ 64, 0),
   typed (.xtnd false) own fun o s c l =>
     ((if o.ext.getLsbD 6 then word .w32 s c l o.a else src o s c l o.a) % 2 ^ (o.ext.toNat % 64), 0),
   typed (.xtnd true) own fun o s c l =>
     (unsignedOf o.ty.elem (signedOf (o.ext.toNat % 64)
       ((if o.ext.getLsbD 6 then word .w32 s c l o.a else src o s c l o.a) % 2 ^ (o.ext.toNat % 64))), 0),
   fixed .pmovPack none .w32 own fun _ _ c l =>
     (match l with
      | some l => (List.range 8).foldl (fun n i => n + if c.regs.readP l i then 2 ^ i else 0) 0
      | none => (List.range 4).foldl (fun n i => n + if c.regs.readQ i then 2 ^ i else 0) 0, 0)]

/-- R126: MOVI and its three other forms. -/
def immediates : List ((FmtI → Instr) × Width × (FmtI → State → Cur → Option Nat → Nat)) :=
  [(.movi, .w32, fun o _ _ _ => o.imm.toNat), (.moviSx, .w64, fun o _ _ _ => (o.imm.signExtend 64).toNat),
   (.moviZx, .w64, fun o _ _ _ => o.imm.toNat),
   (.moviHi, .w64, fun o s c l => o.imm.toNat * 2 ^ 32 + word .w32 s c l o.a)]

end Sys2Proof.Claims

open Sys2Proof Sys2Proof.Machine Sys2Proof.Claims

/-- R127, R128, R132: integer arithmetic completes; every element of the result is the exact integer, scaled and wrapped or
saturated (R71, R93), of the elements read by the type; it stands in the destination and the latch, and nothing else
changes. -/
def Obligations.IntegerArithmetic : Prop :=
  ∀ e ∈ arithmetic, ∀ (o : FmtA) (s : State) (sh : Shape) (r c : Cur) (k : Pack) (p : Party),
    Ready {} (e.1 o) s sh r c k p →
    ∃ x : Option Nat → Nat,
      (∀ l n, n < o.ty.count →
        Delivered o.ty o.clamp o.scl (e.2 o.ty (elemI o s c l o.a n) (elemI o s c l o.b n) (elemI o s c l o.c n))
          (intElem o.ty (x l) n)) ∧
      Completes (e.1 o) s c k p (Result c (some o.ty) o.ty.width o.dst o.wbs (own o) fun l => (x l, 0))

/-- R127, R128, R129: the bit members, the right shifts and the bit fields complete; every bit of every element of the result
is that of the table. What the uniform form leaves in the latch for a 32-bit type is the model's choice (log 77), and so is
the reading of log 27. -/
def Sys2Proof.Claims.IntegerBits : Prop :=
  ∀ e ∈ bitwise, ∀ (o : FmtA) (s : State) (sh : Shape) (r c : Cur) (k : Pack) (p : Party),
    Ready {} (e.1 o) s sh r c k p →
    ∃ x : Option Nat → Nat,
      (∀ l n j, n < o.ty.count → j < o.ty.elem → (elemOf o.ty (x l) n).testBit j =
        e.2 o o.ty.elem (elemB o s c l o.a n) (elemB o s c l o.b n) (elemB o s c l o.c n) j) ∧
      Completes (e.1 o) s c k p (Result c (some o.ty) o.ty.width o.dst o.wbs (own o) fun l => (x l, 0))

/-- R125, R126, R128, R130, R131, R134, R136: moves, counts, addresses, extensions and selections complete with their
results. That a MOV of a 32-bit type into an h register is zero-extended there is the model's choice (log 64), and so are
the 32 bits that PMOV.PACK deposits in the uniform form (log 83); XTND follows log 26, the model's own reading. -/
def Sys2Proof.Claims.MovesAndCounts : Prop :=
  (∀ e ∈ moves, ∀ o, (e o).completes {}) ∧
  (∀ e ∈ immediates, ∀ o : FmtI, Calc.completes ⟨e.1 o, none, e.2.1, o.dst, o.wbs, formOf o.dst, fun s c l => (e.2.2 o s c l, 0)⟩ {}) ∧
  ∀ o, (typed .sel own (fun o s c l => (src o s c l (if readPred c.regs l o.ext17 != o.ext.getLsbD 13 then o.a else o.b), 0)) o).completes
    { reads := selReads o }


/-! ### Floating point, predicates and lane exchange (spec/04, spec/05) -/

namespace Sys2Proof.Claims
open Sys2Proof.Machine

/-- The effective mode of R149, without a stochastic value. -/
def mode (o : FmtA) (c : Cur) : Mode := modeOf c.regs.fpmode o.rm 0
/-- Element `e` of a source as a floating-point number. -/
def elemF (o : FmtA) (s : State) (c : Cur) (l : Option Nat) (x : Src) (e : Nat) : Machine.Num := fpElem o.ty (src o s c l x) e

/-- R149: every element is rounded once in the destination format, scaled and clamped; the flags of all are ORed. -/
def rounded (f : Mode → Machine.Num → Machine.Num → Machine.Num → Val) (o : FmtA) (s : State) (c : Cur) (l : Option Nat) : Nat × Flags :=
  fpResult o.ty (mode o c) o.clamp o.scl fun e =>
    f (mode o c) (elemF o s c l o.a e) (elemF o s c l o.b e) (elemF o s c l o.c e)
/-- R154: a correctly rounded function of source A. -/
def roundedFn (f : Machine.Num → FnVal) (o : FmtA) (s : State) (c : Cur) (l : Option Nat) : Nat × Flags :=
  fpFnResult o.ty (mode o c) o.clamp o.scl fun e => f (elemF o s c l o.a e)
/-- R152: the smaller or larger element, never rounded, then CLAMP. -/
def chosen (larger : Bool) (o : FmtA) (s : State) (c : Cur) (l : Option Nat) : Nat × Flags :=
  let x (e : Nat) := minMax o.ty.fmt larger (elemB o s c l o.a e) (elemB o s c l o.b e)
  (ofElems o.ty fun e => clampBits o.ty.fmt o.clamp.toNat (x e).1,
   (List.range o.ty.count).foldl (fun fl e => fl ||| (x e).2) 0)

/-- R150 to R154, R155: arithmetic, comparison of magnitude, correctly rounded functions, rounding to integral values. -/
def floats : List (FmtA → Calc) :=
  [typed .fadd own (rounded fun m a b _ => addV m a b), typed .fsub own (rounded fun m a b _ => subV m a b),
   typed .fmul own (rounded fun _ a b _ => mulV a b), typed .ffma own (rounded fmaV),
   typed .fmin own (chosen false), typed .fmax own (chosen true),
   typed .frcp own (rounded fun _ a _ _ => divV (.fin false 1 0) a), typed .frsq own (rounded fun _ a _ _ => rsqV a),
   typed .fsqrt own (rounded fun _ a _ _ => sqrtV a), typed .fdiv own (rounded fun _ a b _ => divV a b),
   typed .fexp2 own (roundedFn exp2V), typed .flog2 own (roundedFn log2V), typed .fsinp own (roundedFn sinpV),
   typed .fcosp own (roundedFn cospV), typed .ftanh own (roundedFn tanhV),
   typed .fcvtRint own (rounded fun m a _ _ => rintV m a)]

/-- R155: the stochastic value of element `e` is source C, rotated left by 16 for element 1. -/
def stochastic (o : FmtA) (s : State) (c : Cur) (l : Option Nat) (e : Nat) : Mode :=
  let u := word .w32 s c l o.c
  modeOf c.regs.fpmode o.rm (if e = 0 then u else u % 65536 * 65536 + u / 65536)
/-- A converted value, each element delivered under its own mode. -/
def converted (o : FmtA) (s : State) (c : Cur) (l : Option Nat) (f : Nat → Val) : Nat × Flags :=
  let r (e : Nat) := deliver o.ty.fmt (stochastic o s c l e) (sclExp o.scl) o.clamp.toNat (f e)
  (ofElems o.ty fun e => (r e).1, (List.range o.ty.count).foldl (fun fl e => fl ||| (r e).2) 0)
/-- A source read by the type that EXT[17:14] names, and an element of it. -/
def fromSrc (o : FmtA) (s : State) (c : Cur) (l : Option Nat) (x : Src) (e : Nat) : Machine.Num :=
  let t := o.fromTy.getD .f32
  fpElem t (readSrc s c (some t) t.width l x) e
/-- The element of source A that a scalar destination takes (H1). -/
def half (o : FmtA) : Nat := if (o.fromTy.getD .f32).packed ∧ o.ext.getLsbD 13 then 1 else 0

/-- R155, R156, R158, R159, R160: conversions, packed products and dot products. -/
def conversions : List (FmtA → Calc) :=
  [typed .fcvtF own fun o s c l => converted o s c l fun e =>
     (if !o.ty.packed then fromSrc o s c l o.a (half o)
      else if (o.fromTy.getD .f32).packed then fromSrc o s c l o.a e
      else fromSrc o s c l (if e = 0 then o.a else o.b) 0).val,
   typed .fcvtI own fun o s c l =>
     let r := toRange (stochastic o s c l 0) (sclExp o.scl) o.ty.lo o.ty.hi (fromSrc o s c l o.a (half o))
     (unsignedOf o.ty.elem r.1, r.2),
   typed .icvt own fun o s c l => converted o s c l fun e =>
     let t := o.fromTy.getD .i32
     let x := intElem t (readSrc s c (some t) t.width l (if e = 0 then o.a else o.b)) 0
     .real (decide (x < 0)) x.natAbs 0 false 0,
   typed .pfma2 own fun o s c l =>
     fpResult o.ty (mode o c) o.clamp o.scl fun e =>
       fmaV (mode o c) (elemF o s c l o.a e)
         (elemF o s c l o.b (match o.ext.toNat % 4 with | 0 => e | 1 => 0 | 2 => 1 | _ => 1 - e)) (elemF o s c l o.c e),
   fixed .fdot2 (some .f32) .w32 own fun o s c l =>
     deliver fp32 (mode o c) (sclExp o.scl) o.clamp.toNat
       (dot2V (mode o c) (fpElem o.ty (readSrc s c (some o.ty) .w32 l o.a) 0)
         (fpElem o.ty (readSrc s c (some o.ty) .w32 l o.b) 0) (fpElem o.ty (readSrc s c (some o.ty) .w32 l o.a) 1)
         (fpElem o.ty (readSrc s c (some o.ty) .w32 l o.b) 1) (numOf fp32 (readSrc s c (some .f32) .w32 l o.c))),
   fixed .idot4 (some .i32) .w32 own fun o s c l =>
     let a := readSrc s c (some .i8x4) .w32 l o.a
     let b := readSrc s c (some .i8x4) .w32 l o.b
     let byte (uns : Bool) (x i : Nat) : Int := if uns then elemOf .i8x4 x i else signedOf 8 (elemOf .i8x4 x i)
     let term (i : Nat) : Int := byte (o.ext.getLsbD 0) a i * byte (o.ext.getLsbD 1) b i
     (narrowInt .i32 o.clamp o.scl
       (term 0 + term 1 + term 2 + term 3 + signedOf 32 (readSrc s c (some .i32) .w32 l o.c)), 0)]

/-- R133, R135, R153: the predicates that ICMP, PLOP and FCMP write. -/
def comparison (o : FmtA) : Nat := (o.ext.extractLsb' 11 3).toNat
def intHolds (o : FmtA) (s : State) (c : Cur) (l : Option Nat) : Bool × Flags :=
  let a := elemI o s c l o.a 0
  let b := elemI o s c l o.b 0
  (match comparison o with
   | 0 => decide (a = b) | 1 => decide (a ≠ b) | 2 => decide (a < b) | 3 => decide (a ≤ b) | 4 => decide (a > b)
   | _ => decide (a ≥ b), 0)
def floatHolds (o : FmtA) (s : State) (c : Cur) (l : Option Nat) : Bool × Flags :=
  let a := elemF o s c l o.a 0
  let b := elemF o s c l o.b 0
  let nan := a.isNan || b.isNan
  let code := comparison o
  (match code with
   | 0 => numEq a b | 1 => !numEq a b | 2 => numLess a b | 3 => numLess a b || numEq a b | 4 => numLess b a
   | 5 => numLess b a || numEq a b | 6 => nan | _ => !nan,
   if 2 ≤ code ∧ code ≤ 5 then (if nan then fNV else 0) else sigFlags [a, b])
def tableHolds (o : FmtP) (c : Cur) (l : Option Nat) : Bool × Flags :=
  let p (lo : Nat) : Nat := (readPred c.regs l (o.ext.extractLsb' lo 4)).toNat
  (o.table.getLsbD (4 * p 14 + 2 * p 10 + p 6), 0)

/-- Registers after named predicates have taken the bits of a value (R136). -/
def Loaded (o : FmtA) (s : State) (c : Cur) (p q : Regs) : Prop :=
  (∀ l n, l < 64 → n < 7 → q.readP l n =
    if formOf o.dst = .lane ∧ c.active.getLsbD l ∧ o.ext.getLsbD n then (word .w32 s c (some l) o.a).testBit n else p.readP l n) ∧
  ∀ n, n < 4 → q.readQ n =
    if formOf o.dst ≠ .lane ∧ o.ext.getLsbD n then (word .w32 s c none o.a).testBit n else p.readQ n

/-- A value and a predicate in every executing lane (R157, R164, R172). -/
structure Both where
  i : Instr
  ty : Option Ty
  w : Width
  dst : Spec
  wbs : Bool
  form : Form
  pd : BitVec 4
  val : State → Cur → Option Nat → Nat × Bool
def Both.completes (x : Both) : Prop :=
  ∀ (s : State) (sh : Shape) (r c : Cur) (k : Pack) (p : Party), Ready {} x.i s sh r c k p →
    Completes x.i s c k p (BothResult c x.ty x.w x.dst x.wbs x.form x.pd (x.val s c))

/-- Source A of a lane, and a uniform source read by the lowest participant (R163). -/
def laneOf (o : FmtA) (s : State) (c : Cur) (l : Nat) : Nat := src o s c (some l) o.a
def uniform (s : State) (c : Cur) (x : Src) : Nat := word .w32 s c (some (lowLane c.active)) x
def inForm (o : FmtA) : Form := gatherForm o.dst

/-- R164: a lane receives source A of its source lane, and a predicate: whether that lane is a participant and the
rotation has not wrapped. -/
def shuffle (i : FmtA → Instr) (from' : FmtA → State → Cur → Nat → Nat × Bool) (o : FmtA) : Both :=
  { i := i o, ty := some o.ty, w := o.ty.width, dst := o.dst, wbs := o.wbs, form := .lane, pd := o.ext17
    val := fun s c l =>
      let (m, wrap) := from' o s c (l.getD 0)
      (laneOf o s c m, !wrap && c.active.getLsbD m) }
def shuffles : List (FmtA → Both) :=
  [shuffle .shflMap fun o s c l =>
     let b := uniform s c o.b
     (((l &&& b / 256 % 64) ^^^ b % 64), false),
   shuffle .shflRot fun o s c l =>
     let seg : Int := (2 ^ (o.ext.extractLsb' 11 3).toNat : Nat)
     let j : Int := (l : Int) % seg
     let n : Int := ((uniform s c o.b % 64 : Nat) : Int) % seg
     let t := if o.ext.getLsbD 10 then j + n else j - n
     (((l : Int) - j + t % seg).toNat, decide (t < 0 ∨ seg ≤ t)),
   shuffle .shflGath fun o s c l => (word .w32 s c (some l) o.b % 64, false)]

/-- R172: the participants with the same source A as lane `l`; the lowest of them; the lanes that lead a class. -/
def peers (o : FmtA) (s : State) (c : Cur) (l : Nat) : List Nat :=
  (lanesOf c.active).filter fun m => laneOf o s c m == laneOf o s c l
def lead (o : FmtA) (s : State) (c : Cur) (l : Nat) : Nat := ((peers o s c l).head?).getD 0
def leads (o : FmtA) (s : State) (c : Cur) : List Nat := (lanesOf c.active).filter fun m => lead o s c m == m
def matches' : List (FmtA → Both) :=
  [fun o => { i := .matchClass o, ty := none, w := .w32, dst := o.dst, wbs := o.wbs, form := .lane, pd := o.ext17
              val := fun s c l =>
                let l := l.getD 0
                ((peers o s c l).length + lead o s c l * 2 ^ 8 +
                  ((leads o s c).countP fun m => m < lead o s c l) * 2 ^ 16 + (leads o s c).length * 2 ^ 24,
                 lead o s c l == l) },
   fun o => { i := .matchPeers o, ty := none, w := .w64, dst := o.dst, wbs := o.wbs, form := .lane, pd := o.ext17
              val := fun s c l =>
                ((maskOf (peers o s c (l.getD 0))).toNat, (peers o s c (l.getD 0)).length == (lanesOf c.active).length) }]

/-- R157: the class words of the elements, 16 bits apart, and the test. -/
def classify (o : FmtA) : Both :=
  { i := .fclass o, ty := some .u32, w := .w32, dst := o.dst, wbs := o.wbs, form := own o, pd := o.ext17
    val := fun s c l =>
      let bit (e : Nat) := classBit o.ty.fmt (elemB o s c l o.a e)
      (2 ^ bit 0 + (if o.ty.count = 2 then 2 ^ (16 + bit 1) else 0),
       o.ext.getLsbD (bit 0) || (decide (o.ty.count = 2) && o.ext.getLsbD (bit 1))) }

/-- R165: the participants in which the source predicate holds. -/
def votes (o : FmtA) (c : Cur) : List Nat :=
  (lanesOf c.active).filter fun l => c.regs.readP l (o.ext.extractLsb' 10 4).toNat != o.ext.getLsbD 9

/-- R169: the values of the participants at or before a lane, or before it under EXCL, combined one after another. -/
def serial' (op : Nat) (o : FmtA) (s : State) (c : Cur) (l : Nat) : Nat :=
  let f (a b : Nat) : Nat := (laneOp op o.ty (mode o c) a b).1
  match ((lanesOf c.active).filter fun m => if o.ext.getLsbD 16 then m < l else m ≤ l).map (laneOf o s c) with
  | [] => scanIdentity op o.ty
  | x :: r => r.foldl f x
/-- The flags of the steps that give the results (R101, R169). -/
def serialFlags (op : Nat) (o : FmtA) (s : State) (c : Cur) : Flags :=
  let xs := (lanesOf c.active).map (laneOf o s c)
  let steps := if o.ext.getLsbD 16 then xs.take (xs.length - 1) else xs
  (scanGo (laneOp op o.ty (mode o c)) none steps).foldl (fun fl x => fl ||| x.2) 0
/-- R166, R167: the root of the tree over the lanes. -/
def reduction (op : Nat) (o : FmtA) (s : State) (c : Cur) : Nat × Flags :=
  (tree (laneOp op o.ty (mode o c)) (fun l => if c.active.getLsbD l then some (laneOf o s c l) else none) 6 0).getD (0, 0)

def reductions : List ((FmtA → Instr) × (FmtA → Instr) × Nat) :=
  [(.wredAdd, .wscanAdd, 0), (.wredMin, .wscanMin, 1), (.wredMax, .wscanMax, 2), (.wredAnd, .wscanAnd, 3),
   (.wredOr, .wscanOr, 4), (.wredXor, .wscanXor, 5)]

/-- R165, R170: results that every participant, or an s register, receives. -/
def gathers : List (FmtA → Calc) :=
  [fixed .voteMask none .w64 inForm fun o _ c _ => ((maskOf (votes o c)).toNat, 0),
   fixed .voteSum none .w32 inForm fun o _ c _ =>
     let v := votes o c
     (v.length + (if v = [] then 0 else 2 ^ 8) + (if v.length = (lanesOf c.active).length then 2 ^ 9 else 0) +
       (v.head?).getD 0 * 2 ^ 16 + (v.getLast?).getD 0 * 2 ^ 24, 0),
   typed .rdlane inForm fun o s c _ => (laneOf o s c (uniform s c o.b % 64), 0),
   typed .rdlaneRank inForm fun o s c _ =>
     (match (lanesOf c.active)[uniform s c o.b % 64]? with | some l => laneOf o s c l | none => 0, 0)]

/-- R171: register `dst` of lane `l` holds the value, or nothing has changed. -/
def LaneWritten (c : Cur) (t : Ty) (d : Spec) (l : Option Nat) (x : Nat) (p q : Regs) : Prop :=
  (∀ m, l = some m → q.holds (some t) t.width (some m) d x) ∧
  (∀ (m : Nat) (n : BitVec 8), l ≠ some m ∨ Spec.v n ∉ specCells t.width d → q.readV m n.toNat = p.readV m n.toNat) ∧
  q.s = p.s ∧ q.h = p.h ∧ q.a = p.a ∧ PredsKept p q ∧ Fixed p q ∧ q.fpflags = p.fpflags ∧ Latched c p q noDeposit

/-- R173: the first participant at or after a lane, in cyclic order. -/
def Elected (active : Lanes) (r e : Nat) : Prop :=
  active.getLsbD e ∧ e < 64 ∧ ∀ m, m < 64 → active.getLsbD m → (e + 64 - r) % 64 ≤ (m + 64 - r) % 64

end Sys2Proof.Claims


/-- R149 to R155: floating-point arithmetic, minimum and maximum, the correctly rounded functions and FCVT.RINT complete:
result, flags and latch as the rules give them.
It rests on log 31, the model's own reading. -/
def Sys2Proof.Claims.FloatingPoint : Prop := ∀ e ∈ floats, ∀ o, (e o).completes {}

/-- R155, R156, R158 to R160: conversions and packed and dot products complete. -/
def Sys2Proof.Claims.ConversionsAndProducts : Prop := ∀ e ∈ conversions, ∀ o, (e o).completes {}

/-- R133, R135, R136, R153: ICMP, FCMP and PLOP complete with their predicate in every executing lane, or once; PMOV.LOAD
with the predicates that its mask names. -/
def Sys2Proof.Claims.Predicates : Prop :=
  (∀ (o : FmtA) (s : State) (sh : Shape) (r c : Cur) (k : Pack) (p : Party),
    (Ready {} (.icmp o) s sh r c k p → Completes (.icmp o) s c k p (PredResult c (own o) o.ext17 (intHolds o s c))) ∧
    (Ready {} (.fcmp o) s sh r c k p → Completes (.fcmp o) s c k p (PredResult c (own o) o.ext17 (floatHolds o s c))) ∧
    (Ready {} (.pmovLoad o) s sh r c k p → Completes (.pmovLoad o) s c k p fun p q =>
      ValuesKept p q ∧ Fixed p q ∧ q.fpflags = p.fpflags ∧ Loaded o s c p q ∧ Latched c p q noDeposit)) ∧
  ∀ (o : FmtP) (s : State) (sh : Shape) (r c : Cur) (k : Pack) (p : Party), Ready {} (.plop o) s sh r c k p →
    Completes (.plop o) s c k p (PredResult c (formOf o.dst) (o.ext.extractLsb' 2 4) (tableHolds o c))

/-- R157, R164, R172: FCLASS, SHFL and MATCH complete with a value and a predicate. That the uniform field of SHFL.MAP and
SHFL.ROT is read by the lowest participant is the model's choice (log 67), and so is the reading of log 27. -/
def Sys2Proof.Claims.ValuesWithPredicates : Prop := ∀ e ∈ classify :: shuffles ++ matches', ∀ o, (e o).completes

/-- R165, R170: VOTE.MASK, VOTE.SUM and RDLANE complete with the value that all participants, or the s register, receive. That
the uniform field of RDLANE is read by the lowest participant is the model's choice (log 67). -/
def Sys2Proof.Claims.LaneSummaries : Prop := ∀ e ∈ gathers, ∀ o, (e o).completes {}

/-- R166, R167, R169: WRED into v or s and WSCAN complete: the fixed tree over the lanes; the serial sums in lane order.
It rests on log 36, the model's own reading. -/
def Obligations.Reductions : Prop :=
  ∀ e ∈ reductions, ∀ (o : FmtA) (s : State) (sh : Shape) (r c : Cur) (k : Pack) (p : Party),
    (o.dst.cls ≠ .k → Ready {} (e.1 o) s sh r c k p →
      Completes (e.1 o) s c k p (Result c (some o.ty) o.ty.width o.dst o.wbs (inForm o) fun _ => reduction e.2.2 o s c)) ∧
    (Ready {} (e.2.1 o) s sh r c k p →
      Completes (e.2.1 o) s c k p (Result c (some o.ty) o.ty.width o.dst o.wbs .lane fun l =>
        (serial' e.2.2 o s c (l.getD 0), serialFlags e.2.2 o s c)))

/-- R161, R162: BQNT and BDEQ complete: each executing lane of the two blocks receives its word, or its value.
It rests on log 27, the model's own reading. -/
def Sys2Proof.Claims.BlockQuantisation : Prop :=
  ∀ e ∈ [(Instr.bqnt, bqntBlock), (Instr.bdeq, bdeqBlock)], ∀ (o : FmtA) (s : State) (sh : Shape) (r c : Cur) (k : Pack)
    (p : Party), Ready {} (e.1 o) s sh r c k p →
    Completes (e.1 o) s c k p fun p q =>
      let give (l : Option Nat) : Nat :=
        (((e.2 o s c (l.getD 0 / 32)).1.find? fun x => x.1 == l.getD 0).map (·.2)).getD 0
      Written c p q (some .f32) .w32 o.dst o.wbs .lane give ∧ PredsKept p q ∧ Fixed p q ∧
        q.fpflags = p.fpflags ||| ((e.2 o s c 0).2 ||| (e.2 o s c 1).2) ∧ Latched c p q (latchOf c .lane .w32 give)

/-- R165, R171, R173: VOTE.TEST writes its two predicates, WRLANE one lane's register, ELECT the elected lane. That the
uniform fields of WRLANE and ELECT are read by the lowest participant is the model's choice (log 67), and so is the reading
of log 36. -/
def Sys2Proof.Claims.LaneChoices : Prop :=
  ∀ (o : FmtA) (s : State) (sh : Shape) (r c : Cur) (k : Pack) (p : Party),
    (Ready {} (.voteTest o) s sh r c k p → Completes (.voteTest o) s c k p fun p q =>
      let form : Form := if 8#4 ≤ o.ext17 then .gather else .lane
      let all := decide ((votes o c).length = (lanesOf c.active).length)
      ∃ m : Regs, Predicated c p m form o.ext17 (fun _ => votes o c != []) ∧
        Predicated c m q form (o.ext.extractLsb' 5 4) (fun _ => all) ∧
        ValuesKept p q ∧ Fixed p q ∧ q.fpflags = p.fpflags ∧ Latched c p q noDeposit) ∧
    (Ready {} (.wrlane o) s sh r c k p → Completes (.wrlane o) s c k p
      (LaneWritten c o.ty o.dst
        (let n := uniform s c o.b % 64
         if p.live.getLsbD n then some n else none) (src o s c (some (lowLane c.active)) o.a))) ∧
    (Ready {} (.wrlaneRank o) s sh r c k p → Completes (.wrlaneRank o) s c k p
      (LaneWritten c o.ty o.dst ((lanesOf c.active)[uniform s c o.b % 64]?) (src o s c (some (lowLane c.active)) o.a))) ∧
    (Ready {} (.elect o) s sh r c k p → ∃ e, Elected c.active (uniform s c o.a % 64) e ∧
      Completes (.elect o) s c k p fun p q =>
        let x (_ : Option Nat) : Nat := e + (lanesOf c.active).length * 256
        Written c p q none .w32 o.dst o.wbs (inForm o) x ∧ Predicated c p q .lane o.ext17 (fun l => l == some e) ∧
          Fixed p q ∧ q.fpflags = p.fpflags ∧ Latched c p q (latchOf c (inForm o) .w32 x))

/-! ### Rounding and block quantisation as numbers (spec/03) -/

namespace Sys2Proof.Claims
open Sys2Proof.Machine

/-- The number m × 2^e. -/
def scaled (m : Nat) (e : Int) : Rat := (m : Rat) * (2 : Rat) ^ e
/-- With a sign. -/
def signedQ (neg : Bool) (x : Rat) : Rat := if neg then -x else x
/-- The number that a finite operand stands for (R95). -/
def numQ : Machine.Num → Option Rat
  | .fin n m e => some (signedQ n (scaled m e))
  | .nan _ | .inf _ => none
/-- R95: the magnitude of encoding `n` of a format, continued past the largest finite value by the one step 2^(emax + 1),
which the encoding of infinity stands for (R99). -/
def magnitude (f : Fmt) (n : Nat) : Rat :=
  if n / 2 ^ f.fw = 0 then scaled n (f.emin - f.fw)
  else scaled (2 ^ f.fw + n % 2 ^ f.fw) ((n / 2 ^ f.fw : Nat) - (f.bias : Int) - f.fw)
/-- `x` is the number m × 2^e, or lies strictly between it and (m + 1) × 2^e where the mark is set. -/
def Stands (m : Nat) (e : Int) (mark : Bool) (x : Rat) : Prop :=
  if mark then scaled m e < x ∧ x < scaled (m + 1) e else x = scaled m e

/-- R99, R100: which of step `a` and the next step away from zero a number of this sign rounds to, at distances `lo` and
`hi` from them. -/
def picked (mode : Mode) (neg : Bool) (a : Nat) (lo hi : Rat) : Nat :=
  if lo = 0 then a
  else match mode with
    | .rne => if lo < hi then a else if hi < lo then a + 1 else if a % 2 = 0 then a else a + 1
    | .rtz => a
    | .rup => if neg then a else a + 1
    | .rdn => if neg then a + 1 else a
    | .stoch u => if ((u + 1 : Nat) : Rat) * (lo + hi) ≤ lo * (2 ^ 32 : Nat) then a + 1 else a
/-- R99, R100: the magnitude `x` > 0 rounds to encoding `n`. -/
def Rounds (f : Fmt) (mode : Mode) (neg : Bool) (x : Rat) (n : Nat) : Prop :=
  (magnitude f f.infBits ≤ x ∧
    n = match mode with
      | .rne | .stoch _ => f.infBits
      | .rtz => f.maxBits
      | .rup => if neg then f.maxBits else f.infBits
      | .rdn => if neg then f.infBits else f.maxBits) ∨
  ∃ a, a < f.infBits ∧ magnitude f a ≤ x ∧ x < magnitude f (a + 1) ∧
    n = picked mode neg a (x - magnitude f a) (magnitude f (a + 1) - x)
/-- R101: the result of rounding `x` with an unbounded exponent is below the smallest normal magnitude. -/
def Tiny (f : Fmt) (mode : Mode) (neg : Bool) (x : Rat) : Prop :=
  ∃ w n, f.ew ≤ w ∧ scaled 1 (Fmt.emin ⟨w, f.fw⟩) ≤ x ∧ Rounds ⟨w, f.fw⟩ mode neg x n ∧
    magnitude ⟨w, f.fw⟩ n < scaled 1 f.emin

/-- R111: the number that a nonzero finite shared scale stands for. -/
def scaleQ (c : Nat) : Rat := scaled (4 + c % 4) ((c / 4 : Nat) - 129)
/-- R113: the scale of a block whose largest magnitude is `top`. -/
def Scales (p : PlaneFmt) (top : Rat) (c : Nat) : Prop :=
  let enough (c : Nat) : Prop := 4 ≤ c ∧ c ≤ 0x3FB ∧ top ≤ scaleQ c * scaled p.qmax p.off
  (enough c ∧ ∀ d, enough d → c ≤ d) ∨ ((∀ d, ¬ enough d) ∧ c = 0x3FB)
/-- R114: the spacing of a format's values V at the magnitude y, as a power of two: its exponent. -/
def Spacing (p : PlaneFmt) (y : Rat) (j : Nat) : Prop :=
  match p.kind with
  | .flt f _ => (j = 0 ∧ y < scaled 1 (f + 1 : Nat)) ∨ (scaled 1 (f + j : Nat) ≤ y ∧ y < scaled 1 (f + j + 1 : Nat))
  | .uns | .bin | .ter | .sgn => j = 0
/-- R114: `v` is the element of the number `x` under the scale `c`. -/
def Quantised (p : PlaneFmt) (mode : Mode) (neg : Bool) (x : Rat) (c : Nat) (v : Int) : Prop :=
  match p.kind with
  | .bin => v = if neg then -1 else 1
  | .uns | .ter | .sgn | .flt _ _ =>
    let y := x / (scaleQ c * scaled 1 p.off)
    ∃ j a : Nat, Spacing p y j ∧ scaled a j ≤ y ∧ y < scaled (a + 1) j ∧
      let n := min (picked mode neg a ((y - scaled a j) / scaled 1 j) ((scaled (a + 1) j - y) / scaled 1 j) * 2 ^ j) p.qmax
      v = if neg then (if p.kind = .uns then 0 else -(n : Int)) else n

/-- The 32 words of a block image as one number (R161). -/
def imageBits (w : Nat → Nat) : Nat := (List.range 31).foldl (fun n j => n + w j * 2 ^ (32 * j)) 0

end Sys2Proof.Claims


/-- R71, R98, R99, R100, R101: what an operation delivers is the encoding that the mode picks of the two around the exact
number, after SCL; overflow, underflow and inexact are raised as their table says. Sums, products and fused products hand
the exact number to that rounding, and an exact zero has the sign of the rule. -/
def Sys2Proof.Claims.Rounding : Prop :=
  (∀ f ∈ [fp64, fp32, fp16, bf16], ∀ (mode : Mode) (neg mark : Bool) (m : Nat) (e scl : Int) (x : Rat),
    0 < x → Stands m (e + scl) mark x → (mark = true → f.fw + 36 ≤ bitLen m) →
    ∃ n fl, deliver f mode scl 0 (.real neg m e mark 0) = (f.signed neg n, fl) ∧ Rounds f mode neg x n ∧
      fl.getLsbD 0 = false ∧ fl.getLsbD 1 = false ∧
      (fl.getLsbD 2 = true ↔ n = f.infBits ∨ magnitude f f.infBits ≤ x) ∧
      (fl.getLsbD 3 = true ↔ Tiny f mode neg x ∧ magnitude f n ≠ x) ∧
      (fl.getLsbD 4 = true ↔ n = f.infBits ∨ magnitude f n ≠ x)) ∧
  (∀ (mode : Mode) (a b c : Machine.Num) (x y z : Rat), numQ a = some x → numQ b = some y → numQ c = some z →
    let gives (v : Val) (x : Rat) (zero : Bool) : Prop :=
      ∃ neg m e, v = .real neg m e false 0 ∧ signedQ neg (scaled m e) = x ∧ (x = 0 → neg = zero)
    let sign (p q : Bool) : Bool := if p = q then p else mode == .rdn
    gives (addV mode a b) (x + y) (sign a.neg b.neg) ∧ gives (subV mode a b) (x - y) (sign a.neg (!b.neg)) ∧
      gives (mulV a b) (x * y) (a.neg != b.neg) ∧
      gives (fmaV mode a b c) (x * y + z) (sign (a.neg != b.neg) c.neg))

/-- R103, R104: quotients and roots are handed to the rounding exactly, or between two numbers far closer than its steps;
the special inputs of every function have their results.
It rests on log 31, the model's own reading. -/
def Sys2Proof.Claims.CorrectFunctions : Prop :=
  (∀ n m e n' m' e', 0 < m → 0 < m' →
    ∃ q k mark, divV (.fin n m e) (.fin n' m' e') = .real (n != n') q k mark 0 ∧
      Stands q k mark (scaled m e / scaled m' e') ∧ 88 ≤ bitLen q) ∧
  (∀ m e, 0 < m →
    let root (v : Val) (x : Rat) : Prop := ∃ r k mark, v = .real false r k mark 0 ∧ 88 ≤ bitLen r ∧
      if mark then scaled r k * scaled r k < x ∧ x < scaled (r + 1) k * scaled (r + 1) k else scaled r k * scaled r k = x
    root (sqrtV (.fin false m e)) (scaled m e) ∧ root (rsqV (.fin false m e)) (1 / scaled m e)) ∧
  (∀ (n n' : Bool) (m k : Nat) (e e' : Int), 0 < m →
    let zero : Machine.Num := .fin n 0 e
    let odd : Bool := k % 2 == 1
    divV zero (.fin n' 0 e') = .nan fNV ∧ divV (.inf n) (.inf n') = .nan fNV ∧
    divV (.fin n m e) (.fin n' 0 e') = .inf (n != n') fDZ ∧ divV (.inf n) (.fin n' m e) = .inf (n != n') 0 ∧
    divV (.fin n m e) (.inf n') = .real (n != n') 0 0 false 0 ∧ divV zero (.fin n' m e) = .real (n != n') 0 0 false 0 ∧
    sqrtV zero = .real n 0 0 false 0 ∧ sqrtV (.fin true m e) = .nan fNV ∧ sqrtV (.inf n) = (if n then .nan fNV else .inf false 0) ∧
    rsqV zero = .inf n fDZ ∧ rsqV (.fin true m e) = .nan fNV ∧
    rsqV (.inf n) = (if n then .nan fNV else .real false 0 0 false 0) ∧
    exp2V zero = .exact (.real false 1 0 false 0) ∧
    exp2V (.inf n) = .exact (if n then .real false 0 0 false 0 else .inf false 0) ∧
    (0 < k → k < 2 ^ 16 → exp2V (.fin n k 0) = .exact (.real false 1 (if n then -k else k) false 0)) ∧
    log2V zero = .exact (.inf true fDZ) ∧ log2V (.fin true m e) = .exact (.nan fNV) ∧
    log2V (.inf n) = .exact (if n then .nan fNV else .inf false 0) ∧
    log2V (.fin false (2 ^ k) e) = .exact (.real (decide (e + k < 0)) (e + k).natAbs 0 false 0) ∧
    sinpV zero = .exact (.real n 0 0 false 0) ∧ sinpV (.inf n) = .exact (.nan fNV) ∧
    (0 < k → sinpV (.fin n k 0) = .exact (.real n 0 0 false 0)) ∧
    sinpV (.fin n (2 * k + 1) (-1)) = .exact (.real (odd != n) 1 0 false 0) ∧
    cospV zero = .exact (.real false 1 0 false 0) ∧ cospV (.inf n) = .exact (.nan fNV) ∧
    cospV (.fin n k 0) = .exact (.real odd 1 0 false 0) ∧ cospV (.fin n (2 * k + 1) (-1)) = .exact (.real false 0 0 false 0) ∧
    tanhV zero = .exact (.real n 0 0 false 0) ∧ tanhV (.inf n) = .exact (.real n 1 0 false 0))

/-- R105, R106, R111, R113, R114, R161: BQNT's scale of a block is the smallest that suffices; every element is the number
over the scale, rounded to the format by its lane's mode and clamped; inexact tells whether an element differs; and the
image words hold the elements and the scale. -/
def Sys2Proof.Claims.QuantisedBlocks : Prop :=
  (∀ code < 20, ∀ xs : List (Machine.Num × Mode), xs.length = 32 →
    let p := planeFmt code
    ((∃ x ∈ xs, numQ x.1 = none) → quantBlock p xs = (0x3FC, xs.map fun _ => 0, fNV)) ∧
    ((∀ x ∈ xs, numQ x.1 = some 0) → quantBlock p xs = (0, xs.map fun _ => 0, 0)) ∧
    ((∀ x ∈ xs, ∃ y, numQ x.1 = some y) → (∃ x ∈ xs, numQ x.1 ≠ some 0) →
      ∃ c vs fl top, quantBlock p xs = (c, vs, fl) ∧ vs.length = 32 ∧ Scales p top c ∧
        (∃ x ∈ xs, numQ x.1 = some top ∨ numQ x.1 = some (-top)) ∧
        (∀ x ∈ xs, ∀ y, numQ x.1 = some y → -top ≤ y ∧ y ≤ top) ∧
        (∀ (i : Nat) (x : Machine.Num × Mode) v y, xs[i]? = some x → vs[i]? = some v → numQ x.1 = some (signedQ x.1.neg y) → 0 ≤ y →
          Quantised p x.2 x.1.neg y c v) ∧
        (fl = fNX ∨ fl = 0) ∧
        (fl = fNX ↔ ∃ (i : Nat) (x : Machine.Num × Mode) (v : Int) (y : Rat), xs[i]? = some x ∧ vs[i]? = some v ∧ numQ x.1 = some y ∧
          y ≠ (v : Rat) * scaled 1 p.off * scaleQ c) ∧
        ∀ i v, vs[i]? = some v → p.value (packedElem p.bits i (imageBits (imageWord p c vs))) = v)) ∧
  (∀ code sc vs, imageWord (planeFmt code) sc vs 31 = sc ∧
    ∀ j, (planeFmt code).bits ≤ j → j < 31 → imageWord (planeFmt code) sc vs j = 0) ∧
  (∀ (o : FmtA) (s : State) (c : Cur) (k : Nat), k < 2 →
    let x (l : Nat) : Machine.Num × Mode :=
      (if c.active.getLsbD l then numOf fp32 (readSrc s c (some .f32) .w32 (some l) o.a) else .fin false 0 0,
        modeOf c.regs.fpmode o.rm (word .w32 s c (some l) o.b))
    let q := quantBlock (planeFmt o.planeFmt.toNat) ((List.range 32).map fun i => x (32 * k + i))
    let act := (List.range 32).filter fun i => c.active.getLsbD (32 * k + i)
    bqntBlock o s c k =
      (act.map fun i => (32 * k + i, imageWord (planeFmt o.planeFmt.toNat) q.1 q.2.1 i), if act = [] then 0 else q.2.2))

/-- R107, R111, R115, R162: BDEQ gives a lane the number V × 2^off × s of its element of the image; a product that exceeds
the largest finite magnitude is an infinity and raises overflow and inexact, and no other raises anything; a zero scale
gives +0, a NaN scale NaN and invalid. -/
def Sys2Proof.Claims.DequantisedBlocks : Prop :=
  (∀ code < 20, ∀ (sc x : Nat), sc < 1024 → x < 2 ^ (planeFmt code).bits →
    let p := planeFmt code
    let v := p.value x
    let r := dequant p sc v
    (sc / 4 = 255 → r = (fp32.nanBits, fNV)) ∧
    (sc / 4 ≠ 255 → (sc / 4 = 0 ∨ v = 0) → r = (0, 0)) ∧
    (sc / 4 ≠ 255 → sc / 4 ≠ 0 → v ≠ 0 →
      let y : Rat := (v : Rat) * scaled 1 p.off * scaleQ sc
      let neg := decide (v < 0)
      (signedQ neg y ≤ magnitude fp32 fp32.maxBits →
        ∃ n, n < fp32.infBits ∧ r = (fp32.signed neg n, 0) ∧ signedQ neg (magnitude fp32 n) = y) ∧
      (magnitude fp32 fp32.maxBits < signedQ neg y → r = (fp32.signed neg fp32.infBits, fOF ||| fNX))) ∧
    (p.isNan x = true → v = 0)) ∧
  (∀ (o : FmtA) (s : State) (c : Cur) (k : Nat), k < 2 →
    let p := planeFmt o.planeFmt.toNat
    let w (j : Nat) : Nat := readSrc s c (some .f32) .w32 (some (32 * k + j)) o.a
    let sc := w 31 % 1024
    let value (i : Nat) : Nat × Flags := dequant p sc (p.value (packedElem p.bits i (imageBits w)))
    let act := (List.range 32).filter fun i => c.active.getLsbD (32 * k + i)
    bdeqBlock o s c k =
      (act.map fun i => (32 * k + i, (value i).1), act.foldl (fun fl i => fl ||| (value i).2) 0))


/-! ### Control flow and synchronisation (spec/04) -/

namespace Sys2Proof.Claims
open Sys2Proof.Machine

/-- R47: the address whose position is that of `a` plus a displacement. -/
def reach (a : Word64) (d : Int) : Word64 :=
  let n : Int := (a.toNat / 64 * 5 + a.toNat % 8 : Nat) + d
  u64 (n % (5 * 2 ^ 58 : Nat) / 5 * 64 + n % (5 * 2 ^ 58 : Nat) % 5).toNat
def successor (a : Word64) : Word64 := reach a 1

/-- R137, R138: where a transfer takes a lane, none where it falls through, and what it writes to the link field. -/
def transfers : List ((FmtB → Instr) × (FmtB → State → Cur → Option Nat → Option Word64) ×
    Option (FmtB → Width × (State → Cur → Option Nat → Nat))) :=
  let near (o : FmtB) (_ : State) (c : Cur) (_ : Option Nat) : Option Word64 := some (reach c.pc o.disp.toInt)
  let far (o : FmtB) (s : State) (c : Cur) (l : Option Nat) : Option Word64 := some (u64 (word .w64 s c l o.target))
  let link (_ : FmtB) : Width × (State → Cur → Option Nat → Nat) := (.w64, fun _ c _ => (successor c.pc).toNat)
  let width (o : FmtB) : Width := if formOf o.link = .lane then .w32 else .w64
  let count (o : FmtB) (s : State) (c : Cur) (l : Option Nat) : Nat :=
    (readSpec s c none (width o) l o.link + (2 ^ (width o).bits - 1)) % 2 ^ (width o).bits
  [(.bra, near, none), (.brx, far, none), (.call, near, some link), (.callIndirect, far, some link), (.ret, far, none),
   (.loops, fun o s c l => if count o s c l = 0 then none else some (reach c.pc o.disp.toInt),
    some fun o => (width o, count o))]

/-- The target of a lane of the issuing group. -/
def laneTarget (form : Form) (c : Cur) (f : Option Nat → Option Word64) (l : Nat) : Option Word64 :=
  match form with
  | .lane => if c.active.getLsbD l then f (some l) else none
  | .unif | .gather => f none

/-- R49 for the lanes that take a transfer: no target is faulted. `a` is the state after the lines have been fetched. -/
def TargetsLegal (s : State) (c : Cur) (form : Form) (f : Option Nat → Option Word64) (a : State) : Prop :=
  checkTargets (s.asker c) (s.here c)
    ((lanesFor form c.active).filterMap fun l => (f l).map fun t => (l.getD (lowLane c.lanes), t)) s.idle = (a, [])

/-- What a transfer leaves of the latches: lanes that took it have all five INVALID (R73). -/
structure JumpLatched (c : Cur) (form : Form) (f : Option Nat → Option Word64) (dep : Nat → Latch) (p q : Regs) : Prop where
  taken : ∀ l i, c.lanes.getLsbD l → (laneTarget form c f l).isSome → i < 5 → q.readL l i = .invalid
  fell : ∀ l i, c.lanes.getLsbD l → laneTarget form c f l = none → i < 5 → q.readL l i =
    if slotOf c.pc = 4 then .invalid else if i = slotOf c.pc then dep l else p.readL l i
  others : ∀ l i, c.lanes.getLsbD l = false → i < 5 → q.readL l i = p.readL l i

/-- The lane whose operand an executing lane reads: the uniform form has none of its own (R120). -/
def operandLane (o : FmtB) (l : Nat) : Option Nat := if formOf o.link = .lane then some l else none
/-- The lanes of one WSYNC, or BAR, with their masks. -/
def syncMasks (o : FmtB) (s : State) (c : Cur) : List (Nat × Lanes) :=
  (lanesOf c.active).map fun l => (l, u64 (word .w64 s c (operandLane o l) o.mask))
def barMasks (o : FmtB) (s : State) (c : Cur) : List (Nat × BitVec 16) :=
  (lanesOf c.active).map fun l => (l, BitVec.ofNat 16 (word .w64 s c (operandLane o l) o.mask))
/-- R49: the defects of a target address that are checked before its line is fetched. -/
def Malformed (t : Word64) : Prop := t.toNat / 8 % 8 ≠ 0 ∨ 5 ≤ t.toNat % 8
/-- The trap of a fault of a step before the instruction's effect. -/
def trapWith (code sub : Nat) (lanes : Lanes) (addr : Word64) (acc hint : Nat) : Trap :=
  { code, sub, detail := 0, addr, lanes, acc, hint }
/-- R143: the barrier record after the executing lanes of a warp have arrived with a mask. -/
def arrive (k : Pack) (c : Cur) (m : BitVec 16) : BarRec :=
  let lanes := ((cget k.bars (c.who / 16)).map (·.lanes)).getD []
  { mask := some m, lanes := wr 0 lanes (c.who % 16) (rd 0 lanes (c.who % 16) ||| c.active) }

end Sys2Proof.Claims


/-- R137, R138: BRA, BRX, CALL, RET and LOOPS complete when no target is faulted: the lanes that take the transfer stand at
their targets, the others of the group at the successor; CALL writes the successor and LOOPS its counter less one; nothing
else changes. -/
def Sys2Proof.Claims.Transfers : Prop :=
  ∀ e ∈ transfers, ∀ (o : FmtB) (s a : State) (sh : Shape) (r c : Cur) (k : Pack) (p : Party),
    Ready {} (e.1 o) s sh r c k p → TargetsLegal s c (formOf o.link) (e.2.1 o s c) a →
    ∃ t k' p' q, exec (e.1 o) s = .next t ∧ a.pack c.pack = some k' ∧ a.party c.pack c.who = some p' ∧
      t.party c.pack c.who = some q ∧
      (∀ l, c.lanes.getLsbD l →
        q.pcOf l = (laneTarget (formOf o.link) c (e.2.1 o s c) l).getD (successor c.pc)) ∧
      (∀ l, c.lanes.getLsbD l = false → q.pcOf l = p'.pcOf l) ∧ q.live = p'.live ||| c.lanes ∧
      Elsewhere c a t k' p' q ∧ PredsKept p'.regs q.regs ∧ Fixed p'.regs q.regs ∧ q.regs.fpflags = p'.regs.fpflags ∧
      match e.2.2 with
      | some f =>
        Written c p'.regs q.regs none (f o).1 o.link false (formOf o.link) ((f o).2 s c) ∧
          JumpLatched c (formOf o.link) (e.2.1 o s c) (latchOf c (formOf o.link) (f o).1 ((f o).2 s c)) p'.regs q.regs
      | none => ValuesKept p'.regs q.regs ∧ JumpLatched c (formOf o.link) (e.2.1 o s c) noDeposit p'.regs q.regs

/-- R139: YIELD sets the countdown of every executing lane to 8, and does nothing on the spine. NOP (R81) and FENCE, whose
orders the machine keeps anyway (log 1), change nothing.
It rests on log 43, the model's own reading. -/
def Sys2Proof.Claims.YieldAndNop : Prop :=
  ∀ (s : State) (sh : Shape) (r c : Cur) (k : Pack) (p : Party),
    (∀ o, Ready {} (.yield o) s sh r c k p → c.who ≠ spineWho →
      ∃ p1 : Party, (∀ l, rd 0 p1.yield l = if c.active.getLsbD l then 8 else rd 0 p.yield l) ∧
        { p1 with yield := p.yield } = p ∧
        CompletesIn (.yield o) s c (s.idle.setParty c.pack c.who p1) noDeposit) ∧
    (∀ o, Ready {} (.yield o) s sh r c k p → c.who = spineWho → Completes (.yield o) s c k p (NoResult c)) ∧
    (∀ o, Ready {} (.nop o) s sh r c k p → Completes (.nop o) s c k p (NoResult c)) ∧
    ∀ o, Ready {} (.fence o) s sh r c k p → Completes (.fence o) s c k p (NoResult c)

/-- R140, R41: EXIT ends the executing lanes. While lanes of the party stay live, the rest of the group stands at the
successor and no register changes; when none is left, the party has exited. -/
def Sys2Proof.Claims.Exit : Prop :=
  ∀ (o : FmtB) (s : State) (sh : Shape) (r c : Cur) (k : Pack) (p : Party), Ready {} (.exit o) s sh r c k p →
    ∃ t, exec (.exit o) s = .next t ∧
      ((p.live ||| c.lanes) &&& ~~~c.active ≠ 0 → t.mem = s.mem ∧ ∃ q, t.party c.pack c.who = some q ∧
        q.live = (p.live ||| c.lanes) &&& ~~~c.active ∧ ValuesKept p.regs q.regs ∧ PredsKept p.regs q.regs ∧
        Fixed p.regs q.regs ∧ q.regs.fpflags = p.regs.fpflags ∧ q.life = p.life ∧
        ∀ l, q.live.getLsbD l → q.pcOf l = if c.lanes.getLsbD l then successor c.pc else p.pcOf l) ∧
      ((p.live ||| c.lanes) &&& ~~~c.active = 0 → ∀ q, t.party c.pack c.who = some q → q.life = .exited ∧ q.live = 0)

/-- R49, R83: a transfer of which some target is faulted does not take place: the fault is that of the lowest such lane,
and holds the lanes with the same cause, or the issuing group in the uniform form. A target is faulted with ENC.TARGET when
bits [5:3] are nonzero, its slot is no slot, or the slot's TGT bit is clear in the line; a fault of the fetch comes before
the last. -/
def Sys2Proof.Claims.TransferFaults : Prop :=
  (∀ e ∈ transfers, ∀ (o : FmtB) (s a : State) (sh : Shape) (r c : Cur) (k : Pack) (p : Party) (l : Nat) (f : LaneFault)
    (fs : List (Nat × LaneFault)), Ready {} (e.1 o) s sh r c k p →
    checkTargets (s.asker c) (s.here c)
      ((lanesFor (formOf o.link) c.active).filterMap fun l =>
        (e.2.1 o s c l).map fun t => (l.getD (lowLane c.lanes), t)) s.idle = (a, (l, f) :: fs) →
    let same := (((l, f) :: fs).filter fun x => x.2.code == f.code).map (·.1)
    exec (e.1 o) s = .next (takeFault a c
      (trapWith f.code f.sub (if formOf o.link = .lane then maskOf same else c.lanes) f.addr 3 f.hint))) ∧
  (∀ (a : Asker) (cl : Nat) (s : State),
    checkTargets a cl [] s = (s, []) ∧
    ∀ l t rest s' x fs s'', s.checkTarget a cl t = (s', x) → checkTargets a cl rest s' = (s'', fs) →
      checkTargets a cl ((l, t) :: rest) s = (s'', match x with | some f => (l, f) :: fs | none => fs)) ∧
  ∀ (s b : State) (a : Asker) (cl : Nat) (t : Word64) (x : Option LaneFault), s.checkTarget a cl t = (b, x) →
    (Malformed t → x = some ⟨cTarget, 0, t, 0⟩ ∧ b = s) ∧
    (¬ Malformed t → ∀ y, s.fetchVa a cl (t.toNat / 64 * 64) t = (b, y) →
      match y with
      | .error f => x = some f
      | .ok line => x = if line.getLsbD (27 + t.toNat % 8) then none else some ⟨cTarget, 0, t, 0⟩)

/-- R141, R143: WSYNC and BAR complete at once when no lane is in violation and their record closes; when the record stays
open, the group waits inside the instruction; when it has closed, the group leaves. That BAR reads its mask at 64 bits is the model's choice (log 82), and so are the readings of log 29 and, that the mask
is the low 16 bits, all ones where it is omitted, of log 65. -/
def Sys2Proof.Claims.Synchronisation : Prop :=
  ∀ (o : FmtB) (s : State) (sh : Shape) (r c : Cur) (k : Pack) (p : Party),
    (Ready {} (.wsync o) s sh r c k p →
      (c.again = true → p.syncing &&& c.lanes = 0 → CompletesIn (.wsync o) s c s.idle noDeposit) ∧
      ∀ rs, c.again = false → joinSyncs (syncMasks o s c) p.syncs = (rs, 0) →
        let p1 := { p with syncs := rs }.closeSyncs
        let a := s.idle.setParty c.pack c.who p1
        (p1.syncing &&& c.active = 0 → CompletesIn (.wsync o) s c a noDeposit) ∧
        (p1.syncing &&& c.active = c.lanes → exec (.wsync o) s = .next (a.enterWait c))) ∧
    (Ready { attached := true } (.bar o) s sh r c k p →
      (c.again = true → s.barLanes c.pack c.who &&& c.lanes = 0 → CompletesIn (.bar o) s c s.idle noDeposit) ∧
      ∀ m : BitVec 16, c.again = false → (∀ x ∈ barMasks o s c, x.2 = m) → m.getLsbD (c.who % 16) →
        (∀ b, cget k.bars (c.who / 16) = some b → b.mask = none ∨ b.mask = some m) →
        let a := (s.idle.setPack c.pack { k with bars := cset k.bars (c.who / 16) (arrive k c m) }).closeBar c.pack (c.who / 16)
        (a.barLanes c.pack c.who &&& c.active = 0 → CompletesIn (.bar o) s c a noDeposit) ∧
        (a.barLanes c.pack c.who &&& c.active = c.lanes → exec (.bar o) s = .next (a.enterWait c)))

/-- R141, R143: WSYNC and BAR fault SYNC.MASK for the lanes in violation, and none joins. WSYNC: a lane whose mask leaves it
out, or meets a pending record of another mask, or one that a lower lane opens. BAR: a lane whose mask leaves its warp out,
differs from that of a lower lane, or from the pending one. -/
def Sys2Proof.Claims.SynchronisationFaults : Prop :=
  ∀ (o : FmtB) (s : State) (sh : Shape) (r c : Cur) (k : Pack) (p : Party), c.again = false →
    (Ready {} (.wsync o) s sh r c k p → ∀ rs bad, joinSyncs (syncMasks o s c) p.syncs = (rs, bad) →
      (∀ l, bad.getLsbD l → ∃ m, (l, m) ∈ syncMasks o s c ∧
        (m.getLsbD l = false ∨ ∃ m', m' &&& m ≠ 0 ∧ m' ≠ m ∧
          ((∃ x ∈ p.syncs, x.mask = m') ∨ ∃ l' < l, (l', m') ∈ syncMasks o s c))) ∧
      (∀ x ∈ syncMasks o s c,
        x.2.getLsbD x.1 = false ∨ ((∃ y ∈ p.syncs, y.mask &&& x.2 ≠ 0) ∧ ∀ y ∈ p.syncs, y.mask ≠ x.2) →
          bad.getLsbD x.1) ∧
      (bad ≠ 0 → exec (.wsync o) s = .next (takeFault s.idle c (trapWith cMask 0 bad 0 0 0)))) ∧
    (Ready { attached := true } (.bar o) s sh r c k p →
      ∀ bad : Lanes, bad ≠ 0 →
        (∀ l, bad.getLsbD l ↔ ∃ m, (l, m) ∈ barMasks o s c ∧
          (m.getLsbD (c.who % 16) = false ∨ (∃ l' m', l' < l ∧ (l', m') ∈ barMasks o s c ∧ m' ≠ m) ∨
            ∃ b m', cget k.bars (c.who / 16) = some b ∧ b.mask = some m' ∧ m' ≠ m)) →
        exec (.bar o) s = .next (takeFault s.idle c (trapWith cMask 0 bad 0 0 0)))


/-! ### Memory (spec/07, spec/12) -/

namespace Sys2Proof.Claims
open Sys2Proof.Machine

/-- R56, R211: the effective address of a lane, or of the party; and the offset of a scratchpad access. -/
def address (o : FmtM) (s : State) (c : Cur) (l : Option Nat) : Word64 :=
  u64 (word .w64 s c l o.base) + (BitVec.ofNat 32 (word .w32 s c l o.index)).signExtend 64 + o.offset.signExtend 64
def padOffset (o : FmtM) (s : State) (c : Cur) (l : Option Nat) : Nat :=
  (word .w32 s c l o.base + word .w32 s c l o.index + o.offset.toNat) % 2 ^ 32

/-- No executing lane's access faults (R211): `a` is the state after their translations, `hits` the physical address of each,
in ascending order. -/
def Accesses (o : FmtM) (acc : Acc) (consumes : Consumes) (s : State) (c : Cur) (a : State) (hits : List (Option Nat × Nat)) : Prop :=
  accessLanes (s.asker c) c (sizeBytes o.size) acc consumes
    ((lanesFor (formM o) c.active).map fun l => (l, address o s c l)) s.idle = (a, (hits, []))
def hitOf (hits : List (Option Nat × Nat)) (l : Option Nat) : Nat := ((hits.find? fun h => h.1 == l).map (·.2)).getD 0

/-- A party to which a unit may have delivered something while it waits. -/
def Served (p q : Party) : Prop :=
  { q with groups := p.groups } = p ∧
    q.groups.map (fun g => (g.pc, g.lanes, g.held, g.wait.isSome)) = p.groups.map fun g => (g.pc, g.lanes, g.held, g.wait.isSome)

/-- Granule `g` is marked, as uncorrectable or as correctable, in some copy of its line (R194, R209). -/
def Erring (f : Checks → BitVec 4) (s : State) (g : Nat) : Prop :=
  (f (s.dramChecks (g / 4))).getLsbD (g % 4) ∨ (f (s.line (g / 4)).l2).getLsbD (g % 4) ∨
    ∃ c, (f ((s.line (g / 4)).copy c).chk).getLsbD (g % 4)
/-- No granule is marked that was not. -/
def NoNewErrors (a t : State) : Prop :=
  ∀ g, (Erring Checks.unc t g → Erring Checks.unc a g) ∧ (Erring Checks.corr t g → Erring Checks.corr a g)
/-- Caches alone have changed: where lines stand, which free choices have been used, which correctable errors have been
corrected and counted; no byte of memory. -/
structure CachesOnly (a t : State) : Prop where
  state : { t with stale := a.stale, unc := a.unc, corr := a.corr, lines := a.lines, clusters := a.clusters, dies := a.dies,
                   choices := a.choices } = a
  clusters : ∀ n, { t.cluster n with counters := (a.cluster n).counters } = a.cluster n
  dies : ∀ d, { t.die d with softL2 := (a.die d).softL2, softDram := (a.die d).softDram } = a.die d
  marks : NoNewErrors a t

/-- What a memory instruction leaves alone, beside the bytes of memory: everything but the caches' directory, their
counters and free choices, the error marks of the granules it touches, and the condition monitors with those that wait for them. -/
structure MemoryOnly (c : Cur) (a t : State) (p q : Party) : Prop where
  state : { t with mem := a.mem, stale := a.stale, unc := a.unc, corr := a.corr, lines := a.lines, clusters := a.clusters,
                   dies := a.dies, packs := a.packs, monitors := a.monitors, choices := a.choices, cur := a.cur } = a
  others : ∀ u w x, (u ≠ c.pack ∨ w ≠ c.who) → a.party u w = some x → ∃ y, t.party u w = some y ∧ Served x y
  packs : ∀ u x, a.pack u = some x → ∃ y, t.pack u = some y ∧ { y with parties := x.parties, lines := x.lines } = x
  clusters : ∀ n, { t.cluster n with counters := (a.cluster n).counters, lineCount := (a.cluster n).lineCount } = a.cluster n
  dies : ∀ d, { t.die d with softL2 := (a.die d).softL2, softDram := (a.die d).softDram } = a.die d
  marks : NoNewErrors a t
  monitors : ∀ m ∈ t.monitors, ∃ m' ∈ a.monitors, { m with woken := m'.woken, overflow := m'.overflow } = m'
  party : { q with regs := p.regs, groups := p.groups, jumped := p.jumped, lines := p.lines, fenced := p.fenced } = p
  issue : t.cur = none

/-- The whole of a memory access of all executing lanes: `give` is the result of each, `mem` the memory it leaves. -/
def AccessDone (i : Instr) (s : State) (c : Cur) (a : State) (mem : Nat → Byte) (regs : Regs → Regs → Prop) : Prop :=
  ∃ t p q, exec i s = .next t ∧ a.party c.pack c.who = some p ∧ t.party c.pack c.who = some q ∧ Advances c p q ∧
    MemoryOnly c a t p q ∧ (∀ x, t.byteAt x = mem x) ∧ regs p.regs q.regs

/-- A result of a memory instruction in its data register. -/
def Given (c : Cur) (t : Option Ty) (w : Width) (o : FmtM) (x : Option Nat → Nat) (dep : Nat → Latch) (p q : Regs) : Prop :=
  Written c p q t w o.data false (formM o) x ∧ PredsKept p q ∧ Fixed p q ∧ q.fpflags = p.fpflags ∧ Latched c p q dep

/-- R211: what LD and LDS deliver of the `n` bytes read, and its latch: a uniform result has the 64 bits of its s
register. -/
def extended' (sx : Bool) (n raw : Nat) : Nat := if sx ∧ n < 4 then unsignedOf 32 (signedOf (8 * n) raw) else raw
def loadLatch (sx : Bool) (o : FmtM) (c : Cur) (x : Option Nat → Nat) : Nat → Latch :=
  if formM o = .unif ∧ sizeWidth o.size = .w32 then
    latchOf c .unif .w64 fun l => (toS (if sx then some .i32 else none) (x l)).toNat
  else latchOf c (formM o) (sizeWidth o.size) x

/-- What a list of stores leaves in a byte: the last that covers it. -/
def storedAt (n : Nat) (data : Option Nat → Nat) (hits : List (Option Nat × Nat)) (old : Nat → Byte) (x : Nat) : Byte :=
  hits.foldl (fun b h => if h.2 ≤ x ∧ x < h.2 + n then BitVec.ofNat 8 (data h.1 / 256 ^ (x - h.2)) else b) (old x)
/-- The same in memory, where the bytes that a submission area reserves stay (R5). -/
def storedIn (a : State) (n : Nat) (data : Option Nat → Nat) (hits : List (Option Nat × Nat)) (x : Nat) : Byte :=
  if a.reservedAt x then a.byteAt x else storedAt n data hits a.byteAt x
def storeData (o : FmtM) (s : State) (c : Cur) (l : Option Nat) : Nat := readSpec s c none (sizeWidth o.size) l o.data

/-- R214, R215: lanes one after another read a word, give it back and replace it, but for reserved bytes (R5); `new` is none
where nothing is written. -/
def exchange (res : Nat → Bool) (n : Nat) (new : Option Nat → Nat → Option Nat) :
    List (Option Nat × Nat) → (Nat → Byte) → (Nat → Byte) × List (Option Nat × Nat)
  | [], m => (m, [])
  | h :: r, m =>
    let old := ofBytes ((List.range n).map fun i => m (h.2 + i))
    let m' : Nat → Byte := match new h.1 old with
      | none => m
      | some x => fun k => if h.2 ≤ k ∧ k < h.2 + n ∧ res k = false then BitVec.ofNat 8 (x / 256 ^ (k - h.2)) else m k
    ((exchange res n new r m').1, (h.1, old) :: (exchange res n new r m').2)

/-- R214: the new value of each operation on `w` bits, from the old one and the operand. -/
def atomics : List ((FmtM → Instr) × ((w old x : Nat) → Nat)) :=
  [(.atomAdd, fun w a x => (a + x) % 2 ^ w), (.atomUmin, fun _ a x => if a ≤ x then a else x),
   (.atomUmax, fun _ a x => if a ≤ x then x else a),
   (.atomSmin, fun w a x => if signedOf w a < signedOf w x then a else x),
   (.atomSmax, fun w a x => if signedOf w a < signedOf w x then x else a),
   (.atomAnd, fun _ a x => a &&& x), (.atomOr, fun _ a x => a ||| x), (.atomXor, fun _ a x => a ^^^ x),
   (.atomExch, fun _ _ x => x), (.atomFadd, fun _ a x => (f32Add .rne a x).1)]

/-- R200, R211: the executing lanes' scratchpad accesses pass their checks, and no line they touch is EMPTY. -/
def PadAccesses (o : FmtM) (consumes : Bool) (s : State) (c : Cur) (x : Spad) : Prop :=
  ∀ l ∈ lanesFor (formM o) c.active, let f := padOffset o s c l
    f % sizeBytes o.size = 0 ∧ f + sizeBytes o.size ≤ x.size ∧ x.emptyAt f (sizeBytes o.size) = false ∧
      (consumes = true → x.uncAt f (sizeBytes o.size) = false)
def padHits (o : FmtM) (s : State) (c : Cur) : List (Option Nat × Nat) :=
  (lanesFor (formM o) c.active).map fun l => (l, padOffset o s c l)

/-- What LDS and STS leave alone: everything but the contents and error marks of the workgroup's scratchpad, counters, and of
the issuing party its registers and PC groups. -/
structure PadOnly (c : Cur) (s t : State) (k : Pack) (p q : Party) : Prop where
  state : { t with packs := s.packs, clusters := s.clusters, cur := s.cur } = s
  packs : ∀ u, u ≠ c.pack → t.pack u = s.pack u
  pack : ∃ k', t.pack c.pack = some k' ∧ { k' with parties := k.parties, lines := k.lines, spads := k.spads } = k ∧
    (∀ w, w ≠ c.who → cget k'.parties w = cget k.parties w) ∧
    ∀ wg, wg ≠ c.who / 16 → cget k'.spads wg = cget k.spads wg
  clusters : ∀ n, { t.cluster n with counters := (s.cluster n).counters, lineCount := (s.cluster n).lineCount } = s.cluster n
  party : { q with regs := p.regs, groups := p.groups, jumped := p.jumped, lines := p.lines, fenced := p.fenced } = p
  issue : t.cur = none

/-- The lines of a physical range. -/
def inRange (pieces : List (Nat × Nat)) (line : Nat) : Prop := ∃ x ∈ pieces, x.1 / 128 ≤ line ∧ line * 128 < x.1 + x.2

/-- R204: the write-back of a dirty line of an L1 leaves M as E, and O as S. -/
def WrittenBack (a b : State) (n : Nat) : Prop :=
  (b.line n).dirty = false ∧ (∀ x, x / 128 = n → (a.line n).dirty → b.homeByte x = b.byteAt x) ∧
    ∀ y < 96, (a.line n).dirty → (a.line n).owner = some y →
      if (a.line n).owned then (b.line n).owner = none ∧ (b.line n).sharers.getLsbD y else (b.line n).owner = some y
/-- R219, R221: what a maintenance instruction does to the lines of a range. -/
def maintenance : List ((FmtM → Instr) × (State → State → Nat → Prop)) :=
  [(.cmaintWbL1, WrittenBack),
   (.cmaintWbiL1, fun a b n => (b.line n).dirty = false ∧ (b.line n).owner = none ∧ (b.line n).sharers = 0 ∧
     ∀ x, x / 128 = n → (a.line n).dirty → b.homeByte x = b.byteAt x),
   (.cmaintWbMem, fun a b n => WrittenBack a b n ∧ (b.line n).l2Dirty = false)]

/-- R205: what the hints ask for. `.STRM` is code 1, `.L2O` 2, `.KEEP` 3, `.ONCE` 4. -/
def hinted (hint : BitVec 3) : Alloc :=
  match hint.toNat with
  | 1 => { l1 := true, l2 := true, rank := 0 } | 2 => { l1 := false, l2 := true, rank := 1 }
  | 3 => { l1 := true, l2 := true, rank := 2 } | 4 => { l1 := false, l2 := false, rank := 1 }
  | _ => { l1 := true, l2 := true, rank := 1 }
/-- R220: one lane's prefetch; one that would fault is dropped. -/
def prefetch (l1 : Bool) (h : Alloc) (a : Asker) (cluster : Nat) (va : Word64) (s : State) : State :=
  match translate s a va.toNat .read with
  | (s, .fault _ _ _) => s
  | (s, .ok pa _) =>
    match s.target pa with
    | .peer _ | .absent => s
    | .dram _ | .host _ =>
      if l1 then s.dirRead cluster (pa / 128 * 128) 0 h else (s.fillL2 (pa / 128)).retain cluster (pa / 128) h

/-- R197: the status that BANKCFG gives at once, or none where the bank switches. -/
def bankStatus (mode : BankMode) (wanted cacheBanks : Nat) (allocated taskBank empty : Bool) : Option Nat :=
  match mode with
  | .cache => if wanted = 0 then some 0 else if cacheBanks ≤ 1 then some 3 else none
  | .spad => if wanted = 1 then some 0 else if allocated then some 1 else none
  | .fifo => if wanted = 2 then some 0 else if taskBank then some 4 else if empty then none else some 2
  | .switching _ => none
def bankcfgs : List ((FmtA → Instr) × Nat) := [(.bankcfgCache, 0), (.bankcfgSpad, 1), (.bankcfgFifo, 2)]

/-- The translation that a walk gives: its leaf lets the access through (R207, R358). -/
def leafPa (log : Nat) (e : Word64) (va : Nat) : Nat := pteAddr e / 2 ^ log * 2 ^ log + va % 2 ^ log
def allows (e : Word64) (acc : Acc) : Bool := pteU e && (!acc.writes || pteW e) && (acc != .fetch || pteX e)
/-- Some TLB on the asker's way holds an address. -/
def Hit (s : State) (a : Asker) (va : Nat) : Prop := ∃ u ∈ a.units, (tlbFind s u a.ctx va).isSome
/-- The entry of the nearest TLB that holds it. -/
def Nearest (s : State) (a : Asker) (va : Nat) (x : TlbEntry) : Prop :=
  ∃ before u after, a.units = before ++ u :: after ∧ (∀ v ∈ before, tlbFind s v a.ctx va = none) ∧
    tlbFind s u a.ctx va = some x
/-- R207, R208, R413: why the page of an entry turns an access away, in the order of the faults. -/
def turnedAway (s : State) (log : Nat) (e : Word64) (va : Nat) (acc : Acc) : Option Trans :=
  let pa := leafPa log e va
  if s.flipping pa then some (.fault 0x0B 0 (hintOf log))
  else if allows e acc = false then some (.fault 0x0C 1 0)
  else if s.target pa = .absent then some (.fault 0x0C 3 0) else none

/-- R211: the global accesses, with the access that each makes and where it takes the data from. -/
def globals : List ((FmtM → Instr) × Acc × (FmtM → Consumes)) :=
  [(.ld false, .read, fun _ => .near), (.ld true, .read, fun _ => .near), (.st, .write, fun _ => .nothing),
   (.acas, .rmw, fun o => if o.hint = 5#3 then .home else .near)] ++
    atomics.map fun e => (e.1, .rmw, fun o => if o.hint = 5#3 then .home else .near)
/-- The lanes that hold the first fault's cause, and all that fault; the issuing group in the uniform form (R83, R415). -/
def causeLanes (form : Form) (c : Cur) (code : Nat) (fs : List (Nat × LaneFault)) : Lanes :=
  if form = .lane then maskOf ((fs.filter fun x => x.2.code == code).map (·.1)) else c.lanes
def faultLanes (form : Form) (c : Cur) (fs : List (Nat × LaneFault)) : Lanes :=
  if form = .lane then maskOf (fs.map (·.1)) else c.lanes

/-- R211: the fault of one scratchpad access, which consumes data or not. -/
def padFault (x : Spad) (f n : Nat) (consumes : Bool) : Option LaneFault :=
  if f % n ≠ 0 then some ⟨0x0D, 0, u64 f, 0⟩
  else if x.size < f + n then some ⟨0x0E, 0, u64 f, 0⟩
  else if consumes ∧ x.emptyAt f n = false ∧ x.uncAt f n then some ⟨0x0F, 0, u64 f, 0⟩ else none
/-- The faults of the executing lanes, in ascending order; a uniform access stands at the group's lowest lane. -/
def padFaults (o : FmtM) (consumes : Bool) (s : State) (c : Cur) (x : Spad) : List (Nat × LaneFault) :=
  (lanesFor (formM o) c.active).filterMap fun l =>
    (padFault x (padOffset o s c l) (sizeBytes o.size) consumes).map fun f => (l.getD (lowLane c.lanes), f)

end Sys2Proof.Claims


/-- R207, R208, R357 to R359: what a translation answers, and what it changes of memory. Where a TLB holds the address, the
page and the permissions of its nearest entry answer, and no byte changes; where a walk ends without a leaf or turns the
access away, no byte changes; else only the leaf entry, in which it sets A, and D when the access writes. A page on its way
to host ownership is not present (R208).
It rests on log 9 and log 32, the model's own readings. -/
def Obligations.Translation : Prop :=
  ∀ (s t : State) (a : Asker) (va : Nat) (acc : Acc) (res : Trans), translate s a va acc = (t, res) →
    { t with mem := s.mem, stale := s.stale, unc := s.unc, corr := s.corr, lines := s.lines, clusters := s.clusters,
             dies := s.dies, choices := s.choices, tlb := s.tlb, packs := s.packs, monitors := s.monitors } = s ∧
    NoNewErrors s t ∧
    (∀ u w x, s.party u w = some x → ∃ y, t.party u w = some y ∧ Served x y) ∧
    (2 ^ 52 ≤ va → res = .fault cPerm 2 0 ∧ t = s) ∧
    (Hit s a va → t.mem = s.mem) ∧
    (∀ x, va < 2 ^ 52 → Nearest s a va x → res = (turnedAway s x.log x.entry va acc).getD (.ok (leafPa x.log x.entry va) x.entry)) ∧
    (va < 2 ^ 52 → ¬ Hit s a va →
      match walk s a.ctx va with
      | (.missing hint, _, _) => res = .fault cPage 0 hint ∧ t.mem = s.mem
      | (.malformed, _, _) => res = .fault cPerm 4 0 ∧ t.mem = s.mem
      | (.leaf, at', e) =>
        (∀ x, turnedAway s (pteLog e) e va acc = some x → res = x ∧ t.mem = s.mem) ∧
        (turnedAway s (pteLog e) e va acc = none →
          let e' := e ||| (if acc.writes then 0x0010000000000080#64 else 0x80#64)
          res = .ok (leafPa (pteLog e) e va) e' ∧
            ∀ x, t.byteAt x = if at' ≤ x ∧ x < at' + 8 ∧ s.reservedAt x = false then
              (if e' = e then s.byteAt x else BitVec.ofNat 8 (e'.toNat / 256 ^ (x - at'))) else s.byteAt x))

/-- R211, R213: LD completes when no lane's access faults: each executing lane, or the party, receives the bytes read,
extended; memory is as its translations left it. What a uniform load leaves in the latch is the model's choice (log 27), and
so is the order of accesses (log 1). -/
def Sys2Proof.Claims.Loads : Prop :=
  ∀ (sx : Bool) (o : FmtM) (s a : State) (sh : Shape) (r c : Cur) (k : Pack) (p : Party) (hits : List (Option Nat × Nat)),
    Ready {} (.ld sx o) s sh r c k p → Accesses o .read .near s c a hits →
    let x (l : Option Nat) : Nat := extended' sx (sizeBytes o.size) (a.readNat (hitOf hits l) (sizeBytes o.size))
    AccessDone (.ld sx o) s c a a.byteAt
      (Given c (if sx then some .i32 else none) (sizeWidth o.size) o x (loadLatch sx o c x))

/-- R211, R213: ST completes when no lane's access faults: the bytes of its data register stand at the address of each lane,
the highest lane last, but for bytes that a submission area reserves (R5); every other byte of memory is as its translations
left it, and no register changes.
It rests on log 1, the model's own reading. -/
def Sys2Proof.Claims.Stores : Prop :=
  ∀ (o : FmtM) (s a : State) (sh : Shape) (r c : Cur) (k : Pack) (p : Party) (hits : List (Option Nat × Nat)),
    Ready {} (.st o) s sh r c k p → Accesses o .write .nothing s c a hits →
    AccessDone (.st o) s c a (storedIn a (sizeBytes o.size) (storeData o s c) hits) (NoResult c)

/-- R214, R215: the atomics complete when no lane's access faults: lane after lane the old word is returned and the new one
written, but for reserved bytes (R5); ACAS writes where the old word equals the one compared. What a uniform atomic leaves in
the latch is the model's choice (log 27), and so is the order of accesses (log 1). -/
def Sys2Proof.Claims.Atomics : Prop :=
  (∀ e ∈ atomics, ∀ (o : FmtM) (s a : State) (sh : Shape) (r c : Cur) (k : Pack) (p : Party)
    (hits : List (Option Nat × Nat)), Ready {} (e.1 o) s sh r c k p → Accesses o .rmw (if o.hint = 5#3 then .home else .near) s c a hits →
    let y := exchange a.reservedAt (sizeBytes o.size) (fun l old => some (e.2 (8 * sizeBytes o.size) old (storeData o s c l))) hits a.byteAt
    AccessDone (e.1 o) s c a y.1
      (Given c none (sizeWidth o.size) o (hitOf y.2) (latchOf c (formM o) (sizeWidth o.size) (hitOf y.2)))) ∧
  ∀ (o : FmtM) (s a : State) (sh : Shape) (r c : Cur) (k : Pack) (p : Party) (hits : List (Option Nat × Nat)),
    Ready {} (.acas o) s sh r c k p → Accesses o .rmw (if o.hint = 5#3 then .home else .near) s c a hits →
    let y := exchange a.reservedAt (sizeBytes o.size)
      (fun l old => if old = (casValues o s c l).1 then some (casValues o s c l).2 else none) hits a.byteAt
    AccessDone (.acas o) s c a y.1
      (Given c none (sizeWidth o.size) o (hitOf y.2) (latchOf c (formM o) (sizeWidth o.size) (hitOf y.2)))

/-- R83, R211: where lanes of LD, ST or an atomic fault. The fault is that of the lowest such lane, with the lanes of the same
cause. Another cause than MEM.PAGE ends the instruction without effect; under MEM.PAGE the lanes without a fault complete and
stand at the successor, those that fault stay, and the fault is in the queue of the die (R39).
It rests on log 1, the model's own reading. -/
def Sys2Proof.Claims.AccessFaults : Prop :=
  (∀ (s b t : State) (a : Asker) (va : Word64) (n : Nat) (acc : Acc) (k : Consumes) (r : Except LaneFault Nat) (res : Trans),
    access s a va n acc k = (t, r) → translate s a va.toNat acc = (b, res) →
    (va.toNat % n ≠ 0 → t = s ∧ r = .error ⟨0x0D, 0, va, 0⟩) ∧
    (va.toNat % n = 0 → t = b ∧ match res with
      | .fault code sub hint => r = .error ⟨code, sub, va, hint⟩
      | .ok pa _ =>
        let spoilt := match k with | .nothing => b.lost pa | .near => b.uncFor a.cluster pa n | .home => b.uncFor none pa n
        r = if spoilt then .error ⟨0x0F, 0, va, 0⟩ else .ok pa)) ∧
  ∀ e ∈ globals, ∀ (o : FmtM) (s a : State) (sh : Shape) (r c : Cur) (k : Pack) (p p' : Party) (hits : List (Option Nat × Nat))
    (l : Nat) (f : LaneFault) (fs : List (Nat × LaneFault)), Ready {} (e.1 o) s sh r c k p →
    accessLanes (s.asker c) c (sizeBytes o.size) e.2.1 (e.2.2 o)
      ((lanesFor (formM o) c.active).map fun l => (l, address o s c l)) s.idle = (a, (hits, (l, f) :: fs)) →
    a.party c.pack c.who = some p' →
    let t := trapWith f.code f.sub (causeLanes (formM o) c f.code ((l, f) :: fs)) f.addr e.2.1.code f.hint
    let stay := faultLanes (formM o) c ((l, f) :: fs)
    (f.code ≠ 0x0B → exec (e.1 o) s = .next (takeFault a c t)) ∧
    (f.code = 0x0B → s.port1 = none → ∃ t' q, exec (e.1 o) s = .next t' ∧ t'.party c.pack c.who = some q ∧
      (∀ l, c.lanes.getLsbD l = true → stay.getLsbD l = false → q.pcOf l = successor c.pc) ∧
      (∀ l, c.lanes.getLsbD l = false ∨ stay.getLsbD l = true → q.pcOf l = p'.pcOf l) ∧
      q.live = p'.live ||| (c.lanes &&& ~~~stay) ∧ q.replay = p'.replay ||| t.lanes ∧ PredsKept p.regs q.regs ∧ Fixed p.regs q.regs ∧
      (∀ sx, e.1 o = .ld sx o → ∀ h ∈ hits, q.regs.holds (if sx then some .i32 else none) (sizeWidth o.size) h.1 o.data
        (extended' sx (sizeBytes o.size) (a.readNat h.2 (sizeBytes o.size)))) ∧
      ∃ x ∈ (t'.die (p.place.cluster / 12)).faults ++ (t'.die (p.place.cluster / 12)).faultWait,
        x.covers k.ctx f.addr = true ∧ .party c.pack c.who t.lanes ∈ x.list)

/-- R200, R211, R213: LDS and STS complete when every lane's access is aligned, inside the allocation and touches no EMPTY
line: LDS gives the bytes of the scratchpad, STS stores them, and no other byte of any scratchpad or of memory changes. What a
uniform LDS leaves in the latch is the model's choice (log 27), and so is the reading of log 29. -/
def Sys2Proof.Claims.Scratchpad : Prop :=
  ∀ (o : FmtM) (s : State) (sh : Shape) (r c : Cur) (k : Pack) (p : Party) (x : Spad),
    s.spad c.pack (c.who / 16) = some x → p.detached = false →
    (∀ sx, Ready {} (.lds sx o) s sh r c k p → PadAccesses o true s c x →
      let y (l : Option Nat) : Nat := extended' sx (sizeBytes o.size) (x.readNat (padOffset o s c l) (sizeBytes o.size))
      ∃ t q z, exec (.lds sx o) s = .next t ∧ t.party c.pack c.who = some q ∧ Advances c p q ∧ PadOnly c s t k p q ∧
        Given c (if sx then some .i32 else none) (sizeWidth o.size) o y (loadLatch sx o c y) p.regs q.regs ∧
        t.spad c.pack (c.who / 16) = some z ∧ { z with corr := x.corr } = x) ∧
    (Ready {} (.sts o) s sh r c k p → PadAccesses o false s c x →
      ∃ t q z, exec (.sts o) s = .next t ∧ t.party c.pack c.who = some q ∧ Advances c p q ∧ PadOnly c s t k p q ∧
        NoResult c p.regs q.regs ∧ t.spad c.pack (c.who / 16) = some z ∧ { z with bytes := x.bytes, bad := x.bad, corr := x.corr } = x ∧
        ∀ f, rd 0 z.bytes f = storedAt (sizeBytes o.size) (storeData o s c) (padHits o s c) (rd 0 x.bytes) f)

/-- R83, R200, R211, R218: LDS and STS fault MEM.ALIGN, MEM.SPAD or, as LDS consumes it, MEM.UNCORR in the lanes of the
lowest faulting lane's cause; without a fault they wait while some lane's access touches an EMPTY line. SMARK faults
MEM.ALIGN off a line and MEM.SPAD beyond the allocation. In a detached warp all of them fault SYNC.DETACHED.
It rests on log 29, the model's own reading. -/
def Sys2Proof.Claims.ScratchpadFaults : Prop :=
  ∀ (o : FmtM) (s : State) (sh : Shape) (r c : Cur) (k : Pack) (p : Party),
    (∀ i ∈ [Instr.lds false o, .lds true o, .sts o, .smarkE o, .smarkF o], Ready {} i s sh r c k p → p.detached = true →
      exec i s = .next (takeFault s.idle c (trapWith 0x12 1 c.active 0 0 0))) ∧
    ∀ x, s.spad c.pack (c.who / 16) = some x → p.detached = false →
      (∀ e ∈ [(Instr.lds false o, true), (.lds true o, true), (.sts o, false)], Ready {} e.1 s sh r c k p →
        (∀ l f fs, padFaults o e.2 s c x = (l, f) :: fs →
          exec e.1 s = .next (takeFault s.idle c
            (trapWith f.code 0 (causeLanes (formM o) c f.code ((l, f) :: fs)) f.addr 0 0))) ∧
        (padFaults o e.2 s c x = [] → (∃ l ∈ lanesFor (formM o) c.active, x.emptyAt (padOffset o s c l) (sizeBytes o.size) = true) →
          exec e.1 s = .next (s.idle.enterWait c))) ∧
      ∀ i ∈ [Instr.smarkE o, .smarkF o], Ready {} i s sh r c k p →
        let f := padOffset o s c none
        let n := readSpec s c none .w32 none o.data % 65536
        (f % 128 ≠ 0 → exec i s = .next (takeFault s.idle c (trapWith 0x0D 0 c.lanes (u64 f) 0 0))) ∧
        (f % 128 = 0 → 0 < n → x.size < f + 128 * n →
          exec i s = .next (takeFault s.idle c (trapWith 0x0E 0 c.lanes (u64 f) 0 0)))

/-- R218: SMARK marks the lines of its range EMPTY, or FULL, and changes nothing else. -/
def Sys2Proof.Claims.Marks : Prop :=
  ∀ (o : FmtM) (s : State) (sh : Shape) (r c : Cur) (k : Pack) (p : Party) (x : Spad),
    s.spad c.pack (c.who / 16) = some x → p.detached = false →
    ∀ e ∈ [(Instr.smarkE, true), (Instr.smarkF, false)], Ready {} (e.1 o) s sh r c k p →
      let f := padOffset o s c none
      let n := readSpec s c none .w32 none o.data % 65536
      f % 128 = 0 →
      (n = 0 → Completes (e.1 o) s c k p (NoResult c)) ∧
      (0 < n → f + 128 * n ≤ x.size → ∃ z : Spad, { z with emptyLines := x.emptyLines } = x ∧
        (∀ l, l ∈ z.emptyLines ↔ if f / 128 ≤ l ∧ l < f / 128 + n then e.2 = true else l ∈ x.emptyLines) ∧
        CompletesIn (e.1 o) s c (s.idle.setSpad c.pack (c.who / 16) z) noDeposit)

/-- R204, R219 to R222: CMAINT writes back, or drops, the L1 copies of a range, and PREF, ICINV and IFENCE do what they
say to the caches; no byte of memory changes but by translation, and no register. A line that comes into L2 may displace
another from L2, never from an L1.
It rests on log 69, the model's own reading. -/
def Sys2Proof.Claims.Maintenance : Prop :=
  ∀ (o : FmtM) (s : State) (sh : Shape) (r c : Cur) (k : Pack) (p : Party),
    (∀ a pieces, translatePieces (s.asker c)
        (rangePieces (lineRange o s c).1 (128 * (lineRange o s c).2)) s.idle = (a, .ok pieces) →
      (∀ e ∈ maintenance, Ready {} (e.1 o) s sh r c k p → ∃ b, CachesOnly a b ∧
        (∀ n, inRange pieces n → e.2 a b n) ∧
        (∀ n, ¬ inRange pieces n → { b.line n with inL2 := (a.line n).inL2, l2Dirty := (a.line n).l2Dirty,
                                                   l2 := (a.line n).l2, l2Keep := (a.line n).l2Keep } = a.line n) ∧
        CompletesIn (e.1 o) s c b noDeposit) ∧
      (Ready {} (.icinv o) s sh r c k p → ∃ b, { b with icache := a.icache } = a ∧
        (∀ e, e ∈ b.icache ↔ e ∈ a.icache ∧ ∀ x ∈ pieces, e.1 % 2 ^ 52 + 64 ≤ x.1 ∨ x.1 + x.2 ≤ e.1 % 2 ^ 52) ∧
        CompletesIn (.icinv o) s c b noDeposit)) ∧
    (∀ e ∈ [(Instr.prefL1, true), (Instr.prefL2, false)], Ready {} (e.1 o) s sh r c k p →
      CompletesIn (e.1 o) s c
        ((lanesFor (formM o) c.active).foldl (fun a l => prefetch e.2 (hinted o.hint) (a.asker c) (a.here c) (address o a c l) a) s.idle)
        noDeposit) ∧
    (Ready {} (.ifence o) s sh r c k p → ∃ p1 : Party, { p1 with lines := p.lines, fenced := p.fenced } = p ∧
      p1.lines = [] ∧ (p1.fenced = none ↔ p.lineFor c.pc c.lanes = none) ∧
      (∀ f, p1.fenced = some f → f.va = c.pc.toNat / 64 * 64 ∧ p.lineFor c.pc c.lanes = some f.line ∧
        ∀ l, f.lanes.getLsbD l = true ↔ ∃ g ∈ p.groups, g.lanes.getLsbD l ∧ g.pc.toNat / 64 = c.pc.toNat / 64) ∧
      CompletesIn (.ifence o) s c (s.idle.setParty c.pack c.who p1) noDeposit)

/-- R195, R197, R198, R318: BANKCFG gives the status of its cell at once, a FIFO bank that is bound to no context being bound
again, or the bank switches, with the L1 lines of a CACHE bank gone, and the spine thread waits; when the
switch is done the bank has its mode and the instruction completes with status 0.
It rests on log 14, the model's own reading. -/
def Sys2Proof.Claims.BankConfiguration : Prop :=
  (∀ e ∈ bankcfgs, ∀ (o : FmtA) (s : State) (sh : Shape) (r c : Cur) (k : Pack) (p : Party),
    Ready ownerOpts (e.1 o) s sh r c k p →
    let n := s.here c
    let b := word .w32 s c none o.a % 32
    let x := (s.cluster n).bank b
    let status := bankStatus x.mode e.2 (s.cluster n).cacheBanks (s.unitsUsed n b) ((s.cluster n).taskBank == some b)
      x.elems.isEmpty
    (∀ st, c.again = false → status = some st →
      let bind := decide (e.2 = 2 ∧ x.mode = .fifo ∧ x.bound = none ∧ (s.cluster n).taskBank ≠ some b)
      let a := if bind then s.idle.modCluster n fun y => y.setBank b { x with bound := some k.ctx } else s.idle
      CompletesIn (e.1 o) s c (giveS a c o.dst o.wbs (u64 st)) (deposited (u64 st))) ∧
    (c.again = false → status = none → ∃ t, exec (e.1 o) s = .next t ∧ t.mem = s.mem ∧
      (t.cluster n).bank b =
        { mode := .switching (BitVec.ofNat 2 e.2), bound := if e.2 = 2 then some k.ctx else none, elems := [] } ∧
      (x.mode = .cache → ∀ l, (t.line l).heldBy n = true → ((t.line l).copy n).way ≠ b) ∧
      ∀ q g, t.party c.pack c.who = some q → g ∈ q.groups → g.lanes = c.lanes → g.wait.isSome) ∧
    (c.again = true → (∀ m, x.mode ≠ .switching m) →
      CompletesIn (e.1 o) s c (giveS s.idle c o.dst o.wbs 0) (deposited 0))) ∧
  ∀ (s : State) (n b : Nat) (m : BitVec 2), ((s.cluster n).bank b).mode = .switching m →
    exec (.bankSwitchDone n b) s = .next (s.modCluster n fun x =>
      x.setBank b { x.bank b with mode := if m = 0 then .cache else if m = 1 then .spad else .fifo })


/-! ### Shared registers and remote deposit (spec/06) -/

namespace Sys2Proof.Claims
open Sys2Proof.Machine

/-- R179: a request that a register serves, and what it leaves there. Where no cell applies, the request waits. -/
inductive Serves (k : KReg) : KReq → KReg → Prop where
  | put (v : Word64) (n : BitVec 8) : k.st = .empty → Serves k (.put v n) { k with st := .full, val := v, cnt := n, fx := 0 }
  | arm (id : Word64) (n rc : BitVec 8) (op : BitVec 3) (ty mode : BitVec 2) : k.st = .empty → n ≠ 0 →
      Serves k (.arm id n rc op ty mode)
        { k with st := .armed, val := if ty = 2#2 then u64 (id.toNat % 2 ^ 32) else id, cnt := n, aop := op, atype := ty,
                 armode := mode, rc := rc, fx := 0 }
  | armNone (id : Word64) (rc : BitVec 8) (op : BitVec 3) (ty mode : BitVec 2) : k.st = .empty →
      Serves k (.arm id 0 rc op ty mode)
        { k with st := .full, val := if ty = 2#2 then u64 (id.toNat % 2 ^ 32) else id, cnt := rc, fx := 0 }
  | red (x v : Word64) (fl : Flags) : k.st = .armed → k.cnt ≠ 1 →
      combine k.aop.toNat k.atype.toNat (Mode.ofCode k.armode) k.val x = (v, fl) →
      Serves k (.red x) { k with val := v, fx := k.fx ||| fl, cnt := k.cnt - 1 }
  | redLast (x v : Word64) (fl : Flags) : k.st = .armed → k.cnt = 1 →
      combine k.aop.toNat k.atype.toNat (Mode.ofCode k.armode) k.val x = (v, fl) →
      Serves k (.red x)
        { k with st := .full, val := v, fx := k.fx ||| fl, cnt := k.rc, aop := 0, atype := 0, armode := 0, rc := 0 }
  | getLast : k.st = .full → k.cnt = 1 → Serves k .get { k with st := .empty, cnt := 0 }
  | get : k.st = .full → 1 < k.cnt → Serves k .get { k with cnt := k.cnt - 1 }
  | getSticky : k.st = .full → k.cnt = 0 → Serves k .get k
  | peek : k.st = .full → Serves k .peek k

/-- R187: the 64-bit integer combining step; MIN and MAX are signed for ATYPE I64. -/
def joined (op ty : Nat) (a b : Word64) : Word64 :=
  let val (x : Word64) : Int := if ty = 1 then x.toInt else x.toNat
  match op with
  | 0 => u64 (a.toNat + b.toNat)
  | 1 => if val a ≤ val b then a else b
  | 2 => if val a ≤ val b then b else a
  | 3 => a &&& b
  | 4 => a ||| b
  | _ => a ^^^ b

/-- What a served request delivers. -/
def delivered (k : KReg) : KReq → List Word64
  | .get | .peek => [k.val]
  | .put _ _ | .arm _ _ _ _ _ _ | .red _ => []

/-- R177: the state after a request has been served at once, and after it has been queued. -/
def granted (s : State) (c : Cur) (n : Nat) (k : KReg) : State :=
  ((s.enterWait c).setKreg c.pack n k).kScan c.pack n k.queue.length
def queued (s : State) (c : Cur) (n : Nat) (q : KReq) : State :=
  let k := s.kreg c.pack n
  (s.enterWait c).setKreg c.pack n { k with queue := k.queue ++ [{ who := c.who, lanes := c.lanes, req := q }] }

/-- R177, R178, R193: a request of a party that is not detached. Served at once it completes in the state that `post` makes
of the one after it; not served it waits, and it completes when it has been. -/
def Requests (i : Instr) (s : State) (c : Cur) (n : Nat) (q : KReq) (post : State → List Word64 → State)
    (dep : List Word64 → Nat → Latch) : Prop :=
  (∀ vals, c.again = true → c.served = some vals → CompletesIn i s c (post s.idle vals) (dep vals)) ∧
  (∀ k, c.again = false → Serves (s.kreg c.pack n) q k →
    CompletesIn i s c (post (granted s.idle c n k) (delivered (s.kreg c.pack n) q)) (dep (delivered (s.kreg c.pack n) q))) ∧
  (c.again = false → (∀ k, ¬ Serves (s.kreg c.pack n) q k) → exec i s = .next (queued s.idle c n q))

/-- R183, R186: a uniform source extended to 64 bits by its type, and its low 8 bits. -/
def wide (o : FmtA) (s : State) (c : Cur) (x : Src) : Word64 :=
  if o.ty = .i32 then (BitVec.ofNat 32 (src o s c none x)).signExtend 64 else u64 (src o s c none x)
def byte (s : State) (c : Cur) (x : Src) : BitVec 8 := BitVec.ofNat 8 (word .w32 s c none x)

/-- R183, R185, R186: requests that return nothing, and the register they name. -/
def sends : List ((FmtA → Instr) × (FmtA → State → Cur → KReq)) :=
  [(.kput, fun o s c => .put (wide o s c o.a) (byte s c o.b)),
   (.karm, fun o s c =>
     .arm (wide o s c o.a) (byte s c o.b) (byte s c o.c) (o.ext.extractLsb' 15 3)
       (if o.ty = .f32 then 2 else if o.ty = .i64 then 1 else 0)
       (match o.rm with
        | .mode => if o.ty = .f32 then c.regs.fpmode else 0
        | .rne => 0 | .rtz => 1 | .rup => 2 | .rdn => 3 | .stoch => 0)),
   (.kred, fun o s c => .red (wide o s c o.a))]
def takes : List ((FmtA → Instr) × KReq) := [(.kget, .get), (.kpeek, .peek)]

/-- R189: the status word. -/
def kStatus (k : KReg) : Word64 :=
  u64 (k.cnt.toNat + (match k.st with | .empty => 0 | .armed => 1 | .full => 2) * 2 ^ 8 + k.aop.toNat * 2 ^ 10 +
    k.atype.toNat * 2 ^ 13 + k.armode.toNat * 2 ^ 15 + k.rc.toNat * 2 ^ 24 + k.fx.toNat * 2 ^ 32 +
    k.queue.length % 256 * 2 ^ 40)

/-- R190: the deposit of an RDEP: in the lane form the values of the executing lanes. -/
def depositOf (o : FmtA) (s : State) (c : Cur) : Deposit :=
  let b := word .w32 s c (if formOf o.dst = .lane then some (lowLane c.active) else none) o.b
  { target := b % 8 * 16 + b / 8 % 16, wide := o.ty == .u64, dst := o.dst, counter := o.ext.toNat % 8,
    values := (lanesFor (formOf o.dst) c.active).map fun l => (l.getD 0, u64 (src o s c l o.a)) }
/-- Whether the target exists, has not ended and is not detached. -/
def reachable (s : State) (u who : Nat) : Prop :=
  ∃ p, s.party u who = some p ∧ p.ended = false ∧ p.detached = false ∧ p.live ≠ 0

/-- R191: what a deposit leaves of the target's registers. -/
structure Landed (x : Deposit) (live : Lanes) (p q : Regs) : Prop where
  counter : ∀ n, n < 8 → q.readA n = if n = x.counter then p.readA n + 1 else p.readA n
  lane : ∀ m, x.dst = .v m → (x.values.map (·.1)).Nodup → ∀ l y, (l, y) ∈ x.values → l < 64 → live.getLsbD l = true →
    q.holds none (if x.wide then .w64 else .w32) (some l) x.dst y.toNat
  kept : ∀ (l : Nat) (n : BitVec 8), live.getLsbD l = false ∨ l ∉ x.values.map (·.1) ∨
    Spec.v n ∉ specCells (if x.wide then .w64 else .w32) x.dst → q.readV l n.toNat = p.readV l n.toNat
  unif : ∀ m y, x.dst = .s m → x.values = [(0, y)] → q.readS m.toNat = y
  sKept : ∀ n : BitVec 6, x.dst ≠ .s n → q.readS n.toNat = p.readS n.toNat
  rest : { q with v := p.v, s := p.s, a := p.a } = p

end Sys2Proof.Claims


/-- R187: one combining step of ATYPE U64 or I64 wraps modulo 2^64, compares by its type and raises no flag. -/
def Sys2Proof.Claims.IntegerCombining : Prop :=
  ∀ (op ty : Nat) (m : Mode) (a b : Word64), ty ≠ 2 → combine op ty m a b = (joined op ty a b, 0)

/-- R179, R182 to R186: KPUT, KARM, KRED, KGET and KPEEK of a party that is not detached: a request that its cell serves
completes, the others wait in order of arrival and complete when they have been served. -/
def Sys2Proof.Claims.SharedRegisters : Prop :=
  ∀ (o : FmtA) (s : State) (sh : Shape) (r c : Cur) (k : Pack) (p : Party), p.detached = false →
    (∀ e ∈ sends, Ready {} (e.1 o) s sh r c k p →
      Requests (e.1 o) s c (kNumber o.dst) (e.2 o s c) (fun a _ => a) fun _ => noDeposit) ∧
    ∀ e ∈ takes, Ready {} (e.1 o) s sh r c k p →
      Requests (e.1 o) s c (kSource o.a) e.2 (fun a vals => giveS a c o.dst o.wbs ((vals.head?).getD 0))
        fun vals => deposited ((vals.head?).getD 0)

/-- R163, R166, R168: WRED into a k register gives the root of its tree to KRED, or with EXT[17] to KPUT, as one contribution of the
warp, and raises the flags of its additions; it deposits that root in the latches. That the reader
count is read by the lowest participant is the model's choice (log 67), and that it is uniform (log 84). -/
def Sys2Proof.Claims.ReductionsIntoShared : Prop :=
  ∀ e ∈ reductions, ∀ (o : FmtA) (n : BitVec 6) (s : State) (sh : Shape) (r c : Cur) (k : Pack) (p : Party),
    p.detached = false → o.dst = .k n → Ready {} (e.1 o) s sh r c k p →
    let x := reduction e.2.2 o s c
    let v := toS (some o.ty) x.1
    Requests (e.1 o) s c n.toNat (if o.ext.getLsbD 17 then .put v (BitVec.ofNat 8 (uniform s c o.c)) else .red v)
      (fun a _ => a.modRegs c.pack c.who fun g => { g with fpflags := g.fpflags ||| x.2 })
      fun _ => latchOf c .gather o.ty.width fun _ => x.1

/-- R193: in a detached warp KPUT, KARM, KRED, KGET, KPEEK, KSTAT, RDEP and WRED into a k register fault SYNC.DETACHED and
change no shared register. -/
def Sys2Proof.Claims.DetachedRequests : Prop :=
  ∀ (o : FmtA) (s : State) (sh : Shape) (r c : Cur) (k : Pack) (p : Party), p.detached = true →
    ∀ i ∈ [Instr.kput o, .karm o, .kred o, .kget o, .kpeek o, .kstat o, .rdep o] ++
        (if o.dst.cls = .k then reductions.map fun e => e.1 o else []),
      Ready {} i s sh r c k p → exec i s = .next (takeFault s.idle c (trapWith cDetached 1 c.active 0 0 0))

/-- R177: the scan serves the first waiter whose condition holds, again and again, until no waiter's condition holds. -/
def Sys2Proof.Claims.WaiterScan : Prop :=
  (∀ (s : State) (u n fuel : Nat) (before after : List KWait) (w : KWait) (k : KReg),
    (s.kreg u n).queue = before ++ w :: after → (∀ x ∈ before, ∀ k', ¬ Serves (s.kreg u n) x.req k') →
    Serves (s.kreg u n) w.req k →
    s.kScan u n (fuel + 1) =
      ((s.setKreg u n { k with queue := before ++ after }).modParty u w.who fun p =>
        p.serve w.lanes (delivered (s.kreg u n) w.req)).kScan u n fuel) ∧
  ∀ (s : State) (u n : Nat), let t := s.kScan u n (s.kreg u n).queue.length
    ∀ w ∈ (t.kreg u n).queue, ∀ k, ¬ Serves (t.kreg u n) w.req k

/-- R188, R189: KCLR empties its register and the scan follows; KSTAT gives the status word of a party that is not detached.
That KCLR of an EMPTY register keeps its FX is the model's choice (log 68), and WAIT modulo 256 is (log 85). -/
def Sys2Proof.Claims.ClearAndStatus : Prop :=
  ∀ (o : FmtA) (s : State) (sh : Shape) (r c : Cur) (k : Pack) (p : Party),
    (Ready {} (.kclr o) s sh r c k p →
      let n := kNumber o.dst
      let x := s.kreg c.pack n
      let y : KReg := if x.st = .empty then x else { KReg.zero with queue := x.queue }
      CompletesIn (.kclr o) s c ((s.idle.setKreg c.pack n y).kScan c.pack n x.queue.length) noDeposit) ∧
    (Ready {} (.kstat o) s sh r c k p → p.detached = false →
      let w := kStatus (s.kreg c.pack (kSource o.a))
      CompletesIn (.kstat o) s c (giveS s.idle c o.dst o.wbs w) (deposited w))

/-- R190: RDEP of a warp that is not detached sends one deposit on its way, or none when its target cannot take it. That in
the lane form source B is read by the lowest executing lane is the model's choice (log 67). -/
def Sys2Proof.Claims.RemoteDeposit : Prop :=
  ∀ (o : FmtA) (s : State) (sh : Shape) (r c : Cur) (k : Pack) (p : Party), Ready {} (.rdep o) s sh r c k p →
    p.detached = false →
    let x := depositOf o s c
    (reachable s c.pack x.target →
      CompletesIn (.rdep o) s c (s.idle.setPack c.pack { k with deposits := k.deposits ++ [x] }) noDeposit) ∧
    (¬ reachable s c.pack x.target → Completes (.rdep o) s c k p (NoResult c))

/-- R191: the oldest deposit of a pack lands: the registers of every live lane that has a value, or the s register, and the
counter, once. -/
def Sys2Proof.Claims.DepositLanding : Prop :=
  ∀ (s : State) (u : Nat) (k : Pack) (p : Party) (x : Deposit) (rest : List Deposit),
    s.pack u = some k → k.deposits = x :: rest → (x.dst.cls = .v ∨ x.dst.cls = .s) → x.counter < 8 → reachable s u x.target → s.party u x.target = some p →
    ∃ g, Landed x p.live p.regs g ∧
      exec (.rdepLanding u) s =
        .next ((s.setPack u { k with deposits := rest, parties := cset k.parties x.target { p with regs := g } }).tryRetire u)


/-! ### Counters (spec/14) -/

namespace Sys2Proof.Claims
open Sys2Proof.Machine

/-- R402: the two conditions of AWAIT on a counter. -/
def awaits : List ((FmtA → Instr) × ((a v : Nat) → Prop)) :=
  [(.awaitGe, fun a v => (a + (2 ^ 16 - v % 2 ^ 16)) % 2 ^ 16 < 2 ^ 15), (.awaitEq, fun a v => a = v % 2 ^ 16)]

/-- R404: the wait for tag `t` of the issuing warp, and its status word. -/
def TagWait (i : Instr) (o : FmtA) (s : State) (c : Cur) (p : Party) (t : Nat) : Prop :=
  (rd 0 p.tags t = 0 →
    let w := u64 (t * 2 ^ 8 + if p.err.getLsbD t then 2 else 0)
    ∃ err, (∀ j, j < 8 → err.getLsbD j = (decide (j ≠ t) && p.err.getLsbD j)) ∧
      CompletesIn i s c (giveS (s.idle.setParty c.pack c.who { p with err := err }) c o.dst o.wbs w) (deposited w)) ∧
  (rd 0 p.tags t ≠ 0 → exec i s = .next ((s.idle.enterWait c).keep c [u64 t]))

/-- R406, R407: the counter word that a warp which is not detached names passes its checks. -/
structure CounterAt (o : FmtM) (s : State) (c : Cur) (p : Party) (x : Spad) (off : Nat) : Prop where
  attached : p.detached = false
  pad : s.spad c.pack (c.who / 16) = some x
  offset : off = padOffset o s c none
  aligned : off % 8 = 0
  inside : off + 8 ≤ x.size
  sound : x.uncAt off 8 = false

/-- R408: the value of a counter number. -/
def counter (s : State) (cl n : Nat) : Word64 :=
  if n < 10 ∨ 0x10 ≤ n ∧ n < 0x30 ∨ n = 0x32 then rd 0 (s.cluster cl).counters n
  else if n = 0x30 then u64 (s.die (cl / 12)).softL2.toNat
  else if n = 0x31 then u64 (s.die (cl / 12)).softDram.toNat
  else 0

end Sys2Proof.Claims


/-- R401, R402: ASET writes its arrival counter. AWAIT completes with the counter as observed when its condition holds, and
waits when it does not. -/
def Sys2Proof.Claims.ArrivalCounters : Prop :=
  ∀ (o : FmtA) (s : State) (sh : Shape) (r c : Cur) (k : Pack) (p : Party),
    (∀ n, o.dst = .a n → Ready {} (.aset o) s sh r c k p →
      CompletesIn (.aset o) s c
        (s.idle.modRegs c.pack c.who fun g => g.writeA n.toNat (BitVec.ofNat 16 (word .w32 s c none o.a))) noDeposit) ∧
    ∀ e ∈ awaits, ∀ n neg abs, o.a = .reg (.a n) neg abs → Ready {} (e.1 o) s sh r c k p →
      let x := p.regs.readA n.toNat
      (e.2 x.toNat (word .w32 s c none o.b) →
        CompletesIn (e.1 o) s c (giveS s.idle c o.dst o.wbs (u64 x.toNat)) (deposited (u64 x.toNat))) ∧
      (¬ e.2 x.toNat (word .w32 s c none o.b) → exec (e.1 o) s = .next (s.idle.enterWait c))

/-- R404: LCWAIT waits until its tag counter is 0 and then gives DONE, or UNCORR and clears ERR; `.OLDEST` takes the head of
the order list as it stands at issue, and gives NONE when the list is empty. -/
def Sys2Proof.Claims.BatchTags : Prop :=
  ∀ (o : FmtA) (s : State) (sh : Shape) (r c : Cur) (k : Pack) (p : Party),
    (Ready {} (.lcwait o) s sh r c k p → TagWait (.lcwait o) o s c p (o.ext.toNat % 8)) ∧
    (Ready {} (.lcwaitOldest o) s sh r c k p →
      (∀ t rest, c.again = false → p.order = t :: rest → TagWait (.lcwaitOldest o) o s c p t) ∧
      (∀ t : Nat, t < 8 → c.again = true → s.keptFor c = [u64 t] → TagWait (.lcwaitOldest o) o s c p t) ∧
      (c.again = false → p.order = [] →
        CompletesIn (.lcwaitOldest o) s c (giveS s.idle c o.dst o.wbs 0xFF01) (deposited 0xFF01)))

/-- R406, R407: XEXP adds its s register to the counter word, the byte count modulo 2^48 and the arrivals modulo 2^16, and
receives the word as it was; no other byte changes. XWAIT completes when the word is 0, and else waits.
It rests on log 1, the model's own reading. -/
def Sys2Proof.Claims.TransferCounters : Prop :=
  ∀ (o : FmtM) (s : State) (sh : Shape) (r c : Cur) (k : Pack) (p : Party) (x : Spad) (off : Nat),
    CounterAt o s c p x off →
    let old := x.readNat off 8
    (∀ d, o.data = .s d → Ready {} (.xexp o) s sh r c k p →
      let add := (c.regs.readS d.toNat).toNat
      let new := (old + add) % 2 ^ 48 + (old / 2 ^ 48 + add / 2 ^ 48) % 2 ^ 16 * 2 ^ 48
      ∃ t q z, exec (.xexp o) s = .next t ∧ t.party c.pack c.who = some q ∧ Advances c p q ∧ PadOnly c s t k p q ∧
        (∀ n : BitVec 6, q.regs.readS n.toNat = if n = d then u64 old else p.regs.readS n.toNat) ∧
        { q.regs with s := p.regs.s, latches := p.regs.latches } = p.regs ∧
        Latched c p.regs q.regs (deposited (u64 old)) ∧
        t.spad c.pack (c.who / 16) = some z ∧ { z with bytes := x.bytes, corr := x.corr } = x ∧
        ∀ f, rd 0 z.bytes f = if off ≤ f ∧ f < off + 8 then BitVec.ofNat 8 (new / 256 ^ (f - off)) else rd 0 x.bytes f) ∧
    (Ready {} (.xwait o) s sh r c k p →
      (old = 0 → ∃ t q z, exec (.xwait o) s = .next t ∧ t.party c.pack c.who = some q ∧ Advances c p q ∧
        PadOnly c s t k p q ∧ NoResult c p.regs q.regs ∧ t.spad c.pack (c.who / 16) = some z ∧ { z with corr := x.corr } = x) ∧
      (old ≠ 0 → exec (.xwait o) s = .next ((s.idle.spadCorrect c.pack (c.who / 16) off 8).enterWait c)))

/-- R211, R406, R407: XEXP and XWAIT fault SYNC.DETACHED in a detached warp, MEM.ALIGN off a multiple of 8, MEM.SPAD beyond the
allocation and MEM.UNCORR at an uncorrectable word. -/
def Sys2Proof.Claims.TransferCounterFaults : Prop :=
  ∀ (o : FmtM) (s : State) (sh : Shape) (r c : Cur) (k : Pack) (p : Party), ∀ i ∈ [Instr.xexp o, .xwait o],
    Ready {} i s sh r c k p →
    let off := padOffset o s c none
    let fault (code sub : Nat) (addr : Word64) : Host.Outcome State Fault Refusal :=
      .next (takeFault s.idle c (trapWith code sub c.lanes addr 0 0))
    (p.detached = true → exec i s = fault 0x12 1 0) ∧
    ∀ x, p.detached = false → s.spad c.pack (c.who / 16) = some x →
      (off % 8 ≠ 0 → exec i s = fault 0x0D 0 (u64 off)) ∧
      (off % 8 = 0 → x.size < off + 8 → exec i s = fault 0x0E 0 (u64 off)) ∧
      (off % 8 = 0 → off + 8 ≤ x.size → x.uncAt off 8 = true → exec i s = fault 0x0F 0 (u64 off))

/-- R408, R409: PCNT gives the counter that bits [7:0] of its source number. -/
def Sys2Proof.Claims.CounterReads : Prop :=
  ∀ (o : FmtA) (s : State) (sh : Shape) (r c : Cur) (k : Pack) (p : Party), Ready {} (.pcnt o) s sh r c k p →
    let x := counter s p.place.cluster (word .w32 s c none o.a % 256)
    CompletesIn (.pcnt o) s c (giveS s.idle c o.dst o.wbs x) (deposited x)


/-! ### Faults, traps and special registers (spec/15) -/

namespace Sys2Proof.Claims
open Sys2Proof.Machine

/-- What an entry adds to the common checks: PRIV, and the operands it reads (R134, R196, R421, R430). -/
def optsOf : Instr → Opts
  | .bankcfgCache _ | .bankcfgSpad _ | .bankcfgFifo _ => ownerOpts
  | .rte _ | .rteNext _ => inTrapOpts
  | .tlbinvPage _ | .tlbinvCtx _ | .tlbinvAll _ => firmwareOpts
  | .sel o => { reads := selReads o }
  | .bar _ => { attached := true }
  | _ => {}

/-- An instruction of a party, as `exec` is to run it: the group `r`, its pack and party. -/
structure Issued (i : Instr) (s : State) (sh : Shape) (r : Cur) (k : Pack) (p : Party) : Prop where
  cur : s.cur = some r
  shape : i.shape = some sh
  pack : s.pack r.pack = some k
  party : s.party r.pack r.who = some p

/-- Steps 1 to 4 of R82 and the wait of R266 are passed, and the instruction reads no unfit latch. -/
structure Checked (i : Instr) (s : State) (sh : Shape) (r : Cur) (k : Pack) (p : Party) : Prop extends
    Issued i s sh r k p where
  types : sh.typeOk = true
  fields : sh.fieldOk = true
  alloc : allocOk (pkVregs k.packet) sh = true
  priv : (optsOf i).priv s.idle r = true
  unit : unitOk sh r.who = true
  tokens : stalls p.pending sh = false

/-- R456: port 1 has no effect when port 0 faults. -/
def haltPorts (s : State) (c : Cur) : State := if c.port = 0 then s.stallPortOne else s
/-- The issuing group is no longer inside the instruction, its slot's latch is INVALID, and the trap registers hold the
fault. -/
def faultAt (s : State) (c : Cur) (f : Trap) (p : Party) : State :=
  s.setParty c.pack c.who
    { p with regs := (setLatches p.regs (slotOf c.pc) c.lanes []).trapped c f,
             groups := p.groups.map fun g => if g.lanes = c.lanes then { g with wait := none } else g }

/-- R416: the faults that a handler may take, for a HANDLE word. -/
def Handled (h : Nat) (f : Trap) : Prop :=
  f.code = 0x13 ∨ f.code = 0x14 ∨ (1 ≤ f.code ∧ f.code ≤ 0x12 ∧ f.code ≠ 0x0B ∧ h.testBit f.code)

/-- R417: the group has entered the handler: it stands at XVEC and no other group may issue, its latches are saved and
INVALID, and the trap registers hold the fault. `p` is the party before. -/
structure Entered (c : Cur) (f : Trap) (p q : Party) : Prop where
  intrap : q.intrap = true
  go : ∀ l, l < 64 → c.lanes.getLsbD l = true → q.pcOf l = p.regs.xvec
  stay : ∀ l, c.lanes.getLsbD l = false → q.pcOf l = p.pcOf l
  live : q.live = p.live ||| c.lanes
  held : ∀ g ∈ q.groups, if g.held then g.lanes &&& c.lanes = 0 else g.lanes = c.lanes ∧ g.wait = none
  frame : ∃ x, q.frame = some x ∧ x.lanes = c.lanes ∧ x.xpc = c.pc ∧ ∀ l i, c.lanes.getLsbD l = true → i < 5 →
    slotOf c.pc < 5 → rd .invalid x.latches (5 * l + i) = if i = slotOf c.pc then .invalid else p.regs.readL l i
  latches : ∀ l i, c.lanes.getLsbD l = true → i < 5 → q.regs.readL l i = .invalid
  xpc : q.regs.xpc = c.pc
  xstat : q.regs.xstat = if c.who = spineWho then 1 else f.lanes
  xaddr : q.regs.xaddr = if f.code = 0x13 ∨ f.code = 0x14 then 0 else f.addr
  xcause : q.regs.xcause = u64 (f.detail * 2 ^ 32 + c.port * 2 ^ 16 + f.sub * 2 ^ 8 + f.code)
  regs : { q.regs with xcause := p.regs.xcause, xaddr := p.regs.xaddr, xpc := p.regs.xpc, xstat := p.regs.xstat,
                       latches := p.regs.latches } = p.regs

/-- The record of a fatal fault (R418). -/
def killOf (c : Cur) (f : Trap) (k : Pack) (p : Party) (seq : Nat) : KillRec :=
  { pack := c.pack, xpc := c.pc, xaddr := if f.code = 0x13 ∨ f.code = 0x14 then 0 else f.addr,
    xcause := BitVec.ofNat 32 (c.port * 2 ^ 16 + f.sub * 2 ^ 8 + f.code), req := reqOf p.place (c.who == spineWho),
    ctx := k.ctx, flags := if c.who = spineWho then 3 else 0, seq }

/-- R423: what MTS does to the register that it names. -/
def settings : List (Special × (Regs → Word64 → Regs)) :=
  [(.fpmode, fun r x => { r with fpmode := BitVec.ofNat 2 x.toNat }),
   (.fpflags, fun r x => { r with fpflags := BitVec.ofNat 5 x.toNat }),
   (.xpc, fun r x => { r with xpc := x }), (.xvec, fun r x => { r with xvec := x })]

/-- R433: the entries that each form drops, for a context and an address. -/
def invalidations : List ((FmtM → Instr) × (Nat → Nat → TlbEntry → Bool)) :=
  [(.tlbinvPage, fun ctx va e => decide (e.ctx = ctx ∧ e.va / 2 ^ e.log = va / 2 ^ e.log)),
   (.tlbinvCtx, fun ctx _ e => decide (e.ctx = ctx)), (.tlbinvAll, fun _ _ _ => true)]

end Sys2Proof.Claims


/-- R82: the faults before step 5, in their order, and the wait for a pending token (R266). -/
def Sys2Proof.Claims.EncodingAndPrivilegeFaults : Prop :=
  ∀ (i : Instr) (s : State) (sh : Shape) (r : Cur) (k : Pack) (p : Party), Issued i s sh r k p →
    let fault (code : Nat) : Host.Outcome State Fault Refusal := .next (takeFault s.idle r (trapOf code 0 r.lanes))
    (sh.typeOk = false → exec i s = fault 0x01) ∧
    (sh.typeOk = true → (sh.fieldOk = false ∨ allocOk (pkVregs k.packet) sh = false) → exec i s = fault 0x02) ∧
    (sh.typeOk = true → sh.fieldOk = true → allocOk (pkVregs k.packet) sh = true →
      ((optsOf i).priv s.idle r = false → exec i s = fault 0x05) ∧
      ((optsOf i).priv s.idle r = true →
        (unitOk sh r.who = false → exec i s = fault 0x06) ∧
        (unitOk sh r.who = true → stalls p.pending sh = true → exec i s = .next s.idle)))

/-- R76, R82: where no lane's guard holds, an instruction only leaves its place: it writes nothing and deposits nothing. -/
def Sys2Proof.Claims.FalseGuards : Prop :=
  ∀ (i : Instr) (s : State) (sh : Shape) (r : Cur) (k : Pack) (p : Party), Checked i s sh r k p → execLanes sh r = 0 →
    Completes i s r k p (NoResult r)

/-- R82, R143: in a detached warp BAR faults SYNC.DETACHED before any other check of step 5. -/
def Sys2Proof.Claims.DetachedBarriers : Prop :=
  ∀ (o : FmtB) (s : State) (sh : Shape) (r : Cur) (k : Pack) (p : Party), Checked (.bar o) s sh r k p →
    execLanes sh r ≠ 0 → p.detached = true →
    exec (.bar o) s = .next (takeFault s.idle { r with active := execLanes sh r } (trapOf 0x12 1 (execLanes sh r)))

/-- R75, R82: step 5 faults OPND.LATCH in the executing lanes when one of them reads a latch that it may not, but for
a BAR of a detached warp.
It rests on log 28, the model's own reading. -/
def Sys2Proof.Claims.LatchFaults : Prop :=
  ∀ (i : Instr) (s : State) (sh : Shape) (r : Cur) (k : Pack) (p : Party), Checked i s sh r k p → execLanes sh r ≠ 0 →
    ((optsOf i).attached && p.detached) = false → latchFault (optsOf i) sh r.regs (execLanes sh r) = true →
    exec i s = .next (takeFault s.idle { r with active := execLanes sh r } (trapOf 0x07 0 (execLanes sh r)))

/-- R68, R134, R177, R178, R193: k operands. An instruction whose k operands can all be read at issue does what it does with their values
acquired; one that meets a register which is not FULL waits in its queue with a KPEEK; in a detached warp a k operand faults
SYNC.DETACHED.
It rests on log 28, the model's own reading. -/
def Sys2Proof.Claims.SharedOperands : Prop :=
  ∀ (i : Instr) (s : State) (sh : Shape) (r : Cur) (k : Pack) (p : Party), Checked i s sh r k p → execLanes sh r ≠ 0 →
    ((optsOf i).attached && p.detached) = false → latchFault (optsOf i) sh r.regs (execLanes sh r) = false →
    let c : Cur := { r with active := execLanes sh r }
    (∀ s' c', acquireK p.detached (kOperands (optsOf i) sh r.regs (execLanes sh r)) s.idle c = .ok s' c' →
      exec i s = exec i { s' with cur := some { r with served := c'.served, kvals := c'.kvals, again := c'.again } }) ∧
    (∀ n rest, kOperands (optsOf i) sh r.regs (execLanes sh r) = n :: rest → cget r.kvals n = none →
      (p.detached = true → exec i s = .next (takeFault s.idle c (trapOf 0x12 1 c.active))) ∧
      (p.detached = false → r.again = false → (s.kreg r.pack n).st ≠ .full → exec i s = .next (queued s.idle c n .peek)))

/-- R414: the fields of XCAUSE. -/
def Sys2Proof.Claims.CauseRegister : Prop :=
  ∀ (c : Cur) (f : Trap) (r : Regs), c.port < 2 → f.code < 256 → f.sub < 256 → f.detail < 2 ^ 16 →
    let x := (r.trapped c f).xcause
    (x.extractLsb' 32 32).toNat = f.detail ∧ x.extractLsb' 24 8 = 0#8 ∧ (x.extractLsb' 16 8).toNat = c.port ∧
      (x.extractLsb' 8 8).toNat = f.sub ∧ (x.extractLsb' 0 8).toNat = f.code ∧ Regs.zero.xcause = 0

/-- R416, R417: a user trap, or a cause that the launch elects, enters the handler at XVEC when XVEC is not 0, no handler runs
in the party and XVEC is a legal target. `a` is the state after the fetch of XVEC's line. -/
def Sys2Proof.Claims.TrapEntry : Prop :=
  ∀ (s a : State) (c : Cur) (f : Trap) (k : Pack) (p : Party),
    (haltPorts s c).pack c.pack = some k → (haltPorts s c).party c.pack c.who = some p → Handled (pkHandle k.packet) f →
    p.regs.xvec ≠ 0 → p.intrap = false →
    (faultAt (haltPorts s c) c f p).checkTarget (askerOf k.ctx p.place (c.who == spineWho)) p.place.cluster p.regs.xvec =
      (a, none) →
    ∃ q, (takeFault s c f).party c.pack c.who = some q ∧ Entered c f p q ∧
      { takeFault s c f with packs := a.packs } = a ∧ ∀ u w, u ≠ c.pack ∨ w ≠ c.who → (takeFault s c f).party u w = a.party u w

/-- R39, R328: a replayable fault deschedules the party and stands in its die's fault queue, in an entry of its own or in one
that covers its page. Memory changes in the MERGE field of such an entry alone, where it has been written. Which groups of
the warp run on meanwhile is free (log 59). -/
def Sys2Proof.Claims.PageFaults : Prop :=
  ∀ (s : State) (c : Cur) (f : Trap) (k : Pack) (p : Party), s.port1 = none → s.pack c.pack = some k →
    s.party c.pack c.who = some p → f.code = 0x0B →
    let t := takeFault s c f
    ∃ q, t.party c.pack c.who = some q ∧ q.replay = p.replay ||| f.lanes ∧ q.live = p.live ∧ (∀ l, q.pcOf l = p.pcOf l) ∧
      ValuesKept p.regs q.regs ∧ PredsKept p.regs q.regs ∧ Fixed p.regs q.regs ∧
      (∀ x, t.byteAt x = s.byteAt x ∨ ∃ e ∈ (t.die (p.place.cluster / 12)).faults, e.covers k.ctx f.addr = true ∧ e.place ≠ 0 ∧
        e.place + 0x14 ≤ x ∧ x < e.place + 0x16 ∧ t.byteAt x = BitVec.ofNat 8 (e.merge / 256 ^ (x - (e.place + 0x14)))) ∧
      ∃ e ∈ (t.die (p.place.cluster / 12)).faults ++ (t.die (p.place.cluster / 12)).faultWait,
        e.covers k.ctx f.addr = true ∧ .party c.pack c.who f.lanes ∈ e.list

/-- R40, R416, R418: a fatal fault of a warp kills it, counts it and leaves one kill record. -/
def Sys2Proof.Claims.FatalFaults : Prop :=
  ∀ (s : State) (c : Cur) (f : Trap) (k : Pack) (p : Party) (l : Launch), s.port1 = none → c.who ≠ spineWho →
    s.pack c.pack = some k → s.party c.pack c.who = some p → p.place.cluster < 96 → cget s.launches k.launch = some l → f.code ≠ 0x0B →
    ¬ Handled (pkHandle k.packet) f ∨ p.regs.xvec = 0 ∨ p.intrap = true →
    let t := takeFault s c f
    let d := p.place.cluster / 12
    (∃ q, t.party c.pack c.who = some q ∧ q.life = .killed ∧ q.live = 0) ∧
      (t.die d).kills = (s.die d).kills ++ [killOf c f k p (s.die d).killSeq] ∧
      ∃ l', cget t.launches k.launch = some l' ∧ l'.killed = l.killed + 1

/-- R35, R40, R416, R418: a fatal fault of a spine thread kills its pack: every party of it that had not ended is killed, with
a kill record of its own, and the pack retires. -/
def Sys2Proof.Claims.FatalSpineFaults : Prop :=
  ∀ (s : State) (c : Cur) (f : Trap) (k : Pack) (p : Party), s.port1 = none → c.who = spineWho →
    s.pack c.pack = some k → s.party c.pack c.who = some p → k.state = .resident ∨ k.state = .draining → p.ended = false →
    f.code ≠ 0x0B → ¬ Handled (pkHandle k.packet) f ∨ p.regs.xvec = 0 ∨ p.intrap = true →
    let t := takeFault s c f
    killOf c f k p (s.die (p.place.cluster / 12)).killSeq ∈ (t.die (p.place.cluster / 12)).kills ∧
      (∀ w x, w ≠ spineWho → s.party c.pack w = some x → x.ended = false →
        ∃ y ∈ (t.die (x.place.cluster / 12)).kills, y.pack = c.pack ∧ y.xpc = x.pcOf (lowLane x.live) ∧ y.xaddr = 0 ∧
          y.xcause = 0x415#32 ∧ y.req = reqOf x.place false ∧ y.ctx = k.ctx ∧ y.flags = 2) ∧
      (∀ w q, t.party c.pack w = some q → q.ended = true) ∧ ∀ q, t.pack c.pack = some q → q.state = .retired

/-- R416, R420: TRAP raises TRAP.USER with its code as DETAIL, in the executing lanes: where R416 lets it, the handler is
entered, and the trap registers say so.
It rests on log 43, the model's own reading. -/
def Sys2Proof.Claims.Traps : Prop :=
  ∀ (o : FmtT) (s a : State) (sh : Shape) (r c : Cur) (k k' : Pack) (p q : Party), Ready {} (.trap o) s sh r c k p →
    let f : Trap := { trapOf 0x14 0 c.active with detail := o.code.toNat }
    exec (.trap o) s = .next (takeFault s.idle c f) ∧
    ((haltPorts s.idle c).pack c.pack = some k' → (haltPorts s.idle c).party c.pack c.who = some q → p.regs.xvec ≠ 0 →
      p.intrap = false →
      (faultAt (haltPorts s.idle c) c f q).checkTarget (askerOf k'.ctx q.place (c.who == spineWho)) q.place.cluster
        q.regs.xvec = (a, none) →
      ∃ t z, exec (.trap o) s = .next t ∧ t.party c.pack c.who = some z ∧ Entered c f q z)

/-- R421: RTE takes the live lanes of the frame to XPC, RTE.NEXT to its successor, when the issuing group holds them all and
the target is legal: INTRAP is cleared, held groups are released, and the frame's latches come back where its line goes on. -/
def Sys2Proof.Claims.ReturnFromTrap : Prop :=
  ∀ e ∈ [(Instr.rte, fun a : Word64 => a), (Instr.rteNext, successor)], ∀ (o : FmtB) (s a : State) (sh : Shape)
    (r c : Cur) (k : Pack) (p p' : Party) (x : Frame), Ready inTrapOpts (e.1 o) s sh r c k p → p.frame = some x →
    x.lanes &&& p.live &&& ~~~c.lanes = 0 →
    let to' := e.2 c.regs.xpc
    s.idle.checkTarget (askerOf k.ctx p.place (c.who == spineWho)) p.place.cluster to' = (a, none) →
    a.party c.pack c.who = some p' →
    let g := x.lanes &&& p.live
    ∃ t q, exec (e.1 o) s = .next t ∧ t.party c.pack c.who = some q ∧ q.intrap = false ∧ q.frame = none ∧
      (∀ y ∈ q.groups, y.held = false) ∧ (∀ l, g.getLsbD l = true → q.pcOf l = to') ∧
      (∀ l, c.lanes.getLsbD l = false → q.pcOf l = p'.pcOf l) ∧
      (∀ l i, g.getLsbD l = true → i < 5 → (to' = x.xpc ∨ (to' = successor x.xpc ∧ to'.toNat / 64 = x.xpc.toNat / 64)) →
        (x.latches.map (·.1)).Nodup → q.regs.readL l i = rd .invalid x.latches (5 * l + i)) ∧
      (∀ l i, g.getLsbD l = true → i < 5 → ¬ (to' = x.xpc ∨ (to' = successor x.xpc ∧ to'.toNat / 64 = x.xpc.toNat / 64)) →
        q.regs.readL l i = .invalid) ∧
      { q.regs with latches := p'.regs.latches } = p'.regs

/-- R421, R427: the faults of RTE and MIGRATE. RTE faults SYNC.MASK when a live lane of the frame is outside the issuing
group, and PRIV when no handler runs. MIGRATE faults SYNC.MASK when a live lane of the warp is outside the group,
SYNC.DETACHED with sub-code 2 when a batch tag is in use, and with sub-code 3 when the workgroup has scratchpad. -/
def Sys2Proof.Claims.ReturnAndMigrationFaults : Prop :=
  ∀ (s : State) (sh : Shape) (r c : Cur) (k : Pack) (p : Party),
    let fault (code sub : Nat) : Host.Outcome State Fault Refusal := .next (takeFault s.idle c (trapOf code sub c.lanes))
    (∀ o : FmtB, ∀ i ∈ [Instr.rte o, .rteNext o],
      (∀ x, Ready inTrapOpts i s sh r c k p → p.frame = some x → x.lanes &&& p.live &&& ~~~c.lanes ≠ 0 →
        exec i s = fault 0x10 0) ∧
      (Issued i s sh r k p → sh.typeOk = true → sh.fieldOk = true → allocOk (pkVregs k.packet) sh = true → p.frame = none →
        exec i s = .next (takeFault s.idle r (trapOf 0x05 0 r.lanes)))) ∧
    ∀ o : FmtM, Ready {} (.migrate o) s sh r c k p → (c.again = false ∨ s.servedFor c = none) →
      let pad := ((s.spad c.pack (c.who / 16)).map (·.size)).getD 0
      (p.live &&& ~~~c.lanes ≠ 0 → exec (.migrate o) s = fault 0x10 0) ∧
      (p.live &&& ~~~c.lanes = 0 → p.tags ≠ [] → exec (.migrate o) s = fault 0x12 2) ∧
      (p.live &&& ~~~c.lanes = 0 → p.tags = [] → pad ≠ 0 → exec (.migrate o) s = fault 0x12 3)

/-- R422, R423: MFS gives a special register in every executing lane, or once; MTS writes the four that it may. -/
def Sys2Proof.Claims.SpecialRegisterMoves : Prop :=
  (∀ o, (typed .mfs own (fun o s c l => (word o.ty.width s c l o.a, 0)) o).completes {}) ∧
  ∀ e ∈ settings, ∀ (o : FmtA) (s : State) (sh : Shape) (r c : Cur) (k : Pack) (p : Party), o.dst = .special e.1 →
    Ready {} (.mts o) s sh r c k p →
    CompletesIn (.mts o) s c (s.idle.modRegs c.pack c.who fun g => e.2 g (u64 (word .w64 s c none o.a))) noDeposit

/-- R427: MIGRATE. Where the address is homed on the warp's own die it completes with LOCAL; else the warp waits for its
pending s registers, then leaves for the landing queue of the home die, detached, and completes with what its landing
delivers.
It rests on log 43, the model's own reading. -/
def Sys2Proof.Claims.Migration : Prop :=
  ∀ (o : FmtM) (s : State) (sh : Shape) (r c : Cur) (k : Pack) (p : Party), Ready {} (.migrate o) s sh r c k p →
    (∀ vals, c.again = true → s.servedFor c = some vals →
      CompletesIn (.migrate o) s c (giveS s.idle c o.data false ((vals.head?).getD 0)) (deposited ((vals.head?).getD 0))) ∧
    ∀ a pa e, (c.again = false ∨ s.servedFor c = none) → p.live &&& ~~~c.lanes = 0 → p.tags = [] →
      (∀ x, s.spad c.pack (c.who / 16) = some x → x.size = 0) →
      translate s.idle (s.asker c) (address o s c none).toNat .read = (a, .ok pa e) → a.lost pa = false →
      let d := pteHome e % 8
      (d = p.place.cluster / 12 → CompletesIn (.migrate o) s c (giveS a c o.data false (u64 (d * 256 + 1))) (deposited (u64 (d * 256 + 1)))) ∧
      (d ≠ p.place.cluster / 12 → p.pending ≠ 0 → exec (.migrate o) s = .next (a.enterWait c)) ∧
      (d ≠ p.place.cluster / 12 → p.pending = 0 → ∃ t q, exec (.migrate o) s = .next t ∧ t.party c.pack c.who = some q ∧
        q.life = .migrating d ∧ q.detached = true ∧ (t.die d).landing = (a.die d).landing ++ [(c.pack, c.who)] ∧ t.mem = a.mem)

/-- R427: the first warp of a landing queue that pre-emption has not stopped lands in the first place that is free for it,
and its groups are given MIGRATED; the others keep their order.
It rests on log 73, the model's own reading. -/
def Sys2Proof.Claims.MigrationLanding : Prop :=
  ∀ (s : State) (d u w cl core quad slot : Nat) (k : Pack) (p : Party) (before rest : List (Nat × Nat)),
    (s.die d).status ≠ .offline → (s.die d).landing = before ++ (u, w) :: rest → s.pack u = some k → s.party u w = some p →
    (∀ x ∈ before, ∀ k' p', s.pack x.1 = some k' → s.party x.1 x.2 = some p' → ¬ (k'.state = .resident ∧ p'.life = .migrating d)) →
    k.state = .resident → p.life = .migrating d → s.landingPlace d (pkVregs k.packet) = some (cl, core, quad, slot) →
    ∃ t q, exec (.migrateLanding d) s = .next t ∧ t.party u w = some q ∧ q.life = .running ∧
      q.place.cluster = cl ∧ q.place.core = core ∧ q.place.quad = quad ∧ q.place.slot = slot ∧ q.regs = p.regs ∧
      q.live = p.live ∧ List.Sublist (t.die d).landing (before ++ rest) ∧ t.mem = s.mem ∧
      ∀ g ∈ q.groups, g.lanes = p.live → ∀ x, g.wait = some x → x.served = some [u64 (d * 256)]

/-- R430, R433: TLBINV completes in context 0x00 and drops the entries of its form from every TLB; in every other context it
faults PRIV. -/
def Sys2Proof.Claims.TlbInvalidation : Prop :=
  ∀ e ∈ invalidations, ∀ (o : FmtM) (s : State) (sh : Shape) (r : Cur) (k : Pack) (p : Party),
    (∀ c, Ready firmwareOpts (e.1 o) s sh r c k p →
      let ctx := readSpec s c none .w64 none o.data % 256
      CompletesIn (e.1 o) s c { s.idle with tlb := s.tlb.filter fun x => !e.2 ctx (address o s c none).toNat x } noDeposit) ∧
    (Issued (e.1 o) s sh r k p → sh.typeOk = true → sh.fieldOk = true → allocOk (pkVregs k.packet) sh = true → k.ctx ≠ 0 →
      exec (e.1 o) s = .next (takeFault s.idle r (trapOf 0x05 0 r.lanes)))

/-- R437, R454: SNAP takes the trigger when snapshots are enabled for the context and none is outstanding; else it gives
DISABLED or BUSY and latches nothing.
It rests on log 43, the model's own reading. -/
def Sys2Proof.Claims.Snapshots : Prop :=
  ∀ (o : FmtA) (s : State) (sh : Shape) (r c : Cur) (k : Pack) (p : Party), Ready {} (.snap o) s sh r c k p →
    let give (a : State) (x : Word64) : Prop := CompletesIn (.snap o) s c (giveS a c o.dst o.wbs x) (deposited x)
    ((s.context k.ctx).snap = false → give s.idle 1) ∧
    ((s.context k.ctx).snap = true → s.triggered = true → give s.idle 2) ∧
    ((s.context k.ctx).snap = true → s.triggered = false → ∃ w : Word64,
      w.extractLsb' 0 16 = BitVec.ofNat 16 (word .w32 s c none o.a) ∧ w.extractLsb' 16 16 = reqOf p.place (c.who == spineWho) ∧
        w.extractLsb' 32 16 = 0#16 ∧ w.extractLsb' 48 16 = s.trigger.extractLsb' 48 16 + 1 ∧
        give { s.idle with trigger := w, triggered := true } 0)


/-! ### Condition monitors, translation queries and lane copies (spec/12, spec/07) -/

namespace Sys2Proof.Claims
open Sys2Proof.Machine

/-- R352: the comparisons, on 64-bit words. -/
def waitHolds (cmp : WaitCmp) (a b : Word64) : Prop :=
  match cmp with
  | .eq => a = b | .ne => a ≠ b | .lts => a.toInt < b.toInt | .ges => b.toInt ≤ a.toInt
  | .ltu => a.toNat < b.toNat | .geu => b.toNat ≤ a.toNat
def satisfied (m : Monitor) (w : Word64) : Prop := waitHolds m.cmp (w &&& m.mask) (m.exp &&& m.mask)

/-- R350, R352: the entry of a WAITC; at 256 entries its slice is full and it stands in the overflow list. -/
def watch (cmp : WaitCmp) (o : FmtM) (b : State) (c : Cur) (ctx pa : Nat) : Monitor :=
  let pair := readSpec b c none .w128 none o.data
  { pa, wide := o.size == 3#3, cmp, mask := u64 (pair / 2 ^ 64), exp := u64 (pair % 2 ^ 64), scope := o.scope, ctx,
    pack := c.pack, who := c.who, lanes := c.lanes, woken := false,
    overflow := decide (256 ≤ (b.monitors.filter fun m => !m.overflow && b.sliceOf m.pa == b.sliceOf pa).length) }
/-- The word that an entry watches. -/
def watched (s : State) (m : Monitor) : Word64 := u64 (s.readNat m.pa (if m.wide then 8 else 4))
/-- The waiting group of an entry has been given these words. -/
def Told (t : State) (m : Monitor) (vals : List Word64) : Prop :=
  ∀ q, t.party m.pack m.who = some q → ∀ g ∈ q.groups, g.lanes = m.lanes → ∀ x, g.wait = some x → x.served = some vals
/-- A word and a status in the destination pair. -/
def givePairM (a : State) (c : Cur) (d : Spec) (w st : Word64) : State :=
  a.modRegs c.pack c.who fun g => writeSpec g none .w128 none d (w.toNat + 2 ^ 64 * st.toNat)
/-- A place that WAITC may watch: not a peer window (R352). -/
def watchable (s : State) (pa : Nat) : Prop := s.target pa ≠ .absent ∧ ∀ x, s.target pa ≠ .peer x

/-- R355: the parties that a selector names. -/
def named (sel who : Nat) : Prop :=
  sel.testBit 8 = true ∨ (sel.testBit 7 = true ∧ who = spineWho) ∨
    (sel.testBit 7 = false ∧ who = sel % 8 * 16 + sel / 8 % 16)
/-- R355: the entries that WAITX cancels. -/
def cancelled (u sel pa : Nat) (m : Monitor) : Prop :=
  m.pack = u ∧ m.woken = false ∧ named sel m.who ∧ m.pa ≤ pa ∧ pa < m.pa + if m.wide then 8 else 4

/-- R360: the entry of a walk that gives an address, or what XLATE gives instead. A page on its way to host ownership is not
present (R208), for XLATE as for an access. -/
def hidden (e : Word64) : Word64 := u64 (e.toNat - e.toNat / 2 ^ 8 % 2 ^ 44 * 2 ^ 8)
def found (s : State) (log : Nat) (e : Word64) (va : Nat) : Word64 × Word64 :=
  if s.flipping (leafPa log e va) then (BitVec.allOnes 64, u64 ((if pteU e then e else hidden e).toNat / 2 * 2))
  else if pteU e then (u64 (leafPa log e va), e) else (BitVec.allOnes 64, hidden e)
def xlated (s : State) (a : Asker) (va : Nat) : Word64 × Word64 :=
  if 2 ^ 52 ≤ va then (BitVec.allOnes 64, 0)
  else
    match a.units.findSome? fun u => tlbFind s u a.ctx va with
    | some e => found s e.log e.entry va
    | none =>
      match walk s a.ctx va with
      | (.leaf, _, e) => found s (pteLog e) e va
      | (.missing _, _, e) | (.malformed, _, e) => (BitVec.allOnes 64, if pteU e then e else hidden e)

/-- R224: the byte that a lane copy leaves at an offset. -/
def landedByte (s : State) (moves : List (Nat × Nat × Nat)) (old : Byte) (f : Nat) : Byte :=
  moves.foldl (fun b m =>
    if m.2.2 ≤ f ∧ f < m.2.2 + 32 then (if f - m.2.2 < m.2.1 then s.byteAt (m.1 + (f - m.2.2)) else 0) else b) old

/-- R439: two executions of one warp whose copies of some lane write a byte in common. -/
def Overlap (x y : LaneCopy) : Prop :=
  x.who = y.who ∧ ∃ l m n, (l, m) ∈ (lanesOf x.lanes).zip x.moves ∧ (l, n) ∈ (lanesOf y.lanes).zip y.moves ∧
    m.2.2 < n.2.2 + 32 ∧ n.2.2 < m.2.2 + 32

end Sys2Proof.Claims


/-- R350 to R352: WAITC completes at once with the word and status 0 when its condition holds; when it does not, its entry is
installed, a slice entry drops its line from every L1, and the group waits; woken, it completes with what woke it.
It rests on log 1 and log 11, the model's own readings. -/
def Sys2Proof.Claims.MonitorWaits : Prop :=
  ∀ (cmp : WaitCmp) (o : FmtM) (s : State) (sh : Shape) (r c : Cur) (k : Pack) (p : Party),
    Ready {} (.waitc cmp o) s sh r c k p →
    (∀ w st, c.again = true → s.servedFor c = some [w, st] →
      CompletesIn (.waitc cmp o) s c (givePairM s.idle c o.data w st) (deposited w)) ∧
    ∀ a pa, let n := if o.size = 3#3 then 8 else 4
      c.again = false → access s.idle (s.asker c) (address o s c none) n .read .home = (a, .ok pa) → watchable a pa →
      let b := a.correct pa n
      let m := watch cmp o b c k.ctx pa
      let w := u64 (b.readNat pa n)
      (satisfied m w → CompletesIn (.waitc cmp o) s c (givePairM b c o.data w 0) (deposited w)) ∧
      (¬ satisfied m w →
        let x := { b with monitors := b.monitors ++ [m] }
        exec (.waitc cmp o) s = .next ((if m.overflow then x else x.recall (pa / 128)).enterWait c))

/-- R353: a write wakes the waiters of its line whose condition it makes true: each receives the word and status 0, and its
entry is freed. -/
def Sys2Proof.Claims.MonitorWakes : Prop :=
  ∀ (s : State) (pa n : Nat) (m : Monitor) (p : Party), m ∈ s.monitors → m.overflow = false → m.woken = false →
    m.pa / 128 = pa / 128 → satisfied m (u64 (s.readNat m.pa (if m.wide then 8 else 4))) →
    (∀ x ∈ s.monitors, x.same m = true → x = m) → (∀ k, s.pack m.pack = some k → k.state ≠ .saved) →
    s.party m.pack m.who = some p →
    let t := s.notify pa n
    (∀ x ∈ t.monitors, x.same m = false) ∧ t.mem = s.mem ∧
      ∃ q, t.party m.pack m.who = some q ∧ ∀ g ∈ q.groups, g.lanes = m.lanes → ∀ x, g.wait = some x →
        x.served = some [u64 (s.readNat m.pa (if m.wide then 8 else 4)), 0]

/-- R353, R354: overflow entries. A write to their 2 MiB region evaluates them: one whose word it wrote is given MET, another
whose condition holds RECHECK. When a slice entry is freed and the slice has room, its oldest overflow entry moves in and its
line leaves every L1; it is given RECHECK if its condition holds, unless a wake for it waits already. -/
def Sys2Proof.Claims.MonitorOverflow : Prop :=
  (∀ (s : State) (pa n : Nat) (m : Monitor) (p : Party), m ∈ s.monitors → m.overflow = true → m.woken = false →
    s.homeDie m.pa = s.homeDie pa → m.pa / 2 ^ 21 = pa / 2 ^ 21 → satisfied m (watched s m) →
    (∀ x ∈ s.monitors, x.same m = true → x = m) → (∀ k, s.pack m.pack = some k → k.state ≠ .saved) →
    s.party m.pack m.who = some p →
    let t := s.notify pa n
    (∀ x ∈ t.monitors, x.same m = false) ∧ t.mem = s.mem ∧
      Told t m [watched s m, if m.pa < pa + n ∧ pa < m.pa + (if m.wide then 8 else 4) then 0 else 2]) ∧
  ∀ (s : State) (gone : Monitor → Bool) (before after : List Monitor) (m : Monitor),
    let slice := s.sliceOf m.pa
    s.monitors = before ++ m :: after → m.overflow = true → gone m = false →
    (∀ x ∈ before, x.overflow = true → s.sliceOf x.pa = slice → gone x = true) →
    (∃ x ∈ s.monitors, gone x = true ∧ x.overflow = false ∧ s.sliceOf x.pa = slice) →
    (s.monitors.countP fun x => !gone x && !x.overflow && s.sliceOf x.pa == slice) < 256 →
    (∀ x ∈ s.monitors, x.same m = true → x = m) → (∀ k, s.pack m.pack = some k → k.state ≠ .saved) →
    let t := s.freeMonitors gone
    t.mem = s.mem ∧ (t.line (m.pa / 128)).owner = none ∧ (t.line (m.pa / 128)).sharers = 0 ∧
      (m.woken = true ∨ ¬ satisfied m (watched s m) → { m with overflow := false } ∈ t.monitors) ∧
      (m.woken = false → satisfied m (watched s m) →
        (∀ x ∈ t.monitors, x.same m = false) ∧ Told t m [watched s m, 2])

/-- R354: a warp whose live lanes are all parked in WAITC may lose its slot; nothing else of it changes.
It rests on log 2, the model's own reading. -/
def Sys2Proof.Claims.ParkedWarpEviction : Prop :=
  ∀ (s : State) (u who : Nat) (p : Party), s.party u who = some p → who ≠ spineWho → p.evicted = false →
    p.life = .running → p.live ≠ 0 → p.groups ≠ [] →
    (∀ g ∈ p.groups, ∃ m ∈ s.monitors, m.pack = u ∧ m.who = who ∧ m.lanes = g.lanes ∧ m.woken = false) →
    exec (.warpEviction u who) s = .next (s.setParty u who { p with evicted := true })

/-- R355: WAITX cancels the waits of the issuing pack that its selector names and whose word holds the address, and gives
their count. -/
def Sys2Proof.Claims.MonitorCancels : Prop :=
  ∀ (o : FmtA) (s a : State) (sh : Shape) (r c : Cur) (k : Pack) (p : Party) (pa : Nat), Ready {} (.waitx o) s sh r c k p →
    access s.idle (s.asker c) (u64 (word .w64 s c none o.a)) 1 .read .nothing = (a, .ok pa) →
    ∃ hit, (∀ m, m ∈ hit ↔ m ∈ a.monitors ∧ cancelled c.pack (word .w64 s c none o.b) pa m) ∧
      CompletesIn (.waitx o) s c (giveS (cancelAll hit a) c o.dst o.wbs (u64 hit.length)) (deposited (u64 hit.length))

/-- R360: XLATE gives each executing lane, or the party, the address and the entry that a translation ends in, and raises no
fault; no byte of memory changes. -/
def Sys2Proof.Claims.TranslationQueries : Prop :=
  ∀ (o : FmtM) (s : State) (sh : Shape) (r c : Cur) (k : Pack) (p : Party), Ready {} (.xlate o) s sh r c k p →
    let x (l : Option Nat) := xlated s (s.asker c) (address o s c l).toNat
    AccessDone (.xlate o) s c s.idle s.byteAt (Given c none .w128 o (fun l => (x l).1.toNat + 2 ^ 64 * (x l).2.toNat)
      (latchOf c (formM o) .w64 fun l => (x l).1.toNat))

/-- R224, R396: LCOPY of a warp that is not detached waits while its tag counts 255 copies; when every lane's source and
destination pass their checks it raises the tag, which joins the order list at 0, and its moves are under way. When some
lane's do not, nothing moves: the fault is that of the lowest lane, with the lanes of its cause. -/
def Sys2Proof.Claims.LaneCopies : Prop :=
  ∀ (t : BitVec 3) (o : FmtM) (s : State) (sh : Shape) (r c : Cur) (k : Pack) (p : Party) (x : Spad),
    Ready {} (.lcopy t o) s sh r c k p → p.detached = false → s.spad c.pack (c.who / 16) = some x →
    (rd 0 p.tags t.toNat = 255 → exec (.lcopy t o) s = .next (s.idle.enterWait c)) ∧
    ∀ a q k' hits, rd 0 p.tags t.toNat ≠ 255 →
      lcopyChecks (s.asker c) x c ((lanesOf c.active).map fun l => (some l, address o s c (some l),
        min (readSpec s c none .w64 (some l) o.data / 2 ^ 32 % 64) 32, readSpec s c none .w64 (some l) o.data % 2 ^ 32)) s.idle =
        (a, (hits, [])) →
      a.party c.pack c.who = some q → a.pack c.pack = some k' →
      let moves := hits.map fun h => (h.2, min (readSpec a c none .w64 h.1 o.data / 2 ^ 32 % 64) 32,
        readSpec a c none .w64 h.1 o.data % 2 ^ 32)
      CompletesIn (.lcopy t o) s c
        (a.setPack c.pack { k' with
          parties := cset k'.parties c.who
            { q with tags := cset q.tags t.toNat (rd 0 p.tags t.toNat + 1),
                     order := if rd 0 p.tags t.toNat = 0 then p.order ++ [t.toNat] else p.order },
          lcopies := k'.lcopies ++ [{ who := c.who, tag := t.toNat, hint := o.hint, lanes := c.active, moves := moves,
                                      lapsed := false }] })
        noDeposit

/-- R83, R224: a fault of an LCOPY; in a detached warp it faults SYNC.DETACHED. -/
def Sys2Proof.Claims.LaneCopyFaults : Prop :=
  (∀ (t : BitVec 3) (o : FmtM) (s : State) (sh : Shape) (r c : Cur) (k : Pack) (p : Party), Ready {} (.lcopy t o) s sh r c k p →
    p.detached = true → exec (.lcopy t o) s = .next (takeFault s.idle c (trapWith 0x12 1 c.active 0 0 0))) ∧
  ∀ (t : BitVec 3) (o : FmtM) (s a : State) (sh : Shape) (r c : Cur) (k : Pack) (p : Party) (x : Spad)
    (hits : List (Option Nat × Nat)) (l : Nat) (f : LaneFault) (fs : List (Nat × LaneFault)),
    Ready {} (.lcopy t o) s sh r c k p → p.detached = false → s.spad c.pack (c.who / 16) = some x → rd 0 p.tags t.toNat ≠ 255 →
    lcopyChecks (s.asker c) x c ((lanesOf c.active).map fun l => (some l, address o s c (some l),
      min (readSpec s c none .w64 (some l) o.data / 2 ^ 32 % 64) 32, readSpec s c none .w64 (some l) o.data % 2 ^ 32)) s.idle =
      (a, (hits, (l, f) :: fs)) →
    exec (.lcopy t o) s = .next (takeFault a c
      (trapWith f.code f.sub (maskOf ((((l, f) :: fs).filter fun x => x.2.code == f.code).map (·.1))) f.addr 0 f.hint))

/-- R224, R439: a lane copy of a live warp lands whole, once the earlier ones that write the same bytes for a lane have: each
move leaves its valid bytes and zeros in the scratchpad, and the tag counts one less, marked when a source granule was
uncorrectable.
It rests on log 7, the model's own reading. -/
def Sys2Proof.Claims.LaneCopyLanding : Prop :=
  ∀ (s : State) (u idx : Nat) (k : Pack) (x : LaneCopy) (p : Party) (y : Spad), s.pack u = some k →
    (k.state = .resident ∨ k.state = .draining) → k.lcopies[idx]? = some x → x.lapsed = false → x.who < 128 →
    s.party u x.who = some p → p.life = .running → s.spad u (x.who / 16) = some y →
    ((∃ z ∈ k.lcopies.take idx, Overlap z x) → exec (.lcopyLanding u idx) s = .fault .notEnabled) ∧
    ((∀ z ∈ k.lcopies.take idx, ¬ Overlap z x) →
    ∃ t q z, exec (.lcopyLanding u idx) s = .next t ∧ t.mem = s.mem ∧ t.party u x.who = some q ∧
      { q with tags := p.tags, order := p.order, err := p.err } = p ∧
      rd 0 q.tags x.tag = rd 0 p.tags x.tag - 1 ∧ (∀ j, j ≠ x.tag → rd 0 q.tags j = rd 0 p.tags j) ∧
      t.spad u (x.who / 16) = some z ∧ (∀ f, rd 0 z.bytes f = landedByte s x.moves (rd 0 y.bytes f) f) ∧
      ∀ j, j < 8 → q.err.getLsbD j = (p.err.getLsbD j || (decide (j = x.tag) &&
        x.moves.any fun m => decide (0 < m.2.1) && s.uncFor (some k.cluster) m.1 m.2.1)))

/-! ### Named groups (spec/12) -/

namespace Sys2Proof.Claims
open Sys2Proof.Machine

/-- R331: the handle of an entry. -/
def groupHandle' (ctx g : Nat) (gen : BitVec 8) : Word64 :=
  u64 (g + gen.toNat * 2 ^ 12 + g / 512 * 2 ^ 20 + ctx % 256 * 2 ^ 24)
/-- R332: the first failing sub-code of a handle. -/
def handleFault (s : State) (ctx : Nat) (h : Word64) : Option Nat :=
  let g := (h.extractLsb' 0 12).toNat
  if h = 0 ∨ h.extractLsb' 32 32 ≠ 0 ∨ h.getLsbD 23 = true ∨ h.extractLsb' 9 3 ≠ h.extractLsb' 20 3 then some 4
  else if (h.extractLsb' 24 8).toNat ≠ ctx then some 2
  else if (s.group g).st = .free ∨ (s.group g).gen ≠ h.extractLsb' 12 8 then some 1
  else none
/-- The handle that an instruction names, and its entry. -/
def handle (o : FmtA) (s : State) (c : Cur) : Word64 := u64 (word .w64 s c none o.a)
def entryOf (o : FmtA) (s : State) (c : Cur) : Nat := ((handle o s c).extractLsb' 0 12).toNat
/-- The issuing party's member record. -/
def IsMine (x : GroupEntry) (c : Cur) (m : Member) : Prop :=
  x.members.find? (fun y => y.pack == c.pack && y.who == c.who) = some m
def NotMine (x : GroupEntry) (c : Cur) : Prop := ∀ y ∈ x.members, y.pack ≠ c.pack ∨ y.who ≠ c.who

/-- R333: the die that holds a name, and the entry that holds it. -/
def homeOf (s : State) (n : Word64) (d : Nat) : Prop :=
  ∃ i, i < 8 ∧ d = (nameDie n + i) % 8 ∧ (s.die d).status = .online ∧
    ∀ j, j < i → (s.die ((nameDie n + j) % 8)).status ≠ .online
def OpenAs (s : State) (ctx : Nat) (n : Word64) (g : Nat) : Prop :=
  (s.group g).st = .opened ∧ (s.group g).ctx = ctx ∧ (s.group g).name = n
def lowest (d : Nat) (f : Nat → Prop) (g : Nat) : Prop :=
  512 * d ≤ g ∧ g < 512 * d + 512 ∧ f g ∧ ∀ j, 512 * d ≤ j → j < g → ¬ f j

/-- R343: the status word. -/
def joinWord (phase : BitVec 32) (index code : Nat) : Word64 := u64 (code + index * 2 ^ 8 + phase.toNat % 65536 * 2 ^ 48)

/-- The instructions that arrive in a phase, with their kinds, contributions and results (R345). -/
structure Arrival where
  i : FmtA → Instr
  kind : FmtA → Nat
  contrib : FmtA → State → Cur → Word64
  single : Bool
def arrivals : List Arrival :=
  let vote (i : FmtA → Instr) (sub : Nat) : Arrival :=
    { i, kind := fun _ => 0xD4000 + sub * 256, contrib := fun o s c => u64 (word .w64 s c none o.b), single := false }
  let red (i : FmtA → Instr) (sub : Nat) : Arrival :=
    { i, kind := fun o => 0xD5000 + sub * 256 + o.ty.code.toNat * 16 + o.rm.code.toNat,
      contrib := fun o s c => u64 (src o s c none o.b), single := false }
  [{ i := .gbar, kind := fun _ => 0xD3000, contrib := fun _ _ _ => 0, single := true },
   vote .gvoteAny 0, vote .gvoteAll 1, vote .gvoteCount 2, red .gredAdd 0, red .gredMin 1, red .gredMax 2, red .gredAnd 3,
   red .gredOr 4, red .gredXor 5]
/-- Where GBAR puts its status, and GVOTE and GRED their pair: the registers after, and the latch. -/
def Arrival.give (x : Arrival) (o : FmtA) (a : State) (c : Cur) (r st : Word64) : State :=
  if x.single then giveS a c o.dst o.wbs st else givePairM a c o.dst r st
def Arrival.latch (x : Arrival) (r st : Word64) : Nat → Latch := deposited (if x.single then st else r)
/-- R337: an execution recorded in the phase in which it counts. -/
def recorded (x : GroupEntry) (m : Member) (kind : Nat) (c : Cur) (w : Word64) : GroupEntry :=
  let put (y : Member) : Member :=
    if y.index = m.index then
      { y with lanes := y.lanes ||| (c.lanes &&& y.mask), contrib := if y.contrib = none then some w else y.contrib,
               waits := y.waits ++ [c.lanes] }
    else y
  { x with members := x.members.map put, kind := if m.pending then x.kind else some kind,
           nextKind := if m.pending then some kind else x.nextKind }
/-- The kind of the phase in which an execution of the issuing party counts. -/
def kindNow (x : GroupEntry) (m : Option Member) : Option Nat :=
  match m with
  | some m => if m.pending then x.nextKind else x.kind
  | none => x.kind

/-- R241, R347: the scope code of the members' clusters, 0 where there are none. -/
def Scoped (s : State) (ms : List Member) (n : Nat) : Prop :=
  let same (f : Nat → Nat) : Prop := ∃ x, ∀ m ∈ ms, f (s.clusterOf m.pack m.who) = x
  (ms = [] → n = 0) ∧ (ms ≠ [] → same id → n = 1) ∧ (¬ same id → same (· / 12) → n = 2) ∧ (¬ same (· / 12) → n = 3)
/-- R345, R346: the result of a phase by its kind. -/
def groupResults : List (Nat × (List Word64 → Word64 × Flags)) :=
  let fold (op ty : Nat) (xs : List Word64) : Word64 × Flags :=
    match xs with
    | [] => (0, 0)
    | x :: r => (r.foldl (joined op ty) x, 0)
  [(0xD3000, fun _ => (0, 0)), (0xD4000, fun xs => (if xs.any (· != 0) then 1 else 0, 0)),
   (0xD4100, fun xs => (if xs.all (· != 0) then 1 else 0, 0)), (0xD4200, fun xs => (u64 (xs.countP (· ≠ 0)), 0)),
   (0xD5030, fold 0 0), (0xD5130, fold 1 0), (0xD5230, fold 2 0), (0xD5330, fold 3 0), (0xD5430, fold 4 0),
   (0xD5530, fold 5 0), (0xD5020, fold 0 1), (0xD5120, fold 1 1), (0xD5220, fold 2 1)]

end Sys2Proof.Claims


/-- R332: a group instruction whose handle fails faults HND.GROUP with the first failing sub-code, and GBAR, GVOTE and GRED
with 3 when the phase has another kind. -/
def Sys2Proof.Claims.GroupHandles : Prop :=
  ∀ (o : FmtA) (s : State) (sh : Shape) (r c : Cur) (k : Pack) (p : Party),
    (∀ i ∈ [Instr.gjoin o, .gleave o, .gstat o, .gclose o] ++ arrivals.map (·.i o), Ready {} i s sh r c k p →
      c.again = false → ∀ sub, handleFault s k.ctx (handle o s c) = some sub →
      exec i s = .next (takeFault s.idle c (trapOf 0x09 sub c.lanes))) ∧
    ∀ e ∈ arrivals, Ready {} (e.i o) s sh r c k p → c.again = false → handleFault s k.ctx (handle o s c) = none →
      let x := s.group (entryOf o s c)
      (∀ n, kindNow x (x.members.find? fun y => y.pack == c.pack && y.who == c.who) = some n → n ≠ e.kind o →
        exec (e.i o) s = .next (takeFault s.idle c (trapOf 0x09 3 c.lanes)))

/-- R333, R342: GOPEN gives the handle of the OPEN entry of its name on the name's die, else of the lowest FREE entry, which
it opens, else 0; q0 says whether it is null.
It rests on log 30, the model's own reading. -/
def Sys2Proof.Claims.GroupOpening : Prop :=
  ∀ (o : FmtA) (s : State) (sh : Shape) (r c : Cur) (k : Pack) (p : Party) (d : Nat), Ready {} (.gopen o) s sh r c k p →
    let n := u64 (word .w64 s c none o.a)
    let give (a : State) (h : Word64) : Prop :=
      CompletesIn (.gopen o) s c (giveS (a.modRegs c.pack c.who fun g => g.writeQ 0 (h != 0)) c o.dst o.wbs h) (deposited h)
    homeOf s n d →
    (∀ g, lowest d (OpenAs s k.ctx n) g → give s.idle (groupHandle' k.ctx g (s.group g).gen)) ∧
    (∀ g, (∀ j, 512 * d ≤ j → j < 512 * d + 512 → ¬ OpenAs s k.ctx n j) → lowest d (fun j => (s.group j).st = .free) g →
      give (s.idle.setGroup g { GroupEntry.zero with st := .opened, name := n, ctx := k.ctx, gen := (s.group g).gen })
        (groupHandle' k.ctx g (s.group g).gen)) ∧
    ((∀ j, 512 * d ≤ j → j < 512 * d + 512 → ¬ OpenAs s k.ctx n j ∧ (s.group j).st ≠ .free) → give s.idle 0)

/-- R335, R343, R344: GJOIN gives its code in the order of the table, or makes the party a pending joiner with the lowest free
index; GLEAVE removes the party.
It rests on log 30, the model's own reading. -/
def Sys2Proof.Claims.GroupMembership : Prop :=
  ∀ (o : FmtA) (s : State) (sh : Shape) (r c : Cur) (k : Pack) (p : Party), handleFault s k.ctx (handle o s c) = none →
    let g := entryOf o s c
    let x := s.group g
    (Ready {} (.gjoin o) s sh r c k p →
      let mask : Lanes := if c.who = spineWho then 1 else u64 (word .w64 s c none o.b)
      let give (a : State) (w : Word64) : Prop := CompletesIn (.gjoin o) s c (giveS a c o.dst o.wbs w) (deposited w)
      let next := x.phase + 1
      (x.st = .closing → give s.idle (joinWord next 0xFF 4)) ∧
      (x.st = .opened → ∀ m, IsMine x c m → give s.idle (joinWord m.since m.index 1)) ∧
      (x.st = .opened → NotMine x c →
        (mask &&& p.live = 0 → give s.idle (joinWord next 0xFF 5)) ∧
        (mask &&& p.live ≠ 0 → 255 ≤ x.members.length → give s.idle (joinWord next 0xFF 2)) ∧
        (mask &&& p.live ≠ 0 → x.members.length < 255 →
          (8 ≤ (s.groupsOf c.pack c.who).length → give s.idle (joinWord next 0xFF 3)) ∧
          ((s.groupsOf c.pack c.who).length < 8 → ∀ n, n < 255 → (∀ m ∈ x.members, m.index ≠ n) →
            (∀ j, j < n → ∃ m ∈ x.members, m.index = j) →
            give ((s.idle.setGroup g { x with members := x.members ++
                [{ pack := c.pack, who := c.who, index := n, since := next, mask, pending := true, lanes := 0,
                   arrived := false, contrib := none, waits := [] }] }).advance g) (joinWord next n 0))))) ∧
    (Ready {} (.gleave o) s sh r c k p →
      let give (a : State) (w : Word64) : Prop := CompletesIn (.gleave o) s c (giveS a c o.dst o.wbs w) (deposited w)
      (NotMine x c → give s.idle 1) ∧ (∀ m, IsMine x c m → give (s.idle.depart g c.pack c.who false) 0))

/-- R338, R339, R344: each group of a departing member that waits is given a status word with CODE LEFT, reserved bits 0 and a
SCOPE of the table; the party is no member any more.
It rests on log 13, the model's own reading. -/
def Sys2Proof.Claims.GroupDepartures : Prop :=
  ∀ (s : State) (g u who : Nat) (fault : Bool) (m : Member),
    (s.group g).members.find? (fun y => y.pack == u && y.who == who) = some m →
    let t := s.depart g u who fault
    (∀ y ∈ (t.group g).members, y.pack ≠ u ∨ y.who ≠ who) ∧
    ∃ x st : Word64, st.extractLsb' 0 8 = 2#8 ∧ st.extractLsb' 40 8 = 0#8 ∧ 1 ≤ (st.extractLsb' 32 3).toNat ∧
      (st.extractLsb' 32 3).toNat ≤ 3 ∧
      ∀ w ∈ m.waits, ∀ q, t.party u who = some q → ∀ y ∈ q.groups, y.lanes = w → ∀ z, y.wait = some z →
        z.served = some [x, st]

/-- R337, R338, R345: GBAR, GVOTE and GRED. A party that is not a member, or a group without a lane of the mask, receives
NOTMEMBER; the execution of a member is recorded, and completes with what its phase delivers, at once or after a wait.
It rests on log 30, the model's own reading. -/
def Sys2Proof.Claims.GroupArrivals : Prop :=
  ∀ e ∈ arrivals, ∀ (o : FmtA) (s : State) (sh : Shape) (r c : Cur) (k : Pack) (p : Party), Ready {} (e.i o) s sh r c k p →
    let g := entryOf o s c
    let x := s.group g
    (∀ w st, c.again = true → s.servedFor c = some [w, st] →
      CompletesIn (e.i o) s c (e.give o s.idle c w st) (e.latch w st)) ∧
    (c.again = false → handleFault s k.ctx (handle o s c) = none →
      (NotMine x c → (x.kind = none ∨ x.kind = some (e.kind o)) →
        CompletesIn (e.i o) s c (e.give o s.idle c 0 1) (e.latch 0 1)) ∧
      ∀ m, IsMine x c m → (kindNow x (some m) = none ∨ kindNow x (some m) = some (e.kind o)) →
        (m.mask &&& c.lanes = 0 → CompletesIn (e.i o) s c (e.give o s.idle c 0 1) (e.latch 0 1)) ∧
        (m.mask &&& c.lanes ≠ 0 →
          let a := ((s.idle.enterWait c).setGroup g (recorded x m (e.kind o) c (e.contrib o s c))).advance g
          (∀ w st, a.servedFor c = some [w, st] → CompletesIn (e.i o) s c (e.give o a c w st) (e.latch w st)) ∧
          (a.servedFor c = none → exec (e.i o) s = .next a)))

/-- R336, R338: when every member of a phase that has members has arrived, the phase completes: each waiting group receives
the result and the status word with every field of R338, pending joiners become members, and the next phase begins. -/
def Sys2Proof.Claims.PhaseCompletion : Prop :=
  ∀ (s : State) (g : Nat), let x := s.group g
    let cur := x.members.filter fun m => !m.pending
    cur ≠ [] → (∀ m ∈ cur, s.memberArrived m = true) →
    let t := s.advance g
    (t.group g).phase = x.phase + 1 ∧ (t.group g).kind = x.nextKind ∧ (t.group g).dep = 0 ∧
      (∀ m ∈ (t.group g).members, m.pending = false) ∧ (t.group g).members.length = x.members.length ∧
      ∃ st : Word64, st.extractLsb' 0 8 = 0#8 ∧ (st.extractLsb' 8 8).toNat = x.dep % 256 ∧
        (st.extractLsb' 16 8).toNat = x.fdepNow % 256 ∧ (st.extractLsb' 24 8).toNat = cur.length % 256 ∧
        Scoped s cur (st.extractLsb' 32 3).toNat ∧
        st.extractLsb' 35 5 = (phaseResult (x.kind.getD 0) ((sortMembers cur).map fun m => m.contrib.getD 0)).2 ∧
        st.extractLsb' 40 8 = 0#8 ∧ st.extractLsb' 48 16 = x.phase.extractLsb' 0 16 ∧
        ∀ m ∈ cur, ∀ w ∈ m.waits, ∀ q, t.party m.pack m.who = some q → ∀ y ∈ q.groups, y.lanes = w → ∀ z, y.wait = some z →
          z.served = some [(phaseResult (x.kind.getD 0) ((sortMembers cur).map fun m => m.contrib.getD 0)).1, st]

/-- R345, R346: what a phase of each kind gives of the arrived contributions in ascending member index. -/
def Sys2Proof.Claims.GroupResults : Prop :=
  (∀ e ∈ groupResults, ∀ xs, phaseResult e.1 xs = e.2 xs) ∧
  ∀ rm ∈ [(1, Mode.rne), (2, .rtz), (3, .rup), (4, .rdn)], ∀ e ∈ [(0, f32Add rm.2), (1, f32Min), (2, f32Max)],
    ∀ (x : Word64) (xs : List Word64), phaseResult (0xD5060 + e.1 * 256 + rm.1) (x :: xs) =
      xs.foldl (fun a y => let z := e.2 (a.1.toNat % 2 ^ 32) (y.toNat % 2 ^ 32); (u64 z.1, a.2 ||| z.2))
        (u64 (x.toNat % 2 ^ 32), 0)

/-- R334, R347, R348: GSTAT gives the state of the group; GCLOSE frees a group without members, closes one with members and
leaves a closing one. -/
def Sys2Proof.Claims.GroupStatusAndClosing : Prop :=
  ∀ (o : FmtA) (s : State) (sh : Shape) (r c : Cur) (k : Pack) (p : Party), handleFault s k.ctx (handle o s c) = none →
    let g := entryOf o s c
    let x := s.group g
    let cur := x.members.filter fun m => !m.pending
    (Ready {} (.gstat o) s sh r c k p → x.members.length ≤ 255 → (∀ m ∈ x.members, m.index < 255) →
      (∀ n, x.kind = some n → 0xD3 ≤ n / 4096 ∧ n / 4096 ≤ 0xD5) → ∃ w : Word64,
      (w.extractLsb' 8 2).toNat = (match x.st with | .free => 0 | .opened => 1 | .closing => 2) ∧
      (w.extractLsb' 10 2).toNat = (match x.kind with | none => 0 | some n => n / 4096 - 0xD2) ∧ Scoped s cur (w.extractLsb' 12 3).toNat ∧ w.getLsbD 15 = x.fdep ∧ w.extractLsb' 16 8 = x.lastf ∧
      (w.extractLsb' 24 8).toNat = (x.members.filter (·.pending)).length ∧
      (w.extractLsb' 32 8).toNat = (cur.filter fun m => s.memberArrived m).length ∧ (w.extractLsb' 40 8).toNat = cur.length ∧
      (w.extractLsb' 0 8).toNat =
        (match cur.find? fun m => m.pack == c.pack && m.who == c.who with | some m => m.index | none => 0xFF) ∧ w.extractLsb' 48 16 = x.phase.extractLsb' 0 16 ∧
      CompletesIn (.gstat o) s c (giveS s.idle c o.dst o.wbs w) (deposited w)) ∧
    (Ready {} (.gclose o) s sh r c k p →
      let give (a : State) (w : Word64) : Prop := CompletesIn (.gclose o) s c (giveS a c o.dst o.wbs w) (deposited w)
      (x.st = .closing → give s.idle 2) ∧
      (x.st = .opened → x.members = [] → give (s.idle.setGroup g { GroupEntry.zero with gen := x.gen + 1 }) 0) ∧
      (x.st = .opened → x.members ≠ [] → give (s.idle.setGroup g { x with st := .closing }) 1))


/-! ### The streamer (spec/09) -/

namespace Sys2Proof.Claims
open Sys2Proof.Machine

/-- A streamer command: its kind, whether it names a transfer counter, its join slot, and its index list. -/
structure Command where
  i : FmtE → Instr
  kind : FmtE → CopyKind
  xc : FmtE → Bool
  join : FmtE → Option Nat
  indexed : Bool
def direction (o : FmtE) : CopyKind := match o.dir with | 0 => .g2s | 1 => .s2g | _ => .g2g
def copies : List Command :=
  [⟨.scopy, direction, FmtE.xc, fun _ => none, false⟩, ⟨.scpmxCopy, direction, FmtE.xc, fun o => some o.slot, false⟩,
   ⟨.sgath, fun _ => .gath, FmtE.xc, fun _ => none, true⟩, ⟨.sscat, fun _ => .scat, FmtE.xc, fun _ => none, true⟩]
def probes : Command := ⟨.sprobe, direction, fun _ => false, fun _ => none, false⟩
/-- The command that an instruction's sources give (R257, R268), and the place of its index list. -/
def Command.copy (x : Command) (o : FmtE) (s : State) (c : Cur) (k : Pack) : Copy :=
  copyOf o (x.kind o) (x.xc o) (x.join o) k s c
def Command.list (x : Command) (o : FmtE) (s : State) (c : Cur) : Option (Nat × Nat) :=
  if x.indexed then some (word .w64 s c none o.s2 / 2 ^ 32, o.rows) else none

/-- R258: the first failing sub-code of HND.LAYOUT for a command's entries and first coordinate. -/
def layoutSub (ctx : Nat) (y : Copy) : Option Nat :=
  if lyValid y.entry = false then some 1
  else if lyCtx y.entry ≠ ctx then some 2
  else if lyPt y.entry = true ∧ y.kind ≠ .g2s then some 3
  else if lyFmt y.entry < 0x14 ∧ (y.coords[0]?).getD 0 % 32 ≠ 0 then some 4
  else if y.kind = .g2g ∧ (lyValid y.entry2 = false ∨ lyCtx y.entry2 ≠ ctx ∨ lyFmt y.entry ≠ lyFmt y.entry2 ∨
    ([0, 1, 2, 3, 4].any fun i => lyBox y.entry i != lyBox y.entry2 i) = true) then some 5
  else none
/-- R254: the producer right. -/
def producer (k : Pack) (who : Nat) : Prop :=
  if pkProdw k.packet then who ≠ spineWho ∧ who % 16 = pkPwarp k.packet else who = spineWho

/-- R201, R262: the probe of `y` has passed: the lines that it writes are EMPTY, and nothing else has changed. -/
structure Emptied (a b : State) (y : Copy) : Prop where
  state : { b with packs := a.packs } = a
  lines : ∀ x, a.spad y.pack y.wg = some x → ∃ z, b.spad y.pack y.wg = some z ∧ { z with emptyLines := x.emptyLines } = x ∧
    ∀ l, l ∈ z.emptyLines ↔ l ∈ x.emptyLines ∨ ((y.kind = .g2s ∨ y.kind = .gath) ∧ l ∈ y.lines)
/-- R257, R262: the command `y` stands in its cluster's queue and its token is pending. No byte has moved. -/
structure Enqueued (a b : State) (cl : Nat) (y : Copy) : Prop where
  queue : (b.cluster cl).copies = (a.cluster cl).copies ++ [{ y with id := a.nextId }]
  token : ∀ p, a.party y.pack y.who = some p → ∃ q, b.party y.pack y.who = some q ∧ { q with pending := p.pending } = p ∧
    ∀ j, j < 64 → q.pending.getLsbD j = (p.pending.getLsbD j || decide (j = y.token))
  pads : ∀ u wg, b.spad u wg = a.spad u wg
  mem : b.mem = a.mem
/-- The group waits inside the command `y` as far as it has come: it is not probed anew (R262). -/
def waitsWith (a : State) (c : Cur) (y : Copy) : State := (a.enterWait c).keepCopy c y
/-- R270, column C: what a copy makes of its join slot; none where its issuer waits. -/
def joins (x : Option Join) (u : Nat) (y : Join) : Prop :=
  (x = none ∧ y = { owner := u, n := 1, f := false, cmd := none, go := false }) ∨
    ∃ j, x = some j ∧ j.owner = u ∧ j.n < 255 ∧ j.go = false ∧ y = { j with n := j.n + 1 }

/-- What follows the probe of `y` from state `a` (R262, R270): the command enters the queue when it has room, and joins its
slot; it waits when the queue, or the slot, has none. -/
def Proceeds (i : Instr) (join : Option Nat) (s : State) (c : Cur) (k : Pack) (a : State) (y : Copy) : Prop :=
  (64 ≤ (a.cluster k.cluster).copies.length → exec i s = .next (waitsWith a c y)) ∧
  ((a.cluster k.cluster).copies.length < 64 →
    (join = none → ∃ b, Enqueued a b k.cluster y ∧ (b.cluster k.cluster).joins = (a.cluster k.cluster).joins ∧
      CompletesIn i s c b noDeposit) ∧
    ∀ j, join = some j →
      (∀ x, joins (cget (a.cluster k.cluster).joins j) c.pack x → ∃ b, Enqueued a b k.cluster y ∧
        cget (b.cluster k.cluster).joins j = some x ∧ CompletesIn i s c b noDeposit) ∧
      ((∀ x, ¬ joins (cget (a.cluster k.cluster).joins j) c.pack x) → exec i s = .next (waitsWith a c y)))

/-- R270, columns L (`ok`) and X: what the end of a copy makes of its slot `x`: the slot after it, none when it is FREE, and
the attached command whose token receives JOIN. -/
def ends (x : Join) (ok : Bool) : Option Join × Option EngCmd :=
  let n := x.n - 1
  let f := x.f || !ok
  match x.cmd with
  | none => (some { x with n, f }, none)
  | some cmd =>
    if n ≠ 0 then (some { x with n, f }, none)
    else if f then (none, some cmd)
    else (some { x with n, f, go := true }, none)

/-- R264: the counter word at `w` of a scratchpad is lowered by `bytes` and `arr`. -/
def Lowered (x z : Spad) (w bytes arr : Nat) : Prop :=
  z.readNat w 8 % 2 ^ 48 = (x.readNat w 8 + (2 ^ 48 - bytes % 2 ^ 48)) % 2 ^ 48 ∧
    z.readNat w 8 / 2 ^ 48 = (x.readNat w 8 / 2 ^ 48 + (65536 - arr)) % 65536
/-- R264: the bytes of a DONE status that a copy has not counted. -/
def uncounted (y : Copy) : Nat := y.total - (y.counted.map y.pieceBytes).sum

/-- R267, R268: bit `m` of row `n` of what a copy into global memory reads: the packed image in the scratchpad, or the row of
the first entry, zero where it is out of extent. -/
def sourceBit (y : Copy) (s : State) (a : Asker) (n m : Nat) : Bool :=
  match y.kind with
  | .g2g => match y.span y.entry n with | none => false | some x => (x.read s a).testBit m
  | .g2s | .gath | .s2g | .scat =>
    match s.spad y.pack y.wg with
    | some x => (rd 0 x.bytes (y.offset + n * y.rowBytes + m / 8)).getLsbD (m % 8)
    | none => false
/-- Bit `j` of the byte at `pa` once row `n` of a copy into global memory has landed at the elements `g` in extent. -/
def landedBit (y : Copy) (s : State) (a : Asker) (n : Nat) (g : Span) (pa j : Nat) : Bool :=
  (List.range g.n).foldl (fun old i =>
    match look s a ((g.va + i) % 2 ^ 64) with
    | .ok at' _ =>
      if at' ≠ pa ∨ s.reservedAt pa = true then old
      else if g.sub ≤ 8 * i + j ∧ 8 * i + j < g.sub + g.bits then sourceBit y s a n (g.lo + (8 * i + j - g.sub))
      else (s.byteAt pa).getLsbD j
    | .fault _ _ _ => old) ((s.byteAt pa).getLsbD j)

/-- R294: the warp's workgroup holds the baton of its core. -/
def holdsBaton (k : Pack) (who : Nat) : Prop :=
  who ≠ spineWho ∧ ∃ b, cget k.batons ((k.cores[who / 16]?).getD 0) = some b ∧ b.holder = who / 16
/-- R279: a command that reached the sequencer before `cmd` waits for a queue of an engine of it, and can go on (log 87). -/
def Overtakes (s : State) (k : Pack) (cmd : EngCmd) : Prop :=
  ∃ before x after k', (s.cluster k.cluster).arrivals = before ++ x :: after ∧ (∀ y ∈ before ++ [x], y.1.id ≠ cmd.id) ∧
    s.comes k.cluster x = true ∧ s.pack x.1.pack = some k' ∧
    ∃ g ∈ x.1.wgs, ∃ h ∈ cmd.wgs, (k'.cores[g]?).getD 0 = (k.cores[h]?).getD 0

/-- The coordinate i of a row with digits `ks`. -/
def coordinate (at0 : List Int) (ks : List Nat) (i : Nat) : Int :=
  (at0[i]?).getD 0 + (if i = 0 then 0 else ((ks[i - 1]?).getD 0 : Nat))

/-- R265: the completion status. -/
structure CopyStatus (y : Copy) (w : Word64) : Prop where
  code : (w.extractLsb' 0 8) = (y.ended.getD 0)
  nan : w.getLsbD 8 = y.nanel
  unc : w.getLsbD 9 = y.unc
  oob : w.getLsbD 10 = y.oob
  zero : w.extractLsb' 11 5 = 0#5
  bytes : (w.extractLsb' 16 48).toNat = y.bytes % 2 ^ 48

end Sys2Proof.Claims


/-- R254, R255, R258: a streamer command of a detached warp faults SYNC.DETACHED, of a party without the producer right
SYNC.PRODUCER, and one whose layout entry fails faults HND.LAYOUT with the first failing sub-code. -/
def Sys2Proof.Claims.StreamerFaults : Prop :=
  ∀ e ∈ probes :: copies, ∀ (o : FmtE) (s : State) (sh : Shape) (r c : Cur) (k : Pack) (p : Party),
    Ready {} (e.i o) s sh r c k p →
    let fault (code sub : Nat) : Prop := exec (e.i o) s = .next (takeFault s.idle c (trapOf code sub c.lanes))
    (p.detached = true → fault 0x12 1) ∧ (p.detached = false → ¬ producer k c.who → fault 0x11 1) ∧
      (p.detached = false → producer k c.who → ∀ sub, layoutSub k.ctx (e.copy o s.idle c k) = some sub → fault 0x08 sub)

/-- R253, R257, R262, R270: a copy command whose probe passes empties the lines that it writes, and enters the queue when it
has room and joins its slot; where the queue or the slot has none it waits with its probe made, and goes on from there when it
is tried again.
It rests on log 35, the model's own reading. -/
def Sys2Proof.Claims.CopyCommands : Prop :=
  ∀ e ∈ copies, ∀ (o : FmtE) (s : State) (sh : Shape) (r c : Cur) (k : Pack) (p : Party) (y : Copy),
    Ready {} (e.i o) s sh r c k p →
    (s.idle.keptCopy c = none → ∀ a, probeCmd k p (e.copy o s.idle c k) (e.list o s c) s.idle c = (a, .pass y) →
      ∃ b, Emptied a b y ∧ Proceeds (e.i o) (e.join o) s c k b y) ∧
    (s.idle.keptCopy c = some y → y.join = e.join o → y.ended = none → (y.byRow = true → y.rows ≠ []) →
      Proceeds (e.i o) (e.join o) s c k s.idle y)

/-- R13, R263, R264, R270, R272: a copy whose probe meets an absent window ends at once with ABSENT: its counter is lowered
by the whole of it, and its slot is as after a copy that joined it and failed. SPROBE gives DONE or ABSENT and makes no entry.
A command whose index list has an EMPTY line waits. -/
def Sys2Proof.Claims.ProbeOutcomes : Prop :=
  (∀ (o : FmtE) (s a : State) (sh : Shape) (r c : Cur) (k : Pack) (p : Party) (y : Copy), Ready {} (.sprobe o) s sh r c k p →
    (probeCmd k p (probes.copy o s.idle c k) none s.idle c = (a, .pass y) →
      CompletesIn (.sprobe o) s c (giveS a c o.token false 0) noDeposit) ∧
    (probeCmd k p (probes.copy o s.idle c k) none s.idle c = (a, .absent y) →
      CompletesIn (.sprobe o) s c (giveS a c o.token false 2) noDeposit)) ∧
  ∀ e ∈ copies, ∀ (o : FmtE) (s a : State) (sh : Shape) (r c : Cur) (k : Pack) (p : Party) (y : Copy),
    Ready {} (e.i o) s sh r c k p → s.idle.keptCopy c = none →
    (probeCmd k p (e.copy o s.idle c k) (e.list o s c) s.idle c = (a, .wait y) → exec (e.i o) s = .next (waitsWith a c y)) ∧
    (probeCmd k p (e.copy o s.idle c k) (e.list o s c) s.idle c = (a, .absent y) →
      (e.join o = none → y.counter = none → CompletesIn (e.i o) s c (giveS a c o.token false 2) noDeposit) ∧
      (e.join o = none → ∀ w x, y.counter = some w → w % 8 = 0 → a.spad y.pack y.wg = some x →
        ∃ b z, b.mem = a.mem ∧ b.spad y.pack y.wg = some z ∧ Lowered x z w y.total 1 ∧
          CompletesIn (e.i o) s c (giveS b c o.token false 2) noDeposit) ∧
      ∀ j, e.join o = some j → ∀ x, joins (cget (a.cluster k.cluster).joins j) c.pack x → (ends x false).2 = none →
        ∃ b, b.mem = a.mem ∧ cget (b.cluster k.cluster).joins j = (ends x false).1 ∧
          CompletesIn (e.i o) s c (giveS b c o.token false 2) noDeposit)

/-- R259: the row image. In a format whose elements are whole bytes, byte `i` of a row's image is the byte of the element's
address when the element is in extent, and 0 when it is not; a row with a coordinate out of extent holds no element. -/
def Sys2Proof.Claims.RowElements : Prop :=
  ∀ (e : BitVec 512) (at0 : List Int) (ks : List Nat) (b : Nat), lyW e = 8 * b →
    (∀ (s : State) (a : Asker) (x : Span) (i : Nat), spanOf e at0 ks = some x → i < lyBox e 0 * b →
      let c0 := coordinate at0 ks 0
      let el := c0 + (i / b : Nat)
      (x.read s a / 256 ^ i % 256 : Nat) =
        if 0 ≤ el ∧ el < (lyExt e 0 : Nat) then
          match look s a ((lyBase e + (c0 * (b : Nat) + (i : Nat)).toNat +
              ([1, 2, 3, 4].map fun n => (coordinate at0 ks n).toNat * lyStride e n).sum) % 2 ^ 64) with
          | .ok pa _ => (s.byteAt pa).toNat
          | .fault _ _ _ => 0
        else 0) ∧
    ((∃ n ∈ [1, 2, 3, 4], coordinate at0 ks n < 0 ∨ (lyExt e n : Nat) ≤ coordinate at0 ks n) → spanOf e at0 ks = none)

/-- R260, R262 to R264, R267, R268: a piece of a copy lands when its pages let it, and its transfer counter is lowered by its
bytes. Into a scratchpad: its 16 bytes stand in the image, its line is FULL when it was the last of it, and no memory changes
beside translations. Into global memory: a row's elements in extent stand at their addresses, but for bytes that a submission
area reserves (R5), bit for bit as the image or the
other entry has them, every other bit of memory and the scratchpad beside the counter keeping what it was (a row over several
pages: while it does not itself change the tables that translate it). -/
def Sys2Proof.Claims.PieceLanding : Prop :=
  ∀ (s a b : State) (cl id n : Nat) (y : Copy) (k : Pack),
    ((s.cluster cl).copies.find? fun z => z.id == id) = some y → s.pack y.pack = some k →
    k.state = .resident ∨ k.state = .retired → s.mayLand y n = true →
    pageCheck (askerCluster k.ctx cl) .read (y.sides n).1 s = (a, .go) →
    pageCheck (askerCluster k.ctx cl) .write (y.sides n).2 a = (b, .go) → y.kind = .g2g ∨ (b.spad y.pack y.wg).isSome →
    let m := y.pieceBytes n
    let off := y.offset + 16 * n
    let who := askerCluster k.ctx cl
    ∃ t y', exec (.streamerLanding cl id n) s = .next t ∧
      ((t.cluster cl).copies.find? fun z => z.id == id) = some y' ∧ y'.landed = n :: y.landed ∧ y'.bytes = y.bytes + m ∧
      (y.toPad = true → t.mem = b.mem) ∧
      (y.toPad = false → (∀ g, y.span y.target n = some g → (rangePieces g.va g.n).length ≤ 1 ∨
          ∀ i m, look { b with mem := m } who ((g.va + i) % 2 ^ 64) = look b who ((g.va + i) % 2 ^ 64)) →
        ∀ pa j, j < 8 → (t.byteAt pa).getLsbD j =
        match y.span y.target n with
        | none => (b.byteAt pa).getLsbD j
        | some g => landedBit y b who n g pa j) ∧
      ∀ x, b.spad y.pack y.wg = some x → ∃ z, t.spad y.pack y.wg = some z ∧
        (∀ f, (∀ w, y.counter = some w → f < w ∨ w + 8 ≤ f) → rd 0 z.bytes f =
          if y.toPad = true ∧ off ≤ f ∧ f < off + m then BitVec.ofNat 8 (y.pieceValue b who n / 256 ^ (f - off))
          else rd 0 x.bytes f) ∧
        (∀ w, y.counter = some w → y.counted.contains n = false → (y.toPad = true → w + 8 ≤ off ∨ off + m ≤ w) →
          Lowered x z w m 0) ∧
        (∀ l, l ∈ z.emptyLines ↔ l ∈ x.emptyLines ∧
          ¬ (y.toPad = true ∧ l = y.lineOf n ∧ ∀ j ∈ y.piecesIn l, j = n ∨ j ∈ y.landed))

/-- R263 to R265, R270: a copy that has landed whole, or has ended early, completes: it leaves the queue, its counter is lowered
by 1 arrival and by the bytes not counted, its slot is as columns L and X say, unless it is another pack's meanwhile, and the token of its issuer receives its status
and is no longer pending; so does the token of the attached command with JOIN, where the slot says that.
It rests on log 35, the model's own reading. -/
def Sys2Proof.Claims.CopyCompletion : Prop :=
  ∀ (s : State) (cl id : Nat) (y : Copy) (p : Party) (k : Pack),
    ((s.cluster cl).copies.find? fun z => z.id == id) = some y →
    (y.ended ≠ none ∨ y.npieces ≤ y.landed.length) → y.ended ≠ some 0 → y.token < 64 → s.pack y.pack = some k →
    k.state ≠ .retired → s.party y.pack y.who = some p → p.life = .running →
    let slot := (y.join.bind fun j => cget (s.cluster cl).joins j).filter fun x => x.owner == y.pack
    let failed := (slot.map fun x => ends x (y.ended == none)).bind (·.2)
    ∃ t w, exec (.streamerCopyCompletion cl id) s = .next t ∧ CopyStatus y w ∧ t.mem = s.mem ∧
      (∀ z ∈ (t.cluster cl).copies, z.id ≠ id) ∧
      (∀ j x, y.join = some j → slot = some x → cget (t.cluster cl).joins j = (ends x (y.ended == none)).1) ∧
      (∀ j x, y.join = some j → cget (s.cluster cl).joins j = some x → x.owner ≠ y.pack → cget (t.cluster cl).joins j = some x) ∧
      (∀ u v q, s.party u v = some q → q.life = .running → (∀ cmd, failed = some cmd → cmd.token < 64) →
        let mine (i : Nat) : Prop := u = y.pack ∧ v = y.who ∧ i = y.token
        let joined (i : Nat) : Prop := ∃ cmd, failed = some cmd ∧ u = cmd.pack ∧ v = cmd.who ∧ i = cmd.token
        ∃ q', t.party u v = some q' ∧
          (∀ i : BitVec 6, (joined i.toNat → q'.regs.readS i.toNat = 4) ∧
            (¬ joined i.toNat → mine i.toNat → q'.regs.readS i.toNat = w) ∧
            (¬ joined i.toNat → ¬ mine i.toNat → q'.regs.readS i.toNat = q.regs.readS i.toNat)) ∧
          ∀ i, i < 64 → (q'.pending.getLsbD i = true ↔ q.pending.getLsbD i = true ∧ ¬ joined i ∧ ¬ mine i)) ∧
      ∀ f x v q, y.counter = some f → s.spad y.pack y.wg = some x → s.party y.pack v = some q → v ≠ spineWho → v / 16 = y.wg →
        q.life = .running → ∃ z, t.spad y.pack y.wg = some z ∧ Lowered x z f (uncounted y) 1

/-- R271: SCANCEL ends every copy of its issuer's producer that has not landed whole, and gives their count.
It rests on log 35, the model's own reading. -/
def Sys2Proof.Claims.CopyCancelling : Prop :=
  ∀ (o : FmtE) (s : State) (sh : Shape) (r c : Cur) (k : Pack) (p : Party), Ready {} (.scancel o) s sh r c k p →
    (p.detached = true → exec (.scancel o) s = .next (takeFault s.idle c (trapOf 0x12 1 c.lanes))) ∧
    (p.detached = false → ¬ producer k c.who → exec (.scancel o) s = .next (takeFault s.idle c (trapOf 0x11 1 c.lanes))) ∧
    (p.detached = false → producer k c.who → ∃ hit : List Copy,
      (∀ y, y ∈ hit ↔ y ∈ (s.cluster k.cluster).copies ∧ y.pack = c.pack ∧ y.ended = none ∧ y.landed.length < y.npieces ∧
        (c.who = spineWho ∨ y.wg = c.who / 16)) ∧
      let a := hit.foldl (fun a y => a.endCopy k.cluster y 1) s.idle
      (∀ y ∈ hit, ∀ z ∈ (a.cluster k.cluster).copies, z.id ≠ y.id) ∧
      CompletesIn (.scancel o) s c (giveS a c o.token false (u64 (hit.length % 65536))) noDeposit)

/-- R269, R288: SCPMX.ARM of a detached warp faults SYNC.DETACHED, of a party without the producer right SYNC.PRODUCER; then the
checks of its MPLANE follow: the baton, the broadcast form and the regions. -/
def Sys2Proof.Claims.JoinFaults : Prop :=
  ∀ (o : FmtE) (s : State) (sh : Shape) (r c : Cur) (k : Pack) (p : Party), Ready {} (.scpmxArm o) s sh r c k p →
    let fault (t : Trap) : Prop := exec (.scpmxArm o) s = .next (takeFault s.idle c t)
    let bc := o.armSub == 1
    (p.detached = true → fault (trapOf 0x12 1 c.lanes)) ∧
    (p.detached = false → ¬ producer k c.who → fault (trapOf 0x11 1 c.lanes)) ∧
    (p.detached = false → producer k c.who →
      (pkBaton k.packet = true → ¬ holdsBaton k c.who → fault (trapOf 0x11 2 c.lanes)) ∧
      (pkBaton k.packet = true → holdsBaton k c.who → bc = true → fault (trapOf 0x11 3 c.lanes)) ∧
      (pkBaton k.packet = false ∨ (holdsBaton k c.who ∧ bc = false) → ∀ code sub off,
        engCheck k (engCmdOf o .mplane bc s.idle c) = some (code, sub, off) →
        fault { trapOf code sub c.lanes with addr := u64 off }))

/-- R269, R270: SCPMX.ARM attaches its MPLANE to the join slot: a FREE slot, or one of the pack without a command; with no
copy outstanding the command is to enter, or ends with JOIN when a copy failed; it waits at a slot that it may not use. The
command of a slot that is to go enters its queues when they have room, after those that came before it and still can go on
(R279; which those are is the model's choice of log 87). -/
def Sys2Proof.Claims.JoinSlots : Prop :=
  (∀ (o : FmtE) (s : State) (sh : Shape) (r c : Cur) (k : Pack) (p : Party), Ready {} (.scpmxArm o) s sh r c k p →
    p.detached = false → producer k c.who →
    let cmd := engCmdOf o .mplane (o.armSub == 1) s.idle c
    engTrap k c cmd = none →
    let set (x : Option Join) (a : State) : State := a.modCluster k.cluster fun y =>
      { y with joins := match x with | some x => cset y.joins o.slot x | none => cdel y.joins o.slot }
    let come (go : Bool) (a : State) : State :=
      if go then a.modCluster k.cluster fun y => { y with arrivals := y.arrivals ++ [(cmd, 0)] } else a
    let armed (x : Join) (go : Bool) : Prop := CompletesIn (.scpmxArm o) s c
      (({ come go (set (some x) s.idle) with nextId := s.nextId + 1 }).modParty c.pack c.who fun q =>
        { q with pending := q.pending ||| BitVec.twoPow 64 cmd.token }) noDeposit
    let slot := cget (s.cluster k.cluster).joins o.slot
    (slot = none → armed { owner := c.pack, n := 0, f := false, cmd := some cmd, go := true } true) ∧
    ∀ x, slot = some x →
      (x.owner = c.pack → x.cmd = none →
        (x.n ≠ 0 → armed { x with cmd := some cmd } false) ∧
        (x.n = 0 → x.f = false → armed { x with cmd := some cmd, go := true } true) ∧
        (x.n = 0 → x.f = true → CompletesIn (.scpmxArm o) s c (giveS (set none s.idle) c o.token false 4) noDeposit)) ∧
      (x.owner ≠ c.pack ∨ x.cmd ≠ none → exec (.scpmxArm o) s = .next (s.idle.enterWait c))) ∧
  ∀ (s : State) (cl j : Nat) (x : Join) (cmd : EngCmd) (k : Pack), cget (s.cluster cl).joins j = some x → x.cmd = some cmd →
    x.go = true → s.pack x.owner = some k → k.state = .resident ∨ k.state = .retired → s.engRoom k cmd = true →
    ¬ Overtakes s k cmd → exec (.followOnMplaneEntry cl j) s = .next ((s.modCluster cl fun y => { y with joins := cdel y.joins j }).modCluster cl
      fun y => { y with cmds := y.cmds ++ [cmd], arrivals := y.arrivals.filter fun z => z.1.id != cmd.id })


/-! ### The plane engines and batons (spec/10, spec/03) -/

namespace Sys2Proof.Claims
open Sys2Proof.Machine

/-- The engine commands: the operation, and whether it is the broadcast form. -/
def engines : List ((FmtE → Instr) × EngOp × Bool) :=
  [(.mplane, .mplane, false), (.mplaneBc, .mplane, true), (.mscale, .mscale, false), (.mepil, .mepil, false),
   (.mzero, .mzero, false)]
/-- The steps of a command. -/
def engineSteps : List ((Nat → Nat → Instr) × EngOp) :=
  [(.mplaneStep, .mplane), (.mscaleStep, .mscale), (.mepilStep, .mepil), (.mzeroStep, .mzero)]

/-- The command may take its next step. -/
structure MayStep (s : State) (k : Pack) (cl core : Nat) (op : EngOp) (x : EngCmd) : Prop where
  head : s.headCmd cl core = some (k, x)
  op : x.op = op
  kept : x.discard = false
  sound : x.uncorr = false
  more : x.next < x.steps
  working : k.state = .resident ∨ k.state = .retired
  full : x.linesFull k = true

/-- What a step of `x` leaves alone: everything but its own record, the contents and error marks of its targets' scratchpads,
the corrected errors of the others that it reads, and counters. -/
structure StepOnly (s t : State) (cl : Nat) (k : Pack) (x : EngCmd) : Prop where
  state : { t with packs := s.packs, clusters := s.clusters } = s
  others : ∀ n, n ≠ cl → t.cluster n = s.cluster n
  cluster : { t.cluster cl with counters := (s.cluster cl).counters, cmds := (s.cluster cl).cmds } = s.cluster cl
  cmds : ∀ y, y.id ≠ x.id → (y ∈ (t.cluster cl).cmds ↔ y ∈ (s.cluster cl).cmds)
  packs : ∀ u, u ≠ x.pack → t.pack u = s.pack u
  pack : ∃ k', t.pack x.pack = some k' ∧ { k' with spads := k.spads } = k
  pads : ∀ g y, g ∉ x.wgs → s.spad x.pack g = some y → ∃ z, t.spad x.pack g = some z ∧ { z with corr := y.corr } = y

/-- R108: the word of 32 elements' bits of one plane, element 0 lowest. -/
def planeWord (f : PlaneFmt) (x : Nat → Nat) (pl : Nat) : Nat :=
  ((List.range 32).map fun i => if f.plane (x i) pl then 2 ^ i else 0).sum

/-- R99, R101: the number `x`, of sign `zero` where it is 0, rounds to encoding `n` of a format and raises `fl`. -/
def RoundsTo (f : Fmt) (mode : Mode) (zero : Bool) (x : Rat) (n : Nat) (fl : Flags) : Prop :=
  (x = 0 → n = f.signed zero 0 ∧ fl = 0) ∧
  (x ≠ 0 →
    let neg := decide (x < 0)
    let y := signedQ neg x
    ∃ m, n = f.signed neg m ∧ Rounds f mode neg y m ∧ fl.getLsbD 0 = false ∧ fl.getLsbD 1 = false ∧
      (fl.getLsbD 2 = true ↔ m = f.infBits ∨ magnitude f f.infBits ≤ y) ∧
      (fl.getLsbD 3 = true ↔ Tiny f mode neg y ∧ magnitude f m ≠ y) ∧
      (fl.getLsbD 4 = true ↔ m = f.infBits ∨ magnitude f m ≠ y))
/-- R97, R98: the sign of an exact zero sum of numbers of signs `p` and `q`. -/
def zeroSign (mode : Mode) (p q : Bool) : Bool := if p = q then p else mode == .rdn

/-- R111: the number of a shared scale that is no NaN. -/
def scaleNum (c : Nat) : Rat := if c / 4 = 0 then 0 else scaleQ c
/-- R112: one iteration on an accumulator `acc` with a partial sum and two scales leaves `n` and raises `fl`. -/
def Rescales (mode : Mode) (off : Int) (acc : Nat) (ps : Int) (sa sb n : Nat) (fl : Flags) : Prop :=
  let a := numOf fp32 acc
  (sa / 4 = 255 ∨ sb / 4 = 255 → n = fp32.nanBits ∧ fl = fNV) ∧
  (sa / 4 ≠ 255 → sb / 4 ≠ 255 →
    (a.isNan = true → n = fp32.nanBits ∧ fl = 0) ∧
    (∀ g, a = .inf g → n = fp32.signed g fp32.infBits ∧ fl = 0) ∧
    ∀ x, numQ a = some x →
      let y : Rat := (ps : Rat) * scaleNum sa * scaleNum sb * scaled 1 off
      RoundsTo fp32 mode (zeroSign mode a.neg (decide (y < 0))) (x + y) n fl)

/-- R97, R98, R292: the sum of two F32 encodings with one rounding. -/
def Sums (mode : Mode) (a b n : Nat) (fl : Flags) : Prop :=
  match numOf fp32 a, numOf fp32 b with
  | .nan p, .nan q => n = fp32.nanBits ∧ fl = if p || q then fNV else 0
  | .nan p, .inf _ | .nan p, .fin _ _ _ | .inf _, .nan p | .fin _ _ _, .nan p => n = fp32.nanBits ∧ fl = if p then fNV else 0
  | .inf p, .inf q => if p = q then n = fp32.signed p fp32.infBits ∧ fl = 0 else n = fp32.nanBits ∧ fl = fNV
  | .inf p, .fin _ _ _ | .fin _ _ _, .inf p => n = fp32.signed p fp32.infBits ∧ fl = 0
  | .fin p m e, .fin q m' e' =>
    RoundsTo fp32 mode (zeroSign mode p q) (signedQ p (scaled m e) + signedQ q (scaled m' e')) n fl
/-- R292: an F32 encoding in a narrower format. -/
def Narrows (f : Fmt) (mode : Mode) (a n : Nat) (fl : Flags) : Prop :=
  match numOf fp32 a with
  | .nan s => n = f.nanBits ∧ fl = if s then fNV else 0
  | .inf g => n = f.signed g f.infBits ∧ fl = 0
  | .fin g m e => RoundsTo f mode g (signedQ g (scaled m e)) n fl
/-- R102, R292: an F32 encoding as a signed byte. -/
def Bytes8 (mode : Mode) (a n : Nat) (fl : Flags) : Prop :=
  match numOf fp32 a with
  | .nan _ => n = 0 ∧ fl = fNV
  | .inf g => n = (if g then 0x80 else 0x7F) ∧ fl = fNV
  | .fin g m e =>
    let x := scaled m e
    ∃ k : Nat, (k : Rat) ≤ x ∧ x < (k : Rat) + 1 ∧
      let y := picked mode g k (x - k) ((k : Rat) + 1 - x)
      if g ∧ 128 < y then n = 0x80 ∧ fl = fNV
      else if ¬ g ∧ 127 < y then n = 0x7F ∧ fl = fNV
      else n = (if g then (256 - y) % 256 else y) ∧ fl = if (y : Rat) = x then 0 else fNX
/-- R292: what an element `a` becomes under a bias, an activation and an output format. TANH and SILU are the functions
of R103, whose special inputs have the results named. -/
def Finished (mode : Mode) (act out : Nat) (bias : Option Nat) (a n : Nat) (fl : Flags) : Prop :=
  ∃ y z f1 f2 f3, fl = f1 ||| f2 ||| f3 ∧
    (match bias with | none => y = a ∧ f1 = 0 | some b => Sums mode a b y f1) ∧
    (match act with
     | 0 => z = y ∧ f2 = 0
     | 1 => f2 = 0 ∧ z = if (numOf fp32 y).isNan then fp32.nanBits
         else if (numOf fp32 y).neg = true ∨ numQ (numOf fp32 y) = some 0 then 0 else y
     | 2 => (z, f2) = deliverFn fp32 mode 0 0 (tanhV (numOf fp32 y))
     | _ => (z, f2) = deliverFn fp32 mode 0 0 (siluV (numOf fp32 y)) ∧
         (∀ g, y = fp32.signed g 0 → z = y ∧ f2 = 0) ∧ (y = fp32.infBits → z = y) ∧
         (y = fp32.signed true fp32.infBits → z = fp32.signed true 0) ∧ ((numOf fp32 y).isNan = true → z = fp32.nanBits)) ∧
    match out with
    | 0 => n = z ∧ f3 = 0
    | 1 => Narrows fp16 mode z n f3
    | 2 => Narrows bf16 mode z n f3
    | _ => Bytes8 mode z n f3

/-- The element of `n` bytes at place `i` of a list of bytes. -/
def elementAt (bs : List Byte) (n i : Nat) : Nat := ofBytes ((bs.drop (n * i)).take n)

/-- R294: the member that follows a workgroup in ring order: the next higher one, or the lowest. -/
def follows (members : List Nat) (wg h : Nat) : Prop :=
  h ∈ members ∧ ((wg < h ∧ ∀ x ∈ members, wg < x → h ≤ x) ∨ ((∀ x ∈ members, x ≤ wg) ∧ ∀ x ∈ members, h ≤ x))

end Sys2Proof.Claims


/-- R109, R284, R285: the passes over all pairs of magnitude planes of two formats add up to the block dot product of the 32
stored elements, read as plane integers. -/
def Obligations.BlockDotProduct : Prop :=
  ∀ ca cb, ca < 0x14 → cb < 0x14 → ∀ a b : Nat → Nat,
    let fa := planeFmt ca
    let fb := planeFmt cb
    (∀ i, i < 32 → a i < 2 ^ fa.bits ∧ b i < 2 ^ fb.bits) →
    ((List.range fa.rate).map fun ja => ((List.range fb.rate).map fun jb =>
        pairSum (fa.weight ja) (fb.weight jb) (maskWords fa ja (planeWord fa a)) (maskWords fb jb (planeWord fb b))).sum).sum =
      ((List.range 32).map fun i => fa.value (a i) * fb.value (b i)).sum

/-- R279, R288: an engine command of a detached warp faults SYNC.DETACHED; one whose checks fail faults in their order; else it
enters its queues when each has room, after those that came before it, its token pending, and waits until then, with no check
made again. Which waiting commands are passed over is the model's choice of log 87. -/
def Sys2Proof.Claims.EngineCommands : Prop :=
  ∀ e ∈ engines, ∀ (o : FmtE) (s : State) (sh : Shape) (r c : Cur) (k : Pack) (p : Party), Ready {} (e.1 o) s sh r c k p →
    let x := engCmdOf o e.2.1 e.2.2 s.idle c
    let enters (a : State) (x : EngCmd) : Prop := CompletesIn (e.1 o) s c
      ((a.modCluster k.cluster fun y => { y with cmds := y.cmds ++ [x], arrivals := y.arrivals.filter fun z => z.1.id != x.id }).modParty
        c.pack c.who fun q => { q with pending := q.pending ||| BitVec.twoPow 64 x.token }) noDeposit
    (∀ y, c.again = true → s.arrived k.cluster c.pack c.who c.lanes = some y →
      (s.engRoom k y = true → ¬ Overtakes s k y → enters s.idle y) ∧
      (s.engRoom k y = false ∨ Overtakes s k y → exec (e.1 o) s = .next s.idle)) ∧
    (c.again = false → p.detached = true → exec (e.1 o) s = .next (takeFault s.idle c (trapOf 0x12 1 c.lanes))) ∧
    (c.again = false → p.detached = false →
      (pkBaton k.packet = true → ¬ holdsBaton k c.who →
        exec (e.1 o) s = .next (takeFault s.idle c (trapOf 0x11 2 c.lanes))) ∧
      (pkBaton k.packet = true → holdsBaton k c.who → e.2.2 = true →
        exec (e.1 o) s = .next (takeFault s.idle c (trapOf 0x11 3 c.lanes))) ∧
      (engSync k c.who e.2.2 = none →
        (∀ code sub off, engCheck k x = some (code, sub, off) →
          exec (e.1 o) s = .next (takeFault s.idle c { trapOf code sub c.lanes with addr := u64 off })) ∧
        (engCheck k x = none →
          let a := { s.idle with nextId := s.nextId + 1 }
          (s.engRoom k x = true → ¬ Overtakes s k x → enters a x) ∧
          (s.engRoom k x = false ∨ Overtakes s k x → exec (e.1 o) s = .next
            ((a.modCluster k.cluster fun y => { y with arrivals := y.arrivals ++ [(x, c.lanes)] }).enterWait c)))))

/-- R282, R288: what the checks of step 6 let through: every region is aligned to 128 bytes, the target workgroups exist on
different cores, and every region lies in the scratchpads. -/
def Sys2Proof.Claims.EngineRegions : Prop :=
  ∀ (k : Pack) (x : EngCmd), engCheck k x = none →
    (∀ g ∈ x.regions, g.off % 128 = 0) ∧ x.wgs ≠ [] ∧ (∀ g ∈ x.wgs, g < pkGroups k.packet) ∧
      (x.wgs.map fun g => (k.cores[g]?).getD 0).Nodup ∧
      ∀ g ∈ x.regions, ∀ w ∈ (if g.home then [x.home] else x.wgs), ∃ y : Nat,
        y = ((cget k.spads w).map (·.size)).getD 0 ∧ g.off + g.len ≤ y

/-- R283 to R286, R291 to R293, R408: a step of the command at the head of its engines' queues: with an uncorrectable operand
the command is marked and nothing is written; else each target scratchpad receives the step's bytes in the step's output
region, no other byte of any scratchpad or of memory and nothing else of the package changes, and the step, its flags and the
counter go on. -/
def Sys2Proof.Claims.EngineSteps : Prop :=
  ∀ e ∈ engineSteps, ∀ (s : State) (k : Pack) (cl core : Nat) (x : EngCmd), MayStep s k cl core e.2 x →
    (x.uncOperand k = true → ∃ t, exec (e.1 cl core) s = .next t ∧ t.packs = s.packs ∧
      ∀ y ∈ (t.cluster cl).cmds, y.id = x.id → y = { x with uncorr := true }) ∧
    (x.uncOperand k = false → ∃ t, exec (e.1 cl core) s = .next t ∧ StepOnly s t cl k x ∧
      (∀ home, s.spad x.pack x.home = some home → ∀ y ∈ (t.cluster cl).cmds, y.id = x.id →
        y = { x with next := x.next + 1, fx := (x.wgs.filterMap fun g => s.spad x.pack g).foldl (fun fl tgt =>
          fl ||| (x.stepBytes tgt home x.next).2) x.fx }) ∧
      rd 0 (t.cluster cl).counters 6 = rd 0 (s.cluster cl).counters 6 + u64 x.wgs.length ∧
      ∀ g tgt home, g ∈ x.wgs → s.spad x.pack g = some tgt → s.spad x.pack x.home = some home →
        ∃ z w, t.spad x.pack g = some z ∧ { z with bytes := tgt.bytes, bad := tgt.bad, corr := tgt.corr } = tgt ∧ (x.use x.next).writes = [w] ∧ w.home = false ∧
          ∀ f, rd 0 z.bytes f =
            if w.off ≤ f ∧ f < w.off + w.len then ((x.stepBytes tgt home x.next).1[f - w.off]?).getD 0 else rd 0 tgt.bytes f)

/-- R110, R112, R284, R285, R291 to R293: the bytes of a step. MPLANE's step adds C of its slab and its two planes to every
partial sum, or starts it, modulo its width; rows beyond the height have C = 0. MSCALE's step b performs one iteration of R112 on every element (r, c) of
the accumulator tile, with the partial sum, the two scales and the offsets of block b. MEPIL's step r gives every element of
row r its bias, activation and format. MZERO's bytes are zeros, and it raises nothing. The flags of a step are those of all its
elements together. That TANH and SILU of MEPIL are the functions that it uses is the model's choice (log 31), and so is the
NaN of an accumulator (log 63). -/
def Sys2Proof.Claims.EngineBytes : Prop :=
  ∀ (x : EngCmd) (tgt home : Spad) (st : Nat),
    let bs := (x.stepBytes tgt home st).1
    let fl := (x.stepBytes tgt home st).2
    (x.op = .mzero → bs = List.replicate 2048 0 ∧ fl = 0) ∧
    (x.op = .mplane → bs.length = 32768 * x.e ∧ fl = 0 ∧
      let ra := x.fa.rate
      let rb := x.fb.rate
      let sl := st / (ra * rb)
      let ja := st % (ra * rb) / rb
      let jb := st % rb
      ∀ r c j, r < 128 → c < 64 → j < 4 →
        let wordA (pl : Nat) := tgt.readNat (x.off1 + (sl * x.fa.planes + pl) * (16 * x.height) + 16 * r + 4 * j) 4
        let wordB (pl : Nat) := home.readNat (x.off1h + (sl * x.fb.planes + pl) * 1024 + 16 * c + 4 * j) 4
        let new : Int := if x.height ≤ r then 0
          else pairSum (x.fa.weight ja) (x.fb.weight jb) (maskWords x.fa ja wordA) (maskWords x.fb jb wordB)
        let old : Int := if ja = 0 ∧ jb = 0 ∧ x.acc = false then 0
          else tgt.readNat (x.off2 + sl * 32768 * x.e + ((r * 64 + c) * 4 + j) * x.e) x.e
        (elementAt bs x.e ((r * 64 + c) * 4 + j) : Int) = (new + old) % (2 ^ (8 * x.e) : Nat)) ∧
    (x.op = .mscale → bs.length = 32768 ∧ ∃ f : Nat → Flags,
      fl = (List.range 8192).foldl (fun a i => a ||| f i) 0 ∧
      ∀ r c, r < 128 → c < 64 →
        let ps := tgt.readNat (x.off1 + st / 4 * 32768 * x.e + ((r * 64 + c) * 4 + st % 4) * x.e) x.e
        Rescales x.mode (x.fa.off + x.fb.off) (tgt.readNat (x.off1h + 4 * (r * 64 + c)) 4) (signedOf (8 * x.e) ps)
          (tgt.readNat (x.off2 + (r * (4 * x.slabs) + st) * 2) 2 % 1024)
          (tgt.readNat (x.off2h + (c * (4 * x.slabs) + st) * 2) 2 % 1024)
          (elementAt bs 4 (r * 64 + c)) (f (r * 64 + c))) ∧
    (x.op = .mepil → bs.length = 64 * outBytes x.out ∧ ∃ f : Nat → Flags,
      fl = (List.range 64).foldl (fun a i => a ||| f i) 0 ∧
      ∀ c, c < 64 →
        let bias := match x.bias with
          | 0 => none
          | 1 => some (tgt.readNat (x.off2 + 4 * c) 4)
          | _ => some (tgt.readNat (x.off2 + 4 * st) 4)
        Finished x.mode x.act x.out bias (tgt.readNat (x.off1 + 256 * st + 4 * c) 4) (elementAt bs (outBytes x.out) c) (f c))

/-- R283, R287, R297: the command at the head of its engines' queues completes when its last step is done or when it has met
an uncorrectable operand, and a discarded one wherever it stands: its token receives the steps done, the exceptions and the
code, with every other bit 0. -/
def Sys2Proof.Claims.EngineCompletion : Prop :=
  ∀ (s : State) (k : Pack) (cl core : Nat) (x : EngCmd) (p : Party),
    ((s.queue cl core).find? (·.discard) = some x ∨
      ((s.queue cl core).find? (·.discard) = none ∧ (∃ k, s.headCmd cl core = some (k, x)) ∧ x.discard = false ∧
        (x.uncorr = true ∨ x.steps ≤ x.next))) →
    s.pack x.pack = some k → k.state ≠ .retired → s.party x.pack x.who = some p → p.life = .running → x.token < 64 →
    ∃ t q w, exec (.engineCommandCompletion cl core) s = .next t ∧ t.mem = s.mem ∧
      (∀ y ∈ (t.cluster cl).cmds, y.id ≠ x.id) ∧ t.party x.pack x.who = some q ∧ q.regs.readS x.token = w ∧
      q.pending.getLsbD x.token = false ∧ w.extractLsb' 35 5 = x.fx ∧
      (w.extractLsb' 16 16).toNat = x.next % 65536 ∧ w.extractLsb' 8 8 = 0#8 ∧ w.extractLsb' 32 3 = 0#3 ∧ w.extractLsb' 40 24 = 0#24 ∧
      (w.extractLsb' 0 8).toNat = (if x.discard then 6 else if x.uncorr then 5 else 0)

/-- R294 to R296: BTAKE of the holder takes the baton, of another workgroup of the ring waits, and BPASS hands it to the next
member; without a baton both say FREE; in a detached warp both fault SYNC.DETACHED. The waiting BTAKEs of the workgroup that becomes the holder are served at once, the
first with TAKEN and the others with HELD, and complete with what they are given.
It rests on log 37, the model's own reading. -/
def Sys2Proof.Claims.Batons : Prop :=
  (∀ (o : FmtE) (s : State) (sh : Shape) (r c : Cur) (k : Pack) (p : Party), ∀ i ∈ [Instr.btake o, .bpass o],
    Ready {} i s sh r c k p → p.detached = true → exec i s = .next (takeFault s.idle c (trapOf 0x12 1 c.lanes))) ∧
  (∀ (o : FmtE) (s : State) (sh : Shape) (r c : Cur) (k : Pack) (p : Party), p.detached = false →
    let core := (k.cores[c.who / 16]?).getD 0
    let ring := cget k.batons core
    let set (b : Baton) : State := s.idle.setPack c.pack { k with batons := cset k.batons core b }
    (Ready {} (.btake o) s sh r c k p →
      let give (a : State) (x : Word64) : Prop := CompletesIn (.btake o) s c (giveS a c o.token false x) noDeposit
      (∀ vals, c.again = true → s.servedFor c = some vals → give s.idle ((vals.head?).getD 0)) ∧
      (c.again = false →
        (ring = none → give s.idle 2) ∧
        ∀ b, ring = some b →
          (b.holder = c.who / 16 → give (set { b with taken := true }) (u64 (b.holder % 8 * 2 ^ 8 + if b.taken then 1 else 0))) ∧
          (b.holder ≠ c.who / 16 →
            exec (.btake o) s = .next ((set { b with waits := b.waits ++ [(c.who, c.lanes)] }).enterWait c)))) ∧
    (Ready {} (.bpass o) s sh r c k p →
      let give (a : State) (x : Word64) : Prop := CompletesIn (.bpass o) s c (giveS a c o.token false x) noDeposit
      (ring = none → give s.idle 2) ∧
      ∀ b, ring = some b →
        (b.holder ≠ c.who / 16 → exec (.bpass o) s = .next (takeFault s.idle c (trapOf 0x11 2 c.lanes))) ∧
        (b.holder = c.who / 16 → b.members.length ≤ 1 →
          give (set { b with taken := false }) (u64 (b.holder % 8 * 2 ^ 8 + 3))) ∧
        (b.holder = c.who / 16 → 1 < b.members.length → b.members.Pairwise (· < ·) → ∀ h, follows b.members b.holder h →
          let mine := b.waits.filter fun (x : Nat × Lanes) => x.1 / 16 == h
          give (mine.zipIdx.foldl (fun (a : State) x => a.modParty c.pack x.1.1 fun q =>
              q.serve x.1.2 [u64 (h % 8 * 2 ^ 8 + if x.2 = 0 then 0 else 1)])
            (set { b with holder := h, taken := !mine.isEmpty, waits := b.waits.filter fun (x : Nat × Lanes) => x.1 / 16 != h }))
            (u64 (h % 8 * 2 ^ 8))))) ∧
  ∀ (s : State) (u who : Nat) (k : Pack) (b : Baton) (x : Nat × Lanes), s.pack u = some k →
    cget k.batons ((k.cores[who / 16]?).getD 0) = some b → (b.waits.find? fun y => y.1 == who) = some x →
    b.holder = who / 16 →
    let b' : Baton := { b with waits := b.waits.erase x, taken := true }
    exec (.btakeService u who) s =
      .next ((s.setPack u { k with batons := cset k.batons ((k.cores[who / 16]?).getD 0) b' }).modParty u who fun p =>
        p.serve x.2 [u64 (b.holder % 8 * 2 ^ 8 + if b.taken then 1 else 0)])


/-! ### Launches, tasks and FIFO banks (spec/11) -/

namespace Sys2Proof.Claims
open Sys2Proof.Machine

/-- R312: the 64 bits of a source of format E, and the token written at once. -/
def field64 (s : State) (c : Cur) (x : Src) : Word64 := u64 (word .w64 s c none x)
def Tokens (i : Instr) (o : FmtE) (s : State) (c : Cur) (a : State) (x : Nat) : Prop :=
  CompletesIn i s c (giveS a c o.token false (u64 x)) noDeposit
/-- One access of `n` bytes passes at the address of source 1; `a` is the state after its translation. -/
def Reaches1 (o : FmtE) (n : Nat) (acc : Acc) (s : State) (c : Cur) (a : State) (pa : Nat) : Prop :=
  access s.idle (s.asker c) (field64 s c o.s1) n acc .near = (a, .ok pa)
/-- R316: the line of `n` bytes at that address is probed for read and for write. -/
def Probed1 (o : FmtE) (n : Nat) (s : State) (c : Cur) (a : State) (pa : Nat) : Prop :=
  ∃ b q, access s.idle (s.asker c) (field64 s c o.s1) n .probeRead .nothing = (b, .ok q) ∧
    access b (s.asker c) (field64 s c o.s1) n .probeWrite .nothing = (a, .ok pa)
/-- What a reader's cluster does to the caches when it reads (R204, R209). -/
def readHere (a : State) (cl pa n : Nat) : State := a.readBy cl pa n Alloc.both

/-- R307: pack `i` of a launch requires producer pack `q`. -/
def Required (w : BitVec 1024) (i q : Nat) : Prop :=
  let c : Int := (i % pkExt w 0 : Nat)
  let q3 : Int := (q % pkPe3 w : Nat)
  match pkMap w with
  | 0 => False
  | 1 => q = i
  | 2 => q3 = c
  | 3 => q3 - c ≤ (pkWin w : Nat) ∧ c - q3 ≤ (pkWin w : Nat) ∧ q / pkPe3 w = i / pkExt w 0
  | _ => True
/-- R307: every producer pack that a pack requires has its bit set in the producer launch's bitmap. -/
def ProducersDone (s : State) (k : Pack) : Prop :=
  ∀ q, q < pkPn k.packet → Required k.packet k.num q → ∃ pa e,
    look s (askerDie k.ctx k.die) ((pkPbmap k.packet).toNat + 8 * (q / 64)) = .ok pa e ∧
      (s.byteAt (pa + q % 64 / 8)).getLsbD (q % 8)

/-- R308, R310: the cluster has a task bank and room in its queue. -/
def HasRoom (s : State) (cl : Nat) : Prop := (s.cluster cl).taskBank ≠ none ∧ (s.cluster cl).tasks.length < 2048
def roomLeft (s : State) (cl : Nat) : Bool := (s.cluster cl).taskBank.isNone || decide ((s.cluster cl).tasks.length < 2048)
/-- R310: the cluster of die `d` whose task queue has the most free record slots, the lowest among equals. -/
structure Roomiest (s : State) (d cl : Nat) : Prop where
  die : cl / 12 = d
  room : HasRoom s cl
  most : ∀ x, x / 12 = d → HasRoom s x → (s.cluster cl).tasks.length < (s.cluster x).tasks.length ∨
    ((s.cluster cl).tasks.length = (s.cluster x).tasks.length ∧ cl ≤ x)

/-- R310: a record enters the queue of a cluster; one that is full by it has to gain room anew. -/
def taskIn (a : State) (cl : Nat) (t : Task) : State :=
  let b := a.modCluster cl fun y => { y with tasks := y.tasks ++ [t] }
  if roomLeft b cl then b else b.modDie (cl / 12) fun y => { y with gained := y.gained.filter (· != cl) }
/-- R309: a record that a TASKD at a level takes: its context and shape, and MIG on another die. -/
def suits (ctx shape lv : Nat) (t : Task) : Prop :=
  t.ctx = ctx ∧ t.shape = shape ∧ (2 ≤ lv → t.mig = true)

/-- The scratchpad of the issuing warp takes `n` bytes at an offset aligned to `al`. -/
structure PadTakes (s : State) (c : Cur) (p : Party) (x : Spad) (off n al : Nat) : Prop where
  attached : p.detached = false
  pad : s.spad c.pack (c.who / 16) = some x
  aligned : off % al = 0
  inside : off + n ≤ x.size
/-- Bytes written into the scratchpad of the issuing warp, and nothing else of it. -/
def padWritten (x z : Spad) (off : Nat) (bs : List Byte) : Prop :=
  { z with bytes := x.bytes, bad := x.bad, corr := x.corr } = x ∧
    ∀ f, rd 0 z.bytes f = if off ≤ f ∧ f < off + bs.length then (bs[f - off]?).getD 0 else rd 0 x.bytes f

/-- R317, R318: an element for each executing lane, in lane order. -/
def fifoLanes (o : FmtA) (c : Cur) : List (Option Nat) := lanesFor (formOf o.dst) c.active
def fifoBank (o : FmtA) (s : State) (c : Cur) : Nat := word .w32 s c none o.a % 32
/-- Nothing but a bank's elements and the issuing party's registers changes. -/
structure FifoOnly (c : Cur) (s t : State) (p q : Party) (n b : Nat) (x : Bank) (elems : List (BitVec 128)) : Prop where
  mem : t.mem = s.mem
  bank : (t.cluster n).bank b = { x with elems := elems }
  others : ∀ j, j ≠ b → (t.cluster n).bank j = (s.cluster n).bank j
  clusters : ∀ m, m ≠ n → { t.cluster m with counters := (s.cluster m).counters, lineCount := (s.cluster m).lineCount } = s.cluster m
  fixed : Fixed p.regs q.regs
  flags : q.regs.fpflags = p.regs.fpflags
/-- R72, R317: the latch after FDEQ: the low half of the element that the lane took, or INVALID. Which of the two is free
(log 60). -/
def taken (o : FmtA) (c : Cur) (x : Bank) (l : Nat) : Latch :=
  if Config.fdeqDeposits = false then .invalid
  else
    let own := formOf o.dst == .lane
    match x.elems[(fifoLanes o c).idxOf (if own then some l else none)]? with
    | none => .invalid
    | some e =>
      if !own then .uniform true (e.extractLsb' 0 64)
      else if c.active.getLsbD l then .lane true (e.extractLsb' 0 64) else .invalid

end Sys2Proof.Claims


/-- R303, R312, R313: LAUNCH reads its packet; a packet that fails a check gives its status; one that passes, and whose pages
are there, makes a launch, whose identifier is in the token, or waits for room in the queues of its dies.
It rests on log 38, the model's own reading. -/
def Sys2Proof.Claims.Launches : Prop :=
  ∀ (o : FmtE) (s a : State) (sh : Shape) (r c : Cur) (k : Pack) (p : Party) (pa : Nat), Ready {} (.launch o) s sh r c k p →
    c.again = false → Reaches1 o 128 .read s c a pa →
    let b := readHere a p.place.cluster pa 128
    let w : BitVec 1024 := BitVec.ofNat 1024 (a.readNat pa 128)
    let d := p.place.cluster / 12
    (∀ e, launchCode b d (pkOwner k.packet) w = some e → Tokens (.launch o) o s c b e) ∧
    (launchCode b d (pkOwner k.packet) w = none → ∀ x, launchProbe (s.asker c) w b = (x, none) →
      (x.launchRoom d w = true → ∀ t id, x.createLaunch d k.ctx (min (pkPrio w) k.prio) w = (t, id) →
        Tokens (.launch o) o s c t (id * 2 ^ 32)) ∧
      (x.launchRoom d w = false → exec (.launch o) s =
        .next ((x.enterWait c).keep c ((List.range 16).map fun i => u64 (a.readNat (pa + 8 * i) 8)))))

/-- R303: the statuses of a packet, in their order: the first whose condition holds.
It rests on log 15, the model's own reading. -/
def Sys2Proof.Claims.LaunchChecks : Prop :=
  ∀ (s : State) (d : Nat) (right : Bool) (w : BitVec 1024),
    let checks : List (Bool × Nat) :=
      [(badShape s d w, 0x10), (badWidths w, 0x11), (badCounts w, 0x12), (badField w, 0x13), (pkOwner w && !right, 0x14),
       (pkDiemask w != 0 && (launchDies d w).any (fun e => (s.die e).status != .online), 0x15)]
    (∀ n, n < 6 → (checks[n]?).map (·.1) = some true → (∀ j, j < n → (checks[j]?).map (·.1) = some false) →
      launchCode s d right w = (checks[n]?).map (·.2)) ∧
    ((∀ j, j < 6 → (checks[j]?).map (·.1) = some false) → launchCode s d right w = none ∧
      (pkWidths w).foldl (· + ·) 0 ≤ 64 ∧ pkWarps w ≤ 2 ^ field w 0x14 0 3 ∧ pkGroups w ≤ 2 ^ field w 0x14 3 2 ∧
      0 < packCount w ∧ packCount w ≤ 2 ^ 24 ∧ pkWarp w ≠ 0)

/-- R299, R302, R307, R313: a launch gets the next identifier of its die and a pack for each coordinate, on the dies of its mask in
turn, PLACEABLE when the producers it requires are done, else WAITING. -/
def Sys2Proof.Claims.LaunchCreation : Prop :=
  ∀ (s t : State) (d ctx prio id : Nat) (w : BitVec 1024), s.createLaunch d ctx prio w = (t, id) →
    (∀ e ∈ s.packs, e.1 < s.nextPack) →
    id = d * 2 ^ 29 + ((s.die d).launchCount + 1) % 2 ^ 29 ∧ t.mem = s.mem ∧
    cget t.launches id = some { ctx, packet := w, next := packCount w, left := packCount w, killed := 0, broken := false } ∧
    t.nextPack = s.nextPack + packCount w ∧
    (∀ i, i < packCount w → ∃ q, t.pack (s.nextPack + i) = some q ∧ q.launch = id ∧ q.num = i ∧ q.ctx = ctx ∧ q.packet = w ∧
      q.prio = prio ∧ some q.die = (launchDies d w)[i % (launchDies d w).length]? ∧ q.parties = [] ∧
      (ProducersDone s q → q.state = .placeable) ∧ (¬ ProducersDone s q → q.state = .waiting)) ∧
    ∀ u q, s.pack u = some q → ∃ q', t.pack u = some q' ∧ { q' with state := q.state } = q ∧
      (q'.state = q.state ∨ (q.state = .waiting ∧ q'.state = .placeable))

/-- R310, R314, R316: TASKQ puts a record into the queue of its cluster, or says FULL or NOQ. TDONE of address 0 gives 3; of a
count above 1 it takes one off; at 1 it writes 0, and the successor's record goes into the roomiest queue of the counter's
home die, or, where none has room, asks for room in the die's spill list; at 0 or below it gives 2. -/
def Sys2Proof.Claims.TaskQueues : Prop :=
  ∀ (o : FmtE) (s a : State) (sh : Shape) (r c : Cur) (k : Pack) (p : Party) (pa : Nat),
    (Ready {} (.taskq o) s sh r c k p → Reaches1 o 64 .read s c a pa →
      let n := p.place.cluster
      let b := readHere a n pa 64
      let x := a.cluster n
      let t : Task := { ctx := k.ctx, record := BitVec.ofNat 512 (a.readNat pa 64) }
      (x.taskBank = none → Tokens (.taskq o) o s c b 2) ∧
      (x.taskBank ≠ none → 2048 ≤ x.tasks.length → Tokens (.taskq o) o s c b 1) ∧
      (x.taskBank ≠ none → x.tasks.length < 2048 →
        Tokens (.taskq o) o s c (taskIn b n t) 0)) ∧
    (Ready {} (.tdone o) s sh r c k p →
      (field64 s c o.s1 = 0 → Tokens (.tdone o) o s c s.idle 3) ∧
      (field64 s c o.s1 ≠ 0 → Probed1 o 128 s c a pa →
        (a.uncAt pa 8 = true → exec (.tdone o) s = .next (takeFault a c { trapOf 0x0F 0 c.lanes with addr := field64 s c o.s1 })) ∧
        (a.uncAt pa 8 = false →
          let b := a.correct pa 8
          let old := u64 (a.readNat pa 8)
          (1 < old.toInt → Tokens (.tdone o) o s c (b.writeHome pa (bytesOf 8 (old.toNat - 1))) 0) ∧
          (old = 1 →
            let e := (b.correct (pa + 64) 64).writeHome pa (bytesOf 8 0)
            let d := (a.homeDie pa).getD (p.place.cluster / 12)
            let t : Task := { ctx := k.ctx, record := BitVec.ofNat 512 (a.readNat (pa + 64) 64) }
            (∀ cl, Roomiest e d cl → Tokens (.tdone o) o s c (taskIn e cl t) 1) ∧
            ((∀ cl, cl / 12 = d → ¬ HasRoom e cl) → Tokens (.tdone o) o s c
              (e.modDie d fun y => { y with
                spillWait := y.spillWait ++ [t], gained := if y.spill = [] ∧ y.spillWait = [] then [] else y.gained }) 1)) ∧
          (old.toInt ≤ 0 → Tokens (.tdone o) o s c (b.recall (pa / 128)) 2))))

/-- R309, R315: TASKD takes the oldest record of the highest priority that suits, from the nearest cluster that has one, and
its 64 bytes stand in the scratchpad; with none it gives NONE, and it waits while its destination has an EMPTY line.
It rests on log 39, the model's own reading. -/
def Sys2Proof.Claims.TaskTaking : Prop :=
  ∀ (o : FmtE) (s : State) (sh : Shape) (r c : Cur) (k : Pack) (p : Party) (x : Spad), Ready {} (.taskd o) s sh r c k p →
    let off := (field64 s c o.s1).toNat % 2 ^ 32
    let order := searchOrder p.place.cluster o.dir
    let shape := pkWarps k.packet - 1
    PadTakes s c p x off 64 64 →
    ((∀ e ∈ order, ∀ t ∈ (s.cluster e.2).tasks, ¬ suits k.ctx shape e.1 t) → Tokens (.taskd o) o s c s.idle 1) ∧
    ∀ before lv cl after t pre post, order = before ++ (lv, cl) :: after →
      (∀ e ∈ before, ∀ y ∈ (s.cluster e.2).tasks, ¬ suits k.ctx shape e.1 y) →
      (s.cluster cl).tasks = pre ++ t :: post → suits k.ctx shape lv t →
      (∀ y ∈ pre, suits k.ctx shape lv y → y.prio < t.prio) → (∀ y ∈ post, suits k.ctx shape lv y → y.prio ≤ t.prio) →
      (x.emptyAt off 64 = true → exec (.taskd o) s = .next (s.idle.enterWait c)) ∧
      (x.emptyAt off 64 = false → ∃ a z, Tokens (.taskd o) o s c a (cl / 12 * 2 ^ 24 + cl % 12 * 2 ^ 16 + lv * 2 ^ 8) ∧
        a.mem = s.mem ∧ (a.cluster cl).tasks = pre ++ post ∧ a.spad c.pack (c.who / 16) = some z ∧
        padWritten x z off (bytesOf 64 t.record.toNat))

/-- R310: the oldest record in the spill list of a die moves to the first queue that has gained room and has it still. A
record that asks for memory enters the list when the firmware gives some, and else its context is terminated with KILL.
It rests on log 40, the model's own reading. -/
def Sys2Proof.Claims.SpilledTasks : Prop :=
  (∀ (s : State) (d cl : Nat) (t : Task) (rest : List Task) (pre post : List Nat), (s.die d).spillWait = [] →
    (s.die d).spill = t :: rest → (s.die d).gained = pre ++ cl :: post → (∀ x ∈ pre, ¬ HasRoom s x) → HasRoom s cl →
    ∃ a, exec (.spillMove d) s = .next a ∧ (a.die d).spill = rest ∧ a.mem = s.mem ∧
      (a.cluster cl).tasks = (s.cluster cl).tasks ++ [t] ∧ ∀ n, n ≠ cl → a.cluster n = s.cluster n) ∧
  ∀ (s : State) (d : Nat) (t : Task) (rest : List Task), (s.die d).spillWait = t :: rest →
    let b := s.setDie d { s.die d with spillWait := rest }
    (Config.spillMemory d (s.die d).spill.length = true → ∃ a, exec (.spillMove d) s = .next a ∧
      (a.die d).spill = (s.die d).spill ++ [t] ∧ (a.die d).spillWait = rest ∧ a.mem = s.mem ∧ a.packs = s.packs) ∧
    (Config.spillMemory d (s.die d).spill.length = false → exec (.spillMove d) s = .next (b.terminate t.ctx 1))

/-- R317, R318: FENQ appends, and FDEQ takes, one element for each executing lane in lane order; its predicate says which
succeeded. What FDEQ leaves in the latch is free (log 60). With W, both wait until all can. A bank that is no FIFO gives false; one that the pack may not use faults
MEM.PERM, and a detached warp SYNC.DETACHED. -/
def Sys2Proof.Claims.FifoBanks : Prop :=
  ∀ (o : FmtA) (s : State) (sh : Shape) (r c : Cur) (k : Pack) (p : Party),
    (p.detached = true → ∀ i ∈ [Instr.fenq o, .fdeq o], Ready {} i s sh r c k p →
      exec i s = .next (takeFault s.idle c (trapOf 0x12 1 c.active))) ∧ (p.detached = false →
    let n := p.place.cluster
    let b := fifoBank o s c
    let x := (s.cluster n).bank b
    let ls := fifoLanes o c
    let form := formOf o.dst
    let allowed := (pkFifomask k.packet).testBit b = true ∧ (s.cluster n).taskBank ≠ some b
    (∀ i ∈ [Instr.fenq o, .fdeq o], Ready {} i s sh r c k p →
      (¬ allowed ∨ (x.mode = .fifo ∧ x.bound ≠ some k.ctx) → exec i s = .next (takeFault s.idle c (trapOf 0x0C 5 c.active))) ∧
      (allowed → x.mode ≠ .fifo → Completes i s c k p (PredResult c form o.ext17 fun _ => (false, 0)))) ∧
    (allowed → x.mode = .fifo → x.bound = some k.ctx →
      (Ready {} (.fenq o) s sh r c k p →
        (o.ext.getLsbD 0 = true → 8192 < x.elems.length + ls.length → x.elems.length ≤ 8192 →
          exec (.fenq o) s = .next (s.idle.enterWait c)) ∧
        (o.ext.getLsbD 0 = false ∨ x.elems.length + ls.length ≤ 8192 → x.elems.length ≤ 8192 →
          ∃ t q, exec (.fenq o) s = .next t ∧ t.party c.pack c.who = some q ∧ Advances c p q ∧ ValuesKept p.regs q.regs ∧
            Latched c p.regs q.regs noDeposit ∧ FifoOnly c s t p q n b x (x.elems ++ (ls.map fun l =>
              BitVec.ofNat 128 (readSrc s c none .w128 l o.b)).take (8192 - x.elems.length)) ∧
            Predicated c p.regs q.regs form o.ext17 fun l => decide (x.elems.length + ls.idxOf l < 8192))) ∧
      (Ready {} (.fdeq o) s sh r c k p →
        (o.ext.getLsbD 0 = true → x.elems.length < ls.length → exec (.fdeq o) s = .next (s.idle.enterWait c)) ∧
        (o.ext.getLsbD 0 = false ∨ ls.length ≤ x.elems.length →
          ∃ t q, exec (.fdeq o) s = .next t ∧ t.party c.pack c.who = some q ∧ Advances c p q ∧
            FifoOnly c s t p q n b x (x.elems.drop ls.length) ∧ Latched c p.regs q.regs (taken o c x) ∧
            Predicated c p.regs q.regs form o.ext17 (fun l => decide (ls.idxOf l < x.elems.length)) ∧
            (∀ l ∈ ls, ∀ e, x.elems[ls.idxOf l]? = some e → q.regs.holds none .w128 l o.dst e.toNat) ∧
            (∀ (l : Nat) (m : BitVec 8), some l ∉ ls ∨ x.elems.length ≤ ls.idxOf (some l) ∨ Spec.v m ∉ specCells .w128 o.dst →
              q.regs.readV l m.toNat = p.regs.readV l m.toNat) ∧
            ∀ m : BitVec 6, Spec.s m ∉ specCells .w128 o.dst → q.regs.readS m.toNat = p.regs.readS m.toNat))))


/-! ### Kelpie and service calls (spec/11) -/

namespace Sys2Proof.Claims
open Sys2Proof.Machine

/-- R319: a row's entry, from its last field to its first. -/
def rowEntry (rowp stat : Word64) (seq pos iter : Word32) (pid : BitVec 16) (ctx : BitVec 8) : BitVec 256 :=
  stat ++ 0#8 ++ ctx ++ pid ++ iter ++ pos ++ seq ++ rowp
/-- The OPEN batch of a group. -/
def OpenBatch (x : Die) (key : Nat) (b : Batch) : Prop := x.batches.find? (fun y => y.group == key && y.st == .opened) = some b
/-- R321: a new OPEN batch of a group, with the next number. -/
def opened (x : Die) (key : Nat) : Die :=
  { x with nextBatch := x.nextBatch + 1,
           batches := x.batches ++ [{ number := (x.nextBatch + 1) % 2 ^ 32, group := key, st := .opened, rows := [] }] }
/-- R321: a row is appended; at T rows the batch is READY and a new one starts when a number is free. -/
def posted (x : Die) (key : Nat) (b : Batch) (r : Row) : Die :=
  let full := decide (x.threshold ≤ b.rows.length + 1)
  let b' : Batch := { b with rows := b.rows ++ [r], st := if full then .ready else b.st }
  let y : Die := { x with batches := x.batches.map fun z => if z.number = b.number then b' else z }
  if full = true ∧ y.batches.length < 64 then opened y key else y
/-- The poster that an instruction names, owned by the issuing pack. -/
def Owns (s : State) (d u i : Nat) (q : Poster) : Prop := cget (s.die d).posters i = some q ∧ q.pack = u

/-- R325: the first call of a function that stands in a cluster's ring. -/
def FirstCall (s : State) (cl fn : Nat) (m : SvcCall) : Prop :=
  m.answer = none ∧ m.fn.toNat = fn ∧ ∃ pre post, (s.cluster cl).mailbox = pre ++ m :: post ∧
    ∀ y ∈ pre, y.answer = none → y.fn.toNat ≠ fn
/-- R326: a call has its completion word, which is still to be written. -/
def answered (s : State) (cl : Nat) (m : SvcCall) (w : Word64) : State :=
  s.modCluster cl fun x =>
    { x with mailbox := x.mailbox.map fun y => if y.number = m.number ∧ y.answer = none then { y with answer := some w } else y }
def completion (code detail result : Nat) : Word64 := u64 (result % 2 ^ 32 * 2 ^ 32 + detail % 2 ^ 24 * 256 + code)

/-- R325: a function: its number, the kind of its handle (0: none that the part keeps), its byte count where the
arguments give one, its buffer and the access that is made to it. -/
structure Service where
  fn : Nat
  kind : Nat
  len : SvcCall → Option Nat
  va : SvcCall → Word64
  acc : Acc
def argOf (m : SvcCall) (i : Nat) : Word64 := (m.args[i]?).getD 0
def reads : List Service :=
  [{ fn := 0x0001, kind := 0, len := fun _ => none, va := fun m => argOf m 3, acc := .write },
   { fn := 0x0011, kind := 2, len := fun m => some (argOf m 2).toNat, va := fun m => argOf m 3, acc := .write },
   { fn := 0x0021, kind := 3, len := fun m => some (argOf m 1).toNat, va := fun m => argOf m 2, acc := .write }]
def writes : List Service :=
  [{ fn := 0x0002, kind := 0, len := fun _ => none, va := fun m => argOf m 3, acc := .read },
   { fn := 0x0022, kind := 3, len := fun m => some (argOf m 1).toNat, va := fun m => argOf m 2, acc := .read }]
def opens : List (Service × Nat) :=
  [({ fn := 0x0010, kind := 0, len := fun m => some (argOf m 1).toNat, va := fun m => argOf m 0, acc := .read }, 2),
   ({ fn := 0x0020, kind := 0, len := fun _ => some 16, va := fun m => argOf m 0, acc := .read }, 3)]
def closes : List Service :=
  [{ fn := 0x0012, kind := 2, len := fun _ => some 0, va := fun _ => 0, acc := .read },
   { fn := 0x0023, kind := 3, len := fun _ => some 0, va := fun _ => 0, acc := .read }]
/-- The bytes of its buffer that a call touches: the count of its arguments, or else the answer's. -/
def Service.bytes (e : Service) (m : SvcCall) (reply : ExtReply) : Nat :=
  (e.len m).getD (if e.acc = .read then reply.result.toNat else reply.bytes.length)
def services : List Service := reads ++ writes ++ opens.map (·.1) ++ closes

/-- The event in which the firmware carries out a call of a function. -/
def IsCall (e : Service) (cl : Nat) (reply : ExtReply) (i : Instr) : Prop :=
  (e.fn, i) ∈ [(0x0001, .blkrd cl reply), (0x0002, .blkwr cl reply), (0x0010, .fopen cl reply), (0x0011, .fread cl reply),
    (0x0012, .fclose cl reply), (0x0020, .nconn cl reply), (0x0021, .nread cl reply), (0x0022, .nwrite cl reply),
    (0x0023, .nclose cl reply)]
/-- What the arguments ask for is above 16 MiB: a byte count, or the blocks of a namespace. -/
def TooMuch (e : Service) (m : SvcCall) : Prop :=
  16 * 2 ^ 20 < (e.len m).getD (if e.fn ≤ 2 then (argOf m 2).toNat else 0)
/-- The context does not hold the handle. -/
def Unknown (s : State) (e : Service) (m : SvcCall) : Prop :=
  e.kind ≠ 0 ∧ 4 * (argOf m 0).toNat + e.kind ∉ (s.context m.ctx).handles
/-- Every page of the buffer is there; `b` is the state after its translations. -/
def BufferThere (s : State) (cl : Nat) (e : Service) (m : SvcCall) (n : Nat) (b : State) : Prop :=
  probePieces (askerDie m.ctx (cl / 12)) e.acc (rangePieces (e.va m).toNat n) s = (b, none, false)
/-- The bytes that a call moved are all it asked for, or, when SHORT, fewer. -/
def Moved (e : Service) (m : SvcCall) (reply : ExtReply) (n : Nat) : Prop :=
  match e.len m with
  | some l => (reply.code = 1 ∧ n = l) ∨ (reply.code = 8 ∧ n < l)
  | none => (reply.code = 1 ∨ reply.code = 8) ∧ n ≤ 16 * 2 ^ 20

end Sys2Proof.Claims


/-- R322: BQPOST.JOIN takes a poster entry or says FULL. The others give BADPOSTER for a poster of another pack; .STEP records
an iteration and raises the flag, or is STALE; .LEAVE removes the poster; both may close the group's batch.
It rests on log 40, the model's own reading. -/
def Sys2Proof.Claims.Posters : Prop :=
  ∀ (o : FmtE) (s : State) (sh : Shape) (r c : Cur) (k : Pack) (p : Party),
    let d := p.place.cluster / 12
    let key := s.shareKey k.ctx
    let x1 := (field64 s c o.s1).toNat
    let i := x1 % 64
    let post (f : Cells Poster → Cells Poster) : State := s.idle.modDie d fun x => { x with posters := f x.posters }
    (Ready {} (.bqpostJoin o) s sh r c k p →
      ((∀ j, j < 64 → cget (s.die d).posters j ≠ none) → Tokens (.bqpostJoin o) o s c s.idle 2) ∧
      ∀ j, j < 64 → cget (s.die d).posters j = none → (∀ n, n < j → cget (s.die d).posters n ≠ none) →
        Tokens (.bqpostJoin o) o s c (post fun m => cset m j { ctx := k.ctx, share := (s.context k.ctx).share, pack := c.pack, flag := false, iter := 0 }) (j * 256)) ∧
    (∀ op ∈ [Instr.bqpostRow o, .bqpostStep o, .bqpostLeave o], Ready {} op s sh r c k p → (∀ q, ¬ Owns s d c.pack i q) →
      Tokens op o s c s.idle 3) ∧
    ∀ q, Owns s d c.pack i q →
      (Ready {} (.bqpostStep o) s sh r c k p →
        (x1 / 2 ^ 32 < q.iter.toNat → Tokens (.bqpostStep o) o s c s.idle 4) ∧
        (q.iter.toNat ≤ x1 / 2 ^ 32 → Tokens (.bqpostStep o) o s c
          ((post fun m => cset m i { q with flag := true, iter := BitVec.ofNat 32 (x1 / 2 ^ 32) }).closeBatch d key) 0)) ∧
      (Ready {} (.bqpostLeave o) s sh r c k p →
        Tokens (.bqpostLeave o) o s c ((post fun m => cdel m i).closeBatch d key) 0)

/-- R319 to R322: BQPOST.ROW appends its entry to the OPEN batch of the issuer's group, opens one where there is none, or waits
while no number is free.
It rests on log 40, the model's own reading. -/
def Sys2Proof.Claims.PostedRows : Prop :=
  ∀ (o : FmtE) (s : State) (sh : Shape) (r c : Cur) (k : Pack) (p : Party) (q : Poster), Ready {} (.bqpostRow o) s sh r c k p →
    let d := p.place.cluster / 12
    let key := s.shareKey k.ctx
    let x1 := field64 s c o.s1
    let x2 := field64 s c o.s2
    let x3 := word .w128 s c none o.s3
    Owns s d c.pack (x1.toNat % 64) q → q.ctx < 256 →
    let x := s.die d
    let row : Row := { entry := rowEntry (u64 x3) (u64 (x3 / 2 ^ 64)) (x2.extractLsb' 0 32) (x2.extractLsb' 32 32)
                         (x1.extractLsb' 32 32) ((x1.extractLsb' 0 6).setWidth 16) (BitVec.ofNat 8 q.ctx), reported := false }
    let after (y : Die) (b : Batch) : Prop :=
      Tokens (.bqpostRow o) o s c ((s.idle.setDie d (posted y key b row)).closeBatch d key) (b.number * 2 ^ 32)
    (∀ b, OpenBatch x key b → after x b) ∧
    ((∀ b, ¬ OpenBatch x key b) →
      (x.batches.length < 64 → after (opened x key) { number := (x.nextBatch + 1) % 2 ^ 32, group := key, st := .opened, rows := [] }) ∧
      (64 ≤ x.batches.length → exec (.bqpostRow o) s = .next (s.idle.enterWait c)))

/-- R321: a group's non-empty OPEN batch closes when every registered poster of the group has its flag set, and the flags are
cleared; nothing happens otherwise. -/
def Sys2Proof.Claims.BatchClosing : Prop :=
  ∀ (s : State) (d key : Nat), let t := s.closeBatch d key
    let mine (q : Poster) : Prop := (if q.share = 0 then 256 + q.ctx else q.share) = key
    let due (b : Batch) : Prop := b.group = key ∧ b.st = .opened ∧ b.rows ≠ []
    ((∃ e ∈ (s.die d).posters, mine e.2 ∧ e.2.flag = false) ∨ (∀ b ∈ (s.die d).batches, ¬ due b) → t = s) ∧
    ((∀ e ∈ (s.die d).posters, mine e.2 → e.2.flag = true) → (∃ b ∈ (s.die d).batches, due b) →
      t = s.setDie d (t.die d) ∧ { t.die d with batches := (s.die d).batches, posters := (s.die d).posters } = s.die d ∧
      (t.die d).batches.length = (s.die d).batches.length ∧
      (∀ (n : Nat) (b : Batch), (s.die d).batches[n]? = some b →
        (due b → (t.die d).batches[n]? = some { b with st := .ready }) ∧ (¬ due b → (t.die d).batches[n]? = some b)) ∧
      ∀ (i : Nat) (q : Poster), cget (s.die d).posters i = some q →
        (mine q → cget (t.die d).posters i = some { q with flag := false }) ∧
        (¬ mine q → cget (t.die d).posters i = some q))

/-- R323: BQGET takes the oldest READY batch of the issuer's group, whose rows stand in the scratchpad one behind another; with
none it gives NONE, or waits with W; an offset not aligned to 128 faults.
It rests on log 40, the model's own reading. -/
def Sys2Proof.Claims.BatchTaking : Prop :=
  ∀ (o : FmtE) (s : State) (sh : Shape) (r c : Cur) (k : Pack) (p : Party) (x : Spad), Ready {} (.bqget o) s sh r c k p →
    p.detached = false → s.spad c.pack (c.who / 16) = some x →
    let d := p.place.cluster / 12
    let key := s.shareKey k.ctx
    let off := (field64 s c o.s1).toNat % 2 ^ 32
    let isReady (b : Batch) : Prop := b.group = key ∧ b.st = .ready
    (off % 128 ≠ 0 → exec (.bqget o) s = .next (takeFault s.idle c { trapOf 0x0D 0 c.lanes with addr := u64 off })) ∧
    (off % 128 = 0 →
      ((∀ b ∈ (s.die d).batches, ¬ isReady b) →
        (o.params.getLsbD 24 = true → exec (.bqget o) s = .next (s.idle.enterWait c)) ∧
        (o.params.getLsbD 24 = false → Tokens (.bqget o) o s c s.idle 1)) ∧
      ∀ (pre : List Batch) (b : Batch) (post : List Batch), (s.die d).batches = pre ++ b :: post → isReady b → (∀ y ∈ pre, ¬ isReady y) →
        (x.size < off + 32 * b.rows.length →
          exec (.bqget o) s = .next (takeFault s.idle c { trapOf 0x0E 0 c.lanes with addr := u64 off })) ∧
        (off + 32 * b.rows.length ≤ x.size → x.emptyAt off (32 * b.rows.length) = true →
          exec (.bqget o) s = .next (s.idle.enterWait c)) ∧
        (off + 32 * b.rows.length ≤ x.size → x.emptyAt off (32 * b.rows.length) = false →
          ∃ a z, Tokens (.bqget o) o s c a (b.number * 2 ^ 32 + b.rows.length * 256) ∧ a.mem = s.mem ∧
            a.die d = { s.die d with batches := (s.die d).batches.map fun y => if y.number = b.number then { y with st := .taken } else y } ∧
            a.spad c.pack (c.who / 16) = some z ∧ padWritten x z off (b.rows.flatMap fun w => bytesOf 32 w.entry.toNat)))

/-- R324: BQDONE reports the rows of a TAKEN batch of the issuer's group that its mask names and that are not reported yet; with
the last of them the batch is retired. Kelpie posts a word for each of them. -/
def Sys2Proof.Claims.RowReports : Prop :=
  ∀ (o : FmtE) (s : State) (sh : Shape) (r c : Cur) (k : Pack) (p : Party), Ready {} (.bqdone o) s sh r c k p →
    let d := p.place.cluster / 12
    let key := s.shareKey k.ctx
    let x1 := (field64 s c o.s1).toNat
    let n := x1 % 2 ^ 32
    let first := x1 / 2 ^ 32 % 256
    let v := (field64 s c o.s3).toNat % 2 ^ 32
    let taken (b : Batch) : Prop := b.number = n ∧ b.group = key ∧ b.st = .taken
    let named (i : Nat) : Bool := decide (first ≤ i) && (field64 s c o.s2).getLsbD (i - first)
    ((∀ b ∈ (s.die d).batches, ¬ taken b) → Tokens (.bqdone o) o s c s.idle 1) ∧
    ∀ (pre : List Batch) (b : Batch) (post : List Batch), (s.die d).batches = pre ++ b :: post → taken b → (∀ y ∈ pre, ¬ taken y) →
      ∃ rows new : List Row, rows.length = b.rows.length ∧
        (∀ (i : Nat) (w : Row), b.rows[i]? = some w → rows[i]? = some { w with reported := w.reported || named i }) ∧
        new = ((List.range b.rows.length).filterMap fun i =>
          (b.rows[i]?).bind fun w => if w.reported = false ∧ named i = true then some w else none) ∧
        let after (bs : List Batch) : State := new.foldl (fun a w => a.agentPost d
            { ctx := (w.entry.extractLsb' 176 8).toNat, va := w.entry.extractLsb' 192 64, word := u64 (n * 2 ^ 32 + v), orIn := false })
          (s.idle.modDie d fun x => { x with batches := bs })
        ((∀ w ∈ rows, w.reported = true) → Tokens (.bqdone o) o s c
          (after ((s.die d).batches.filter fun y => y.number != n)) (2 ^ 17 + new.length * 256)) ∧
        ((∃ w ∈ rows, w.reported = false) → Tokens (.bqdone o) o s c
          (after ((s.die d).batches.map fun y => if y.number = n then { b with rows := rows } else y)) (new.length * 256))

/-- R324, R306, R327: a word of a die's agent is written at its address when its page is there and not lost, ORed in where asked; when
the page is not present it waits behind the agent's own fault-queue entry, whose
access is a write, or an atomic where it ORs; Kelpie tries again, and drops what it cannot write. -/
def Sys2Proof.Claims.AgentWords : Prop :=
  (∀ (s a : State) (d : Nat) (x : StatusWrite),
    let asked := translate s (askerDie x.ctx d) x.va.toNat .write
    (∀ pa e, asked = (a, .ok pa e) → a.lost pa = false →
      s.agentPost d x = (if x.orIn then a.correct pa 8 else a).writeHome pa (bytesOf 8 (if x.orIn then u64 (a.readNat pa 8) ||| x.word else x.word).toNat)) ∧
    (∀ pa e, asked = (a, .ok pa e) → a.lost pa = true → s.agentPost d x = a) ∧
    (∀ sub h, asked = (a, .fault 0x0B sub h) →
      s.agentPost d x = (a.agentFault d x.ctx (if x.orIn then 2 else 1) x.va h).modDie d fun y => { y with statusWrites := y.statusWrites ++ [x] })) ∧
  ∀ (s : State) (d : Nat) (pre post : List StatusWrite) (x : StatusWrite), (s.die d).statusWrites = pre ++ x :: post →
    (∀ y ∈ pre, s.asking d y.ctx y.va = true ∧ ∃ a h, s.agentWord d y.ctx y.va y.word y.orIn = (a, .page h)) →
    ∀ a h, (s.agentWord d x.ctx x.va x.word x.orIn = (a, .done) ∨ s.agentWord d x.ctx x.va x.word x.orIn = (a, .dropped) →
        exec (.kelpieStatusWrite d) s = .next (a.modDie d fun y => { y with statusWrites := y.statusWrites.erase x })) ∧
      (s.agentWord d x.ctx x.va x.word x.orIn = (a, .page h) → s.asking d x.ctx x.va = false →
        exec (.kelpieStatusWrite d) s = .next (a.agentFault d x.ctx (if x.orIn then 2 else 1) x.va h))

/-- R325: SVC reads its argument block, probes its completion word, and its call enters the ring of its cluster under the next
number of its die, or waits while 32 calls stand there. -/
def Sys2Proof.Claims.ServiceCalls : Prop :=
  ∀ (o : FmtE) (s a x : State) (sh : Shape) (r c : Cur) (k : Pack) (p : Party) (pa pb : Nat), Ready {} (.svc o) s sh r c k p →
    c.again = false → access s.idle (s.asker c) (field64 s c o.s2) 64 .read .near = (a, .ok pa) →
    let cl := p.place.cluster
    let b := readHere a cl pa 64
    access b (s.asker c) (field64 b c o.s3) 8 .probeWrite .nothing = (x, .ok pb) →
    let args := (List.range 8).map fun i => u64 (a.readNat (pa + 8 * i) 8)
    let waiting := ((x.cluster cl).mailbox.filter fun m => m.answer.isNone).length
    let n := ((x.die (cl / 12)).svcCount + 1) % 2 ^ 32
    (32 ≤ waiting → exec (.svc o) s = .next ((x.enterWait c).keep c args)) ∧
    (waiting < 32 → Tokens (.svc o) o s c ((x.modDie (cl / 12) fun y => { y with svcCount := n }).modCluster cl fun y =>
      { y with mailbox := y.mailbox ++ [{ ctx := k.ctx, number := n, fn := (field64 x c o.s1).setWidth 16, args := args,
                                          done := field64 x c o.s3, answer := none }] }) (n * 2 ^ 32))

/-- R325, R326: the first call of a function in a ring is carried out. A count above 16 MiB is BADARG, a handle that the
context does not hold BADHANDLE, a buffer that is not there FAULT, and FAULT is the answer of no other call; IOERR and BADARG
of the world are passed on. Reads
deliver their bytes, writes count them, opens and closes change the handles of the context, and NOTIFY raises an MSI-X
vector.
It rests on log 41, the model's own reading. -/
def Sys2Proof.Claims.ServiceAnswers : Prop :=
  (∀ e ∈ services, ∀ (s : State) (cl : Nat) (m : SvcCall) (reply : ExtReply) (i : Instr), IsCall e cl reply i →
    FirstCall s cl e.fn m →
    (TooMuch e m → exec i s = .next (answered s cl m (completion 3 0 0))) ∧
    (¬ TooMuch e m → Unknown s e m → exec i s = .next (answered s cl m (completion 4 0 0))) ∧
    (¬ TooMuch e m → ¬ Unknown s e m → reply.code = 2 ∨ reply.code = 3 →
      exec i s = .next (answered s cl m (completion reply.code.toNat reply.detail.toNat 0))) ∧
    (∀ b n, ¬ TooMuch e m → ¬ Unknown s e m → reply.code = 6 → n = Service.bytes e m reply →
      (BufferThere s cl e m n b → exec i s = .fault .notEnabled) ∧
      ∀ f ab, (f ≠ none ∨ ab = true) → probePieces (askerDie m.ctx (cl / 12)) e.acc (rangePieces (e.va m).toNat n) s = (b, f, ab) →
        exec i s = .next (answered b cl m (completion 6 reply.detail.toNat 0))) ∧
    ∀ b' n, ¬ TooMuch e m → ¬ Unknown s e m → reply.code = 1 ∨ reply.code = 8 → n = Service.bytes e m reply →
      (∀ f ab, probePieces (askerDie m.ctx (cl / 12)) e.acc (rangePieces (e.va m).toNat n) s = (b', f, ab) →
        (∀ x, f = some x → x.code ≠ 0x0B → exec i s = .next (answered b' cl m (completion 6 0 0))) ∧
        (∀ x, f = some x → x.code = 0x0B → exec i s = .fault .notEnabled) ∧
        (f = none → ab = true → exec i s = .next (answered b' cl m (completion 6 0 0)))) ∧
      (BufferThere s cl e m n b' →
        let b := if e.acc = .read then lookCorrect b' (askerDie m.ctx (cl / 12)) (e.va m).toNat n else b'
        (e ∈ reads → Moved e m reply reply.bytes.length → exec i s = .next (answered
          (putVirtual (askerDie m.ctx (cl / 12)) (rangePieces (e.va m).toNat reply.bytes.length) reply.bytes b) cl m
          (completion reply.code.toNat reply.detail.toNat reply.bytes.length))) ∧
        (e ∈ writes → Moved e m reply reply.result.toNat → exec i s = .next (answered b cl m
          (completion reply.code.toNat reply.detail.toNat reply.result.toNat))) ∧
        (∀ kind, (e, kind) ∈ opens → reply.code = 1 → 4 * reply.result.toNat + kind ∉ (b.context m.ctx).handles →
          exec i s = .next (answered (b.setContext m.ctx
            { b.context m.ctx with handles := (b.context m.ctx).handles ++ [4 * reply.result.toNat + kind] }) cl m
            (completion 1 reply.detail.toNat reply.result.toNat))) ∧
        (e ∈ closes → exec i s = .next (answered (b.setContext m.ctx
          { b.context m.ctx with handles := (b.context m.ctx).handles.filter fun h => h != 4 * (argOf m 0).toNat + e.kind }) cl m
          (completion 1 reply.detail.toNat 0))))) ∧
  ∀ (s : State) (cl : Nat) (m : SvcCall) (reply : ExtReply), FirstCall s cl 0x0030 m →
    let v := (argOf m 0).toNat
    (v < 2 ∨ 15 < v → exec (.notify cl reply) s = .next (answered s cl m (completion 3 reply.detail.toNat 0))) ∧
    (2 ≤ v → v ≤ 15 → exec (.notify cl reply) s = .next (answered
      (if (m.ctx, v) ∈ s.msix then s else { s with msix := s.msix ++ [(m.ctx, v)] }) cl m (completion 1 reply.detail.toNat 0)))

/-- R326: the first call that has an answer, or whose function does not exist, leaves the ring, and its completion word is
posted. -/
def Sys2Proof.Claims.ServiceCompletion : Prop :=
  ∀ (s : State) (cl : Nat) (pre post : List SvcCall) (m : SvcCall) (w : Word64), (s.cluster cl).mailbox = pre ++ m :: post →
    let known (fn : Nat) : Prop := fn ∈ [0x0001, 0x0002, 0x0010, 0x0011, 0x0012, 0x0020, 0x0021, 0x0022, 0x0023, 0x0030]
    (∀ y ∈ pre, y.answer = none ∧ known y.fn.toNat) →
    (m.answer = some w ∨ (m.answer = none ∧ ¬ known m.fn.toNat ∧ w = completion 5 0 0)) →
    exec (.svcCompletion cl) s = .next ((s.modCluster cl fun x => { x with mailbox := pre ++ post }).agentPost (cl / 12)
      { ctx := m.ctx, va := m.done, word := w, orIn := false })


/-! ### Sequence slots and sampling (spec/13) -/

namespace Sys2Proof.Claims
open Sys2Proof.Machine

/-- R366: the handle of a slot. -/
def slotHandle (ctx n : Nat) (gen : BitVec 8) : Word64 :=
  u64 (n % 1024 + gen.toNat * 2 ^ 12 + n / 1024 * 2 ^ 20 + ctx % 256 * 2 ^ 24)
/-- R367: the first failing sub-code of a handle that is checked before its request arrives. -/
def slotFault (s : State) (ctx : Nat) (h : Word64) : Option Nat :=
  if h = 0 ∨ h.extractLsb' 32 32 ≠ 0 ∨ h.getLsbD 23 = true ∨ h.extractLsb' 10 2 ≠ 0 then some 4
  else if (h.extractLsb' 24 8).toNat ≠ ctx then some 2
  else if (s.die (h.extractLsb' 20 3).toNat).status = .offline then some 6
  else none
def slotNo (h : Word64) : Nat := 1024 * (h.extractLsb' 20 3).toNat + (h.extractLsb' 0 10).toNat
/-- The instructions on a slot and what each asks of it, with its operands as they are read at issue (R377 to R379, R382). -/
def slotOps : List ((FmtA → Instr) × (FmtA → State → Cur → SlotReq)) :=
  [(.sqapp, fun o s c => let n := word .w32 s c none o.c % 32
      .append n (match o.b with | .reg (.v m) _ _ => (List.range n).map fun j => c.regs.readV j m.toNat | _ => [])),
   (.sqmatch, fun o _ _ => .search (o.ext.extractLsb' 0 5).toNat), (.sqmatchLen, fun _ _ _ => .length),
   (.sqsave, fun o s c => .save (u64 (word .w64 s c none o.b)) (u64 (word .w64 s c none o.c))), (.sqclose, fun _ _ _ => .close)]
/-- The request of the issuing group. -/
def request (o : FmtA) (req : FmtA → State → Cur → SlotReq) (s : State) (c : Cur) : SlotWait :=
  { pack := c.pack, who := c.who, lanes := c.lanes, gen := (handle o s c).extractLsb' 12 8, req := req o s c }
/-- The request has joined the queue of slot `n`, which holds `x`. -/
def arrived (s : State) (n : Nat) (x : Slot) (w : SlotWait) : State :=
  s.idle.setSlot n { x with queue := x.queue ++ [w] }
/-- It has arrived at a slot whose queue was empty, and has left it again. -/
def atSlot (o : FmtA) (req : FmtA → State → Cur → SlotReq) (s : State) (c : Cur) (n : Nat) (x : Slot) : State :=
  (arrived s n x (request o req s c)).setSlot n x
/-- What a unit has told the issuing group. -/
def answeredBy (a : State) (c : Cur) (ws : List Word64) : State := a.modParty c.pack c.who fun p => p.serve c.lanes ws
/-- R371, R372: an instruction first issued whose request is served as soon as it arrives at slot `n`, which holds `x`. -/
structure Arrives (o : FmtA) (s : State) (c : Cur) (k : Pack) (p : Party) (n : Nat) (x : Slot) : Prop where
  fresh : c.again = false
  group : ∃ g ∈ p.groups, g.lanes = c.lanes
  good : slotFault s k.ctx (handle o s c) = none
  number : slotNo (handle o s c) = n
  slot : s.slot n = x
  first : x.queue = []
/-- The same for a slot that is OPEN under the generation of the handle (R367). -/
structure Serving (o : FmtA) (s : State) (c : Cur) (k : Pack) (p : Party) (n : Nat) (x : Slot) : Prop
    extends Arrives o s c k p n x where
  opened : x.st = .opened
  gen : x.gen = (handle o s c).extractLsb' 12 8
/-- The result of the uniform form. -/
def Gives (i : Instr) (o : FmtA) (s : State) (c : Cur) (a : State) (w : Word64) : Prop :=
  CompletesIn i s c (giveS a c o.dst o.wbs w) (deposited w)

/-- R376: the pool of a die can supply a slot of 2^log2c tokens. -/
def PoolHas (s : State) (d log2c : Nat) : Prop :=
  ((List.range 1024).map fun j => if (s.slot (1024 * d + j)).st = .free then 0 else 16 * 2 ^ (s.slot (1024 * d + j)).log2c).sum +
    16 * 2 ^ log2c ≤ Config.poolBytes d
/-- R376, R381: what a die takes for a new slot, its lowest FREE one. -/
def Takes (s : State) (d log2c n : Nat) : Prop :=
  (s.die d).status = .online ∧ PoolHas s d log2c ∧
    ∃ j, j < 1024 ∧ n = 1024 * d + j ∧ (s.slot n).st = .free ∧ ∀ m, m < j → (s.slot (1024 * d + m)).st ≠ .free
def dieAsked (prm : Word64) (cl : Nat) : Nat := if prm.getLsbD 19 then (prm.extractLsb' 16 3).toNat else cl / 12
def boundSlot (x : Slot) (ctx log2c lmin : Nat) (hist : List Word32) : Slot :=
  { x with st := .opened, ctx := ctx, log2c := log2c, lmin := lmin, hist := hist, mlenD := 0, mlenL := 0, rest := none, bad := false }
/-- hd and q0. -/
def handled (a : State) (c : Cur) (o : FmtA) (ok : Bool) (h : Word64) : State :=
  giveS (a.modRegs c.pack c.who fun g => g.writeQ 0 ok) c o.dst o.wbs h

/-- R368: the suffix of `len` tokens also stands at `i`, with a token behind it. -/
def Occurs (h : List Word32) (len i : Nat) : Prop :=
  len ≤ 64 ∧ i + len < h.length ∧ (h.drop i).take len = h.drop (h.length - len)
/-- R368: L and the drafts, of k that are asked for. -/
def Match (x : Slot) (k len : Nat) (drafts : List Word32) : Prop :=
  (∃ i, 1 ≤ len ∧ x.lmin ≤ len ∧ Occurs x.hist len i ∧ (∀ l j, Occurs x.hist l j → l ≤ len) ∧
    (∀ j, Occurs x.hist len j → j ≤ i) ∧ drafts = (x.hist.drop (i + len)).take k) ∨
  (len = 0 ∧ drafts = [] ∧ ∀ l j, 1 ≤ l → x.lmin ≤ l → ¬ Occurs x.hist l j)
/-- R378: the length word. -/
def lengthWord (n d l code : Nat) : Word64 := u64 (n * 2 ^ 32 + d * 65536 + l * 256 + code)

/-- R379, R381: `n` bytes at an address aligned to 64 are probed; `a` is the state after that. -/
def Probes (s : State) (c : Cur) (acc : Acc) (va : Word64) (n : Nat) (a : State) : Prop :=
  va.toNat % 64 = 0 ∧ probePieces (s.asker c) acc (rangePieces va.toNat n) s = (a, none, false)
/-- R381: what SQLOAD reads of an image it may consume. -/
def ReadsImage (s : State) (c : Cur) (va : Word64) (n : Nat) (a : State) : Prop :=
  Probes s c .probeRead va n a ∧ rangeUnc a (s.asker c) va.toNat n = false
/-- R380: a field of an image. -/
def fieldAt (bs : List Byte) (off n : Nat) : Nat := ofBytes ((bs.drop off).take n)
/-- R381: reasons 1 to 3. -/
def badImage (bs : List Byte) : Option Nat :=
  if fieldAt bs 0 4 ≠ 0x42485351 ∨ fieldAt bs 4 2 ≠ 1 then some 1
  else if fieldAt bs 6 1 < 12 ∨ 20 < fieldAt bs 6 1 ∨ fieldAt bs 7 1 < 1 ∨ 64 < fieldAt bs 7 1 ∨
    2 ^ fieldAt bs 6 1 ≤ fieldAt bs 8 4 then some 2
  else if fieldAt bs 0xF 1 ≠ 0 ∨ fieldAt bs 0x20 32 ≠ 0 ∨ 16 < fieldAt bs 0xD 1 ∨ 64 < fieldAt bs 0xC 1 then some 3
  else none

/-- R388: an instruction on heap `n` of its pack, in a warp or thread that is not detached. -/
structure OwnsHeap (o : FmtA) (s : State) (c : Cur) (p : Party) (h : Heap) : Prop where
  attached : p.detached = false
  heap : cget (s.cluster p.place.cluster).heaps (o.ext.extractLsb' 0 2).toNat = some h
  owner : h.owner = c.pack
def heapSet (o : FmtA) (s : State) (p : Party) (h : Heap) : State :=
  s.idle.modCluster p.place.cluster fun x => { x with heaps := cset x.heaps (o.ext.extractLsb' 0 2).toNat h }
/-- R386: the order of candidates. -/
def Better (a b : Word32 × Word32) : Prop :=
  numLess (f32Of b.1) (f32Of a.1) = true ∨ (numEq (f32Of a.1) (f32Of b.1) = true ∧ a.2.toNat < b.2.toNat)
/-- The same, with the smaller pattern first of two that the order leaves equal: +0 before −0 of one token (log 88). -/
def Ahead (a b : Word32 × Word32) : Prop := Better a b ∨ (¬ Better b a ∧ a.1.toNat < b.1.toNat)
/-- R388: the z of a logit, and what PUSH refuses. -/
def logit (h : Heap) (x : Word32) : Word32 := BitVec.ofNat 32 (deliver fp32 .rne 0 0 (mulV (f32Of x) (f32Of h.invt))).1
def Refused (z tok : Word32) : Prop := (f32Of z).isNan = true ∨ f32Of z = .inf false ∨ 2 ^ 24 ≤ tok.toNat
/-- R393. -/
def mixed (x k : Word64) (n : Nat) : Word64 := (x * k) ^^^ ((x * k) >>> n)
def uniformOf (seed q pos g : Word64) : Word64 :=
  let x := seed ^^^ (q <<< 32 + pos)
  let x := mixed (mixed x 0xA3B195C74E2D6F19 31) 0xC2B73E915A4D08F5 27
  mixed (mixed (x ^^^ g) 0x9E6D41A7B3C82E0B 33) 0xE5F17C2A98D3461B 29 >>> 32

end Sys2Proof.Claims


/-- R367, R371, R372, R374: an instruction on a slot faults HND.SEQ with the first failing sub-code of its handle; its request
waits while a rebuild is under way; served, it faults with 1 when the slot is FREE or of another generation. The unit serves a
queue from its head, one request after another, as far as the slot's state lets it, and an answer that came while the group
waited is its result or its fault. -/
def Sys2Proof.Claims.SlotRequests : Prop :=
  (∀ e ∈ slotOps, ∀ (o : FmtA) (s : State) (sh : Shape) (r c : Cur) (k : Pack) (p : Party), Ready {} (e.1 o) s sh r c k p →
    (c.again = false →
      (∀ sub, slotFault s k.ctx (handle o s c) = some sub →
        exec (e.1 o) s = .next (takeFault s.idle c (trapOf 0x0A sub c.lanes))) ∧
      (slotFault s k.ctx (handle o s c) = none → ∀ n x, slotNo (handle o s c) = n → s.slot n = x → x.st = .rebuilding →
        exec (e.1 o) s = .next ((arrived s n x (request o e.2 s c)).enterWait c)) ∧
      ∀ n x, Arrives o s c k p n x → x.st = .free ∨ (x.st = .opened ∧ x.gen ≠ (handle o s c).extractLsb' 12 8) →
        exec (e.1 o) s = .next (takeFault (answeredBy ((atSlot o e.2 s c n x).enterWait c) c [1, 0x0A, 1, 0, 0, 0]) c
          (trapOf 0x0A 1 c.lanes))) ∧
    (c.again = true → ∀ code sub va hint acc, s.servedFor c = some [1, code, sub, va, hint, acc] →
      exec (e.1 o) s = .next (takeFault s.idle c
        { trapOf code.toNat sub.toNat c.lanes with addr := va, hint := hint.toNat, acc := acc.toNat })) ∧
    (c.again = true → e.1 o ≠ .sqmatch o → ∀ w, s.servedFor c = some [0, w] → Gives (e.1 o) o s c s.idle w)) ∧
  ∀ (s : State) (n : Nat) (x : Slot), s.slot n = x →
    (x.queue = [] ∨ x.st = .rebuilding → s.serveQueue n = s) ∧
    ∀ w rest, x.queue = w :: rest → x.st ≠ .rebuilding →
      let y := (s.setSlot n { x with queue := rest }).serveReq n w
      s.serveQueue n = (y.1.giveAnswer w y.2).serveQueue n ∧
        (x.st = .free ∨ x.gen ≠ w.gen → y = (s.setSlot n { x with queue := rest }, seqFault 1))

/-- R371, R376, R382: SQOPEN faults HND.SEQ 5 on a parameter out of range, opens the lowest FREE slot of the die that its
parameter word selects and gives its handle, or gives the null handle; SQCLOSE makes the slot FREE with the next generation.
It rests on log 16, the model's own reading. -/
def Sys2Proof.Claims.SlotOpeningAndClosing : Prop :=
  ∀ (o : FmtA) (s : State) (sh : Shape) (r c : Cur) (k : Pack) (p : Party),
    (Ready {} (.sqopen o) s sh r c k p →
      let prm := u64 (word .w64 s c none o.a)
      let log2c := (prm.extractLsb' 0 5).toNat
      let lmin := (prm.extractLsb' 8 7).toNat
      let d := dieAsked prm p.place.cluster
      let bad := log2c < 12 ∨ 20 < log2c ∨ 64 < lmin
      (bad → exec (.sqopen o) s = .next (takeFault s.idle c (trapOf 0x0A 5 c.lanes))) ∧
      (¬ bad → (∀ n, ¬ Takes s d log2c n) → CompletesIn (.sqopen o) s c (handled s.idle c o false 0) (deposited 0)) ∧
      ∀ n, ¬ bad → Takes s d log2c n →
        let h := slotHandle k.ctx n (s.slot n).gen
        CompletesIn (.sqopen o) s c
          (handled (s.idle.setSlot n (boundSlot (s.slot n) k.ctx log2c (if lmin = 0 then 3 else lmin) [])) c o true h) (deposited h)) ∧
    ∀ n x, Ready {} (.sqclose o) s sh r c k p → Serving o s c k p n x →
      Gives (.sqclose o) o s c
        ((atSlot o (fun _ _ _ => .close) s c n x).setSlot n { Slot.zero with gen := x.gen + 1 }) 0

/-- R369 to R371, R377: SQAPP appends its tokens, gives BADCOUNT or BADTOK, or, when the slot fills, drops its older half, leaves it
REBUILDING and waits; the rebuild appends the tokens that are left, tells the SQAPP its status, and the queue is served. After
an uncorrectable error the tokens before it stand, and the status is UNCORR.
That a slot whose backing holds an uncorrectable granule always answers so is the choice of log 42. -/
def Sys2Proof.Claims.SequenceAppends : Prop :=
  (∀ (o : FmtA) (s : State) (sh : Shape) (r c : Cur) (k : Pack) (p : Party), Ready {} (.sqapp o) s sh r c k p →
    ∀ n x m ng ab, Serving o s c k p n x → o.b = .reg (.v m) ng ab →
      let cnt := word .w32 s c none o.c % 32
      let ts := (List.range cnt).map fun j => c.regs.readV j m.toNat
      let req : FmtA → State → Cur → SlotReq := fun _ _ _ => .append cnt ts
      let a := atSlot o req s c n x
      let status (n e code : Nat) : Word64 := u64 (n * 2 ^ 32 + e * 256 + code)
      (cnt = 0 ∨ 16 < cnt → Gives (.sqapp o) o s c a (status x.hist.length 0 2)) ∧
      (1 ≤ cnt → cnt ≤ 16 →
        ((∃ t ∈ ts, 2 ^ 24 ≤ t.toNat) → Gives (.sqapp o) o s c a (status x.hist.length 0 1)) ∧
        ((∀ t ∈ ts, t.toNat < 2 ^ 24) → x.hist.length < 2 ^ x.log2c →
          (x.bad = true → ∃ m, m ≤ cnt ∧ x.hist.length + m < 2 ^ x.log2c ∧ Gives (.sqapp o) o s c
            ({ a with choices := s.choices + 1 }.setSlot n { x with hist := x.hist ++ ts.take m })
            (status (x.hist.length + m) 0 3)) ∧
          (x.bad = false → x.hist.length + cnt < 2 ^ x.log2c → Gives (.sqapp o) o s c
            (a.setSlot n { x with hist := x.hist ++ ts }) (status (x.hist.length + cnt) 0 0)) ∧
          (x.bad = false → 2 ^ x.log2c ≤ x.hist.length + cnt →
            let m := 2 ^ x.log2c - x.hist.length
            exec (.sqapp o) s = .next ((a.setSlot n
              { x with st := .rebuilding, hist := (x.hist ++ ts.take m).drop (2 ^ x.log2c / 2),
                       rest := some (request o req s c, ts.drop m) }).enterWait c))))) ∧
  ∀ (s : State) (n : Nat) (x : Slot), s.slot n = x → x.st = .rebuilding →
    (x.rest = none → exec (.rebuildComplete n) s = .next ((s.setSlot n { x with st := .opened }).serveQueue n)) ∧
    ∀ w ts, x.rest = some (w, ts) → exec (.rebuildComplete n) s =
      .next (((s.setSlot n { x with st := .opened, hist := x.hist ++ ts, rest := none }).modParty w.pack w.who fun p =>
        p.serve w.lanes [0, u64 ((x.hist ++ ts).length * 2 ^ 32 + 256)]).serveQueue n)

/-- R368, R378: SQMATCH gives live lanes below k the drafts of the longest match at its latest place, and 0xFFFF_FFFF behind
them; D and L stand in the slot and in the length word; SQMATCH.LEN gives them again.
That a slot whose backing holds an uncorrectable granule always answers UNCORR is the choice of log 42. -/
def Sys2Proof.Claims.SequenceMatches : Prop :=
  ∀ (o : FmtA) (s : State) (sh : Shape) (r c : Cur) (k : Pack) (p : Party), 
    let sd : Spec := .s (o.ext.extractLsb' 12 6)
    let cnt := (o.ext.extractLsb' 0 5).toNat
    let drafted (a : State) (drafts : List Word32) : State :=
      a.modRegs c.pack c.who fun g => ((List.range cnt).filter fun j => p.live.getLsbD j).foldl (fun g j =>
        writeDst g none .w32 (some j) o.dst o.wbs ((drafts[j]?).getD 0xFFFFFFFF).toNat) g
    (Ready {} (.sqmatchLen o) s sh r c k p → ∀ n x, Serving o s c k p n x →
      Gives (.sqmatchLen o) o s c (atSlot o (fun _ _ _ => .length) s c n x) (lengthWord x.hist.length x.mlenD x.mlenL 0)) ∧
    (Ready {} (.sqmatch o) s sh r c k p →
      (∀ n x, Serving o s c k p n x →
        let a := atSlot o (fun _ _ _ => .search cnt) s c n x
        (x.bad = true → CompletesIn (.sqmatch o) s c (giveS a c sd false (lengthWord x.hist.length 0 0 3)) noDeposit) ∧
        (x.bad = false → ∃ len drafts, Match x cnt len drafts ∧ CompletesIn (.sqmatch o) s c
          (giveS (drafted (a.setSlot n { x with mlenD := drafts.length, mlenL := len }) drafts) c sd false
            (lengthWord x.hist.length drafts.length len 0)) noDeposit)) ∧
      ∀ w drafts, c.again = true → s.servedFor c = some (0 :: w :: drafts.map fun t : Word32 => t.setWidth 64) →
        w.extractLsb' 0 8 = 0 →
        CompletesIn (.sqmatch o) s c (giveS (drafted s.idle drafts) c sd false w) noDeposit)

/-- R379, R380: SQSAVE faults on an address not aligned to 64, gives SMALL, or writes the image, whose fields and check word are
those of the table, and gives its length.
It rests on log 12, the model's own reading. -/
def Sys2Proof.Claims.SequenceImages : Prop :=
  (∀ (o : FmtA) (s : State) (sh : Shape) (r c : Cur) (k : Pack) (p : Party) (n : Nat) (x : Slot),
    Ready {} (.sqsave o) s sh r c k p → Serving o s c k p n x →
    let va := u64 (word .w64 s c none o.b)
    let room := u64 (word .w64 s c none o.c)
    let b := (atSlot o (fun _ _ _ => .save va room) s c n x).enterWait c
    let len := 64 + 64 * ((4 * x.hist.length + 63) / 64) + 8 * 2 ^ x.log2c
    len < 2 ^ 64 →
    (va.toNat % 64 ≠ 0 → exec (.sqsave o) s = .next (takeFault (answeredBy b c [1, 0x0D, 0, va, 0, 0]) c
      { trapOf 0x0D 0 c.lanes with addr := va })) ∧
    (va.toNat % 64 = 0 → room.toNat < len → Gives (.sqsave o) o s c b (u64 (len * 2 ^ 32 + 4))) ∧
    ∀ a, len ≤ room.toNat → Probes b c .probeWrite va len a →
      let image := imageOf a.choices x
      let saved (m : Nat) : State :=
        putVirtual (s.asker c) (rangePieces va.toNat m) (image.take m) { a with choices := a.choices + 2 }
      (x.bad = false → Gives (.sqsave o) o s c (saved len) (u64 (len * 2 ^ 32))) ∧
      (x.bad = true → ∃ m, m < len ∧ Gives (.sqsave o) o s c (saved m) (u64 (len * 2 ^ 32 + 3)))) ∧
  ∀ (seed : Nat) (x : Slot), x.log2c ≤ 20 → x.lmin < 256 → x.hist.length < 2 ^ 32 → x.mlenL < 256 → x.mlenD < 256 →
    let bs := imageOf seed x
    let n := x.hist.length
    bs.length = 64 + 64 * ((4 * n + 63) / 64) + 8 * 2 ^ x.log2c ∧ fieldAt bs 0 4 = 0x42485351 ∧ fieldAt bs 4 2 = 1 ∧
      fieldAt bs 6 1 = x.log2c ∧ fieldAt bs 7 1 = x.lmin ∧ fieldAt bs 8 4 = n ∧ fieldAt bs 0xC 1 = x.mlenL ∧
      fieldAt bs 0xD 1 = x.mlenD ∧ fieldAt bs 0xE 1 = 1 ∧ fieldAt bs 0xF 1 = 0 ∧
      fieldAt bs 0x10 8 = 8 * 2 ^ x.log2c ∧ (∀ i, 0x40 + 4 * n ≤ i → i < 64 + 64 * ((4 * n + 63) / 64) → bs[i]? = some 0) ∧
      fieldAt bs 0x18 4 = crc32c (bs.take 0x18 ++ List.replicate 8 0 ++ (bs.drop 0x20).take (0x20 + 4 * n)) ∧
      fieldAt bs 0x1C 4 = crc32c (bs.drop (64 + 64 * ((4 * n + 63) / 64))) ∧ fieldAt bs 0x20 32 = 0 ∧
      ∀ (i : Nat) (t : Word32), x.hist[i]? = some t → fieldAt bs (0x40 + 4 * i) 4 = t.toNat

/-- R381: SQLOAD refuses an image with the first failing reason, finds no slot, or opens a slot of the image's size and history
and gives its handle; the bytes that it reads are corrected where they stand.
It rests on log 16 and log 42, the model's own readings. -/
def Sys2Proof.Claims.SequenceLoads : Prop :=
  ∀ (o : FmtA) (s a : State) (sh : Shape) (r c : Cur) (k : Pack) (p : Party), Ready {} (.sqload o) s sh r c k p →
    let va := u64 (word .w64 s c none o.a)
    let prm := u64 (word .w64 s c none o.b)
    let give (b : State) (ok : Bool) (h w : Word64) : Prop :=
      CompletesIn (.sqload o) s c (giveS (handled b c o ok h) c (.s (o.ext.extractLsb' 12 6)) false w) (deposited h)
    ReadsImage s.idle c va 64 a →
    let hd := lookBytes a (s.asker c) va.toNat 64
    let a := lookCorrect a (s.asker c) va.toNat 64
    (∀ e, badImage hd = some e → give a false 0 (u64 (e * 256 + 5))) ∧
    ∀ b, badImage hd = none →
      let n := fieldAt hd 8 4
      let log2c := fieldAt hd 6 1
      let index := if fieldAt hd 0xE 1 = 1 ∧ fieldAt hd 0x10 8 = 8 * 2 ^ log2c then 8 * 2 ^ log2c else 0
      ReadsImage a c va (64 + 64 * ((4 * n + 63) / 64) + index) b →
      let bs := lookBytes b (s.asker c) va.toNat (64 + 4 * n)
      let b := lookCorrect b (s.asker c) va.toNat (64 + 4 * n)
      let check := crc32c (bs.take 0x18 ++ List.replicate 8 0 ++ bs.drop 0x20)
      (fieldAt bs 0x18 4 ≠ check → give b false 0 (u64 (4 * 256 + 5))) ∧
      (fieldAt bs 0x18 4 = check →
        let d := dieAsked prm p.place.cluster
        ((∀ j, ¬ Takes b d log2c j) → give b false 0 6) ∧
        ∀ j, Takes b d log2c j →
          let hist := (List.range n).map fun i => BitVec.ofNat 32 (fieldAt bs (0x40 + 4 * i) 4)
          give (b.setSlot j (boundSlot (b.slot j) k.ctx log2c (fieldAt hd 7 1) hist)) true
            (slotHandle k.ctx j (b.slot j).gen) (u64 (n * 2 ^ 32)))

/-- R385, R388, R429: HEAP.CLR takes a FREE heap or clears the pack's own, and is BUSY on another's; the other forms fault HND.SEQ 8 on a
heap that the pack does not hold, and SYNC.DETACHED in a detached warp. PUSH enters the candidate of each executing lane in
lane order; READ writes the image; MERGE takes an image that fits or says MISMATCH. -/
def Sys2Proof.Claims.SamplingHeaps : Prop :=
  ∀ (o : FmtA) (s : State) (sh : Shape) (r c : Cur) (k : Pack) (p : Party),
    let n := (o.ext.extractLsb' 0 2).toNat
    let slot := cget (s.cluster p.place.cluster).heaps n
    let off := word .w32 s c none o.a
    let pad := s.spad c.pack (c.who / 16)
    (∀ i ∈ [Instr.heapClr o, .heapPush o, .heapMerge o, .heapRead o, .heapDraw o], Ready {} i s sh r c k p →
      p.detached = true → exec i s = .next (takeFault s.idle c (trapOf 0x12 1 c.active))) ∧
    (∀ i ∈ [Instr.heapPush o, .heapMerge o, .heapRead o, .heapDraw o], Ready {} i s sh r c k p → p.detached = false →
      (∀ h, slot = some h → h.owner ≠ c.pack) → exec i s = .next (takeFault s.idle c (trapOf 0x0A 8 c.active))) ∧
    (Ready {} (.heapClr o) s sh r c k p → p.detached = false →
      ((∀ h, slot = some h → h.owner = c.pack) → Gives (.heapClr o) o s c (heapSet o s p
        { owner := c.pack, invt := BitVec.ofNat 32 (readSrc s c (some .f32) .w32 none o.a), m := 0xFF800000, s := 0, disc := false,
          pushed := 0, refused := 0, cands := [] }) 0) ∧
      ((∃ h, slot = some h ∧ h.owner ≠ c.pack) → Gives (.heapClr o) o s c s.idle 1)) ∧
    ∀ h, OwnsHeap o s c p h →
      (Ready {} (.heapPush o) s sh r c k p → CompletesIn (.heapPush o) s c (heapSet o s p
        ((lanesOf c.active).foldl (fun h l => h.push (BitVec.ofNat 32 (readSrc s c (some .f32) .w32 (some l) o.a))
          (BitVec.ofNat 32 (word .w32 s c (some l) o.b))) h)) noDeposit) ∧
      ∀ x, pad = some x → off % 128 = 0 → off + 2112 ≤ x.size →
        (∀ i ∈ [Instr.heapMerge o, .heapRead o], Ready {} i s sh r c k p → x.emptyAt off 2112 = true →
          exec i s = .next (s.idle.enterWait c)) ∧
        (Ready {} (.heapRead o) s sh r c k p → x.emptyAt off 2112 = false →
          ∃ a z, Gives (.heapRead o) o s c a 0 ∧ a.mem = s.mem ∧ a.spad c.pack (c.who / 16) = some z ∧ padWritten x z off h.image) ∧
        (Ready {} (.heapMerge o) s sh r c k p → x.emptyAt off 2112 = false → x.uncAt off 2112 = false →
          let y := (x.heapImage off).1
          let b := s.idle.spadCorrect c.pack (c.who / 16) off 2112
          (imageFits h y (x.heapImage off).2 = true → Gives (.heapMerge o) o s c
            (b.modCluster p.place.cluster fun z => { z with heaps := cset z.heaps n (h.merge y) }) 0) ∧
          (imageFits h y (x.heapImage off).2 = false → Gives (.heapMerge o) o s c b 2))

/-- R386 to R388: PUSH refuses a NaN or +∞ z and a token of 2^24 or more; any other raises PUSHED, M and S, and its candidate stands
behind none that it is ahead of; the first 256 stay.
That of two candidates of one token with z +0 and −0 the former stands first is the choice of log 88. -/
def Sys2Proof.Claims.HeapPushes : Prop :=
  ∀ (h : Heap) (x tok : Word32), let z := logit h x
    (Refused z tok → h.push x tok = { h with refused := if h.refused = 0xFFFF#16 then h.refused else h.refused + 1 }) ∧
    (¬ Refused z tok →
      let g := h.push x tok
      { g with pushed := h.pushed, m := h.m, s := h.s, cands := h.cands, disc := h.disc } = h ∧ g.pushed = h.pushed + 1 ∧
      (numLess (f32Of h.m) (f32Of z) = true → g.m = z ∧
        g.s = if h.m = 0xFF800000 then 0x3F800000 else expSum 0x3F800000 h.s (distance (f32Of z) (f32Of h.m))) ∧
      (numLess (f32Of h.m) (f32Of z) = false → g.m = h.m ∧
        g.s = if z = 0xFF800000 then h.s else expSum h.s 0x3F800000 (distance (f32Of h.m) (f32Of z))) ∧
      ∃ pre post, h.cands = pre ++ post ∧ (∀ e ∈ pre, ¬ Ahead (z, tok) e) ∧ (∀ e, post.head? = some e → Ahead (z, tok) e) ∧
        g.cands = (pre ++ (z, tok) :: post).take 256 ∧ (g.disc = true ↔ h.disc = true ∨ 256 ≤ h.cands.length))

/-- R390, R391: HEAP.DRAW of an empty heap, or of one with M = −∞, gives all ones; it faults FILT.OVF when the filters need
candidates that were discarded; it draws the first candidate whose running sum passes the drawn part of the sum that is kept,
and where every sum is 0 a candidate that depends on the heap's fields and the operands alone.
It rests on log 17 and log 31, the model's own readings. -/
def Sys2Proof.Claims.HeapDraws : Prop :=
  ∀ (o : FmtA) (s : State) (sh : Shape) (r c : Cur) (k : Pack) (p : Party) (h : Heap), Ready {} (.heapDraw o) s sh r c k p →
    OwnsHeap o s c p h →
    (h.cands = [] ∨ h.m = 0xFF800000 → Gives (.heapDraw o) o s c s.idle (BitVec.allOnes 64)) ∧
    (h.cands ≠ [] → h.m ≠ 0xFF800000 →
      let ps := h.cands.map fun e => h.prob e.1
      ∃ cs : List Nat, cs.length = ps.length ∧ cs[0]? = ps[0]? ∧
        (∀ j a q, cs[j]? = some a → ps[j + 1]? = some q → cs[j + 1]? = some (f32Add .rne a q).1) ∧
        let keep := h.keep (word .w32 s c none o.a) (readSrc s c (some .f32) .w32 none o.b) cs
        (keep = none → exec (.heapDraw o) s = .next (takeFault s.idle c (trapOf 0x13 0 c.lanes))) ∧
        ∀ n j q e, keep = some n → ps[j]? = some q → h.cands[j]? = some e → j < n →
          let low (i : Nat) : Bool := below24 (word .w32 s c none o.c / 256) ((cs[n - 1]?).getD 0) ((cs[i]?).getD 0)
          low j = true → (∀ i, i < j → low i = false) →
          Gives (.heapDraw o) o s c s.idle (u64 (q * 2 ^ 32 + j * 2 ^ 24 + e.2.toNat))) ∧
    ∀ cs : List Nat, h.cands ≠ [] → h.m ≠ 0xFF800000 → cs.length = h.cands.length → cs[0]? = (h.cands.map fun e => h.prob e.1)[0]? →
      (∀ j a q, cs[j]? = some a → (h.cands.map fun e => h.prob e.1)[j + 1]? = some q → cs[j + 1]? = some (f32Add .rne a q).1) →
      ∀ n, h.keep (word .w32 s c none o.a) (readSrc s c (some .f32) .w32 none o.b) cs = some n →
        (∀ i, i < n → below24 (word .w32 s c none o.c / 256) ((cs[n - 1]?).getD 0) ((cs[i]?).getD 0) = false) →
        ∃ j e, j < n ∧ h.cands[j]? = some e ∧
          j = Config.drawRank (u64 (word .w32 s c none o.a)) (u64 (readSrc s c (some .f32) .w32 none o.b))
            (u64 (word .w32 s c none o.c)) h.fields % n ∧
          Gives (.heapDraw o) o s c s.idle (u64 (h.prob e.1 * 2 ^ 32 + j * 2 ^ 24 + e.2.toNat))

/-- R393: DRAW completes with the 32-bit number of its seed, sequence, position and purpose. -/
def Sys2Proof.Claims.ReproducibleDraws : Prop :=
  ∀ (o : FmtA) (s : State) (sh : Shape) (r c : Cur) (k : Pack) (p : Party), Ready {} (.draw o) s sh r c k p →
    let sq := u64 (word .w64 s c none o.c)
    Completes (.draw o) s c k p (Result c none .w32 o.dst o.wbs (own o) fun l =>
      ((uniformOf (u64 (word .w64 s c none o.a)) (u64 (sq.toNat % 2 ^ 32)) (u64 (word .w32 s c l o.b % 2 ^ 32))
        (u64 (sq.toNat / 2 ^ 32 % 2 ^ 8))).toNat, 0))


/-! ### The dispatcher (spec/01, spec/11, spec/15, spec/18) -/

namespace Sys2Proof.Claims
open Sys2Proof.Machine

/-- R452: the packs of a context that is frozen for reason 1 or 2 stay SAVED. -/
def Stopped (s : State) (ctx : Nat) : Prop := 1 ∈ (s.context ctx).frozen ∨ 2 ∈ (s.context ctx).frozen
/-- A pack that waits for a place (R37). -/
def Waits (k : Pack) : Prop := k.state = .placeable ∨ k.state = .saved
def classOf (s : State) (u : Nat) (k : Pack) : Nat := if k.state = .saved then (if s.awaited u then 0 else 1) else 2
/-- R37: priority, class, time of saving or order of creation. -/
def Precedes (s : State) (u : Nat) (k : Pack) (v : Nat) (q : Pack) : Prop :=
  q.prio < k.prio ∨ (q.prio = k.prio ∧ (classOf s u k < classOf s v q ∨
    (classOf s u k = classOf s v q ∧ (if k.state = .saved then k.savedAt else u) < if q.state = .saved then q.savedAt else v)))
/-- R37, R457: the cluster takes the pack, and no pack that precedes it could be taken there, or it is reserved for it. -/
def Next (s : State) (u : Nat) (k : Pack) (cl : Nat) : Prop :=
  s.canTake u k cl = true ∧ (k.reserved = some cl ∨
    ∀ e ∈ s.packs, e.1 ≠ u → Waits e.2 → e.2.die = k.die → s.canTake e.1 e.2 cl = true → ¬ Precedes s e.1 e.2 u k)
def Ordinary (s : State) : Prop := ∀ e ∈ s.packs, e.2.prio ≤ 3
/-- R116, R301: a warp, or the spine thread, as its pack is placed. -/
structure Fresh (k : Pack) (cl : Nat) (pc : Word64) (lanes : Lanes) (p : Party) : Prop where
  pc : ∀ l, lanes.getLsbD l = true → p.pcOf l = pc
  live : p.live = lanes
  sinit : ∀ i, i < 5 → p.regs.readS i = k.packet.extractLsb' (8 * 0x58 + 64 * i) 64
  zeros : ∀ i, 5 ≤ i → i < 64 → p.regs.readS i = 0
  others : p.regs.v = [] ∧ p.regs.h = [] ∧ p.regs.a = [] ∧ p.regs.p = [] ∧ p.regs.q = 0 ∧ p.regs.latches = []
  xvec : p.regs.xvec = pkXvec k.packet
  cluster : p.place.cluster = cl
  life : p.life = if lanes = 0 then .exited else .running

/-- Packs that wait for a place of their die, find none, and have none reserved (R32, R33, R457). -/
def Homeless (s : State) (d u : Nat) (k : Pack) : Prop :=
  Waits k ∧ k.die = d ∧ k.reserved = none ∧ ¬ Stopped s k.ctx ∧ ∀ i, i < 12 → s.canTake u k (12 * d + i) = false
/-- R457: the pack is served on the cluster that is reserved for it: no pre-emption that was made for it is under way, and a pack
that retired meanwhile holds nothing there any more. -/
def Served457 (s : State) (u : Nat) (k : Pack) (cl : Nat) : Prop :=
  k.reserved = some cl ∧ Waits k ∧ (∀ x ∈ s.packs, x.2.victimOf ≠ some u) ∧
    ∀ h ∈ k.holds, ∀ v, s.pack h.victim = some v → v.state = .retired →
      v.onCluster = false ∧ v.spads = [] ∧ s.killPending h.victim = false
/-- R32: lowest priority first, and most recently placed first within a priority. -/
def Sooner (a b : Pack) : Prop := a.prio < b.prio ∨ (a.prio = b.prio ∧ b.placed < a.placed)
/-- The pack fits on the cluster once these are off it. -/
def Room (s : State) (u : Nat) (k : Pack) (cl : Nat) (vs : List (Nat × Pack)) : Prop :=
  (vs.foldl (fun s e => s.savePack e.1 e.2) s).canTake u k cl = true
/-- R32: what is removed from a cluster until the pack fits: packs of lower priority, of which each comes before the next and
before every one that stays. -/
structure Removal (before : Pack → Pack → Prop) (s : State) (u : Nat) (k : Pack) (cl : Nat) (vs : List (Nat × Pack)) : Prop where
  some : vs ≠ []
  lower : ∀ e ∈ vs, e ∈ s.packs ∧ e.2.state = .resident ∧ e.2.cluster = cl ∧ e.2.prio < k.prio
  order : vs.Pairwise fun a b => before a.2 b.2
  stay : ∀ x ∈ s.packs, x.2.state = .resident → x.2.cluster = cl → x.2.prio < k.prio → x ∉ vs → ∀ e ∈ vs, before e.2 x.2
  room : Room s u k cl vs
  fewest : ∀ n, 0 < n → n < vs.length → ¬ Room s u k cl (vs.take n)
/-- R32: the tests by which a cluster is chosen: the highest priority removed, the number of packs removed, the cluster. -/
def Chosen (cl : Nat) (vs : List (Nat × Pack)) (cl' : Nat) (vs' : List (Nat × Pack)) : Prop :=
  let top (l : List (Nat × Pack)) : Nat := (l.map (·.2.prio)).foldl max 0
  top vs < top vs' ∨ (top vs = top vs' ∧ (vs.length < vs'.length ∨ (vs.length = vs'.length ∧ cl ≤ cl')))
/-- R35, R274, R424: pack `u`, which was `k`, is SAVED in `t`: its image holds its parties, shared registers, scratchpads and
heaps, its queue entries and commands, and its resources are free. -/
structure Saved (s t : State) (u : Nat) (k : Pack) : Prop where
  mem : t.mem = s.mem
  image : ∃ q, t.pack u = some q ∧ q.state = .saved ∧ q.savedAt = s.nextId ∧ q.parties = k.parties ∧ q.kregs = k.kregs ∧
    q.spads = k.spads ∧ q.victimOf = none ∧
    (∀ n h, cget (s.cluster k.cluster).heaps n = some h → h.owner = u → cget q.heaps n = some h) ∧
    (∀ c ∈ (s.cluster k.cluster).copies, c.pack = u → c ∈ q.copies) ∧
    ∀ c ∈ (s.cluster k.cluster).cmds, c.pack = u → c ∈ q.cmds
  copies : ∀ c ∈ (t.cluster k.cluster).copies, c.pack ≠ u
  cmds : ∀ c ∈ (t.cluster k.cluster).cmds, c.pack ≠ u
  heaps : ∀ e ∈ (t.cluster k.cluster).heaps, e.2.owner ≠ u
  others : ∀ v, v ≠ u → t.pack v = s.pack v
/-- R33: the pack of a priority that a slice's end pre-empts. -/
def Sliced (s : State) (cl prio v : Nat) (q : Pack) : Prop :=
  (v, q) ∈ s.packs ∧ q.state = .resident ∧ q.cluster = cl ∧ q.prio = prio ∧
    ∀ e ∈ s.packs, e.1 ≠ v → e.2.state = .resident → e.2.cluster = cl → e.2.prio = prio →
      e.2.lines < q.lines ∨ (e.2.lines = q.lines ∧ e.2.placed < q.placed)
/-- R306: the completion word of a launch. -/
def launchWord (l : Launch) : Word64 := u64 (l.killed * 2 ^ 32 + if l.broken then 2 else 1)
/-- R449: a packet is consumed: its status, then the count. -/
def consumed (s : State) (ctx i status : Nat) : State :=
  let put (s : State) (off v : Nat) : State := s.writeHome ((s.context ctx).area + off) (bytesOf 8 v)
  put (put s 0x20 (i % 2 ^ 32 * 2 ^ 32 + status)) 0x08 (i + 1)
def control (s : State) (ctx off : Nat) : Nat := s.readNat ((s.context ctx).area + off) 8

end Sys2Proof.Claims


/-- R25, R28, R456: lanes skipped 32 times are forced; a countdown ends; lanes that were sent back may issue again.
It rests on log 54, the model's own reading. -/
def Sys2Proof.Claims.IssueCounters : Prop :=
  ∀ (s : State) (u who : Nat) (p : Party), s.party u who = some p →
    (∀ m : Lanes, m ≠ 0 → (∀ l, l < 64 → (m.getLsbD l = true ↔
        p.live.getLsbD l = true ∧ p.forced.getLsbD l = false ∧ 32 ≤ (rd 0 p.skip l).toNat)) →
      exec (.skipCountForce u who) s = .next (s.setParty u who { p with forced := p.forced ||| m })) ∧
    (∀ l, rd 0 p.yield l = 1 →
      exec (.yieldCountdownExpiry u who l) s = .next (s.setParty u who { p with yield := cdel p.yield l })) ∧
    ∀ m : Lanes, m ≠ 0 → p.replay = 0 → p.running = true → (∀ l, l < 64 → (m.getLsbD l = true ↔
        p.reissue.getLsbD l = true ∧ ∃ g ∈ p.groups, g.held = false ∧ g.lanes.getLsbD l = true)) →
      exec (.port1Reissue u who) s = .next (s.setParty u who { p with reissue := p.reissue &&& ~~~m })

/-- R35, R37, R116, R199, R301, R305: a PLACEABLE pack that is next on a cluster becomes RESIDENT there, all its parties at once,
each with SINIT, XVEC and zeros, each workgroup with its scratchpad.
It rests on log 2 and log 45, the model's own readings. -/
def Sys2Proof.Claims.PackPlacement : Prop :=
  ∀ (s : State) (u cl : Nat) (k0 k : Pack), s.pack u = some k0 → let b := s.promote k0.die
    b.pack u = some k → k.state = .placeable → k.parties = [] → Ordinary b → Next b u k cl →
    ∃ t q, exec (.packPlacement u cl) s = .next t ∧ t.mem = s.mem ∧ t.pack u = some q ∧ q.state = .resident ∧ q.cluster = cl ∧
      (∃ x, cget q.parties spineWho = some x ∧ Fresh k cl (pkSpine k.packet) (if pkSpine k.packet = 0 then 0 else 1) x) ∧
      ∀ g, g < pkGroups k.packet →
        (∃ y, cget q.spads g = some y ∧ y.size = 4096 * pkSpadu k.packet ∧ y.bytes = [] ∧ y.emptyLines = []) ∧
        ∀ w, w < pkWarps k.packet → ∃ x, cget q.parties (16 * g + w) = some x ∧
          Fresh k cl (pkWarp k.packet) (BitVec.allOnes 64) x ∧ x.place.quad = w % 4 ∧ some x.place.core = q.cores[g]?

/-- R37, R201, R274, R276, R424, R425: a SAVED pack that is next on a cluster becomes RESIDENT there: every party has the
registers, the lanes and the pending tokens that it was saved with, every scratchpad of a workgroup that lives its bytes, and
its copies stand in the queue: the pieces of their FULL lines are not moved again, and no byte is counted in BYTES.
It rests on log 2 and log 45, the model's own readings; that a copy not into a scratchpad starts again whole is the choice of
log 46, and that the image is not in memory that of log 57. -/
def Sys2Proof.Claims.PackResume : Prop :=
  ∀ (s : State) (u cl : Nat) (k0 k : Pack), s.pack u = some k0 → let b := s.promote k0.die
    b.pack u = some k → k.state = .saved → Ordinary b → Next b u k cl →
    (∃ e ∈ k.parties, e.2.life = .running) → (((b.cluster cl).copies ++ k.copies).map (·.id)).Nodup →
    ∃ t q, exec (.packResume u cl) s = .next t ∧ t.pack u = some q ∧ q.state = .resident ∧ q.cluster = cl ∧
      (∀ who p, cget k.parties who = some p → ∃ x, cget q.parties who = some x ∧ x.regs = p.regs ∧ x.live = p.live ∧
        x.pending = p.pending ∧ x.tags = p.tags ∧ x.intrap = p.intrap ∧ x.frame = p.frame ∧ x.life = p.life) ∧
      (∀ g y who p, cget k.spads g = some y → cget k.parties who = some p → who ≠ spineWho → who / 16 = g → p.life = .running →
        ∃ z, cget q.spads g = some z ∧ { z with units := y.units } = y) ∧
      ∀ c ∈ k.copies, c.ended = none → ∃ y ∈ (t.cluster cl).copies, y.id = c.id ∧ y.bytes = 0 ∧ y.counted = c.counted ∧
        ∀ n, n ∈ y.landed ↔ n < c.npieces ∧ c.toPad = true ∧ ∃ z, cget k.spads c.wg = some z ∧ c.lineOf n ∉ z.emptyLines

/-- R32, R457: a waiting pack that no cluster of its die takes, where one could after packs of lower priority are removed,
pre-empts the packs that are removed first, as few as make it fit, of the cluster where the highest priority removed is the
lowest, then the packs are the fewest, then the number is the lowest. The cluster is reserved for it with the threads, the
slots, the units, the owner right and the task bank of the packs that leave.
It rests on log 45, the model's own reading. -/
def Sys2Proof.Claims.PriorityPreemption : Prop :=
  ∀ (s : State) (u : Nat) (k0 k : Pack), s.pack u = some k0 → let b := s.promote k0.die
    b.pack u = some k → (b.packs.map (·.1)).Nodup → Homeless b k.die u k →
    (∃ cl vs, cl / 12 = k.die ∧ Removal Sooner b u k cl vs) →
    ∃ cl vs t hs, cl / 12 = k.die ∧ Removal (fun a b => ¬ Sooner b a) b u k cl vs ∧
      (∀ cl' vs', cl' / 12 = k.die → Removal Sooner b u k cl' vs' → Chosen cl vs cl' vs') ∧
      exec (.priorityPreemption u) s = .next t ∧ t.mem = s.mem ∧
      t.pack u = some { k with reserved := some cl, holds := hs } ∧
      hs.map (fun h => (h.victim, h.thread, h.units, h.owner, h.task)) =
        vs.map (fun e => (e.1, e.2.thread, e.2.spads.flatMap (·.2.units), pkOwner e.2.packet, pkTaskp e.2.packet)) ∧
      (∀ e ∈ vs, ∀ who p, cget e.2.parties who = some p → who ≠ spineWho → p.life = .running → p.detached = false →
        p.evicted = false → p.place.cluster = cl →
        ∃ h ∈ hs, h.victim = e.1 ∧ (p.place.core, p.place.quad, p.place.slot, pkVregs e.2.packet) ∈ h.slots) ∧
      (∀ e ∈ vs, t.pack e.1 = some { e.2 with state := .draining, victimOf := some u }) ∧
      ∀ v, v ≠ u → v ∉ vs.map (·.1) → t.pack v = b.pack v

/-- R33: when a cluster has retired its slice of lines its count begins anew; if packs wait without a place, the resident pack
of the highest waiting priority that has retired most lines is pre-empted. -/
def Sys2Proof.Claims.SliceExpiry : Prop :=
  ∀ (s : State) (cl : Nat), 2 ^ (s.die (cl / 12)).sliceLog ≤ (s.cluster cl).lineCount →
    let b := (s.promote (cl / 12)).modCluster cl fun x => { x with lineCount := 0 }
    ((∀ e ∈ b.packs, ¬ Homeless b (cl / 12) e.1 e.2) → exec (.sliceExpiry cl) s = .next b) ∧
    ∀ e ∈ b.packs, Homeless b (cl / 12) e.1 e.2 → (∀ x ∈ b.packs, Homeless b (cl / 12) x.1 x.2 → x.2.prio ≤ e.2.prio) →
      ((∀ x ∈ b.packs, x.2.state = .resident → x.2.cluster = cl → x.2.prio ≠ e.2.prio) → exec (.sliceExpiry cl) s = .next b) ∧
      ∀ v q, Sliced b cl e.2.prio v q → b.pack v = some q →
        exec (.sliceExpiry cl) s = .next (b.setPack v { q with state := .draining, victimOf := none })

/-- R35, R274, R424, R457: a DRAINING pack all of whose parties have stopped becomes SAVED. Where it was pre-empted for another,
the first pack whose pre-emptions are all complete comes onto the cluster that is reserved for it.
It rests on log 19, the model's own reading; that saving a pack changes no memory is the choice of log 57, and that the
reservation ends where the pack does not fit then that of log 80. -/
def Sys2Proof.Claims.PackDrainComplete : Prop :=
  (∀ (s : State) (u : Nat) (k : Pack), s.pack u = some k → k.state = .draining → k.allStopped = true →
    ∃ t, Saved s t u k ∧
      (k.victimOf = none → exec (.packDrainComplete u) s = .next t) ∧
      ∀ v, k.victimOf = some v → exec (.packDrainComplete u) s = .next t.serveReserved) ∧
  ∀ s : State,
    ((∀ e ∈ s.packs, ∀ cl, ¬ Served457 s e.1 e.2 cl) → s.serveReserved = s) ∧
    ∀ (pre post : List (Nat × Pack)) (u cl : Nat) (k : Pack) (t : State), s.packs = pre ++ (u, k) :: post →
      (∀ e ∈ pre, ∀ cl, ¬ Served457 s e.1 e.2 cl) → s.pack u = some k → Served457 s u k cl →
      (s.canTake u k cl = true → s.bring u cl = some t → s.serveReserved = t) ∧
      (s.canTake u k cl = false → s.serveReserved = s.setPack u { k with reserved := none, holds := [] })

/-- R306, R449: when the last pack of a launch has retired its completion word is written at DONE, and raises MSI-X vector 1
when a host waits for it; a DONE of 0 gets none, and a page that is not present is asked for once.
It rests on log 52, the model's own reading. -/
def Sys2Proof.Claims.LaunchCompletion : Prop :=
  ∀ (s : State) (id : Nat) (l : Launch), cget s.launches id = some l → l.left = 0 →
    let va := pkDone l.packet
    let d := id / 2 ^ 29
    let without (a : State) : State := { a with launches := cdel a.launches id }
    (va = 0 → exec (.launchCompletionWrite id) s = .next (without s)) ∧
    (va ≠ 0 → ∀ a h,
      (s.agentWord d l.ctx va (launchWord l) false = (a, .done) → exec (.launchCompletionWrite id) s =
        .next (without (if pkHostw l.packet = true ∧ (l.ctx, 1) ∉ a.msix then { a with msix := a.msix ++ [(l.ctx, 1)] } else a))) ∧
      (s.agentWord d l.ctx va (launchWord l) false = (a, .dropped) → exec (.launchCompletionWrite id) s = .next (without a)) ∧
      (s.agentWord d l.ctx va (launchWord l) false = (a, .page h) → s.asking d l.ctx va = false →
        exec (.launchCompletionWrite id) s = .next (a.agentFault d l.ctx 1 va h)))

/-- R42, R303, R449: the dispatcher takes the next posted packet of a function that is not stopped: its status, or its launch,
and the count of packets done; what it reads of the area is corrected where it stands.
It rests on log 18, the model's own reading. -/
def Sys2Proof.Claims.HostSubmissions : Prop :=
  ∀ (s : State) (ctx : Nat), (s.context ctx).enabled = true → ¬ Stopped s ctx → control s ctx 0x08 < control s ctx 0 →
    let i := control s ctx 0x08
    let area := (s.context ctx).area
    let d := (s.homeDie area).getD 0
    let slot := area + 0x1000 + 128 * (i % 256)
    let w : BitVec 1024 := BitVec.ofNat 1024 (s.readNat slot 128)
    let b := (s.correct area 64).correct slot 128
    (∀ e, launchCode b d true w = some e → exec (.dispatcherLaunchService ctx) s = .next (consumed b ctx i e)) ∧
    (launchCode b d true w = none →
      (∀ a, launchProbe (askerDie ctx d) w b = (a, none) → a.launchRoom d w = true →
        exec (.dispatcherLaunchService ctx) s = .next (consumed (a.createLaunch d ctx (pkPrio w) w).1 ctx i 0)) ∧
      ∀ a f acc, launchProbe (askerDie ctx d) w b = (a, some (f, acc)) →
        (f.code = 0x0B → b.asking d ctx f.addr = false →
          exec (.dispatcherLaunchService ctx) s = .next (a.agentFault d ctx acc f.addr f.hint)) ∧
        (f.code ≠ 0x0B → exec (.dispatcherLaunchService ctx) s = .next (consumed a ctx i (Config.submitStatus i).toNat)))

/-- R45, R408: a clock cycle of a cluster raises its counter 0 by one and changes nothing else. -/
def Sys2Proof.Claims.ClockCycles : Prop :=
  ∀ (s : State) (n : Nat), n < 96 → ∃ t, exec (.arithmeticClockCycle n) s = .next t ∧ { t with clusters := s.clusters } = s ∧
    rd 0 (t.cluster n).counters 0 = rd 0 (s.cluster n).counters 0 + 1 ∧
    (∀ j, j ≠ 0 → rd 0 (t.cluster n).counters j = rd 0 (s.cluster n).counters j) ∧
    { t.cluster n with counters := (s.cluster n).counters } = s.cluster n ∧ ∀ m, m ≠ n → t.cluster m = s.cluster m


/-! ### The service firmware (spec/07, spec/11, spec/12, spec/15, spec/18) -/

namespace Sys2Proof.Claims
open Sys2Proof.Machine

/-- A write of a 64-bit control word of a context's submission area (R448). -/
def putControl (s : State) (ctx off : Nat) (v : Nat) : State := s.writeHome ((s.context ctx).area + off) (bytesOf 8 v)
/-- R418: the 32 bytes of a kill record. -/
def killBytes (r : KillRec) : List Byte :=
  bytesOf 8 r.xpc.toNat ++ bytesOf 8 r.xaddr.toNat ++ bytesOf 4 r.xcause.toNat ++ bytesOf 2 r.req.toNat ++
    [BitVec.ofNat 8 r.ctx, r.flags] ++ bytesOf 4 r.seq ++ bytesOf 4 0
/-- R449: the kill ring of a record's context takes it; a context without an area has no ring. -/
def RingTakes (s : State) (r : KillRec) : Prop :=
  (s.context r.ctx).area = 0 ∨
    (3 ∉ (s.context r.ctx).frozen ∧ (u64 (control s r.ctx 0x30) - u64 (control s r.ctx 0x38)).toNat < 128)
/-- R449: an MSI-X vector is pending. -/
def pendingMsix (s : State) (ctx v : Nat) : State := if (ctx, v) ∈ s.msix then s else { s with msix := s.msix ++ [(ctx, v)] }

/-- R436: nothing of a context of `s` is left in `t`: its killed packs alone stay until their records are written, and a row of a
batch that is not OPEN, as a reported one. -/
structure Ended (s t : State) (ctx : Nat) : Prop where
  packs : ∀ u q, t.pack u = some q → q.ctx = ctx → q.state = .retired
  launches : ∀ e ∈ t.launches, e.2.ctx ≠ ctx
  work : ∀ u q, s.pack u = some q → q.ctx = ctx → (∀ c ∈ (t.cluster q.cluster).copies, c.pack ≠ u) ∧
    (∀ c ∈ (t.cluster q.cluster).cmds, c.pack ≠ u) ∧
    (q.state ≠ .retired → (∀ x ∈ (t.cluster q.cluster).arrivals, x.1.pack ≠ u) ∧
      (∀ e ∈ (t.cluster q.cluster).joins, e.2.owner ≠ u) ∧ ∀ e ∈ (t.cluster q.cluster).heaps, e.2.owner ≠ u)
  rows : ∀ d, d < 8 → ∀ b ∈ (t.die d).batches, ∀ r ∈ b.rows, Row.ctx r = ctx → b.st ≠ .opened ∧ r.reported = true
  writes : ∀ d, ∀ x ∈ (t.die d).statusWrites, x.ctx ≠ ctx
  calls : ∀ cl, cl < 96 → ∀ m ∈ (t.cluster cl).mailbox, m.ctx ≠ ctx
  groups : ∀ g, (s.group g).st ≠ .free → (s.group g).ctx = ctx →
    t.group g = { GroupEntry.zero with gen := (s.group g).gen + 1 }
  slots : ∀ n, (s.slot n).st ≠ .free → (s.slot n).ctx = ctx →
    { t.slot n with queue := [] } = { Slot.zero with gen := (s.slot n).gen + 1 }
  banks : ∀ cl b, ((s.cluster cl).bank b).bound = some ctx →
    (t.cluster cl).bank b = { (s.cluster cl).bank b with bound := none, elems := [] }
  tasks : ∀ cl, ∀ x ∈ (t.cluster cl).tasks, x.ctx ≠ ctx
  spilled : ∀ d, ∀ x ∈ (t.die d).spill ++ (t.die d).spillWait, x.ctx ≠ ctx
  faults : ∀ d, ∀ f ∈ (t.die d).faults ++ (t.die d).faultWait, f.ctx ≠ ctx
  monitors : ∀ m ∈ t.monitors, m.ctx ≠ ctx
  layout : ∀ h, h < 65536 → (t.layoutEntry ctx h).getLsbD (8 * 0x35 + 7) = false
  tlb : ∀ e ∈ t.tlb, e.ctx ≠ ctx
  context : (t.context ctx).enabled = false ∧ (t.context ctx).handles = []
/-- R306, R321, R326: the words that the end of a context reports: of its rows in batches that are not OPEN 0xFFFFFFFF, of its
calls RESET, of its launches KILLED with their counts. Each is the die whose agent writes it, the address and the word. -/
def lastWords (s : State) (ctx : Nat) : List (Nat × Word64 × Word64) :=
  ((List.range 8).flatMap fun d => (s.die d).batches.flatMap fun b => if b.st = .opened then [] else
    (b.rows.filter fun r => Row.ctx r == ctx && !r.reported).map fun r => (d, r.stat, u64 (b.number * 2 ^ 32 + 0xFFFFFFFF))) ++
  ((List.range 96).flatMap fun cl => ((s.cluster cl).mailbox.filter fun m => m.ctx == ctx).map fun m => (cl / 12, m.done, 7)) ++
  ((s.launches.filter fun e => e.2.ctx == ctx && pkDone e.2.packet != 0).map fun e =>
    (e.1 / 2 ^ 29, pkDone e.2.packet, u64 (e.2.killed * 2 ^ 32 + 2)))

/-- R448, R452: a function is frozen with a reason, unless it is already: FRZ shows the reason that came first, and for reasons 1
and 2 its RESIDENT packs are pre-empted. -/
def Frozen (s t : State) (ctx reason : Nat) : Prop :=
  let all := (s.context ctx).frozen ++ [reason]
  let b := putControl (s.setContext ctx { s.context ctx with frozen := all }) ctx 0x28 (256 + (all.head?).getD 0)
  if reason ∈ (s.context ctx).frozen then t = s
  else t.mem = b.mem ∧ t.ctxs = b.ctxs ∧ ∀ u k, b.pack u = some k → k.ctx = ctx →
    t.pack u = some (if reason ≠ 3 ∧ k.state = .resident then { k with state := .draining, victimOf := none } else k)
/-- R448, R452: what a write to the control words brings about, from the words before it: a count that fell, or that runs ahead of
what is done by more than its ring, and a KDONE above KPOST, each freezes the function. -/
def PostChecked (s b t : State) (ctx : Nat) : Prop :=
  let ran (off limit : Nat) : Prop := control b ctx off < control s ctx off ∨ control b ctx (off + 8) + limit < control b ctx off
  ∃ x y, (if ran 0 256 then Frozen b x ctx 1 else x = b) ∧ (if ran 0x10 64 then Frozen x y ctx 2 else y = x) ∧
    if control b ctx 0x30 < control b ctx 0x38 then Frozen y t ctx 3 else t = y

/-- R208: the entry's address lies in a page on its way to host ownership. -/
def Meets (s : State) (p : Flip → Prop) (y : FaultEntry) : Prop :=
  ∃ at' e f, walk s y.ctx (y.va.toNat % 2 ^ 52) = (.leaf, at', e) ∧ f ∈ s.flips ∧ p f ∧
    (let a := pteAddr e / 2 ^ pteLog e * 2 ^ pteLog e + y.va.toNat % 2 ^ pteLog e
     f.pa ≤ a ∧ a < f.pa + 2 ^ f.log)
/-- The copy that a requester names, where its pack is there. -/
def asks (s : State) (r : Requester) (cl : Nat) (c : Copy) : Prop :=
  r = .copy cl c.id ∧ (s.cluster cl).copies.find? (fun x => x.id == c.id) = some c ∧ s.pack c.pack ≠ none

/-- R327: the 32 bytes of a fault-queue entry, with VALID as given. -/
def faultBytes (e : FaultEntry) (valid : Nat) : List Byte :=
  bytesOf 8 e.va.toNat ++ bytesOf 8 e.lanes.toNat ++ bytesOf 4 e.seq ++ bytesOf 2 e.merge ++ bytesOf 2 e.req.toNat ++
    [BitVec.ofNat 8 e.ctx, e.acc, e.hint, BitVec.ofNat 8 valid] ++ bytesOf 4 0
/-- R361: the fields of a layout command. -/
def layoutField (s : State) (ctx i off n : Nat) : Nat := s.readNat ((s.context ctx).area + 0x9000 + 64 * (i % 64) + off) n
/-- R361, R363: a command that is badly formed. -/
def BadCommand (s : State) (ctx i : Nat) : Prop :=
  let f (off n : Nat) : Nat := layoutField s ctx i off n
  (f 0 4 ≠ 1 ∧ f 0 4 ≠ 2) ∨ f 4 4 < 1 ∨ 65536 < f 4 4 ∨ 65536 < f 8 4 + f 4 4 ∨ f 0xC 4 ≠ 0 ∨ f 0x20 32 ≠ 0 ∨
    (f 0 4 = 1 ∧ f 0x10 8 % 64 ≠ 0) ∨ f 0x18 8 % 8 ≠ 0
/-- Every page of a range answers an access of a context's firmware. -/
def Mapped (s : State) (ctx d : Nat) (acc : Acc) (va n : Nat) : Prop :=
  ∃ a, probePieces (askerDie ctx d) acc (rangePieces va n) s = (a, none, false)
/-- R362: an entry as it is installed for a context: CTX and VALID set, the rest as it came. -/
def Installed (ctx : Nat) (e x : BitVec 512) : Prop :=
  x.extractLsb' (8 * 0x36) 8 = BitVec.ofNat 8 ctx ∧ x.getLsbD (8 * 0x35 + 7) = true ∧
    ∀ b, b ≠ 8 * 0x35 + 7 → b / 8 ≠ 0x36 → x.getLsbD b = e.getLsbD b
def layoutOf (s : State) (ctx h : Nat) : BitVec 512 := s.layoutEntry ctx h

/-- The word of an agent that does not wait: written where its page is there and not lost (R363). -/
def wordAt (a : State) (d ctx : Nat) (va w : Word64) : State :=
  match translate a (askerDie ctx d) va.toNat .write with
  | (x, .ok pa _) => if x.lost pa then a else x.writeHome pa (bytesOf 8 w.toNat)
  | (_, .fault _ _ _) => a

/-- The bytes of a page. -/
def inPage (pa n a : Nat) : Prop := pa ≤ a ∧ a < pa + n
def overlap (pa n pb m : Nat) : Prop := pa < pb + m ∧ pb < pa + n
/-- No L1 holds a line of a range, and no L2 a dirty one. -/
def Flushed (s : State) (pa n : Nat) : Prop :=
  ∀ l, pa < 128 * l + 128 → 128 * l < pa + n → (s.line l).owner = none ∧ (s.line l).sharers = 0 ∧ (s.line l).dirty = false ∧
    (s.line l).l2Dirty = false
/-- The same entry of a table, or apart from it. -/
def Apart (a b : Nat) : Prop := a = b ∨ a + 8 ≤ b ∨ b + 8 ≤ a
/-- An entry that leads into a page that has moved. -/
def MovedEntry (pa new d : Nat) (e x : Word64) : Prop :=
  pteAddr x = new + (pteAddr e - pa) ∧ pteHome x = d ∧
    ∀ b, (b < 8 ∨ 52 ≤ b) → (b < 56 ∨ 60 ≤ b) → x.getLsbD b = e.getLsbD b

end Sys2Proof.Claims


/-- R418, R449: the oldest kill record whose ring takes it stands in the ring of its context, KPOST counts it and MSI-X vector 0
is raised; its pack's resources are then free.
It rests on log 48, the model's own reading. -/
def Sys2Proof.Claims.KillRecords : Prop :=
  ∀ (s : State) (d : Nat) (pre post : List KillRec) (r : KillRec), (s.die d).kills = pre ++ r :: post →
    (∀ y ∈ pre, ¬ RingTakes s y) → RingTakes s r →
    let b := s.modDie d fun x => { x with kills := pre ++ post }
    let area := (s.context r.ctx).area
    let n := control s r.ctx 0x30
    exec (.killRecordWrite d) s = .next ((if area = 0 then b
      else pendingMsix (putControl ((b.correct area 64).writeHome (area + 0xA000 + 32 * (n % 128)) (killBytes r)) r.ctx 0x30 (n + 1)) r.ctx 0).sweep
        r.pack)

/-- R299, R327, R328, R431: the oldest entry that waits enters a fault ring of 2^n entries that has room, with the next SEQ: its
fields are written at the next place of the ring, and then VALID, unless the ring has no place in memory yet; the
firmware serves the oldest of the ring whose page is not on its way to host ownership: with a page, every requester of its page
resumes, a streamer copy too, one that was in its probe by going on with it; without a page, its context is terminated.
It rests on log 44 and log 55, the model's own readings. -/
def Sys2Proof.Claims.FaultQueues : Prop :=
  ∀ (s : State) (d : Nat),
    (∀ e rest, (s.die d).faultWait = e :: rest → (s.die d).faultProd - (s.die d).faultCons < 2 ^ (s.die d).faultLog →
      let base := (s.die d).faultBase
      let place := base + 32 * ((s.die d).faultProd % 2 ^ (s.die d).faultLog)
      let x := { e with seq := (s.die d).faultSeq % 2 ^ 32, place := if base = 0 then 0 else place }
      let b := s.setDie d { s.die d with
        faultWait := rest, faults := (s.die d).faults ++ [x],
        faultSeq := (s.die d).faultSeq + 1, faultProd := (s.die d).faultProd + 1 }
      exec (.faultQueueEntryWrite d) s = .next (if base = 0 then b else (b.writeHome place (faultBytes x 0)).writeHome (place + 0x1B) [1])) ∧
    ∀ pre e rest, s.up = true → (s.die d).faults = pre ++ e :: rest → (∀ y ∈ pre, Meets s (fun _ => True) y) →
      ¬ Meets s (fun _ => True) e →
      exec (.faultService d none) s = .next (s.terminate e.ctx 1) ∧
      ∀ w b, s.mapPage e.ctx (e.va.toNat % 2 ^ 52) w = some b → ∃ t, exec (.faultService d (some w)) s = .next t ∧
        (let same (f : FaultEntry) : Prop := f = e ∨ f.covers e.ctx e.va = true
         ((∀ f ∈ (b.die d).faults, same f → ∀ r ∈ f.list, ∀ cl c, asks b r cl c → c.probing = false) →
          t.mem = b.mem ∧ (∀ f, f ∈ (t.die d).faults ↔ f ∈ (b.die d).faults ∧ ¬ same f) ∧
          (t.die d).faultCons = (b.die d).faultCons + ((b.die d).faults.filter fun f => decide (f = e) || f.covers e.ctx e.va).length ∧
          ∀ f ∈ (b.die d).faults, same f → ∀ r ∈ f.list,
            (∀ u who lanes, r = .party u who lanes → ∀ p, t.party u who = some p → p.replay &&& lanes = 0) ∧
            ∀ cl c, asks b r cl c → ∃ x, asks t r cl x ∧ x.pageWait = false) ∧
         ∀ cl c k, e.list = [.copy cl c.id] → (∀ f ∈ (b.die d).faults, same f → f = e) → (b.die d).faults.Nodup →
           asks b (.copy cl c.id) cl c → b.pack c.pack = some k → c.probing = true →
           t = (b.modDie d fun x => { x with
             faults := x.faults.erase e, faultCons := x.faultCons + 1 }).probeCopy k cl { c with pageWait := false })

/-- R436, R446: a virtual-function reset ends everything of its context and clears its control words; it is no longer frozen.
It rests on log 51, the model's own reading. -/
def Sys2Proof.Claims.FunctionReset : Prop :=
  ∀ (s : State) (ctx : Nat), s.up = true → ctx ≠ 0 →
    ∃ t, exec (.virtualFunctionReset ctx) s = .next t ∧ Ended s t ctx ∧
    (t.context ctx).frozen = [] ∧ (t.context ctx).area = (s.context ctx).area ∧
    ((s.context ctx).area ≠ 0 → ∀ i, i < 64 → let a := (s.context ctx).area + i
      s.reservedAt a = false → t.byteAt a = 0)

/-- R306, R321, R326, R436: the words that the end of a context has to report, of its rows, its calls and its launches, are written
one after another, each where its page is there and not lost, and nothing else is; one of them, whose page is there and
not lost, stands in memory after it.
It rests on log 51, the model's own reading. -/
def Sys2Proof.Claims.ResetWords : Prop :=
  ∀ (s : State) (ctx : Nat), s.up = true → ctx ≠ 0 → (∀ e ∈ s.packs, e.2.ctx ≠ ctx) →
    let cleared (a : Nat) : Prop := (s.context ctx).area ≠ 0 ∧ ∃ i, i < 64 ∧ a = (s.context ctx).area + i
    ∃ t, exec (.virtualFunctionReset ctx) s = .next t ∧
      (∀ a, ¬ cleared a → t.byteAt a = ((lastWords s ctx).foldl (fun b x => wordAt b x.1 ctx x.2.1 x.2.2) s).byteAt a) ∧
      ∀ (d : Nat) (va w : Word64), lastWords s ctx = [(d, va, w)] →
        ∀ a pa e h, translate s (askerDie ctx d) va.toNat .write = (a, .ok pa e) →
        s.target pa = .dram h → s.lost pa = false → (∀ j, j < 8 → ¬ cleared (pa + j) ∧ s.reservedAt (pa + j) = false) →
        t.readNat pa 8 = w.toNat

/-- R447, R448: a function is enabled with a cleared submission area, its table root and no valid layout entry, when nothing of an
earlier context of its tag is left. -/
def Sys2Proof.Claims.FunctionEnable : Prop :=
  ∀ (s : State) (ctx area root d : Nat), s.up = true → ctx ≠ 0 → area ≠ 0 → s.target area = .dram d → (s.die d).status ≠ .offline →
    s.tagFree ctx = true → ∃ t, exec (.virtualFunctionEnable ctx area root) s = .next t ∧
      t.context ctx = { enabled := true, root, share := 0, snap := false, area, frozen := [], handles := [] } ∧
      (∀ c, c ≠ ctx → t.context c = s.context c) ∧
      (∀ a, t.byteAt a = if area ≤ a ∧ a < area + 65536 then 0 else s.byteAt a) ∧
      ∀ e ∈ t.layout, e.1 / 65536 ≠ ctx

/-- R33, R320, R321, R437: the settings of the firmware: a slice of 2^16 to 2^24 lines, T from 1 to 256, which closes the OPEN
batches that hold as many rows, the share group, and whether SNAP is accepted.
It rests on log 51, the model's own reading. -/
def Sys2Proof.Claims.FirmwareSettings : Prop :=
  ∀ (s : State) (d ctx n : Nat) (on : Bool), s.up = true →
    (16 ≤ n → n ≤ 24 → exec (.setSliceLength d n) s = .next (s.modDie d fun x => { x with sliceLog := n })) ∧
    (1 ≤ n → n ≤ 256 → exec (.setBatchThreshold d n) s = .next (s.modDie d fun x => { x with
      threshold := n, batches := x.batches.map fun b => if b.st = .opened ∧ n ≤ b.rows.length then { b with st := .ready } else b })) ∧
    (n < 256 → exec (.setShareGroup ctx n) s = .next (s.setContext ctx { s.context ctx with share := n })) ∧
    exec (.snapshotEnable ctx on) s = .next (s.setContext ctx { s.context ctx with snap := on })

/-- R448, R449, R452: a host posts to a ring of an enabled function, or writes another of its control words; a count that falls, or
runs more than the ring ahead of what is done, freezes the function; so does a KDONE above KPOST.
It rests on log 47 and log 74, the model's own readings. -/
def Sys2Proof.Claims.HostPosts : Prop :=
  ∀ (s : State) (ctx : Nat) (v : BitVec 64), s.up = true → (s.context ctx).enabled = true →
    ∀ i ∈ [(Instr.hostSubmissionPost ctx v, 0), (.layoutRingPost ctx v, 0x10)] ++
      [0x08, 0x18, 0x20, 0x28, 0x30, 0x38].map fun off => (Instr.hostControlWordWrite ctx off v, off),
    ∃ t, exec i.1 s = .next t ∧ PostChecked s (putControl s ctx i.2 v.toNat) t ctx

/-- R361 to R363: the next command of the layout ring of a function that is not stopped. SET installs its entries in ascending
handle order up to the first that is refused; INVAL clears VALID; a bad command, and one whose source or completion word is
not mapped, changes no entry; the completion word is written where its page is there, and the count of commands done rises.
What it reads of the area is corrected where it stands.
It rests on log 47, the model's own reading. -/
def Sys2Proof.Claims.LayoutCommands : Prop :=
  ∀ (s : State) (ctx : Nat), ctx < 256 → (s.context ctx).enabled = true → ¬ Stopped s ctx → control s ctx 0x18 < control s ctx 0x10 →
    let i := control s ctx 0x18
    let f (off n : Nat) : Nat := layoutField s ctx i off n
    let d := (s.homeDie (s.context ctx).area).getD 0
    let ev : Instr := if f 0 4 = 2 then .layoutInval ctx else .layoutSet ctx
    let source (j : Nat) : BitVec 512 := BitVec.ofNat 512 (ofBytes (lookBytes s (askerDie ctx d) (f 0x10 8 + 64 * j) 64))
    let c := (s.correct (s.context ctx).area 64).correct ((s.context ctx).area + 0x9000 + 64 * (i % 64)) 64
    let ends (code reason index : Nat) (entries : State → Prop) : Prop :=
      let a := (c.layoutEffect ctx d (s.layoutCmd ctx i)).1
      let b := if f 0x18 8 % 8 = 0 then wordAt a d ctx (u64 (f 0x18 8)) (u64 (index * 2 ^ 32 + reason * 256 + code)) else a
      let t := b.writeHome ((s.context ctx).area + 0x18) (bytesOf 8 (i + 1))
      exec ev s = .next t ∧ entries t
    (BadCommand s ctx i → ends 3 0 0 fun t => t.layout = s.layout) ∧
    (¬ BadCommand s ctx i →
      let there := (f 0 4 = 1 → Mapped s ctx d .read (f 0x10 8) (64 * f 4 4)) ∧ Mapped s ctx d .write (f 0x18 8) 8
      (¬ there → ends 4 0 0 fun t => t.layout = s.layout) ∧
      (there → f 0 4 = 2 → ends 1 0 0 fun t =>
        (∀ h, f 8 4 ≤ h → h < f 8 4 + f 4 4 → (layoutOf t ctx h).getLsbD (8 * 0x35 + 7) = false) ∧
        ∀ h, h < 65536 → h < f 8 4 ∨ f 8 4 + f 4 4 ≤ h → layoutOf t ctx h = layoutOf s ctx h) ∧
      (there → f 0 4 = 1 → ∀ m, m ≤ f 4 4 → (∀ j, j < m → layoutRefusal (source j) = none) →
        let done (t : State) : Prop := (∀ j, j < m → Installed ctx (source j) (layoutOf t ctx (f 8 4 + j))) ∧
          ∀ h, h < 65536 → h < f 8 4 ∨ f 8 4 + m ≤ h → layoutOf t ctx h = layoutOf s ctx h
        (m = f 4 4 → ends 1 0 0 done) ∧
        ∀ reason, m < f 4 4 → layoutRefusal (source m) = some reason → ends 2 reason (f 8 4 + m) done))

/-- R5, R357, R358: the firmware writes an entry of a table in device memory; a byte of a submission area that R448 does not name
ignores it. -/
def Sys2Proof.Claims.PageTableUpdates : Prop :=
  ∀ (s : State) (pa d : Nat) (e : BitVec 64), s.up = true → s.target pa = .dram d → pa % 8 = 0 →
    ∃ t, exec (.pageTableUpdate pa e) s = .next t ∧
      (∀ i, i < 8 → s.reservedAt (pa + i) = false → t.byteAt (pa + i) = e.extractLsb' (8 * i) 8) ∧
      ∀ a, a < pa ∨ pa + 8 ≤ a ∨ s.reservedAt a = true → t.byteAt a = s.byteAt a

/-- R208: a page passes to host ownership in steps: its translations go, and from then on it is present for nobody; the lane copies
under way into it complete; its dirty lines are written back; it passes; then its table entry, or the 16 entries of a
page of 32 MiB, are replaced, other entries that map it map nothing, and the accesses that met it resume.
It rests on log 53 and log 75, the model's own readings. -/
def Sys2Proof.Claims.OwnershipFlips : Prop :=
  (∀ (s : State) (ctx va place : Nat) (old entry : Word64), s.up = true → walk s ctx va = (.leaf, place, old) →
    (∀ f ∈ s.flips, ¬ overlap f.pa (2 ^ f.log) (pteAddr old) (2 ^ pteLog old)) →
    ∃ t, exec (.ownershipFlip ctx va entry) s = .next t ∧ { t with tlb := s.tlb, flips := s.flips } = s ∧
      (∀ x, x ∈ t.tlb ↔ x ∈ s.tlb ∧ ¬ overlap (pteAddr old) (2 ^ pteLog old) (pteAddr x.entry) (2 ^ x.log)) ∧
      t.flips = s.flips ++ [{ pa := pteAddr old, log := pteLog old, place, entry, stage := .invalidated }]) ∧
  (∀ (s t : State) (a : Asker) (va pa : Nat) (acc : Acc) (e : Word64), translate s a va acc = (t, .ok pa e) →
    ∀ f ∈ s.flips, ¬ inPage f.pa (2 ^ f.log) pa) ∧
  ∀ (s : State) (pre post : List Flip) (f : Flip), s.flips = pre ++ f :: post → (∀ y ∈ pre ++ post, y.pa ≠ f.pa) →
    let n := 2 ^ f.log
    let after (x : FlipStage) : List Flip := pre ++ { f with stage := x } :: post
    let under := ∃ e ∈ s.packs, ∃ c ∈ e.2.lcopies, ∃ m ∈ c.moves, overlap m.1 m.2.1 f.pa n
    (f.stage = .invalidated → (under → s.stepFlip f.pa = none) ∧
      (¬ under → s.stepFlip f.pa = some { s with flips := after .quiet })) ∧
    (f.stage = .quiet → ∃ t, s.stepFlip f.pa = some t ∧ Flushed t f.pa n ∧ t.mem = s.mem ∧ t.flips = after .written) ∧
    (f.stage = .written → s.stepFlip f.pa = some { s with flips := after .transferred }) ∧
    (f.stage = .transferred →
      let block := f.place / 128 * 128
      let own : List Nat := if f.log = 25 ∨ (pteLeaf f.entry = true ∧ pteSize f.entry = 2) then (List.range 16).map (block + 8 * ·)
        else [f.place]
      let maps (e : Nat × Word64) : Prop := pteLeaf e.2 = true ∧ inPage f.pa n (pteAddr e.2) ∧
        if f.log = 25 then e.1 / 128 ≠ f.place / 128 else e.1 ≠ f.place
      let open8 (p : Nat) : Prop := ∀ j, j < 8 → s.reservedAt (p + j) = false
      (∀ p ∈ own, open8 p) → (∀ e ∈ s.allEntries, maps e → open8 e.1) →
      (∀ e ∈ s.allEntries, maps e → (∀ p ∈ own, e.1 + 8 ≤ p ∨ p + 8 ≤ e.1) ∧ ∀ x ∈ s.allEntries, maps x → Apart e.1 x.1) →
      let hit (d : Nat) (y : FaultEntry) : Prop := y ∈ (s.die d).faults ++ (s.die d).faultWait ∧ Meets s (· = f) y
      (∀ d, d < 8 → ∀ y, hit d y → ∀ cl id, .copy cl id ∉ y.list) →
      ∃ t, s.stepFlip f.pa = some t ∧ t.flips = pre ++ post ∧ (∀ p ∈ own, t.readNat p 8 = f.entry.toNat) ∧
        (∀ e ∈ s.allEntries, maps e → (u64 (t.readNat e.1 8)).getLsbD 0 = false) ∧
        (∀ a, (∀ p ∈ own, ¬ inPage p 8 a) → (∀ e ∈ s.allEntries, maps e → ¬ inPage e.1 8 a) → t.byteAt a = s.byteAt a) ∧
        ∀ d, d < 8 → ∀ y, hit d y → y ∉ (t.die d).faults ++ (t.die d).faultWait ∧
          ∀ u who lanes, Requester.party u who lanes ∈ y.list → ∀ p, t.party u who = some p → p.replay &&& lanes = 0)

/-- R434: a page moves off a DRAINING die whole, and everything that names it follows: the table entries that lead into it, table
roots, submission areas, the rings of faults and monitored words.
It rests on log 53, the model's own reading. -/
def Sys2Proof.Claims.PageEvacuation : Prop :=
  ∀ (s : State) (pa log new d d' : Nat), s.up = true → s.memWf → s.target pa = .dram d → (s.die d).status = .draining →
    s.target new = .dram d' → (s.die d').status = .online → pa % 256 = 0 → new % 256 = 0 → new + 2 ^ log ≤ 2 ^ 52 →
    let n := 2 ^ log
    let into (e : Nat × Word64) : Prop := e ∈ s.allEntries ∧ inPage pa n (pteAddr e.2)
    ¬ overlap new n pa n → (∀ f ∈ s.flips, ¬ overlap f.pa (2 ^ f.log) pa n) →
    (∀ a, inPage new n a → s.target a = .dram d') → (∀ e, into e → pteLeaf e.2 = true → pteLog e.2 ≤ log) →
    (∀ e, into e → ¬ overlap e.1 8 pa n ∧ ¬ overlap e.1 8 new n ∧ ∀ x, into x → Apart e.1 x.1) →
    (∀ e, into e → ∀ j, j < 8 → s.reservedAt (e.1 + j) = false) →
    let moved (a : Nat) : Nat := if pa ≤ a ∧ a < pa + n then new + (a - pa) else a
    ∃ t, exec (.pageEvacuation pa log new) s = .next t ∧
      (∀ j, j < n → t.byteAt (new + j) = s.byteAt (pa + j) ∧ t.byteAt (pa + j) = 0) ∧
      (∀ e, into e → MovedEntry pa new d' e.2 (u64 (t.readNat e.1 8))) ∧
      (∀ a, ¬ inPage pa n a → ¬ inPage new n a → (∀ e, into e → ¬ inPage e.1 8 a) → t.byteAt a = s.byteAt a) ∧
      (∀ c x, cget s.ctxs c = some x → cget t.ctxs c = some { x with
        root := if x.enabled = true ∨ x.root ≠ 0 then moved x.root else 0, area := if x.area = 0 then 0 else moved x.area }) ∧
      (∀ c, c < 8 → (t.die c).faultBase = if (s.die c).faultBase = 0 then 0 else moved (s.die c).faultBase) ∧
      ∀ m ∈ t.monitors, ¬ inPage pa n m.pa


/-! ### Hosts, peers, dies, power and bring-up (spec/01, spec/07, spec/08, spec/14, spec/15, spec/18) -/

namespace Sys2Proof.Claims
open Sys2Proof.Machine

/-- R245, R450: the address of an access from outside, its bytes, and what it leaves in memory. -/
def outerStart : OuterAccess → Nat
  | .read pa _ | .write pa _ | .atomic pa _ _ _ _ => pa
def outerNew' (a : OuterAccess) (s : State) : List Byte :=
  match a with
  | .read _ _ => []
  | .write _ bs => bs
  | .atomic pa wide op x cmp =>
    let w := if wide then 64 else 32
    let old := s.readNat pa (w / 8)
    bytesOf (w / 8) (if op = 10 then (if old = cmp.toNat % 2 ^ w then x.toNat % 2 ^ w else old)
      else ((atomics[op]?).map fun e => e.2 w old (x.toNat % 2 ^ w)).getD 0)
/-- The number of bytes of an access from outside. -/
def outerCount : OuterAccess → Nat
  | .read _ n => n
  | .write _ bs => bs.length
  | .atomic _ wide _ _ _ => if wide then 8 else 4
/-- What an access to one line may do to another: a full L2 drops one (R2), and a monitored line leaves every L1 (R351). -/
def OtherLine (x y : Line) : Prop :=
  y = x ∨ (y.owner = none ∧ y.sharers = 0 ∧ y.dirty = false) ∨
    ({ y with inL2 := x.inL2, l2Dirty := x.l2Dirty, l2 := x.l2 } = x ∧ y.inL2 = false)
/-- The access has been performed at the home slice: no L1 holds its line, and memory holds its new bytes, where they are not
ignored. -/
def Performed (a : OuterAccess) (ignored : Nat → Prop) (s t : State) : Prop :=
  let new := outerNew' a s
  (∀ i, i < new.length → ¬ ignored (outerStart a + i) → t.byteAt (outerStart a + i) = (new[i]?).getD 0) ∧
  (∀ n, (n < outerStart a ∨ outerStart a + new.length ≤ n ∨ ignored n) → t.byteAt n = s.byteAt n) ∧
  (t.line (outerStart a / 128)).owner = none ∧ (t.line (outerStart a / 128)).sharers = 0 ∧
  (∀ l, l ≠ outerStart a / 128 → OtherLine (s.line l) (t.line l)) ∧
  (∀ d, { t.die d with softL2 := (s.die d).softL2, softDram := (s.die d).softDram } = s.die d) ∧
  (∀ c, { t.cluster c with counters := (s.cluster c).counters } = s.cluster c) ∧
  { t with mem := s.mem, stale := s.stale, unc := s.unc, corr := s.corr, lines := s.lines, dies := s.dies,
           clusters := s.clusters, packs := s.packs, monitors := s.monitors, choices := s.choices } = s
/-- No byte of the access is ignored. -/
def nothing (_ : Nat) : Prop := False
/-- R5, R448: a byte of the submission area of a function that R448 does not name. -/
def Reserved (s : State) (pa : Nat) : Prop :=
  ∃ e ∈ s.ctxs, e.2.area ≠ 0 ∧ ∃ i, pa = e.2.area + i ∧ ((0x40 ≤ i ∧ i < 0x1000) ∨ (0xB000 ≤ i ∧ i < 0x10000))
/-- An address in device memory or in a host window. -/
def Local (s : State) (pa : Nat) : Prop := s.target pa ≠ .absent ∧ ∀ l, s.target pa ≠ .peer l
def isRead : OuterAccess → Prop
  | .read _ _ => True
  | .write _ _ | .atomic _ _ _ _ _ => False
/-- The access begins in the control words of an enabled function's submission area (R448). -/
def AtControl (e : Nat × Context) (a : OuterAccess) : Prop :=
  e.2.enabled = true ∧ e.2.area ≤ outerStart a ∧ outerStart a < e.2.area + 0x40
/-- R450: the access lies in a window that a link's remote package has been granted. -/
def InGrant (s : State) (l p : Nat) (a : OuterAccess) : Prop :=
  ∃ g ∈ s.grants, g.link = l ∧ g.package = p ∧ g.base ≤ outerStart a ∧ outerStart a + outerCount a ≤ g.base + g.size
/-- R452: the link's service has ended. -/
def linkFrozen (s : State) (l : Nat) : State := { s with linkFrozen := s.linkFrozen ||| BitVec.twoPow 12 l }

/-- R451: the units that a holder has above its floor; holders 0 to 7 are the compute dies, 8 and 9 the Woad dies, 10 Umber, 11 the
pool. -/
def spare (s : State) (h : Nat) : Nat := (s.held[h]?).getD 0 - (if h < 8 then 160 else if h < 10 then 45 else if h = 10 then 60 else 0)
/-- R451: whom a die asks, in this order. -/
def askedBy (b : Nat) : List Nat := 11 :: if b < 8 then (List.range 7).map fun i => (b + 1 + i) % 8 else List.range 8
/-- Units have moved from one holder to another. -/
def UnitsMoved (s t : State) (a b n : Nat) : Prop :=
  t.held.length = s.held.length ∧
    ∀ h, h < 12 → (t.held[h]?).getD 0 = (s.held[h]?).getD 0 + (if h = b then n else 0) - (if h = a then n else 0)
def lent (s : State) (l b : Nat) : Option Loan := s.loans.find? fun x => x.lender == l && x.borrower == b
/-- R434: a die's state and the status of its last request. -/
def withStatus (s : State) (d : Nat) (st : DieStatus) (r : OfflineRequest) : State :=
  s.modDie d fun x => { x with status := st, request := r }

/-- R453: both signatures of an image verify under the keys whose digests are fused, and its version is not below the fuse. -/
def Accepted (x : SignedImage) : Prop :=
  x.rsaOk = true ∧ x.slhOk = true ∧ x.rsaKey = Config.rsaDigest ∧ x.slhKey = Config.slhDigest ∧ Config.fusedVersion ≤ x.version
/-- R455: how far bring-up brings the host ports. -/
def PortAfter (x : BringUp) (p : Port) : Prop :=
  ((x.power = false ∨ x.boot = false) → p = .silent) ∧
  (x.power = true → x.boot = true → (Accepted x.image → p = .exposed) ∧ (¬ Accepted x.image → p = .recovery))
/-- A warp that has landed on a die, or is on its way there (R435). -/
def LandedOn (d : Nat) (p : Party) : Prop :=
  p.detached = true ∧ p.ended = false ∧ (p.life = .migrating d ∨ (p.life = .running ∧ p.place.cluster / 12 = d))

end Sys2Proof.Claims


/-- R5, R206, R245, R448, R450, R452: accesses of hosts and peers are performed at the home slice; a write of either to reserved bytes of a
submission area is ignored, as every write of a program or an agent is, and a host's to its control words is checked as a post
is. A peer reaches what lies in a window
granted to it; any other access of it, and a malformed flit, freeze its link; an idle link performs nothing. A host snoop
recalls its line.
It rests on log 47, the model's own reading. -/
def Sys2Proof.Claims.OutsideAccesses : Prop :=
  (∀ (s : State) (pa : Nat), s.reservedAt pa = true ↔ Reserved s pa) ∧
  (∀ (s : State) (cl pa : Nat) (h : Alloc) (bs : List Byte) (x : Nat), s.reservedAt x = true →
    (s.writeBy cl pa h bs).byteAt x = s.byteAt x ∧ (s.writeHome pa bs).byteAt x = s.byteAt x) ∧
  ∀ (s : State) (a : OuterAccess), s.up = true →
    (a.wf = true → Local s (outerStart a) →
      (isRead a → ∃ t, exec (.hostMemoryAccess a) s = .next t ∧ Performed a nothing s t) ∧
      (¬ isRead a → (∀ e ∈ s.ctxs, ¬ AtControl e a) →
        ∃ t, exec (.hostMemoryAccess a) s = .next t ∧ Performed a (Reserved s) s t) ∧
      ∀ pre e post, ¬ isRead a → s.ctxs = pre ++ e :: post → AtControl e a → (∀ x ∈ pre ++ post, ¬ AtControl x a) →
        s.context e.1 = e.2 →
        ∃ b t, exec (.hostMemoryAccess a) s = .next t ∧ Performed a (Reserved s) s b ∧ PostChecked s b t e.1) ∧
    (∀ l, l < 12 →
      ((s.linkDown.getLsbD l = true ∨ s.linkFrozen.getLsbD l = true) → ∀ f : PeerFlit, f.wf = true →
        exec (.peerAccess l f) s = .next s) ∧
      (s.linkDown.getLsbD l = false → s.linkFrozen.getLsbD l = false →
        (∀ p, a.wf = true →
          (InGrant s l p a → Local s (outerStart a) → ∃ t, exec (.peerAccess l (.access p a)) s = .next t ∧ Performed a (Reserved s) s t) ∧
          (InGrant s l p a → ¬ Local s (outerStart a) → exec (.peerAccess l (.access p a)) s = .next s) ∧
          (¬ InGrant s l p a → exec (.peerAccess l (.access p a)) s = .next (linkFrozen s l))) ∧
        exec (.peerAccess l .malformed) s = .next (linkFrozen s l) ∧
        ∀ p base size, 0 < size →
          exec (.peerAccess l (.request p base size true)) s =
            .next { s with grants := s.grants ++ [{ link := l, package := p, base, size }] } ∧
          exec (.peerAccess l (.request p base size false)) s = .next s)) ∧
    ∀ pa h, s.target pa = .host h → ∃ t, exec (.hostSnoop pa) s = .next t ∧ t.mem = s.mem ∧
      (t.line (pa / 128)).owner = none ∧ (t.line (pa / 128)).sharers = 0 ∧ (t.line (pa / 128)).dirty = false ∧
      ∀ l, l ≠ pa / 128 → OtherLine (s.line l) (t.line l)

/-- R206, R450, R452: a link goes down, or is retrained after a freeze; the firmware defines a window, or ends one. -/
def Sys2Proof.Claims.LinksAndWindows : Prop :=
  ∀ (s : State) (l w : Nat) (x : Window), s.up = true →
    (l < 12 → exec (.peerLinkDown l) s = .next { s with linkDown := s.linkDown ||| BitVec.twoPow 12 l }) ∧
    (s.linkFrozen.getLsbD l = true → exec (.linkRetrain l) s =
      .next { s with linkFrozen := s.linkFrozen &&& ~~~(BitVec.twoPow 12 l) }) ∧
    (1 ≤ w → w < 4096 → exec (.windowDefinition w (some x)) s = .next { s with windows := cset s.windows w x } ∧
      exec (.windowDefinition w none) s = .next { s with windows := cdel s.windows w })

/-- R451: a borrow request goes to the first holder in its order that can lend, which grants what it has above its floor; a lender
recalls units that are lent, and the borrower repays what is recalled.
It rests on log 50, the model's own reading. -/
def Sys2Proof.Claims.PowerLoans : Prop :=
  ∀ (s : State), s.up = true → s.held.length = 12 →
    (∀ b l n pre post, b < 10 → 0 < n → askedBy b = pre ++ l :: post → l ∉ pre → (∀ x ∈ pre, spare s x = 0) →
      let g := min n (spare s l)
      ∃ t, exec (.borrowRequest b l n) s = .next t ∧ { t with held := s.held, loans := s.loans } = s ∧ UnitsMoved s t l b g ∧
        (g = 0 → t = s) ∧ (g ≠ 0 → lent t l b = some (match lent s l b with
          | some x => { x with units := x.units + g }
          | none => { lender := l, borrower := b, units := g, recalled := 0 }))) ∧
    ∀ l b n x, lent s l b = some x → 0 < n →
      (x.recalled + n ≤ x.units → ∃ t, exec (.loanRecall l b n) s = .next t ∧ { t with loans := s.loans } = s ∧
        lent t l b = some { x with recalled := x.recalled + n }) ∧
      (n ≤ x.recalled → n ≤ x.units → n ≤ (s.held[b]?).getD 0 → l < 12 → b < 12 → l ≠ b → ∃ t, exec (.loanRepayment l b n) s = .next t ∧
        { t with held := s.held, loans := s.loans } = s ∧ UnitsMoved s t b l n ∧
        lent t l b = if x.units = n then none else some { x with units := x.units - n, recalled := x.recalled - n })

/-- R452: when a power guard trips and nobody can lend, its cluster is frozen and the RESIDENT packs there are pre-empted. -/
def Sys2Proof.Claims.PowerGuards : Prop :=
  ∀ (s : State) (cl : Nat), s.up = true → cl < 96 → (∀ h ∈ askedBy (cl / 12), spare s h = 0) →
    ∃ t, exec (.powerGuardTrip cl) s = .next t ∧ t.mem = s.mem ∧ t.cluster cl = { s.cluster cl with frozen := true } ∧
      (∀ n, n ≠ cl → t.cluster n = s.cluster n) ∧
      ∀ u k, s.pack u = some k → t.pack u = some (if k.cluster = cl ∧ k.state = .resident
        then { k with state := .draining, victimOf := none } else k)

/-- R434, R455: requests to take a die offline and their end; a die reset clears an OFFLINE die, and a cleared die is readmitted.
It rests on log 20 and log 49, the model's own readings. -/
def Sys2Proof.Claims.DieStates : Prop :=
  ∀ (s : State) (d : Nat), s.up = true → d < 8 →
    ((s.die d).status = .online →
      exec (.orderlyOfflineRequest d) s = .next (withStatus s d .draining .pending) ∧
      exec (.offlineRequestCancel d) s = .next s ∧ exec (.dieReadmission d) s = .next s) ∧
    ((s.die d).status = .draining →
      exec (.orderlyOfflineRequest d) s = .next s ∧
      exec (.evacuationFailed d) s = .next (withStatus s d .draining .failed) ∧
      exec (.offlineRequestCancel d) s = .next (withStatus s d .online .none) ∧
      (s.drained d = true → ∃ t, exec (.drainComplete d) s = .next t ∧ t.die d = { s.die d with status := .offline, request := .done } ∧
        t.mem = s.mem ∧ (s.held.length = 12 → (t.held[d]?).getD 0 = 0) ∧ ∀ x ∈ t.loans, x.borrower ≠ d ∧ x.lender ≠ d)) ∧
    ((s.die d).status = .offline →
      exec (.orderlyOfflineRequest d) s = .next (withStatus s d .offline .done) ∧
      exec (.offlineRequestCancel d) s = .next s ∧ exec (.forcedOffline d) s = .next s ∧
      ((s.die d).kills = [] → ∃ t, exec (.dieReset d) s = .next t ∧
        t.die d = { Die.zero with status := .offline, cleared := true, request := (s.die d).request } ∧
        (∀ a, t.byteAt a = if a / 2 ^ 36 = d then 0 else s.byteAt a) ∧
        (∀ i, i < 12 → t.cluster (12 * d + i) = Cluster.zero) ∧ (∀ g, g < 512 → t.group (512 * d + g) = GroupEntry.zero) ∧
        (∀ n, n < 1024 → t.slot (1024 * d + n) = Slot.zero) ∧ d ∉ t.lostDies) ∧
      ((s.die d).cleared = true → ∃ t, exec (.dieReadmission d) s = .next t ∧ { t with dies := s.dies } = s ∧
        t.die d = { s.die d with status := .online, cleared := false, request := .none } ∧ ∀ e, e ≠ d → t.die e = s.die e))

/-- R340, R383, R435: a die that is forced offline is lost at once: its packs and the warps landed there are killed, its groups and
slots are free, what stood in its queues is gone, and every context that owns a page of it is terminated.
It rests on log 49, the model's own reading. -/
def Sys2Proof.Claims.ForcedOffline : Prop :=
  ∀ (s : State) (d : Nat), s.up = true → d < 8 → (s.die d).status ≠ .offline →
    ∃ t, exec (.forcedOffline d) s = .next t ∧ (t.die d).status = .offline ∧ d ∈ t.lostDies ∧
      (∀ u k, t.pack u = some k → k.die = d → k.state = .retired) ∧
      (∀ u who p, s.party u who = some p → LandedOn d p → ∀ q, t.party u who = some q → q.ended = true) ∧
      (t.die d).batches = [] ∧ (t.die d).faults = [] ∧ (t.die d).faultWait = [] ∧ (t.die d).posters = [] ∧
      (t.die d).spill = [] ∧ (t.die d).spillWait = [] ∧ (t.die d).statusWrites = [] ∧
      (∀ i, i < 12 → (t.cluster (12 * d + i)).tasks = [] ∧ (t.cluster (12 * d + i)).mailbox = []) ∧
      (∀ g, g < 512 → (t.group (512 * d + g)).st = .free) ∧ (∀ n, n < 1024 → (t.slot (1024 * d + n)).st = .free) ∧
      (∀ e ∈ s.contexts, s.pagesOn e.2 d = true → (t.context e.1).enabled = false ∧ (e.1 = 0 → (t.context 0).root = 0) ∧
        ∀ m ∈ t.monitors, m.ctx ≠ e.1) ∧
      ∀ x ∈ t.loans, x.borrower ≠ d ∧ x.lender ≠ d

/-- R453, R455: a package reset leaves the state of bring-up: the host ports as far as it has come, the image that was loaded, and
every die OFFLINE whose self-test failed or that was not reached. While the ports are not exposed, nothing from outside
happens but a package reset.
It rests on log 50, the model's own reading. -/
def Sys2Proof.Claims.PackageResets : Prop :=
  ∀ (s : State) (x : BringUp),
    (∃ t p, exec (.packageReset x) s = .next t ∧ PortAfter x p ∧ t.ports = List.replicate 4 p ∧
      { t with dies := [], ports := State.reset.ports, images := [], version := 0, choices := 0 } = State.reset ∧
      t.choices = s.choices ∧ t.images = (if p = .exposed then [x.image.measure] else []) ∧
      t.version = (if p = .exposed then x.image.version else 0) ∧
      ∀ d, d < 8 → t.die d = if p = .exposed ∧ x.selfTest.getLsbD d = true then Die.zero else { Die.zero with status := .offline }) ∧
    (s.up = false → ∀ (a : OuterAccess) (f : PeerFlit) (n m : Nat) (v : BitVec 64), ∀ i ∈ [Instr.hostMemoryAccess a,
      .peerAccess n f, .hostSubmissionPost n v, .layoutRingPost n v, .hostControlWordWrite n m v, .virtualFunctionReset n,
      .virtualFunctionEnable n m m, .dieReset n, .dieReadmission n, .forcedOffline n, .orderlyOfflineRequest n],
      exec i s = .fault .notEnabled)

/-- R408, R437, R453, R454: an attestation report states the nonce, the part's identity, the security version, the measurements of the
loaded images, the dies that are ONLINE and the functions that are enabled, with two signatures; the debug port takes a
snapshot when the fuse allows it and the last has been read out; clearing a soft-error counter sets it to 0.
It rests on log 8, the model's own reading. -/
def Sys2Proof.Claims.SecurityAndCounters : Prop :=
  ∀ (s : State), s.up = true →
    (∀ nonce, ∃ body : Attested,
      exec (.attestationRequest nonce) s =
        .next { s with report := some (Report.mk body (Config.signatures body).1 (Config.signatures body).2) } ∧
      body.nonce = nonce ∧ body.identity = Config.identity ∧ body.version = s.version ∧ body.images = s.images ∧
      (∀ d, d ∈ body.dies ↔ d < 8 ∧ (s.die d).status = .online) ∧
      ∀ c, c ∈ body.functions ↔ ∃ e ∈ s.ctxs, e.1 = c ∧ e.2.enabled = true) ∧
    (Config.debugFuse = false ∨ s.triggered = true → exec .debugPortTrigger s = .next s) ∧
    (Config.debugFuse = true → s.triggered = false → ∃ t, exec .debugPortTrigger s = .next t ∧
      { t with trigger := s.trigger, triggered := false } = s ∧ t.triggered = true ∧
      t.trigger.extractLsb' 48 16 = s.trigger.extractLsb' 48 16 + 1 ∧ t.trigger.extractLsb' 32 16 = 1#16 ∧
      t.trigger.extractLsb' 0 32 = 0#32) ∧
    (s.triggered = true → exec .snapshotReadout s = .next { s with triggered := false }) ∧
    ∀ n m, n < 96 →
      (m = 0x30 → exec (.softErrorCounterClear n m) s = .next (s.modDie (n / 12) fun x => { x with softL2 := 0 })) ∧
      (m = 0x31 → exec (.softErrorCounterClear n m) s = .next (s.modDie (n / 12) fun x => { x with softDram := 0 })) ∧
      ((0x10 ≤ m ∧ m < 0x30) ∨ m = 0x32 → ∃ t, exec (.softErrorCounterClear n m) s = .next t ∧
        { t with clusters := s.clusters } = s ∧ { t.cluster n with counters := (s.cluster n).counters } = s.cluster n ∧
        rd 0 (t.cluster n).counters m = 0 ∧ (∀ j, j ≠ m → rd 0 (t.cluster n).counters j = rd 0 (s.cluster n).counters j) ∧
        ∀ c, c ≠ n → t.cluster c = s.cluster c)

/-- R51, R299, R377, R450: what no row of the opcode table names: a remote package stores to its own memory, which a peer window
shows; the firmware gives a fault ring its place and its size, which holds what is in it; the memory of a sequence slot is
struck, or a fetch line.
It rests on log 72, the model's own choice. -/
def Sys2Proof.Claims.OuterActs : Prop :=
  ∀ (s : State), s.up = true →
    (∀ pa l bs, s.target pa = .peer l → pa % 128 + bs.length ≤ 128 → ∃ t, s.outerAct (.peerStore pa bs) = some t ∧
      (∀ i, i < bs.length → t.byteAt (pa + i) = (bs[i]?).getD 0) ∧
      (∀ n, (n < pa ∨ pa + bs.length ≤ n) → t.byteAt n = s.byteAt n) ∧ { t with mem := s.mem, stale := s.stale } = s) ∧
    (∀ d base log h, d < 8 → s.target base = .dram h → base ≠ 0 → (s.die d).faultProd - (s.die d).faultCons ≤ 2 ^ log →
      s.outerAct (.faultRing d base log) = some (s.setDie d { s.die d with faultBase := base, faultLog := log })) ∧
    (∀ k, (s.slot k).st ≠ .free → s.outerAct (.strike (.slot k)) = some (s.setSlot k { s.slot k with bad := true })) ∧
    ∀ c pa, c < 96 → pa % 64 = 0 → icKey c pa ∉ s.linePar →
      s.outerAct (.strike (.fetch c pa)) = some { s with linePar := s.linePar ++ [icKey c pa] }


/-! ### Steps, words and reset (spec/01, spec/02, spec/18) -/

namespace Sys2Proof.Claims
open Sys2Proof.Machine

/-- R25 to R30: what an issue adds before the instruction of port 0 executes: it is counted, the warp's groups stand as the
issue divides them, and what port 1 is to do is known. -/
def charged (s : State) (u who : Nat) (p : Party) (first : Word64 × Lanes) (second : Option (Word64 × Lanes)) : State :=
  if who = spineWho then s.chargeSpine p.place
  else
    let pair := second.isNone && s.pairs u who p first.1 first.2
    let other := (second.map (·.2)).getD 0
    let q := ((p.merged.split first.2).split other).counted (first.2 ||| other)
    let b := (s.chargeIssue u who p.place pair).modParty u who fun x => { q with place := x.place }
    { b with
      agenda := q.countEvents u who ((lanesOf p.live).filter fun l => rd 0 p.yield l == 1) ++ b.agenda
      port1 := match second with
        | some g => some { pack := u, who, lanes := g.2, pc := g.1, regs := some p.regs }
        | none =>
          if pair then some { pack := u, who, lanes := first.2, pc := succAddr first.1, regs := none } else none }
/-- R25, R441: the result comes back later: of LD, LDS, ATOM and ACAS. -/
def Late (i : Instr) : Prop := (i.opSub.map (·.1.toNat)).getD 0 ∈ [0x90, 0x92, 0x95, 0x96]
/-- R50, R51, R80, R82: the group `c` executes what stands at its PC: the word that the slot of its line decodes to, or it
takes the first fault of the fetch. `go` is the step. -/
def Runs (go : Host.Outcome State Fault Refusal) (b : State) (c : Cur) : Prop :=
  (∀ x l, b.fetchLine c.pack c.who c.pc c.lanes = (x, .ok l) →
    let fault (code sub : Nat) : Prop := go = .next (takeFault x c (trapOf code sub c.lanes))
    (parOk l = false → fault 3 2) ∧
    (parOk l = true → (reservedOk l = false → fault 3 1) ∧
      (reservedOk l = true →
        (decode (slotWord l (slotOf c.pc)) = .error .opcode → fault 1 0) ∧
        (decode (slotWord l (slotOf c.pc)) = .error .field → fault 2 0) ∧
        ∀ i, decode (slotWord l (slotOf c.pc)) = .ok i →
          let r := exec i { x with cur := some c }
          (¬ Late i → go = r) ∧
          (Late i → (∀ t, r = .next t → go = .next (t.markBusy c i)) ∧ ((∀ t, r ≠ .next t) → go = r))))) ∧
  ∀ x f, b.fetchLine c.pack c.who c.pc c.lanes = (x, .error f) →
    go = .next (takeFault x c { trapOf f.code f.sub c.lanes with addr := f.addr, acc := 3, hint := f.hint })

/-- Register sources without modifiers, and a constant of R65. -/
def ofV (n : BitVec 8) : Src := .reg (.v n) false false
def ofS (n : BitVec 6) : Src := .reg (.s n) false false
def ofH (n : BitVec 3) : Src := .reg (.h n) false false
def ofConst (n : BitVec 8) : Src := .reg (.const n) false false

/-- An unguarded instruction of format A, M, B or E, whose other fields are zero. -/
def plainA : FmtA := FmtA.blank .always
def plainM : FmtM := ⟨.always, .v 0, 0, 0, ofV 0, 0, 0, ofV 0, 0⟩
def plainB : FmtB := ⟨.always, .v 0, 0, ofV 0, ofV 0, 0, 0⟩
def plainE : FmtE := ⟨.always, .v 0, 0, ofV 0, ofV 0, ofV 0, 0⟩

end Sys2Proof.Claims


/-- R24 to R31, R82, R84, R118: when a party's issue is due, the step executes the instruction at the PC of the group that is
selected, after what an issue adds; then the step executes port 1's; an event that is due, or chosen, occurs.
It rests on log 2, the model's own reading. -/
def Obligations.StepRunsDecoded : Prop :=
  (∀ (s : State) (u who : Nat) (rest : List Action) (k : Pack) (p : Party) (first : Word64 × Lanes)
      (second : Option (Word64 × Lanes)), s.port1 = none → s.agenda = .issue u who :: rest →
    let a := { s with agenda := rest }
    a.pack u = some k → a.party u who = some p → p.returning = 0 → p.choose (a.eligible u who k p) = some (first, second) →
    Runs (step s) (charged a u who p first second) (curOf u who first.2 first.1 0 p.regs)) ∧
  (∀ (s : State) (q : PortOne) (p : Party), s.port1 = some q → s.party q.pack q.who = some p →
    let x := p.split q.lanes
    (∃ g ∈ x.groups, g.lanes = q.lanes ∧ g.pc = q.pc ∧ g.wait = none ∧ g.held = false) →
    Runs (step s) (({ s with port1 := none }).setParty q.pack q.who x) (curOf q.pack q.who q.lanes q.pc 1
      (match q.regs with | none => p.regs | some r => { r with fpmode := p.regs.fpmode, fpflags := p.regs.fpflags }))) ∧
  (∀ (s : State) (i : Instr) (rest : List Action), s.port1 = none → s.agenda = .event i :: rest →
    let a := { s with agenda := rest }
    a.occurs i = true → step s = exec i a) ∧
  ∀ (s b : State) (i : Instr), s.port1 = none → s.agenda = [] → s.servedNow = none → s.dueSlices = [] →
    s.chosen = some (b, .event i) → step s = exec i b ∧ { b with choices := s.choices, passed := s.passed } = s

/-- R25, R441: the lanes that have left a load wait for its registers, and a group whose instruction reads or writes one of them is
not eligible; the others are. A result that comes back frees its registers. -/
def Sys2Proof.Claims.LoadResults : Prop :=
  (∀ (s : State) (c : Cur) (i : Instr) (sh : Shape) (p : Party) (m : Lanes), Late i → i.shape = some sh →
    s.party c.pack c.who = some p → m ≠ 0 → (∀ l, l < 64 → (m.getLsbD l = true ↔ c.lanes.getLsbD l = true ∧ p.pcOf l ≠ c.pc)) →
    let regs := sh.defs.flatMap fun d => specCells d.2 d.1
    regs ≠ [] → s.markBusy c i = s.setParty c.pack c.who { p with busy := p.busy ++ [{ lanes := m, regs }] }) ∧
  (∀ (s x : State) (u who : Nat) (k : Pack) (p : Party) (pc : Word64) (lanes : Lanes) (b : Busy) (i : Instr) (sh : Shape) (r : Spec),
    b ∈ p.busy → s.instrAt u who pc lanes = (x, .ok i) → i.shape = some sh → r ∈ b.regs → r ∈ shapeCells sh →
    ((∃ n, r = .v n) → b.lanes &&& lanes ≠ 0) → (pc, lanes) ∉ s.eligible u who k p) ∧
  (∀ (s : State) (u who : Nat) (k : Pack) (p : Party) (g : Group), p.merged.groups = [g] → k.executes p = true →
    k.mayIssue who p g ≠ 0 → p.pending = 0 → p.busy = [] →
    s.eligible u who k p = [(g.pc, k.mayIssue who p g)]) ∧
  ∀ (s : State) (u who : Nat) (p : Party) (b : Busy), s.party u who = some p →
    s.deliver u who b = s.setParty u who { p with busy := p.busy.erase b }

/-- R38: what could have moved and has not is passed over once more; what has been passed over as often as the part's bound lets
anything be moves, the longest passed over first.
It rests on log 2, the model's own reading. -/
def Sys2Proof.Claims.Progress : Prop :=
  (∀ (s b : State) (x a : Action), s.chosen = some (b, x) → a ∈ s.moves → a.optional = false → a ≠ x →
    b.passes a = s.passes a + 1) ∧
  ∀ (s : State) (a : Action), a ∈ s.moves → a.optional = false → Config.patience ≤ s.passes a →
    ∃ b x, s.chosen = some (b, x) ∧ x ∈ s.moves ∧ s.passes a ≤ s.passes x

/-- R54 to R81, R216, R355, R397, R420, R422: words, one at least of every family, written bit by bit from the spec's encoding tables, decode to
the instructions that they stand for. -/
def Obligations.WrittenWords : Prop :=
  ∀ e ∈ [
    (0x000700000000000000000000#96, Instr.nop plainA),
    (0x030701580008008000000000#96, .iadd { plainA with dst := .v 5, clamp := 3, a := ofV 1, b := ofV 2 }),
    (0x030701C00008844000000000#96, .iadd { plainA with dst := .v 7, a := ofV 1, b := ofConst 0x11 }),
    (0x10070180800084C000200000#96, .shl { plainA with dst := .v 6, a := .latch 0 false false, b := ofConst 0x13, ty := .u32 }),
    (0x43070100000A008006C80000#96,
      .ffma { plainA with dst := .v 4, a := ofV 1, b := .reg (.v 2) true false, c := ofV 3, ty := .f32, rm := .rtz }),
    (0x2607024000000000FFFFFFF9#96, .loops { plainB with link := .v 9, disp := -7 }),
    (0x240200000000000000000000#96, .yield { plainB with guard := .pred 2 false }),
    (0xF00700000000002A00000000#96, .trap ⟨.always, .v 0, 0, 0, 0x2A, 0⟩),
    (0x800750C00810850000600000#96, .kput { plainA with dst := .k 3, a := ofS 2, b := ofConst 0x14, ty := .u64 }),
    (0x830750801080850422600000#96,
      .karm { plainA with dst := .k 2, a := ofConst 0x10, b := ofConst 0x14, c := ofConst 0x11, ty := .u64 }),
    (0x900701110811000700000040#96,
      .ld false { plainM with data := .v 4, size := 2, scope := 1, base := ofS 2, order := 1, index := ofV 7, offset := 0x40 }),
    (0x970740030004000000000000#96, .fence { plainM with data := .s 0, scope := 3, order := 4 }),
    (0x9D2100A80800000200000000#96,
      .lcopy 2 { plainM with guard := .pred 1 false, data := .v 2, size := 5, base := ofS 0, index := ofV 2 }),
    (0xD817411C0811021000000000#96,
      .waitc .ne { plainM with data := .s 4, size := 3, scope := 4, base := ofS 2, order := 1, index := ofConst 0x10 }),
    (0xB00742400820418210200000#96,
      .scopy { plainE with token := .s 9, s1 := ofS 4, s2 := ofS 6, s3 := ofS 8, params := 0x0200000 }),
    (0xB11742C008A0454420268000#96,
      .scpmxArm { plainE with token := .s 11, s1 := ofS 20, s2 := ofS 21, s3 := ofConst 0x10, params := 0x0268000 }),
    (0xB80742400820414420268000#96,
      .mplane { plainE with token := .s 9, s1 := ofS 4, s2 := ofS 5, s3 := ofConst 0x10, params := 0x0268000 }),
    (0xC00742400820000000000000#96, .launch { plainE with token := .s 9, s1 := ofS 4 }),
    (0xD00760800820000000000000#96, .gopen { plainA with dst := .h 2, a := ofS 4 }),
    (0xD50744000C08434000600000#96, .gredAdd { plainA with dst := .s 16, a := ofH 1, b := ofS 13, ty := .u64 }),
    (0xE20702000C08000000206004#96, .sqmatch { plainA with dst := .v 8, a := ofH 1, ty := .u32, ext := 0x06004 }),
    (0xE6474280082841A000000000#96,
      .heapDraw { plainA with dst := .s 10, a := ofS 5, b := ofS 6, c := .latch 0 false false }),
    (0xE70740200818458208200000#96,
      .draw { plainA with dst := .s 0, wbs := true, a := ofS 3, b := ofS 22, c := ofS 4, ty := .u32 }),
    (0xEA0740C00C50850000000000#96, .awaitGe { plainA with dst := .s 3, a := .reg (.a 2) false false, b := ofConst 0x14 }),
    (0xF20740C01980000000600000#96, .mfs { plainA with dst := .s 3, a := .reg (.special .xcause) false false, ty := .u64 })],
    decode e.1 = .ok e.2

/-- R46, R67 to R81: every instruction that can be encoded is given back by its word, with every operand at every value that
its encoding admits. -/
def Obligations.EncodeDecode : Prop := ∀ i : Instr, i.encodable = true → ∃ w, encode i = some w ∧ decode w = .ok i

/-- R46, R67 to R81: a word that decodes is the one word of its instruction: no bit of it is dropped. -/
def Obligations.DecodeEncode : Prop := ∀ (w : Word96) (i : Instr), decode w = .ok i → encode i = some w

/-- R8, R33, R194, R330, R365, R411, R451, R455: right after reset every die is ONLINE, banks 0 to 7 are CACHE and the others SPAD, memory reads 0,
and every table is empty.
It rests on log 5 and log 10, the model's own readings. -/
def Obligations.ResetState : Prop :=
  let s := State.reset
  (∀ d, (s.die d).status = .online ∧ (s.die d).sliceLog = 20 ∧ (s.die d).batches = [] ∧ (s.die d).posters = [] ∧
    (s.die d).faults = [] ∧ (s.die d).killSeq = 0 ∧ (s.die d).launchCount = 0) ∧
  (∀ n b, ((s.cluster n).bank b).mode = if b < 8 then .cache else .spad) ∧
  (∀ n, (s.cluster n).tasks = [] ∧ (s.cluster n).copies = [] ∧ (s.cluster n).cmds = [] ∧ (s.cluster n).joins = [] ∧ (s.cluster n).arrivals = [] ∧
    (s.cluster n).heaps = [] ∧ (s.cluster n).mailbox = [] ∧ (s.cluster n).frozen = false ∧
    ∀ j, rd 0 (s.cluster n).counters j = 0) ∧
  (∀ g, (s.group g).st = .free ∧ (s.group g).gen = 0) ∧ (∀ n, (s.slot n).st = .free ∧ (s.slot n).gen = 0) ∧
  (∀ a, s.byteAt a = 0) ∧ (∀ l, s.line l = Line.zero) ∧ (∀ c h, s.layoutEntry c h = 0) ∧ (∀ c, (s.context c).enabled = false) ∧
  s.tlb = [] ∧ s.icache = [] ∧ s.monitors = [] ∧ s.packs = [] ∧ s.launches = [] ∧ s.unc = [] ∧ s.corr = [] ∧ s.loans = [] ∧
  s.held = [245, 245, 245, 245, 245, 245, 245, 245, 45, 45, 60, 90] ∧ s.trigger = 0 ∧ s.triggered = false ∧
  s.linkFrozen = 0 ∧ s.lostDies = [] ∧ s.up = true ∧ s.grants = [] ∧ s.flips = []

/-- Right after reset the memory has its one form.
It rests on log 10, the model's own reading. -/
def Obligations.ResetMemoryForm : Prop := State.reset.memWf

/-- Every step keeps the one form of the memory: addresses strictly rising, and no entry that holds what an unlisted address
reads as.
It rests on log 10, the model's own reading. -/
def Obligations.StepKeepsMemoryForm : Prop := ∀ s t : State, s.memWf → step s = .next t → t.memWf


/-! ### Rules stated whole -/

/-- R47: the slots of a line follow one another, and the first of the next line follows the last; a slot displacement reaches
the address whose position is that of the address plus the displacement. -/
def Obligations.InstructionAddresses : Prop :=
  ∀ line slot : Nat, line < 2 ^ 58 → slot < 5 →
    let a := u64 (line * 64 + slot)
    posOf a = line * 5 + slot ∧ slotOf a = slot ∧ lineVa a = line * 64 ∧
    succAddr a = (if slot < 4 then u64 (line * 64 + (slot + 1)) else u64 ((line + 1) * 64)) ∧
    ∀ (d : Word32) (n : Nat), ((line * 5 + slot : Nat) : Int) + d.toInt = n → n < 5 * 2 ^ 58 →
      dispAddr a d = u64 (n / 5 * 64 + n % 5)

/-- R331, R366: the fields of a group handle and of a sequence handle; neither family takes 0, the null handle, for a handle. -/
def Obligations.HandleLayouts : Prop :=
  ∀ (ctx : Nat) (gen : BitVec 8), ctx < 256 →
    (∀ entry, entry < 4096 → ∀ h, handleOf ctx entry gen = h →
      h.extractLsb' 32 32 = 0 ∧ (h.extractLsb' 24 8).toNat = ctx ∧ h.getLsbD 23 = false ∧
      (h.extractLsb' 20 3).toNat = entry / 512 ∧ h.extractLsb' 12 8 = gen ∧ (h.extractLsb' 0 12).toNat = entry) ∧
    (∀ die slot, die < 8 → slot < 1024 → ∀ h, seqHandle ctx (1024 * die + slot) gen = h →
      h.extractLsb' 32 32 = 0 ∧ (h.extractLsb' 24 8).toNat = ctx ∧ h.getLsbD 23 = false ∧
      (h.extractLsb' 20 3).toNat = die ∧ h.extractLsb' 12 8 = gen ∧ h.extractLsb' 10 2 = 0 ∧
      (h.extractLsb' 0 10).toNat = slot) ∧
    ∀ s : State, s.handleEntry ctx 0 = .error 4 ∧ s.seqKey ctx 0 = .error 4

/-- R94: IDIV completes with the quotient truncated toward zero and with the remainder dividend − quotient × divisor, which is zero or has the
dividend's sign; a divisor of 0 and the one quotient that does not fit are no faults and give the table's values. -/
def Obligations.IntegerDivision : Prop :=
  ∀ (o : FmtA) (s : State) (sh : Shape) (r c : Cur) (k : Pack) (p : Party),
    let corner (a b : Int) : Prop := o.ty.isSigned = true ∧ a = -((2 ^ (o.ty.elem - 1) : Nat) : Int) ∧ b = -1
    (Ready {} (.idivQ o) s sh r c k p → ∃ x : Option Nat → Nat,
      (∀ l, let a := elemI o s c l o.a 0
        let b := elemI o s c l o.b 0
        let q := intElem o.ty (x l) 0
        (b = 0 → q = if o.ty.isSigned then -1 else ((2 ^ o.ty.elem : Nat) : Int) - 1) ∧
        (corner a b → q = if o.clamp = 3#2 then ((2 ^ (o.ty.elem - 1) : Nat) : Int) - 1 else -((2 ^ (o.ty.elem - 1) : Nat) : Int)) ∧
        (b ≠ 0 → ¬ corner a b → (a - q * b).natAbs < b.natAbs ∧ (a - q * b = 0 ∨ (a - q * b < 0 ↔ a < 0)))) ∧
      Completes (.idivQ o) s c k p (Result c (some o.ty) o.ty.width o.dst o.wbs (own o) fun l => (x l, 0))) ∧
    (Ready {} (.idivR o) s sh r c k p → ∃ x : Option Nat → Nat,
      (∀ l, let a := elemI o s c l o.a 0
        let b := elemI o s c l o.b 0
        let m := intElem o.ty (x l) 0
        (b = 0 → m = a) ∧ (corner a b → m = 0) ∧
        (b ≠ 0 → (∃ q : Int, a = q * b + m) ∧ m.natAbs < b.natAbs ∧ (m = 0 ∨ (m < 0 ↔ a < 0)))) ∧
      Completes (.idivR o) s c k p (Result c (some o.ty) o.ty.width o.dst o.wbs (own o) fun l => (x l, 0)))

/-- R139: YIELD of a warp sets the yield countdown of each active lane to 8, in the uniform form of every lane of the issuing
group; it writes no register and its latch is INVALID. -/
def Obligations.YieldCountdowns : Prop :=
  ∀ (o : FmtB) (s : State) (sh : Shape) (r c : Cur) (k : Pack) (p : Party), Ready {} (.yield o) s sh r c k p →
    c.who ≠ spineWho → ∃ t q, exec (.yield o) s = .next t ∧ t.party c.pack c.who = some q ∧
      (∀ l, l < 64 → rd 0 q.yield l =
        if (sh.form = .lane ∧ c.active.getLsbD l = true) ∨ (sh.form = .unif ∧ c.lanes.getLsbD l = true) then 8
        else rd 0 p.yield l) ∧
      ValuesKept p.regs q.regs ∧ PredsKept p.regs q.regs ∧ Fixed p.regs q.regs ∧ q.regs.fpflags = p.regs.fpflags ∧
      Latched c p.regs q.regs noDeposit ∧ Advances c p q ∧ t.mem = s.mem

/-! ### The statements of several parts -/

/-- R125, R126, R127, R128, R129, R130, R131, R134, R136: Bit operations, shifts, bit fields, moves, counts and addresses, in
the parts named. -/
def Obligations.IntegerBitsAndMoves : Prop :=
  Claims.IntegerBits ∧ Claims.MovesAndCounts

/-- R71, R98, R99, R100, R101, R103, R104, R149 to R155, R155, R156, R158 to R160: Floating-point arithmetic, functions,
conversions and products, in the parts named. -/
def Obligations.FloatingPointAndConversions : Prop :=
  Claims.FloatingPoint ∧ Claims.ConversionsAndProducts ∧ Claims.Rounding ∧ Claims.CorrectFunctions

/-- R133, R135, R136, R153, R157, R164, R165, R170, R171, R172, R173: Comparisons, predicates, shuffles, votes and lane reads
and writes, in the parts named. -/
def Obligations.PredicatesAndLanes : Prop :=
  Claims.Predicates ∧ Claims.ValuesWithPredicates ∧ Claims.LaneSummaries ∧ Claims.LaneChoices

/-- R105, R106, R107, R111, R113, R114, R115, R161, R162: Block quantisation and dequantisation, in the parts named. -/
def Obligations.BlockQuantisation : Prop :=
  Claims.BlockQuantisation ∧ Claims.QuantisedBlocks ∧ Claims.DequantisedBlocks

/-- R49, R83, R137, R138: Branches, calls, returns and LOOPS, and where they fault, in the parts named. -/
def Obligations.Transfers : Prop :=
  Claims.Transfers ∧ Claims.TransferFaults

/-- R41, R82, R139, R140, R141, R143: YIELD, NOP, FENCE, EXIT, WSYNC and BAR, in the parts named. -/
def Obligations.YieldExitSynchronisation : Prop :=
  Claims.YieldAndNop ∧ Claims.Exit ∧ Claims.Synchronisation ∧ Claims.SynchronisationFaults ∧ Claims.DetachedBarriers

/-- R83, R211, R213, R214, R215: LD, ST and the atomics: bytes read and written, and the frame, in the parts named. -/
def Obligations.LoadsStoresAtomics : Prop :=
  Claims.Loads ∧ Claims.Stores ∧ Claims.Atomics ∧ Claims.AccessFaults

/-- R83, R200, R211, R213, R218: LDS, STS and SMARK, in the parts named. -/
def Obligations.ScratchpadAndMarks : Prop :=
  Claims.Scratchpad ∧ Claims.Marks ∧ Claims.ScratchpadFaults

/-- R195, R197, R198, R204, R219 to R222, R318: CMAINT, PREF, ICINV, IFENCE and BANKCFG, in the parts named. -/
def Obligations.MaintenanceAndBanks : Prop :=
  Claims.Maintenance ∧ Claims.BankConfiguration

/-- R68, R134, R177, R178, R179, R182 to R186, R188, R189, R190, R191, R193: Shared registers and remote deposit, in the parts
named. -/
def Obligations.SharedRegisters : Prop :=
  Claims.SharedRegisters ∧
  Claims.ClearAndStatus ∧
  Claims.SharedOperands ∧
  Claims.RemoteDeposit ∧
  Claims.DepositLanding ∧
  Claims.DetachedRequests

/-- R163, R166, R168, R177, R187: Combining steps, reductions into k registers and the waiter scan, in the parts named. -/
def Obligations.CombiningAndScan : Prop :=
  Claims.IntegerCombining ∧ Claims.ReductionsIntoShared ∧ Claims.WaiterScan

/-- R211, R401, R402, R404, R406, R407, R408, R409: Arrival counters, transfer counters, batch tags and counter reads, in the
parts named. -/
def Obligations.CountersAndTags : Prop :=
  Claims.ArrivalCounters ∧ Claims.TransferCounters ∧ Claims.TransferCounterFaults ∧ Claims.BatchTags ∧ Claims.CounterReads

/-- R75, R76, R82: The faults before the effect, in their order, in the parts named. -/
def Obligations.FaultOrder : Prop :=
  Claims.EncodingAndPrivilegeFaults ∧ Claims.FalseGuards ∧ Claims.LatchFaults

/-- R414, R416, R417, R420, R421, R427: Taking a trap and returning from it, in the parts named. -/
def Obligations.TrapsAndReturn : Prop :=
  Claims.CauseRegister ∧ Claims.TrapEntry ∧ Claims.Traps ∧ Claims.ReturnFromTrap ∧ Claims.ReturnAndMigrationFaults

/-- R35, R39, R40, R328, R416, R418: Replayable faults and fatal faults, in the parts named. -/
def Obligations.PageAndFatalFaults : Prop :=
  Claims.PageFaults ∧ Claims.FatalFaults ∧ Claims.FatalSpineFaults

/-- R422, R423, R437, R454: MFS, MTS and SNAP, in the parts named. -/
def Obligations.SpecialRegisters : Prop :=
  Claims.SpecialRegisterMoves ∧ Claims.Snapshots

/-- R427: MIGRATE and landing, in the parts named. -/
def Obligations.Migration : Prop :=
  Claims.Migration ∧ Claims.MigrationLanding

/-- R360, R430, R433: TLBINV and XLATE, in the parts named. -/
def Obligations.TlbAndQueries : Prop :=
  Claims.TlbInvalidation ∧ Claims.TranslationQueries

/-- R350 to R352, R353, R354, R355: WAITC, its wakes and evictions, and WAITX, in the parts named. -/
def Obligations.Monitors : Prop :=
  Claims.MonitorWaits ∧ Claims.MonitorWakes ∧ Claims.ParkedWarpEviction ∧ Claims.MonitorCancels ∧ Claims.MonitorOverflow

/-- R83, R224, R396, R439: LCOPY and its landing, in the parts named. -/
def Obligations.LaneCopies : Prop :=
  Claims.LaneCopies ∧ Claims.LaneCopyLanding ∧ Claims.LaneCopyFaults

/-- R332, R333, R334, R342, R347, R348: Group handles, GOPEN, GSTAT and GCLOSE, in the parts named. -/
def Obligations.GroupHandlesAndState : Prop :=
  Claims.GroupHandles ∧ Claims.GroupOpening ∧ Claims.GroupStatusAndClosing

/-- R335, R338, R339, R343, R344: GJOIN, GLEAVE and departures, in the parts named. -/
def Obligations.GroupMembership : Prop :=
  Claims.GroupMembership ∧ Claims.GroupDepartures

/-- R336, R337, R338, R345, R346: GBAR, GVOTE, GRED and phase completion, in the parts named. -/
def Obligations.GroupPhases : Prop :=
  Claims.GroupArrivals ∧ Claims.PhaseCompletion ∧ Claims.GroupResults

/-- R13, R253, R254, R255, R257, R258, R262, R263, R264, R270, R272: Streamer commands: faults, queueing and probes, in the
parts named. -/
def Obligations.StreamerCommands : Prop :=
  Claims.StreamerFaults ∧ Claims.CopyCommands ∧ Claims.ProbeOutcomes

/-- R259, R260, R262 to R264, R263 to R265, R267, R268, R270, R271: Pieces, completion and cancelling of copies, in the parts
named. -/
def Obligations.StreamerLanding : Prop :=
  Claims.RowElements ∧ Claims.PieceLanding ∧ Claims.CopyCompletion ∧ Claims.CopyCancelling

/-- R269, R270, R288: Join slots of SCPMX.ARM, in the parts named. -/
def Obligations.JoinSlots : Prop :=
  Claims.JoinSlots ∧ Claims.JoinFaults

/-- R279, R282, R288: Engine commands: checks and regions, in the parts named. -/
def Obligations.EngineCommands : Prop :=
  Claims.EngineCommands ∧ Claims.EngineRegions

/-- R110, R112, R283, R283 to R286, R284, R285, R287, R291 to R293, R294 to R296, R297, R408: Engine steps, completion and
batons, in the parts named. -/
def Obligations.EngineExecution : Prop :=
  Claims.EngineSteps ∧ Claims.EngineBytes ∧ Claims.EngineCompletion ∧ Claims.Batons

/-- R299, R302, R303, R307, R312, R313: LAUNCH: packet checks and the creation of packs, in the parts named. -/
def Obligations.Launches : Prop :=
  Claims.Launches ∧ Claims.LaunchChecks ∧ Claims.LaunchCreation

/-- R309, R310, R314, R315, R316, R317, R318: Task queues, spills and FIFO banks, in the parts named. -/
def Obligations.TaskQueues : Prop :=
  Claims.TaskQueues ∧ Claims.TaskTaking ∧ Claims.SpilledTasks ∧ Claims.FifoBanks

/-- R319 to R322, R321, R322: Posters, posted rows and the closing of batches, in the parts named. -/
def Obligations.BatchPosting : Prop :=
  Claims.Posters ∧ Claims.PostedRows ∧ Claims.BatchClosing

/-- R306, R323, R324, R327: BQGET, BQDONE and the words of the agents, in the parts named. -/
def Obligations.BatchTaking : Prop :=
  Claims.BatchTaking ∧ Claims.RowReports ∧ Claims.AgentWords

/-- R325, R326: SVC calls, their answers and their completion, in the parts named. -/
def Obligations.Services : Prop :=
  Claims.ServiceCalls ∧ Claims.ServiceAnswers ∧ Claims.ServiceCompletion

/-- R367, R368, R369 to R371, R371, R372, R374, R376, R377, R378, R382: Sequence slots: handles, opening, appending, matching,
in the parts named. -/
def Obligations.SequenceSlots : Prop :=
  Claims.SlotRequests ∧ Claims.SlotOpeningAndClosing ∧ Claims.SequenceAppends ∧ Claims.SequenceMatches

/-- R379, R380, R381: SQSAVE and SQLOAD, in the parts named. -/
def Obligations.SequenceImages : Prop :=
  Claims.SequenceImages ∧ Claims.SequenceLoads

/-- R385, R386 to R388, R388, R390, R391, R393, R429: Sampling heaps and DRAW, in the parts named. -/
def Obligations.Sampling : Prop :=
  Claims.SamplingHeaps ∧ Claims.HeapPushes ∧ Claims.HeapDraws ∧ Claims.ReproducibleDraws

/-- R25, R28, R38, R45, R408, R437, R441, R453, R454, R456: Skip counts, countdowns, load results, progress, clocks, and the
package counters, in the parts named. -/
def Obligations.IssueAndClocks : Prop :=
  Claims.IssueCounters ∧ Claims.LoadResults ∧ Claims.Progress ∧ Claims.ClockCycles ∧ Claims.SecurityAndCounters

/-- R35, R37, R116, R199, R201, R274, R276, R301, R305, R424, R425, R457: Placement, resumption and saving of packs, in the
parts named. -/
def Obligations.PackPlacement : Prop :=
  Claims.PackPlacement ∧ Claims.PackResume ∧ Claims.PackDrainComplete

/-- R32, R33, R457: Pre-emption by priority and at the end of a slice, in the parts named. -/
def Obligations.Preemption : Prop :=
  Claims.PriorityPreemption ∧ Claims.SliceExpiry

/-- R42, R303, R306, R449: Launch completion and host submissions, in the parts named. -/
def Obligations.LaunchesAndHost : Prop :=
  Claims.LaunchCompletion ∧ Claims.HostSubmissions

/-- R299, R306, R321, R326, R327, R328, R418, R431, R436, R446, R447, R448, R449: Kill records, fault queues, and virtual
functions, in the parts named. -/
def Obligations.FunctionsAndKills : Prop :=
  Claims.KillRecords ∧ Claims.FaultQueues ∧ Claims.FunctionReset ∧ Claims.ResetWords ∧ Claims.FunctionEnable

/-- R33, R320, R321, R361 to R363, R437, R448, R449, R452: Firmware settings, host posts and layout commands, in the parts
named. -/
def Obligations.FirmwareAndLayouts : Prop :=
  Claims.FirmwareSettings ∧ Claims.HostPosts ∧ Claims.LayoutCommands

/-- R5, R208, R357, R358, R434: Page tables, ownership flips and evacuation, in the parts named. -/
def Obligations.PageOwnership : Prop :=
  Claims.PageTableUpdates ∧ Claims.OwnershipFlips ∧ Claims.PageEvacuation

/-- R5, R51, R206, R245, R299, R377, R448, R450, R451, R452: Outside accesses, links, windows, loans and power guards, in the
parts named. -/
def Obligations.LinksAndPower : Prop :=
  Claims.OutsideAccesses ∧ Claims.OuterActs ∧ Claims.LinksAndWindows ∧ Claims.PowerLoans ∧ Claims.PowerGuards

/-- R340, R383, R434, R435, R453, R455: Dies going offline, forced offline, and package resets, in the parts named. -/
def Obligations.DiesAndPackage : Prop :=
  Claims.DieStates ∧ Claims.ForcedOffline ∧ Claims.PackageResets
end

