-- ==== Sys2Proof/Laws/Tables.lean ====
section
/-! SUPPORT. Sparse tables: what a read gives after a write, and that every operation keeps the canonical form. -/

namespace Sys2Proof.Machine

variable {α : Type}

theorem cget_cset (c : Cells α) (k j : Nat) (v : α) : cget (cset c k v) j = if k = j then some v else cget c j := by
  induction c with
  | nil => simp only [cset, cget]
  | cons e r ih =>
    obtain ⟨k', v'⟩ := e
    simp only [cset]
    split
    · rename_i h; subst h; simp only [cget]; split <;> simp_all
    · split
      · simp only [cget]
      · simp only [cget, ih]; split <;> split <;> simp_all

@[simp] theorem cget_cset_self (c : Cells α) (k : Nat) (v : α) : cget (cset c k v) k = some v := by
  simp [cget_cset]

theorem cget_cset_ne (c : Cells α) {k j : Nat} (v : α) (h : k ≠ j) : cget (cset c k v) j = cget c j := by
  simp [cget_cset, h]

theorem cget_cdel (c : Cells α) (k j : Nat) : cget (cdel c k) j = if k = j then none else cget c j := by
  unfold cdel
  induction c with
  | nil => simp [cget]
  | cons e r ih =>
    obtain ⟨k', v'⟩ := e
    simp only [List.filter_cons, bne_iff_ne, ne_eq]
    by_cases h : k' = k
    · subst h; simp only [not_true_eq_false, ↓reduceIte, ih, cget]
      by_cases h2 : k' = j <;> simp [h2]
    · simp only [h, not_false_eq_true, ↓reduceIte, cget, ih]
      by_cases h2 : k' = j
      · subst h2; simp [Ne.symm h]
      · simp [h2]

variable [DecidableEq α]

/-- Reading after writing, with a default. -/
theorem rd_wr (d : α) (c : Cells α) (k j : Nat) (v : α) : rd d (wr d c k v) j = if k = j then v else rd d c j := by
  unfold rd wr
  by_cases h : v = d
  · subst h; simp only [↓reduceIte, cget_cdel]; split <;> simp
  · simp only [h, ↓reduceIte, cget_cset]; split <;> simp

@[simp] theorem rd_wr_self (d : α) (c : Cells α) (k : Nat) (v : α) : rd d (wr d c k v) k = v := by simp [rd_wr]
theorem rd_wr_ne (d : α) (c : Cells α) {k j : Nat} (v : α) (h : k ≠ j) : rd d (wr d c k v) j = rd d c j := by
  simp [rd_wr, h]

/-! ### The canonical form -/

omit [DecidableEq α] in
theorem risingFrom_mono {lo lo' : Nat} {c : Cells α} (h : lo ≤ lo') (hc : risingFrom lo' c = true) :
    risingFrom lo c = true := by
  cases c with
  | nil => rfl
  | cons e r => simp only [risingFrom, Bool.and_eq_true, decide_eq_true_eq] at *; exact ⟨by omega, hc.2⟩

omit [DecidableEq α] in
theorem risingFrom_cset {lo k : Nat} {c : Cells α} (v : α) (hk : lo ≤ k) (hc : risingFrom lo c = true) :
    risingFrom lo (cset c k v) = true := by
  induction c generalizing lo with
  | nil => simp [cset, risingFrom, hk]
  | cons e r ih =>
    obtain ⟨k', v'⟩ := e
    simp only [risingFrom, Bool.and_eq_true, decide_eq_true_eq] at hc
    simp only [cset]
    split
    · rename_i h; subst h; simp [risingFrom, hc]
    · split
      · simp only [risingFrom, Bool.and_eq_true, decide_eq_true_eq]
        exact ⟨hk, by omega, hc.2⟩
      · simp only [risingFrom, Bool.and_eq_true, decide_eq_true_eq]
        exact ⟨hc.1, ih (by omega) hc.2⟩

omit [DecidableEq α] in
theorem risingFrom_filter {lo : Nat} {c : Cells α} (p : Nat × α → Bool) (hc : risingFrom lo c = true) :
    risingFrom lo (c.filter p) = true := by
  induction c generalizing lo with
  | nil => rfl
  | cons e r ih =>
    obtain ⟨k', v'⟩ := e
    simp only [risingFrom, Bool.and_eq_true, decide_eq_true_eq] at hc
    simp only [List.filter_cons]
    split
    · simp only [risingFrom, Bool.and_eq_true, decide_eq_true_eq]; exact ⟨hc.1, ih hc.2⟩
    · exact ih (risingFrom_mono (by omega) hc.2)

theorem canonical_filter {d : α} {c : Cells α} (p : Nat × α → Bool) (h : canonical d c = true) :
    canonical d (c.filter p) = true := by
  simp only [canonical, Bool.and_eq_true, List.all_eq_true, decide_eq_true_eq] at *
  exact ⟨risingFrom_filter p h.1, fun e he => h.2 e ((List.mem_filter.mp he).1)⟩

omit [DecidableEq α] in
theorem mem_cset {c : Cells α} {k : Nat} {v : α} {e : Nat × α} (h : e ∈ cset c k v) : e = (k, v) ∨ e ∈ c := by
  induction c with
  | nil => simp_all [cset]
  | cons x r ih =>
    obtain ⟨k', v'⟩ := x
    simp only [cset] at h
    split at h
    · rename_i hk; simp only [List.mem_cons] at *; grind
    · split at h
      · simp only [List.mem_cons] at *; grind
      · simp only [List.mem_cons] at *; grind

theorem canonical_wr {d : α} {c : Cells α} (k : Nat) (v : α) (h : canonical d c = true) :
    canonical d (wr d c k v) = true := by
  unfold wr
  split
  · exact canonical_filter _ h
  · rename_i hv
    simp only [canonical, Bool.and_eq_true, List.all_eq_true, decide_eq_true_eq] at *
    refine ⟨risingFrom_cset v (Nat.zero_le _) h.1, fun e he => ?_⟩
    rcases mem_cset he with rfl | he
    · exact hv
    · exact h.2 e he

end Sys2Proof.Machine
end

