-- ==== Sys2Proof/Laws/State.lean ====
section
/-! SUPPORT. What each update of the state leaves alone, field by field, and what a read gives after it. -/

namespace Sys2Proof.Machine

/-! ### setPack -/

@[simp] theorem State.setPack_mem (s : State) (u : Nat) (x : Pack) : (s.setPack u x).mem = s.mem := rfl
@[simp] theorem State.setPack_stale (s : State) (u : Nat) (x : Pack) : (s.setPack u x).stale = s.stale := rfl
@[simp] theorem State.setPack_unc (s : State) (u : Nat) (x : Pack) : (s.setPack u x).unc = s.unc := rfl
@[simp] theorem State.setPack_corr (s : State) (u : Nat) (x : Pack) : (s.setPack u x).corr = s.corr := rfl
@[simp] theorem State.setPack_lines (s : State) (u : Nat) (x : Pack) : (s.setPack u x).lines = s.lines := rfl
@[simp] theorem State.setPack_icache (s : State) (u : Nat) (x : Pack) : (s.setPack u x).icache = s.icache := rfl
@[simp] theorem State.setPack_linePar (s : State) (u : Nat) (x : Pack) : (s.setPack u x).linePar = s.linePar := rfl
@[simp] theorem State.setPack_windows (s : State) (u : Nat) (x : Pack) : (s.setPack u x).windows = s.windows := rfl
@[simp] theorem State.setPack_grants (s : State) (u : Nat) (x : Pack) : (s.setPack u x).grants = s.grants := rfl
@[simp] theorem State.setPack_flips (s : State) (u : Nat) (x : Pack) : (s.setPack u x).flips = s.flips := rfl
@[simp] theorem State.setPack_ports (s : State) (u : Nat) (x : Pack) : (s.setPack u x).ports = s.ports := rfl
@[simp] theorem State.setPack_images (s : State) (u : Nat) (x : Pack) : (s.setPack u x).images = s.images := rfl
@[simp] theorem State.setPack_version (s : State) (u : Nat) (x : Pack) : (s.setPack u x).version = s.version := rfl
@[simp] theorem State.setPack_tlb (s : State) (u : Nat) (x : Pack) : (s.setPack u x).tlb = s.tlb := rfl
@[simp] theorem State.setPack_ctxs (s : State) (u : Nat) (x : Pack) : (s.setPack u x).ctxs = s.ctxs := rfl
@[simp] theorem State.setPack_layout (s : State) (u : Nat) (x : Pack) : (s.setPack u x).layout = s.layout := rfl
@[simp] theorem State.setPack_groups (s : State) (u : Nat) (x : Pack) : (s.setPack u x).groups = s.groups := rfl
@[simp] theorem State.setPack_monitors (s : State) (u : Nat) (x : Pack) : (s.setPack u x).monitors = s.monitors := rfl
@[simp] theorem State.setPack_slots (s : State) (u : Nat) (x : Pack) : (s.setPack u x).slots = s.slots := rfl
@[simp] theorem State.setPack_trigger (s : State) (u : Nat) (x : Pack) : (s.setPack u x).trigger = s.trigger := rfl
@[simp] theorem State.setPack_triggered (s : State) (u : Nat) (x : Pack) : (s.setPack u x).triggered = s.triggered := rfl
@[simp] theorem State.setPack_launches (s : State) (u : Nat) (x : Pack) : (s.setPack u x).launches = s.launches := rfl
@[simp] theorem State.setPack_dies (s : State) (u : Nat) (x : Pack) : (s.setPack u x).dies = s.dies := rfl
@[simp] theorem State.setPack_clusters (s : State) (u : Nat) (x : Pack) : (s.setPack u x).clusters = s.clusters := rfl
@[simp] theorem State.setPack_lostDies (s : State) (u : Nat) (x : Pack) : (s.setPack u x).lostDies = s.lostDies := rfl
@[simp] theorem State.setPack_held (s : State) (u : Nat) (x : Pack) : (s.setPack u x).held = s.held := rfl
@[simp] theorem State.setPack_loans (s : State) (u : Nat) (x : Pack) : (s.setPack u x).loans = s.loans := rfl
@[simp] theorem State.setPack_linkDown (s : State) (u : Nat) (x : Pack) : (s.setPack u x).linkDown = s.linkDown := rfl
@[simp] theorem State.setPack_linkFrozen (s : State) (u : Nat) (x : Pack) : (s.setPack u x).linkFrozen = s.linkFrozen := rfl
@[simp] theorem State.setPack_msix (s : State) (u : Nat) (x : Pack) : (s.setPack u x).msix = s.msix := rfl
@[simp] theorem State.setPack_report (s : State) (u : Nat) (x : Pack) : (s.setPack u x).report = s.report := rfl
@[simp] theorem State.setPack_nextPack (s : State) (u : Nat) (x : Pack) : (s.setPack u x).nextPack = s.nextPack := rfl
@[simp] theorem State.setPack_nextId (s : State) (u : Nat) (x : Pack) : (s.setPack u x).nextId = s.nextId := rfl
@[simp] theorem State.setPack_agenda (s : State) (u : Nat) (x : Pack) : (s.setPack u x).agenda = s.agenda := rfl
@[simp] theorem State.setPack_cur (s : State) (u : Nat) (x : Pack) : (s.setPack u x).cur = s.cur := rfl
@[simp] theorem State.setPack_port1 (s : State) (u : Nat) (x : Pack) : (s.setPack u x).port1 = s.port1 := rfl
@[simp] theorem State.setPack_choices (s : State) (u : Nat) (x : Pack) : (s.setPack u x).choices = s.choices := rfl
@[simp] theorem State.setPack_passed (s : State) (u : Nat) (x : Pack) : (s.setPack u x).passed = s.passed := rfl

/-! ### modPack -/

@[simp] theorem State.modPack_mem (s : State) (u : Nat) (f : Pack → Pack) : (s.modPack u f).mem = s.mem := by unfold State.modPack; split <;> rfl
@[simp] theorem State.modPack_stale (s : State) (u : Nat) (f : Pack → Pack) : (s.modPack u f).stale = s.stale := by unfold State.modPack; split <;> rfl
@[simp] theorem State.modPack_unc (s : State) (u : Nat) (f : Pack → Pack) : (s.modPack u f).unc = s.unc := by unfold State.modPack; split <;> rfl
@[simp] theorem State.modPack_corr (s : State) (u : Nat) (f : Pack → Pack) : (s.modPack u f).corr = s.corr := by unfold State.modPack; split <;> rfl
@[simp] theorem State.modPack_lines (s : State) (u : Nat) (f : Pack → Pack) : (s.modPack u f).lines = s.lines := by unfold State.modPack; split <;> rfl
@[simp] theorem State.modPack_icache (s : State) (u : Nat) (f : Pack → Pack) : (s.modPack u f).icache = s.icache := by unfold State.modPack; split <;> rfl
@[simp] theorem State.modPack_linePar (s : State) (u : Nat) (f : Pack → Pack) : (s.modPack u f).linePar = s.linePar := by unfold State.modPack; split <;> rfl
@[simp] theorem State.modPack_windows (s : State) (u : Nat) (f : Pack → Pack) : (s.modPack u f).windows = s.windows := by unfold State.modPack; split <;> rfl
@[simp] theorem State.modPack_grants (s : State) (u : Nat) (f : Pack → Pack) : (s.modPack u f).grants = s.grants := by unfold State.modPack; split <;> rfl
@[simp] theorem State.modPack_flips (s : State) (u : Nat) (f : Pack → Pack) : (s.modPack u f).flips = s.flips := by unfold State.modPack; split <;> rfl
@[simp] theorem State.modPack_ports (s : State) (u : Nat) (f : Pack → Pack) : (s.modPack u f).ports = s.ports := by unfold State.modPack; split <;> rfl
@[simp] theorem State.modPack_images (s : State) (u : Nat) (f : Pack → Pack) : (s.modPack u f).images = s.images := by unfold State.modPack; split <;> rfl
@[simp] theorem State.modPack_version (s : State) (u : Nat) (f : Pack → Pack) : (s.modPack u f).version = s.version := by unfold State.modPack; split <;> rfl
@[simp] theorem State.modPack_tlb (s : State) (u : Nat) (f : Pack → Pack) : (s.modPack u f).tlb = s.tlb := by unfold State.modPack; split <;> rfl
@[simp] theorem State.modPack_ctxs (s : State) (u : Nat) (f : Pack → Pack) : (s.modPack u f).ctxs = s.ctxs := by unfold State.modPack; split <;> rfl
@[simp] theorem State.modPack_layout (s : State) (u : Nat) (f : Pack → Pack) : (s.modPack u f).layout = s.layout := by unfold State.modPack; split <;> rfl
@[simp] theorem State.modPack_groups (s : State) (u : Nat) (f : Pack → Pack) : (s.modPack u f).groups = s.groups := by unfold State.modPack; split <;> rfl
@[simp] theorem State.modPack_monitors (s : State) (u : Nat) (f : Pack → Pack) : (s.modPack u f).monitors = s.monitors := by unfold State.modPack; split <;> rfl
@[simp] theorem State.modPack_slots (s : State) (u : Nat) (f : Pack → Pack) : (s.modPack u f).slots = s.slots := by unfold State.modPack; split <;> rfl
@[simp] theorem State.modPack_trigger (s : State) (u : Nat) (f : Pack → Pack) : (s.modPack u f).trigger = s.trigger := by unfold State.modPack; split <;> rfl
@[simp] theorem State.modPack_triggered (s : State) (u : Nat) (f : Pack → Pack) : (s.modPack u f).triggered = s.triggered := by unfold State.modPack; split <;> rfl
@[simp] theorem State.modPack_launches (s : State) (u : Nat) (f : Pack → Pack) : (s.modPack u f).launches = s.launches := by unfold State.modPack; split <;> rfl
@[simp] theorem State.modPack_dies (s : State) (u : Nat) (f : Pack → Pack) : (s.modPack u f).dies = s.dies := by unfold State.modPack; split <;> rfl
@[simp] theorem State.modPack_clusters (s : State) (u : Nat) (f : Pack → Pack) : (s.modPack u f).clusters = s.clusters := by unfold State.modPack; split <;> rfl
@[simp] theorem State.modPack_lostDies (s : State) (u : Nat) (f : Pack → Pack) : (s.modPack u f).lostDies = s.lostDies := by unfold State.modPack; split <;> rfl
@[simp] theorem State.modPack_held (s : State) (u : Nat) (f : Pack → Pack) : (s.modPack u f).held = s.held := by unfold State.modPack; split <;> rfl
@[simp] theorem State.modPack_loans (s : State) (u : Nat) (f : Pack → Pack) : (s.modPack u f).loans = s.loans := by unfold State.modPack; split <;> rfl
@[simp] theorem State.modPack_linkDown (s : State) (u : Nat) (f : Pack → Pack) : (s.modPack u f).linkDown = s.linkDown := by unfold State.modPack; split <;> rfl
@[simp] theorem State.modPack_linkFrozen (s : State) (u : Nat) (f : Pack → Pack) : (s.modPack u f).linkFrozen = s.linkFrozen := by unfold State.modPack; split <;> rfl
@[simp] theorem State.modPack_msix (s : State) (u : Nat) (f : Pack → Pack) : (s.modPack u f).msix = s.msix := by unfold State.modPack; split <;> rfl
@[simp] theorem State.modPack_report (s : State) (u : Nat) (f : Pack → Pack) : (s.modPack u f).report = s.report := by unfold State.modPack; split <;> rfl
@[simp] theorem State.modPack_nextPack (s : State) (u : Nat) (f : Pack → Pack) : (s.modPack u f).nextPack = s.nextPack := by unfold State.modPack; split <;> rfl
@[simp] theorem State.modPack_nextId (s : State) (u : Nat) (f : Pack → Pack) : (s.modPack u f).nextId = s.nextId := by unfold State.modPack; split <;> rfl
@[simp] theorem State.modPack_agenda (s : State) (u : Nat) (f : Pack → Pack) : (s.modPack u f).agenda = s.agenda := by unfold State.modPack; split <;> rfl
@[simp] theorem State.modPack_cur (s : State) (u : Nat) (f : Pack → Pack) : (s.modPack u f).cur = s.cur := by unfold State.modPack; split <;> rfl
@[simp] theorem State.modPack_port1 (s : State) (u : Nat) (f : Pack → Pack) : (s.modPack u f).port1 = s.port1 := by unfold State.modPack; split <;> rfl
@[simp] theorem State.modPack_choices (s : State) (u : Nat) (f : Pack → Pack) : (s.modPack u f).choices = s.choices := by unfold State.modPack; split <;> rfl
@[simp] theorem State.modPack_passed (s : State) (u : Nat) (f : Pack → Pack) : (s.modPack u f).passed = s.passed := by unfold State.modPack; split <;> rfl

/-! ### setParty -/

@[simp] theorem State.setParty_mem (s : State) (u w : Nat) (x : Party) : (s.setParty u w x).mem = s.mem := State.modPack_mem s u _
@[simp] theorem State.setParty_stale (s : State) (u w : Nat) (x : Party) : (s.setParty u w x).stale = s.stale := State.modPack_stale s u _
@[simp] theorem State.setParty_unc (s : State) (u w : Nat) (x : Party) : (s.setParty u w x).unc = s.unc := State.modPack_unc s u _
@[simp] theorem State.setParty_corr (s : State) (u w : Nat) (x : Party) : (s.setParty u w x).corr = s.corr := State.modPack_corr s u _
@[simp] theorem State.setParty_lines (s : State) (u w : Nat) (x : Party) : (s.setParty u w x).lines = s.lines := State.modPack_lines s u _
@[simp] theorem State.setParty_icache (s : State) (u w : Nat) (x : Party) : (s.setParty u w x).icache = s.icache := State.modPack_icache s u _
@[simp] theorem State.setParty_linePar (s : State) (u w : Nat) (x : Party) : (s.setParty u w x).linePar = s.linePar := State.modPack_linePar s u _
@[simp] theorem State.setParty_windows (s : State) (u w : Nat) (x : Party) : (s.setParty u w x).windows = s.windows := State.modPack_windows s u _
@[simp] theorem State.setParty_grants (s : State) (u w : Nat) (x : Party) : (s.setParty u w x).grants = s.grants := State.modPack_grants s u _
@[simp] theorem State.setParty_flips (s : State) (u w : Nat) (x : Party) : (s.setParty u w x).flips = s.flips := State.modPack_flips s u _
@[simp] theorem State.setParty_ports (s : State) (u w : Nat) (x : Party) : (s.setParty u w x).ports = s.ports := State.modPack_ports s u _
@[simp] theorem State.setParty_images (s : State) (u w : Nat) (x : Party) : (s.setParty u w x).images = s.images := State.modPack_images s u _
@[simp] theorem State.setParty_version (s : State) (u w : Nat) (x : Party) : (s.setParty u w x).version = s.version := State.modPack_version s u _
@[simp] theorem State.setParty_tlb (s : State) (u w : Nat) (x : Party) : (s.setParty u w x).tlb = s.tlb := State.modPack_tlb s u _
@[simp] theorem State.setParty_ctxs (s : State) (u w : Nat) (x : Party) : (s.setParty u w x).ctxs = s.ctxs := State.modPack_ctxs s u _
@[simp] theorem State.setParty_layout (s : State) (u w : Nat) (x : Party) : (s.setParty u w x).layout = s.layout := State.modPack_layout s u _
@[simp] theorem State.setParty_groups (s : State) (u w : Nat) (x : Party) : (s.setParty u w x).groups = s.groups := State.modPack_groups s u _
@[simp] theorem State.setParty_monitors (s : State) (u w : Nat) (x : Party) : (s.setParty u w x).monitors = s.monitors := State.modPack_monitors s u _
@[simp] theorem State.setParty_slots (s : State) (u w : Nat) (x : Party) : (s.setParty u w x).slots = s.slots := State.modPack_slots s u _
@[simp] theorem State.setParty_trigger (s : State) (u w : Nat) (x : Party) : (s.setParty u w x).trigger = s.trigger := State.modPack_trigger s u _
@[simp] theorem State.setParty_triggered (s : State) (u w : Nat) (x : Party) : (s.setParty u w x).triggered = s.triggered := State.modPack_triggered s u _
@[simp] theorem State.setParty_launches (s : State) (u w : Nat) (x : Party) : (s.setParty u w x).launches = s.launches := State.modPack_launches s u _
@[simp] theorem State.setParty_dies (s : State) (u w : Nat) (x : Party) : (s.setParty u w x).dies = s.dies := State.modPack_dies s u _
@[simp] theorem State.setParty_clusters (s : State) (u w : Nat) (x : Party) : (s.setParty u w x).clusters = s.clusters := State.modPack_clusters s u _
@[simp] theorem State.setParty_lostDies (s : State) (u w : Nat) (x : Party) : (s.setParty u w x).lostDies = s.lostDies := State.modPack_lostDies s u _
@[simp] theorem State.setParty_held (s : State) (u w : Nat) (x : Party) : (s.setParty u w x).held = s.held := State.modPack_held s u _
@[simp] theorem State.setParty_loans (s : State) (u w : Nat) (x : Party) : (s.setParty u w x).loans = s.loans := State.modPack_loans s u _
@[simp] theorem State.setParty_linkDown (s : State) (u w : Nat) (x : Party) : (s.setParty u w x).linkDown = s.linkDown := State.modPack_linkDown s u _
@[simp] theorem State.setParty_linkFrozen (s : State) (u w : Nat) (x : Party) : (s.setParty u w x).linkFrozen = s.linkFrozen := State.modPack_linkFrozen s u _
@[simp] theorem State.setParty_msix (s : State) (u w : Nat) (x : Party) : (s.setParty u w x).msix = s.msix := State.modPack_msix s u _
@[simp] theorem State.setParty_report (s : State) (u w : Nat) (x : Party) : (s.setParty u w x).report = s.report := State.modPack_report s u _
@[simp] theorem State.setParty_nextPack (s : State) (u w : Nat) (x : Party) : (s.setParty u w x).nextPack = s.nextPack := State.modPack_nextPack s u _
@[simp] theorem State.setParty_nextId (s : State) (u w : Nat) (x : Party) : (s.setParty u w x).nextId = s.nextId := State.modPack_nextId s u _
@[simp] theorem State.setParty_agenda (s : State) (u w : Nat) (x : Party) : (s.setParty u w x).agenda = s.agenda := State.modPack_agenda s u _
@[simp] theorem State.setParty_cur (s : State) (u w : Nat) (x : Party) : (s.setParty u w x).cur = s.cur := State.modPack_cur s u _
@[simp] theorem State.setParty_port1 (s : State) (u w : Nat) (x : Party) : (s.setParty u w x).port1 = s.port1 := State.modPack_port1 s u _
@[simp] theorem State.setParty_choices (s : State) (u w : Nat) (x : Party) : (s.setParty u w x).choices = s.choices := State.modPack_choices s u _
@[simp] theorem State.setParty_passed (s : State) (u w : Nat) (x : Party) : (s.setParty u w x).passed = s.passed := State.modPack_passed s u _

/-! ### modParty -/

@[simp] theorem State.modParty_mem (s : State) (u w : Nat) (f : Party → Party) : (s.modParty u w f).mem = s.mem := by unfold State.modParty; split <;> simp
@[simp] theorem State.modParty_stale (s : State) (u w : Nat) (f : Party → Party) : (s.modParty u w f).stale = s.stale := by unfold State.modParty; split <;> simp
@[simp] theorem State.modParty_unc (s : State) (u w : Nat) (f : Party → Party) : (s.modParty u w f).unc = s.unc := by unfold State.modParty; split <;> simp
@[simp] theorem State.modParty_corr (s : State) (u w : Nat) (f : Party → Party) : (s.modParty u w f).corr = s.corr := by unfold State.modParty; split <;> simp
@[simp] theorem State.modParty_lines (s : State) (u w : Nat) (f : Party → Party) : (s.modParty u w f).lines = s.lines := by unfold State.modParty; split <;> simp
@[simp] theorem State.modParty_icache (s : State) (u w : Nat) (f : Party → Party) : (s.modParty u w f).icache = s.icache := by unfold State.modParty; split <;> simp
@[simp] theorem State.modParty_linePar (s : State) (u w : Nat) (f : Party → Party) : (s.modParty u w f).linePar = s.linePar := by unfold State.modParty; split <;> simp
@[simp] theorem State.modParty_windows (s : State) (u w : Nat) (f : Party → Party) : (s.modParty u w f).windows = s.windows := by unfold State.modParty; split <;> simp
@[simp] theorem State.modParty_grants (s : State) (u w : Nat) (f : Party → Party) : (s.modParty u w f).grants = s.grants := by unfold State.modParty; split <;> simp
@[simp] theorem State.modParty_flips (s : State) (u w : Nat) (f : Party → Party) : (s.modParty u w f).flips = s.flips := by unfold State.modParty; split <;> simp
@[simp] theorem State.modParty_ports (s : State) (u w : Nat) (f : Party → Party) : (s.modParty u w f).ports = s.ports := by unfold State.modParty; split <;> simp
@[simp] theorem State.modParty_images (s : State) (u w : Nat) (f : Party → Party) : (s.modParty u w f).images = s.images := by unfold State.modParty; split <;> simp
@[simp] theorem State.modParty_version (s : State) (u w : Nat) (f : Party → Party) : (s.modParty u w f).version = s.version := by unfold State.modParty; split <;> simp
@[simp] theorem State.modParty_tlb (s : State) (u w : Nat) (f : Party → Party) : (s.modParty u w f).tlb = s.tlb := by unfold State.modParty; split <;> simp
@[simp] theorem State.modParty_ctxs (s : State) (u w : Nat) (f : Party → Party) : (s.modParty u w f).ctxs = s.ctxs := by unfold State.modParty; split <;> simp
@[simp] theorem State.modParty_layout (s : State) (u w : Nat) (f : Party → Party) : (s.modParty u w f).layout = s.layout := by unfold State.modParty; split <;> simp
@[simp] theorem State.modParty_groups (s : State) (u w : Nat) (f : Party → Party) : (s.modParty u w f).groups = s.groups := by unfold State.modParty; split <;> simp
@[simp] theorem State.modParty_monitors (s : State) (u w : Nat) (f : Party → Party) : (s.modParty u w f).monitors = s.monitors := by unfold State.modParty; split <;> simp
@[simp] theorem State.modParty_slots (s : State) (u w : Nat) (f : Party → Party) : (s.modParty u w f).slots = s.slots := by unfold State.modParty; split <;> simp
@[simp] theorem State.modParty_trigger (s : State) (u w : Nat) (f : Party → Party) : (s.modParty u w f).trigger = s.trigger := by unfold State.modParty; split <;> simp
@[simp] theorem State.modParty_triggered (s : State) (u w : Nat) (f : Party → Party) : (s.modParty u w f).triggered = s.triggered := by unfold State.modParty; split <;> simp
@[simp] theorem State.modParty_launches (s : State) (u w : Nat) (f : Party → Party) : (s.modParty u w f).launches = s.launches := by unfold State.modParty; split <;> simp
@[simp] theorem State.modParty_dies (s : State) (u w : Nat) (f : Party → Party) : (s.modParty u w f).dies = s.dies := by unfold State.modParty; split <;> simp
@[simp] theorem State.modParty_clusters (s : State) (u w : Nat) (f : Party → Party) : (s.modParty u w f).clusters = s.clusters := by unfold State.modParty; split <;> simp
@[simp] theorem State.modParty_lostDies (s : State) (u w : Nat) (f : Party → Party) : (s.modParty u w f).lostDies = s.lostDies := by unfold State.modParty; split <;> simp
@[simp] theorem State.modParty_held (s : State) (u w : Nat) (f : Party → Party) : (s.modParty u w f).held = s.held := by unfold State.modParty; split <;> simp
@[simp] theorem State.modParty_loans (s : State) (u w : Nat) (f : Party → Party) : (s.modParty u w f).loans = s.loans := by unfold State.modParty; split <;> simp
@[simp] theorem State.modParty_linkDown (s : State) (u w : Nat) (f : Party → Party) : (s.modParty u w f).linkDown = s.linkDown := by unfold State.modParty; split <;> simp
@[simp] theorem State.modParty_linkFrozen (s : State) (u w : Nat) (f : Party → Party) : (s.modParty u w f).linkFrozen = s.linkFrozen := by unfold State.modParty; split <;> simp
@[simp] theorem State.modParty_msix (s : State) (u w : Nat) (f : Party → Party) : (s.modParty u w f).msix = s.msix := by unfold State.modParty; split <;> simp
@[simp] theorem State.modParty_report (s : State) (u w : Nat) (f : Party → Party) : (s.modParty u w f).report = s.report := by unfold State.modParty; split <;> simp
@[simp] theorem State.modParty_nextPack (s : State) (u w : Nat) (f : Party → Party) : (s.modParty u w f).nextPack = s.nextPack := by unfold State.modParty; split <;> simp
@[simp] theorem State.modParty_nextId (s : State) (u w : Nat) (f : Party → Party) : (s.modParty u w f).nextId = s.nextId := by unfold State.modParty; split <;> simp
@[simp] theorem State.modParty_agenda (s : State) (u w : Nat) (f : Party → Party) : (s.modParty u w f).agenda = s.agenda := by unfold State.modParty; split <;> simp
@[simp] theorem State.modParty_cur (s : State) (u w : Nat) (f : Party → Party) : (s.modParty u w f).cur = s.cur := by unfold State.modParty; split <;> simp
@[simp] theorem State.modParty_port1 (s : State) (u w : Nat) (f : Party → Party) : (s.modParty u w f).port1 = s.port1 := by unfold State.modParty; split <;> simp
@[simp] theorem State.modParty_choices (s : State) (u w : Nat) (f : Party → Party) : (s.modParty u w f).choices = s.choices := by unfold State.modParty; split <;> simp
@[simp] theorem State.modParty_passed (s : State) (u w : Nat) (f : Party → Party) : (s.modParty u w f).passed = s.passed := by unfold State.modParty; split <;> simp

/-! ### modRegs -/

@[simp] theorem State.modRegs_mem (s : State) (u w : Nat) (f : Regs → Regs) : (s.modRegs u w f).mem = s.mem := State.modParty_mem s u w _
@[simp] theorem State.modRegs_stale (s : State) (u w : Nat) (f : Regs → Regs) : (s.modRegs u w f).stale = s.stale := State.modParty_stale s u w _
@[simp] theorem State.modRegs_unc (s : State) (u w : Nat) (f : Regs → Regs) : (s.modRegs u w f).unc = s.unc := State.modParty_unc s u w _
@[simp] theorem State.modRegs_corr (s : State) (u w : Nat) (f : Regs → Regs) : (s.modRegs u w f).corr = s.corr := State.modParty_corr s u w _
@[simp] theorem State.modRegs_lines (s : State) (u w : Nat) (f : Regs → Regs) : (s.modRegs u w f).lines = s.lines := State.modParty_lines s u w _
@[simp] theorem State.modRegs_icache (s : State) (u w : Nat) (f : Regs → Regs) : (s.modRegs u w f).icache = s.icache := State.modParty_icache s u w _
@[simp] theorem State.modRegs_linePar (s : State) (u w : Nat) (f : Regs → Regs) : (s.modRegs u w f).linePar = s.linePar := State.modParty_linePar s u w _
@[simp] theorem State.modRegs_windows (s : State) (u w : Nat) (f : Regs → Regs) : (s.modRegs u w f).windows = s.windows := State.modParty_windows s u w _
@[simp] theorem State.modRegs_grants (s : State) (u w : Nat) (f : Regs → Regs) : (s.modRegs u w f).grants = s.grants := State.modParty_grants s u w _
@[simp] theorem State.modRegs_flips (s : State) (u w : Nat) (f : Regs → Regs) : (s.modRegs u w f).flips = s.flips := State.modParty_flips s u w _
@[simp] theorem State.modRegs_ports (s : State) (u w : Nat) (f : Regs → Regs) : (s.modRegs u w f).ports = s.ports := State.modParty_ports s u w _
@[simp] theorem State.modRegs_images (s : State) (u w : Nat) (f : Regs → Regs) : (s.modRegs u w f).images = s.images := State.modParty_images s u w _
@[simp] theorem State.modRegs_version (s : State) (u w : Nat) (f : Regs → Regs) : (s.modRegs u w f).version = s.version := State.modParty_version s u w _
@[simp] theorem State.modRegs_tlb (s : State) (u w : Nat) (f : Regs → Regs) : (s.modRegs u w f).tlb = s.tlb := State.modParty_tlb s u w _
@[simp] theorem State.modRegs_ctxs (s : State) (u w : Nat) (f : Regs → Regs) : (s.modRegs u w f).ctxs = s.ctxs := State.modParty_ctxs s u w _
@[simp] theorem State.modRegs_layout (s : State) (u w : Nat) (f : Regs → Regs) : (s.modRegs u w f).layout = s.layout := State.modParty_layout s u w _
@[simp] theorem State.modRegs_groups (s : State) (u w : Nat) (f : Regs → Regs) : (s.modRegs u w f).groups = s.groups := State.modParty_groups s u w _
@[simp] theorem State.modRegs_monitors (s : State) (u w : Nat) (f : Regs → Regs) : (s.modRegs u w f).monitors = s.monitors := State.modParty_monitors s u w _
@[simp] theorem State.modRegs_slots (s : State) (u w : Nat) (f : Regs → Regs) : (s.modRegs u w f).slots = s.slots := State.modParty_slots s u w _
@[simp] theorem State.modRegs_trigger (s : State) (u w : Nat) (f : Regs → Regs) : (s.modRegs u w f).trigger = s.trigger := State.modParty_trigger s u w _
@[simp] theorem State.modRegs_triggered (s : State) (u w : Nat) (f : Regs → Regs) : (s.modRegs u w f).triggered = s.triggered := State.modParty_triggered s u w _
@[simp] theorem State.modRegs_launches (s : State) (u w : Nat) (f : Regs → Regs) : (s.modRegs u w f).launches = s.launches := State.modParty_launches s u w _
@[simp] theorem State.modRegs_dies (s : State) (u w : Nat) (f : Regs → Regs) : (s.modRegs u w f).dies = s.dies := State.modParty_dies s u w _
@[simp] theorem State.modRegs_clusters (s : State) (u w : Nat) (f : Regs → Regs) : (s.modRegs u w f).clusters = s.clusters := State.modParty_clusters s u w _
@[simp] theorem State.modRegs_lostDies (s : State) (u w : Nat) (f : Regs → Regs) : (s.modRegs u w f).lostDies = s.lostDies := State.modParty_lostDies s u w _
@[simp] theorem State.modRegs_held (s : State) (u w : Nat) (f : Regs → Regs) : (s.modRegs u w f).held = s.held := State.modParty_held s u w _
@[simp] theorem State.modRegs_loans (s : State) (u w : Nat) (f : Regs → Regs) : (s.modRegs u w f).loans = s.loans := State.modParty_loans s u w _
@[simp] theorem State.modRegs_linkDown (s : State) (u w : Nat) (f : Regs → Regs) : (s.modRegs u w f).linkDown = s.linkDown := State.modParty_linkDown s u w _
@[simp] theorem State.modRegs_linkFrozen (s : State) (u w : Nat) (f : Regs → Regs) : (s.modRegs u w f).linkFrozen = s.linkFrozen := State.modParty_linkFrozen s u w _
@[simp] theorem State.modRegs_msix (s : State) (u w : Nat) (f : Regs → Regs) : (s.modRegs u w f).msix = s.msix := State.modParty_msix s u w _
@[simp] theorem State.modRegs_report (s : State) (u w : Nat) (f : Regs → Regs) : (s.modRegs u w f).report = s.report := State.modParty_report s u w _
@[simp] theorem State.modRegs_nextPack (s : State) (u w : Nat) (f : Regs → Regs) : (s.modRegs u w f).nextPack = s.nextPack := State.modParty_nextPack s u w _
@[simp] theorem State.modRegs_nextId (s : State) (u w : Nat) (f : Regs → Regs) : (s.modRegs u w f).nextId = s.nextId := State.modParty_nextId s u w _
@[simp] theorem State.modRegs_agenda (s : State) (u w : Nat) (f : Regs → Regs) : (s.modRegs u w f).agenda = s.agenda := State.modParty_agenda s u w _
@[simp] theorem State.modRegs_cur (s : State) (u w : Nat) (f : Regs → Regs) : (s.modRegs u w f).cur = s.cur := State.modParty_cur s u w _
@[simp] theorem State.modRegs_port1 (s : State) (u w : Nat) (f : Regs → Regs) : (s.modRegs u w f).port1 = s.port1 := State.modParty_port1 s u w _
@[simp] theorem State.modRegs_choices (s : State) (u w : Nat) (f : Regs → Regs) : (s.modRegs u w f).choices = s.choices := State.modParty_choices s u w _
@[simp] theorem State.modRegs_passed (s : State) (u w : Nat) (f : Regs → Regs) : (s.modRegs u w f).passed = s.passed := State.modParty_passed s u w _

/-! ### enterWait -/

@[simp] theorem State.enterWait_mem (s : State) (c : Cur) : (s.enterWait c).mem = s.mem := State.modParty_mem s _ _ _
@[simp] theorem State.enterWait_stale (s : State) (c : Cur) : (s.enterWait c).stale = s.stale := State.modParty_stale s _ _ _
@[simp] theorem State.enterWait_unc (s : State) (c : Cur) : (s.enterWait c).unc = s.unc := State.modParty_unc s _ _ _
@[simp] theorem State.enterWait_corr (s : State) (c : Cur) : (s.enterWait c).corr = s.corr := State.modParty_corr s _ _ _
@[simp] theorem State.enterWait_lines (s : State) (c : Cur) : (s.enterWait c).lines = s.lines := State.modParty_lines s _ _ _
@[simp] theorem State.enterWait_icache (s : State) (c : Cur) : (s.enterWait c).icache = s.icache := State.modParty_icache s _ _ _
@[simp] theorem State.enterWait_linePar (s : State) (c : Cur) : (s.enterWait c).linePar = s.linePar := State.modParty_linePar s _ _ _
@[simp] theorem State.enterWait_windows (s : State) (c : Cur) : (s.enterWait c).windows = s.windows := State.modParty_windows s _ _ _
@[simp] theorem State.enterWait_grants (s : State) (c : Cur) : (s.enterWait c).grants = s.grants := State.modParty_grants s _ _ _
@[simp] theorem State.enterWait_flips (s : State) (c : Cur) : (s.enterWait c).flips = s.flips := State.modParty_flips s _ _ _
@[simp] theorem State.enterWait_ports (s : State) (c : Cur) : (s.enterWait c).ports = s.ports := State.modParty_ports s _ _ _
@[simp] theorem State.enterWait_images (s : State) (c : Cur) : (s.enterWait c).images = s.images := State.modParty_images s _ _ _
@[simp] theorem State.enterWait_version (s : State) (c : Cur) : (s.enterWait c).version = s.version := State.modParty_version s _ _ _
@[simp] theorem State.enterWait_tlb (s : State) (c : Cur) : (s.enterWait c).tlb = s.tlb := State.modParty_tlb s _ _ _
@[simp] theorem State.enterWait_ctxs (s : State) (c : Cur) : (s.enterWait c).ctxs = s.ctxs := State.modParty_ctxs s _ _ _
@[simp] theorem State.enterWait_layout (s : State) (c : Cur) : (s.enterWait c).layout = s.layout := State.modParty_layout s _ _ _
@[simp] theorem State.enterWait_groups (s : State) (c : Cur) : (s.enterWait c).groups = s.groups := State.modParty_groups s _ _ _
@[simp] theorem State.enterWait_monitors (s : State) (c : Cur) : (s.enterWait c).monitors = s.monitors := State.modParty_monitors s _ _ _
@[simp] theorem State.enterWait_slots (s : State) (c : Cur) : (s.enterWait c).slots = s.slots := State.modParty_slots s _ _ _
@[simp] theorem State.enterWait_trigger (s : State) (c : Cur) : (s.enterWait c).trigger = s.trigger := State.modParty_trigger s _ _ _
@[simp] theorem State.enterWait_triggered (s : State) (c : Cur) : (s.enterWait c).triggered = s.triggered := State.modParty_triggered s _ _ _
@[simp] theorem State.enterWait_launches (s : State) (c : Cur) : (s.enterWait c).launches = s.launches := State.modParty_launches s _ _ _
@[simp] theorem State.enterWait_dies (s : State) (c : Cur) : (s.enterWait c).dies = s.dies := State.modParty_dies s _ _ _
@[simp] theorem State.enterWait_clusters (s : State) (c : Cur) : (s.enterWait c).clusters = s.clusters := State.modParty_clusters s _ _ _
@[simp] theorem State.enterWait_lostDies (s : State) (c : Cur) : (s.enterWait c).lostDies = s.lostDies := State.modParty_lostDies s _ _ _
@[simp] theorem State.enterWait_held (s : State) (c : Cur) : (s.enterWait c).held = s.held := State.modParty_held s _ _ _
@[simp] theorem State.enterWait_loans (s : State) (c : Cur) : (s.enterWait c).loans = s.loans := State.modParty_loans s _ _ _
@[simp] theorem State.enterWait_linkDown (s : State) (c : Cur) : (s.enterWait c).linkDown = s.linkDown := State.modParty_linkDown s _ _ _
@[simp] theorem State.enterWait_linkFrozen (s : State) (c : Cur) : (s.enterWait c).linkFrozen = s.linkFrozen := State.modParty_linkFrozen s _ _ _
@[simp] theorem State.enterWait_msix (s : State) (c : Cur) : (s.enterWait c).msix = s.msix := State.modParty_msix s _ _ _
@[simp] theorem State.enterWait_report (s : State) (c : Cur) : (s.enterWait c).report = s.report := State.modParty_report s _ _ _
@[simp] theorem State.enterWait_nextPack (s : State) (c : Cur) : (s.enterWait c).nextPack = s.nextPack := State.modParty_nextPack s _ _ _
@[simp] theorem State.enterWait_nextId (s : State) (c : Cur) : (s.enterWait c).nextId = s.nextId := State.modParty_nextId s _ _ _
@[simp] theorem State.enterWait_agenda (s : State) (c : Cur) : (s.enterWait c).agenda = s.agenda := State.modParty_agenda s _ _ _
@[simp] theorem State.enterWait_cur (s : State) (c : Cur) : (s.enterWait c).cur = s.cur := State.modParty_cur s _ _ _
@[simp] theorem State.enterWait_port1 (s : State) (c : Cur) : (s.enterWait c).port1 = s.port1 := State.modParty_port1 s _ _ _
@[simp] theorem State.enterWait_choices (s : State) (c : Cur) : (s.enterWait c).choices = s.choices := State.modParty_choices s _ _ _
@[simp] theorem State.enterWait_passed (s : State) (c : Cur) : (s.enterWait c).passed = s.passed := State.modParty_passed s _ _ _

/-! ### setKreg -/

@[simp] theorem State.setKreg_mem (s : State) (u n : Nat) (k : KReg) : (s.setKreg u n k).mem = s.mem := State.modPack_mem s u _
@[simp] theorem State.setKreg_stale (s : State) (u n : Nat) (k : KReg) : (s.setKreg u n k).stale = s.stale := State.modPack_stale s u _
@[simp] theorem State.setKreg_unc (s : State) (u n : Nat) (k : KReg) : (s.setKreg u n k).unc = s.unc := State.modPack_unc s u _
@[simp] theorem State.setKreg_corr (s : State) (u n : Nat) (k : KReg) : (s.setKreg u n k).corr = s.corr := State.modPack_corr s u _
@[simp] theorem State.setKreg_lines (s : State) (u n : Nat) (k : KReg) : (s.setKreg u n k).lines = s.lines := State.modPack_lines s u _
@[simp] theorem State.setKreg_icache (s : State) (u n : Nat) (k : KReg) : (s.setKreg u n k).icache = s.icache := State.modPack_icache s u _
@[simp] theorem State.setKreg_linePar (s : State) (u n : Nat) (k : KReg) : (s.setKreg u n k).linePar = s.linePar := State.modPack_linePar s u _
@[simp] theorem State.setKreg_windows (s : State) (u n : Nat) (k : KReg) : (s.setKreg u n k).windows = s.windows := State.modPack_windows s u _
@[simp] theorem State.setKreg_grants (s : State) (u n : Nat) (k : KReg) : (s.setKreg u n k).grants = s.grants := State.modPack_grants s u _
@[simp] theorem State.setKreg_flips (s : State) (u n : Nat) (k : KReg) : (s.setKreg u n k).flips = s.flips := State.modPack_flips s u _
@[simp] theorem State.setKreg_ports (s : State) (u n : Nat) (k : KReg) : (s.setKreg u n k).ports = s.ports := State.modPack_ports s u _
@[simp] theorem State.setKreg_images (s : State) (u n : Nat) (k : KReg) : (s.setKreg u n k).images = s.images := State.modPack_images s u _
@[simp] theorem State.setKreg_version (s : State) (u n : Nat) (k : KReg) : (s.setKreg u n k).version = s.version := State.modPack_version s u _
@[simp] theorem State.setKreg_tlb (s : State) (u n : Nat) (k : KReg) : (s.setKreg u n k).tlb = s.tlb := State.modPack_tlb s u _
@[simp] theorem State.setKreg_ctxs (s : State) (u n : Nat) (k : KReg) : (s.setKreg u n k).ctxs = s.ctxs := State.modPack_ctxs s u _
@[simp] theorem State.setKreg_layout (s : State) (u n : Nat) (k : KReg) : (s.setKreg u n k).layout = s.layout := State.modPack_layout s u _
@[simp] theorem State.setKreg_groups (s : State) (u n : Nat) (k : KReg) : (s.setKreg u n k).groups = s.groups := State.modPack_groups s u _
@[simp] theorem State.setKreg_monitors (s : State) (u n : Nat) (k : KReg) : (s.setKreg u n k).monitors = s.monitors := State.modPack_monitors s u _
@[simp] theorem State.setKreg_slots (s : State) (u n : Nat) (k : KReg) : (s.setKreg u n k).slots = s.slots := State.modPack_slots s u _
@[simp] theorem State.setKreg_trigger (s : State) (u n : Nat) (k : KReg) : (s.setKreg u n k).trigger = s.trigger := State.modPack_trigger s u _
@[simp] theorem State.setKreg_triggered (s : State) (u n : Nat) (k : KReg) : (s.setKreg u n k).triggered = s.triggered := State.modPack_triggered s u _
@[simp] theorem State.setKreg_launches (s : State) (u n : Nat) (k : KReg) : (s.setKreg u n k).launches = s.launches := State.modPack_launches s u _
@[simp] theorem State.setKreg_dies (s : State) (u n : Nat) (k : KReg) : (s.setKreg u n k).dies = s.dies := State.modPack_dies s u _
@[simp] theorem State.setKreg_clusters (s : State) (u n : Nat) (k : KReg) : (s.setKreg u n k).clusters = s.clusters := State.modPack_clusters s u _
@[simp] theorem State.setKreg_lostDies (s : State) (u n : Nat) (k : KReg) : (s.setKreg u n k).lostDies = s.lostDies := State.modPack_lostDies s u _
@[simp] theorem State.setKreg_held (s : State) (u n : Nat) (k : KReg) : (s.setKreg u n k).held = s.held := State.modPack_held s u _
@[simp] theorem State.setKreg_loans (s : State) (u n : Nat) (k : KReg) : (s.setKreg u n k).loans = s.loans := State.modPack_loans s u _
@[simp] theorem State.setKreg_linkDown (s : State) (u n : Nat) (k : KReg) : (s.setKreg u n k).linkDown = s.linkDown := State.modPack_linkDown s u _
@[simp] theorem State.setKreg_linkFrozen (s : State) (u n : Nat) (k : KReg) : (s.setKreg u n k).linkFrozen = s.linkFrozen := State.modPack_linkFrozen s u _
@[simp] theorem State.setKreg_msix (s : State) (u n : Nat) (k : KReg) : (s.setKreg u n k).msix = s.msix := State.modPack_msix s u _
@[simp] theorem State.setKreg_report (s : State) (u n : Nat) (k : KReg) : (s.setKreg u n k).report = s.report := State.modPack_report s u _
@[simp] theorem State.setKreg_nextPack (s : State) (u n : Nat) (k : KReg) : (s.setKreg u n k).nextPack = s.nextPack := State.modPack_nextPack s u _
@[simp] theorem State.setKreg_nextId (s : State) (u n : Nat) (k : KReg) : (s.setKreg u n k).nextId = s.nextId := State.modPack_nextId s u _
@[simp] theorem State.setKreg_agenda (s : State) (u n : Nat) (k : KReg) : (s.setKreg u n k).agenda = s.agenda := State.modPack_agenda s u _
@[simp] theorem State.setKreg_cur (s : State) (u n : Nat) (k : KReg) : (s.setKreg u n k).cur = s.cur := State.modPack_cur s u _
@[simp] theorem State.setKreg_port1 (s : State) (u n : Nat) (k : KReg) : (s.setKreg u n k).port1 = s.port1 := State.modPack_port1 s u _
@[simp] theorem State.setKreg_choices (s : State) (u n : Nat) (k : KReg) : (s.setKreg u n k).choices = s.choices := State.modPack_choices s u _
@[simp] theorem State.setKreg_passed (s : State) (u n : Nat) (k : KReg) : (s.setKreg u n k).passed = s.passed := State.modPack_passed s u _

/-! ### setCluster -/

@[simp] theorem State.setCluster_mem (s : State) (c : Nat) (x : Cluster) : (s.setCluster c x).mem = s.mem := rfl
@[simp] theorem State.setCluster_stale (s : State) (c : Nat) (x : Cluster) : (s.setCluster c x).stale = s.stale := rfl
@[simp] theorem State.setCluster_unc (s : State) (c : Nat) (x : Cluster) : (s.setCluster c x).unc = s.unc := rfl
@[simp] theorem State.setCluster_corr (s : State) (c : Nat) (x : Cluster) : (s.setCluster c x).corr = s.corr := rfl
@[simp] theorem State.setCluster_lines (s : State) (c : Nat) (x : Cluster) : (s.setCluster c x).lines = s.lines := rfl
@[simp] theorem State.setCluster_icache (s : State) (c : Nat) (x : Cluster) : (s.setCluster c x).icache = s.icache := rfl
@[simp] theorem State.setCluster_linePar (s : State) (c : Nat) (x : Cluster) : (s.setCluster c x).linePar = s.linePar := rfl
@[simp] theorem State.setCluster_windows (s : State) (c : Nat) (x : Cluster) : (s.setCluster c x).windows = s.windows := rfl
@[simp] theorem State.setCluster_grants (s : State) (c : Nat) (x : Cluster) : (s.setCluster c x).grants = s.grants := rfl
@[simp] theorem State.setCluster_flips (s : State) (c : Nat) (x : Cluster) : (s.setCluster c x).flips = s.flips := rfl
@[simp] theorem State.setCluster_ports (s : State) (c : Nat) (x : Cluster) : (s.setCluster c x).ports = s.ports := rfl
@[simp] theorem State.setCluster_images (s : State) (c : Nat) (x : Cluster) : (s.setCluster c x).images = s.images := rfl
@[simp] theorem State.setCluster_version (s : State) (c : Nat) (x : Cluster) : (s.setCluster c x).version = s.version := rfl
@[simp] theorem State.setCluster_tlb (s : State) (c : Nat) (x : Cluster) : (s.setCluster c x).tlb = s.tlb := rfl
@[simp] theorem State.setCluster_ctxs (s : State) (c : Nat) (x : Cluster) : (s.setCluster c x).ctxs = s.ctxs := rfl
@[simp] theorem State.setCluster_layout (s : State) (c : Nat) (x : Cluster) : (s.setCluster c x).layout = s.layout := rfl
@[simp] theorem State.setCluster_groups (s : State) (c : Nat) (x : Cluster) : (s.setCluster c x).groups = s.groups := rfl
@[simp] theorem State.setCluster_monitors (s : State) (c : Nat) (x : Cluster) : (s.setCluster c x).monitors = s.monitors := rfl
@[simp] theorem State.setCluster_slots (s : State) (c : Nat) (x : Cluster) : (s.setCluster c x).slots = s.slots := rfl
@[simp] theorem State.setCluster_trigger (s : State) (c : Nat) (x : Cluster) : (s.setCluster c x).trigger = s.trigger := rfl
@[simp] theorem State.setCluster_triggered (s : State) (c : Nat) (x : Cluster) : (s.setCluster c x).triggered = s.triggered := rfl
@[simp] theorem State.setCluster_launches (s : State) (c : Nat) (x : Cluster) : (s.setCluster c x).launches = s.launches := rfl
@[simp] theorem State.setCluster_packs (s : State) (c : Nat) (x : Cluster) : (s.setCluster c x).packs = s.packs := rfl
@[simp] theorem State.setCluster_dies (s : State) (c : Nat) (x : Cluster) : (s.setCluster c x).dies = s.dies := rfl
@[simp] theorem State.setCluster_lostDies (s : State) (c : Nat) (x : Cluster) : (s.setCluster c x).lostDies = s.lostDies := rfl
@[simp] theorem State.setCluster_held (s : State) (c : Nat) (x : Cluster) : (s.setCluster c x).held = s.held := rfl
@[simp] theorem State.setCluster_loans (s : State) (c : Nat) (x : Cluster) : (s.setCluster c x).loans = s.loans := rfl
@[simp] theorem State.setCluster_linkDown (s : State) (c : Nat) (x : Cluster) : (s.setCluster c x).linkDown = s.linkDown := rfl
@[simp] theorem State.setCluster_linkFrozen (s : State) (c : Nat) (x : Cluster) : (s.setCluster c x).linkFrozen = s.linkFrozen := rfl
@[simp] theorem State.setCluster_msix (s : State) (c : Nat) (x : Cluster) : (s.setCluster c x).msix = s.msix := rfl
@[simp] theorem State.setCluster_report (s : State) (c : Nat) (x : Cluster) : (s.setCluster c x).report = s.report := rfl
@[simp] theorem State.setCluster_nextPack (s : State) (c : Nat) (x : Cluster) : (s.setCluster c x).nextPack = s.nextPack := rfl
@[simp] theorem State.setCluster_nextId (s : State) (c : Nat) (x : Cluster) : (s.setCluster c x).nextId = s.nextId := rfl
@[simp] theorem State.setCluster_agenda (s : State) (c : Nat) (x : Cluster) : (s.setCluster c x).agenda = s.agenda := rfl
@[simp] theorem State.setCluster_cur (s : State) (c : Nat) (x : Cluster) : (s.setCluster c x).cur = s.cur := rfl
@[simp] theorem State.setCluster_port1 (s : State) (c : Nat) (x : Cluster) : (s.setCluster c x).port1 = s.port1 := rfl
@[simp] theorem State.setCluster_choices (s : State) (c : Nat) (x : Cluster) : (s.setCluster c x).choices = s.choices := rfl
@[simp] theorem State.setCluster_passed (s : State) (c : Nat) (x : Cluster) : (s.setCluster c x).passed = s.passed := rfl

/-! ### modCluster -/

@[simp] theorem State.modCluster_mem (s : State) (c : Nat) (f : Cluster → Cluster) : (s.modCluster c f).mem = s.mem := rfl
@[simp] theorem State.modCluster_stale (s : State) (c : Nat) (f : Cluster → Cluster) : (s.modCluster c f).stale = s.stale := rfl
@[simp] theorem State.modCluster_unc (s : State) (c : Nat) (f : Cluster → Cluster) : (s.modCluster c f).unc = s.unc := rfl
@[simp] theorem State.modCluster_corr (s : State) (c : Nat) (f : Cluster → Cluster) : (s.modCluster c f).corr = s.corr := rfl
@[simp] theorem State.modCluster_lines (s : State) (c : Nat) (f : Cluster → Cluster) : (s.modCluster c f).lines = s.lines := rfl
@[simp] theorem State.modCluster_icache (s : State) (c : Nat) (f : Cluster → Cluster) : (s.modCluster c f).icache = s.icache := rfl
@[simp] theorem State.modCluster_linePar (s : State) (c : Nat) (f : Cluster → Cluster) : (s.modCluster c f).linePar = s.linePar := rfl
@[simp] theorem State.modCluster_windows (s : State) (c : Nat) (f : Cluster → Cluster) : (s.modCluster c f).windows = s.windows := rfl
@[simp] theorem State.modCluster_grants (s : State) (c : Nat) (f : Cluster → Cluster) : (s.modCluster c f).grants = s.grants := rfl
@[simp] theorem State.modCluster_flips (s : State) (c : Nat) (f : Cluster → Cluster) : (s.modCluster c f).flips = s.flips := rfl
@[simp] theorem State.modCluster_ports (s : State) (c : Nat) (f : Cluster → Cluster) : (s.modCluster c f).ports = s.ports := rfl
@[simp] theorem State.modCluster_images (s : State) (c : Nat) (f : Cluster → Cluster) : (s.modCluster c f).images = s.images := rfl
@[simp] theorem State.modCluster_version (s : State) (c : Nat) (f : Cluster → Cluster) : (s.modCluster c f).version = s.version := rfl
@[simp] theorem State.modCluster_tlb (s : State) (c : Nat) (f : Cluster → Cluster) : (s.modCluster c f).tlb = s.tlb := rfl
@[simp] theorem State.modCluster_ctxs (s : State) (c : Nat) (f : Cluster → Cluster) : (s.modCluster c f).ctxs = s.ctxs := rfl
@[simp] theorem State.modCluster_layout (s : State) (c : Nat) (f : Cluster → Cluster) : (s.modCluster c f).layout = s.layout := rfl
@[simp] theorem State.modCluster_groups (s : State) (c : Nat) (f : Cluster → Cluster) : (s.modCluster c f).groups = s.groups := rfl
@[simp] theorem State.modCluster_monitors (s : State) (c : Nat) (f : Cluster → Cluster) : (s.modCluster c f).monitors = s.monitors := rfl
@[simp] theorem State.modCluster_slots (s : State) (c : Nat) (f : Cluster → Cluster) : (s.modCluster c f).slots = s.slots := rfl
@[simp] theorem State.modCluster_trigger (s : State) (c : Nat) (f : Cluster → Cluster) : (s.modCluster c f).trigger = s.trigger := rfl
@[simp] theorem State.modCluster_triggered (s : State) (c : Nat) (f : Cluster → Cluster) : (s.modCluster c f).triggered = s.triggered := rfl
@[simp] theorem State.modCluster_launches (s : State) (c : Nat) (f : Cluster → Cluster) : (s.modCluster c f).launches = s.launches := rfl
@[simp] theorem State.modCluster_packs (s : State) (c : Nat) (f : Cluster → Cluster) : (s.modCluster c f).packs = s.packs := rfl
@[simp] theorem State.modCluster_dies (s : State) (c : Nat) (f : Cluster → Cluster) : (s.modCluster c f).dies = s.dies := rfl
@[simp] theorem State.modCluster_lostDies (s : State) (c : Nat) (f : Cluster → Cluster) : (s.modCluster c f).lostDies = s.lostDies := rfl
@[simp] theorem State.modCluster_held (s : State) (c : Nat) (f : Cluster → Cluster) : (s.modCluster c f).held = s.held := rfl
@[simp] theorem State.modCluster_loans (s : State) (c : Nat) (f : Cluster → Cluster) : (s.modCluster c f).loans = s.loans := rfl
@[simp] theorem State.modCluster_linkDown (s : State) (c : Nat) (f : Cluster → Cluster) : (s.modCluster c f).linkDown = s.linkDown := rfl
@[simp] theorem State.modCluster_linkFrozen (s : State) (c : Nat) (f : Cluster → Cluster) : (s.modCluster c f).linkFrozen = s.linkFrozen := rfl
@[simp] theorem State.modCluster_msix (s : State) (c : Nat) (f : Cluster → Cluster) : (s.modCluster c f).msix = s.msix := rfl
@[simp] theorem State.modCluster_report (s : State) (c : Nat) (f : Cluster → Cluster) : (s.modCluster c f).report = s.report := rfl
@[simp] theorem State.modCluster_nextPack (s : State) (c : Nat) (f : Cluster → Cluster) : (s.modCluster c f).nextPack = s.nextPack := rfl
@[simp] theorem State.modCluster_nextId (s : State) (c : Nat) (f : Cluster → Cluster) : (s.modCluster c f).nextId = s.nextId := rfl
@[simp] theorem State.modCluster_agenda (s : State) (c : Nat) (f : Cluster → Cluster) : (s.modCluster c f).agenda = s.agenda := rfl
@[simp] theorem State.modCluster_cur (s : State) (c : Nat) (f : Cluster → Cluster) : (s.modCluster c f).cur = s.cur := rfl
@[simp] theorem State.modCluster_port1 (s : State) (c : Nat) (f : Cluster → Cluster) : (s.modCluster c f).port1 = s.port1 := rfl
@[simp] theorem State.modCluster_choices (s : State) (c : Nat) (f : Cluster → Cluster) : (s.modCluster c f).choices = s.choices := rfl
@[simp] theorem State.modCluster_passed (s : State) (c : Nat) (f : Cluster → Cluster) : (s.modCluster c f).passed = s.passed := rfl

/-! ### count -/

@[simp] theorem State.count_mem (s : State) (c n k : Nat) : (s.count c n k).mem = s.mem := rfl
@[simp] theorem State.count_stale (s : State) (c n k : Nat) : (s.count c n k).stale = s.stale := rfl
@[simp] theorem State.count_unc (s : State) (c n k : Nat) : (s.count c n k).unc = s.unc := rfl
@[simp] theorem State.count_corr (s : State) (c n k : Nat) : (s.count c n k).corr = s.corr := rfl
@[simp] theorem State.count_lines (s : State) (c n k : Nat) : (s.count c n k).lines = s.lines := rfl
@[simp] theorem State.count_icache (s : State) (c n k : Nat) : (s.count c n k).icache = s.icache := rfl
@[simp] theorem State.count_linePar (s : State) (c n k : Nat) : (s.count c n k).linePar = s.linePar := rfl
@[simp] theorem State.count_windows (s : State) (c n k : Nat) : (s.count c n k).windows = s.windows := rfl
@[simp] theorem State.count_grants (s : State) (c n k : Nat) : (s.count c n k).grants = s.grants := rfl
@[simp] theorem State.count_flips (s : State) (c n k : Nat) : (s.count c n k).flips = s.flips := rfl
@[simp] theorem State.count_ports (s : State) (c n k : Nat) : (s.count c n k).ports = s.ports := rfl
@[simp] theorem State.count_images (s : State) (c n k : Nat) : (s.count c n k).images = s.images := rfl
@[simp] theorem State.count_version (s : State) (c n k : Nat) : (s.count c n k).version = s.version := rfl
@[simp] theorem State.count_tlb (s : State) (c n k : Nat) : (s.count c n k).tlb = s.tlb := rfl
@[simp] theorem State.count_ctxs (s : State) (c n k : Nat) : (s.count c n k).ctxs = s.ctxs := rfl
@[simp] theorem State.count_layout (s : State) (c n k : Nat) : (s.count c n k).layout = s.layout := rfl
@[simp] theorem State.count_groups (s : State) (c n k : Nat) : (s.count c n k).groups = s.groups := rfl
@[simp] theorem State.count_monitors (s : State) (c n k : Nat) : (s.count c n k).monitors = s.monitors := rfl
@[simp] theorem State.count_slots (s : State) (c n k : Nat) : (s.count c n k).slots = s.slots := rfl
@[simp] theorem State.count_trigger (s : State) (c n k : Nat) : (s.count c n k).trigger = s.trigger := rfl
@[simp] theorem State.count_triggered (s : State) (c n k : Nat) : (s.count c n k).triggered = s.triggered := rfl
@[simp] theorem State.count_launches (s : State) (c n k : Nat) : (s.count c n k).launches = s.launches := rfl
@[simp] theorem State.count_packs (s : State) (c n k : Nat) : (s.count c n k).packs = s.packs := rfl
@[simp] theorem State.count_dies (s : State) (c n k : Nat) : (s.count c n k).dies = s.dies := rfl
@[simp] theorem State.count_lostDies (s : State) (c n k : Nat) : (s.count c n k).lostDies = s.lostDies := rfl
@[simp] theorem State.count_held (s : State) (c n k : Nat) : (s.count c n k).held = s.held := rfl
@[simp] theorem State.count_loans (s : State) (c n k : Nat) : (s.count c n k).loans = s.loans := rfl
@[simp] theorem State.count_linkDown (s : State) (c n k : Nat) : (s.count c n k).linkDown = s.linkDown := rfl
@[simp] theorem State.count_linkFrozen (s : State) (c n k : Nat) : (s.count c n k).linkFrozen = s.linkFrozen := rfl
@[simp] theorem State.count_msix (s : State) (c n k : Nat) : (s.count c n k).msix = s.msix := rfl
@[simp] theorem State.count_report (s : State) (c n k : Nat) : (s.count c n k).report = s.report := rfl
@[simp] theorem State.count_nextPack (s : State) (c n k : Nat) : (s.count c n k).nextPack = s.nextPack := rfl
@[simp] theorem State.count_nextId (s : State) (c n k : Nat) : (s.count c n k).nextId = s.nextId := rfl
@[simp] theorem State.count_agenda (s : State) (c n k : Nat) : (s.count c n k).agenda = s.agenda := rfl
@[simp] theorem State.count_cur (s : State) (c n k : Nat) : (s.count c n k).cur = s.cur := rfl
@[simp] theorem State.count_port1 (s : State) (c n k : Nat) : (s.count c n k).port1 = s.port1 := rfl
@[simp] theorem State.count_choices (s : State) (c n k : Nat) : (s.count c n k).choices = s.choices := rfl
@[simp] theorem State.count_passed (s : State) (c n k : Nat) : (s.count c n k).passed = s.passed := rfl

/-! ### setDie -/

@[simp] theorem State.setDie_mem (s : State) (d : Nat) (x : Die) : (s.setDie d x).mem = s.mem := rfl
@[simp] theorem State.setDie_stale (s : State) (d : Nat) (x : Die) : (s.setDie d x).stale = s.stale := rfl
@[simp] theorem State.setDie_unc (s : State) (d : Nat) (x : Die) : (s.setDie d x).unc = s.unc := rfl
@[simp] theorem State.setDie_corr (s : State) (d : Nat) (x : Die) : (s.setDie d x).corr = s.corr := rfl
@[simp] theorem State.setDie_lines (s : State) (d : Nat) (x : Die) : (s.setDie d x).lines = s.lines := rfl
@[simp] theorem State.setDie_icache (s : State) (d : Nat) (x : Die) : (s.setDie d x).icache = s.icache := rfl
@[simp] theorem State.setDie_linePar (s : State) (d : Nat) (x : Die) : (s.setDie d x).linePar = s.linePar := rfl
@[simp] theorem State.setDie_windows (s : State) (d : Nat) (x : Die) : (s.setDie d x).windows = s.windows := rfl
@[simp] theorem State.setDie_grants (s : State) (d : Nat) (x : Die) : (s.setDie d x).grants = s.grants := rfl
@[simp] theorem State.setDie_flips (s : State) (d : Nat) (x : Die) : (s.setDie d x).flips = s.flips := rfl
@[simp] theorem State.setDie_ports (s : State) (d : Nat) (x : Die) : (s.setDie d x).ports = s.ports := rfl
@[simp] theorem State.setDie_images (s : State) (d : Nat) (x : Die) : (s.setDie d x).images = s.images := rfl
@[simp] theorem State.setDie_version (s : State) (d : Nat) (x : Die) : (s.setDie d x).version = s.version := rfl
@[simp] theorem State.setDie_tlb (s : State) (d : Nat) (x : Die) : (s.setDie d x).tlb = s.tlb := rfl
@[simp] theorem State.setDie_ctxs (s : State) (d : Nat) (x : Die) : (s.setDie d x).ctxs = s.ctxs := rfl
@[simp] theorem State.setDie_layout (s : State) (d : Nat) (x : Die) : (s.setDie d x).layout = s.layout := rfl
@[simp] theorem State.setDie_groups (s : State) (d : Nat) (x : Die) : (s.setDie d x).groups = s.groups := rfl
@[simp] theorem State.setDie_monitors (s : State) (d : Nat) (x : Die) : (s.setDie d x).monitors = s.monitors := rfl
@[simp] theorem State.setDie_slots (s : State) (d : Nat) (x : Die) : (s.setDie d x).slots = s.slots := rfl
@[simp] theorem State.setDie_trigger (s : State) (d : Nat) (x : Die) : (s.setDie d x).trigger = s.trigger := rfl
@[simp] theorem State.setDie_triggered (s : State) (d : Nat) (x : Die) : (s.setDie d x).triggered = s.triggered := rfl
@[simp] theorem State.setDie_launches (s : State) (d : Nat) (x : Die) : (s.setDie d x).launches = s.launches := rfl
@[simp] theorem State.setDie_packs (s : State) (d : Nat) (x : Die) : (s.setDie d x).packs = s.packs := rfl
@[simp] theorem State.setDie_clusters (s : State) (d : Nat) (x : Die) : (s.setDie d x).clusters = s.clusters := rfl
@[simp] theorem State.setDie_lostDies (s : State) (d : Nat) (x : Die) : (s.setDie d x).lostDies = s.lostDies := rfl
@[simp] theorem State.setDie_held (s : State) (d : Nat) (x : Die) : (s.setDie d x).held = s.held := rfl
@[simp] theorem State.setDie_loans (s : State) (d : Nat) (x : Die) : (s.setDie d x).loans = s.loans := rfl
@[simp] theorem State.setDie_linkDown (s : State) (d : Nat) (x : Die) : (s.setDie d x).linkDown = s.linkDown := rfl
@[simp] theorem State.setDie_linkFrozen (s : State) (d : Nat) (x : Die) : (s.setDie d x).linkFrozen = s.linkFrozen := rfl
@[simp] theorem State.setDie_msix (s : State) (d : Nat) (x : Die) : (s.setDie d x).msix = s.msix := rfl
@[simp] theorem State.setDie_report (s : State) (d : Nat) (x : Die) : (s.setDie d x).report = s.report := rfl
@[simp] theorem State.setDie_nextPack (s : State) (d : Nat) (x : Die) : (s.setDie d x).nextPack = s.nextPack := rfl
@[simp] theorem State.setDie_nextId (s : State) (d : Nat) (x : Die) : (s.setDie d x).nextId = s.nextId := rfl
@[simp] theorem State.setDie_agenda (s : State) (d : Nat) (x : Die) : (s.setDie d x).agenda = s.agenda := rfl
@[simp] theorem State.setDie_cur (s : State) (d : Nat) (x : Die) : (s.setDie d x).cur = s.cur := rfl
@[simp] theorem State.setDie_port1 (s : State) (d : Nat) (x : Die) : (s.setDie d x).port1 = s.port1 := rfl
@[simp] theorem State.setDie_choices (s : State) (d : Nat) (x : Die) : (s.setDie d x).choices = s.choices := rfl
@[simp] theorem State.setDie_passed (s : State) (d : Nat) (x : Die) : (s.setDie d x).passed = s.passed := rfl

/-! ### modDie -/

@[simp] theorem State.modDie_mem (s : State) (d : Nat) (f : Die → Die) : (s.modDie d f).mem = s.mem := rfl
@[simp] theorem State.modDie_stale (s : State) (d : Nat) (f : Die → Die) : (s.modDie d f).stale = s.stale := rfl
@[simp] theorem State.modDie_unc (s : State) (d : Nat) (f : Die → Die) : (s.modDie d f).unc = s.unc := rfl
@[simp] theorem State.modDie_corr (s : State) (d : Nat) (f : Die → Die) : (s.modDie d f).corr = s.corr := rfl
@[simp] theorem State.modDie_lines (s : State) (d : Nat) (f : Die → Die) : (s.modDie d f).lines = s.lines := rfl
@[simp] theorem State.modDie_icache (s : State) (d : Nat) (f : Die → Die) : (s.modDie d f).icache = s.icache := rfl
@[simp] theorem State.modDie_linePar (s : State) (d : Nat) (f : Die → Die) : (s.modDie d f).linePar = s.linePar := rfl
@[simp] theorem State.modDie_windows (s : State) (d : Nat) (f : Die → Die) : (s.modDie d f).windows = s.windows := rfl
@[simp] theorem State.modDie_grants (s : State) (d : Nat) (f : Die → Die) : (s.modDie d f).grants = s.grants := rfl
@[simp] theorem State.modDie_flips (s : State) (d : Nat) (f : Die → Die) : (s.modDie d f).flips = s.flips := rfl
@[simp] theorem State.modDie_ports (s : State) (d : Nat) (f : Die → Die) : (s.modDie d f).ports = s.ports := rfl
@[simp] theorem State.modDie_images (s : State) (d : Nat) (f : Die → Die) : (s.modDie d f).images = s.images := rfl
@[simp] theorem State.modDie_version (s : State) (d : Nat) (f : Die → Die) : (s.modDie d f).version = s.version := rfl
@[simp] theorem State.modDie_tlb (s : State) (d : Nat) (f : Die → Die) : (s.modDie d f).tlb = s.tlb := rfl
@[simp] theorem State.modDie_ctxs (s : State) (d : Nat) (f : Die → Die) : (s.modDie d f).ctxs = s.ctxs := rfl
@[simp] theorem State.modDie_layout (s : State) (d : Nat) (f : Die → Die) : (s.modDie d f).layout = s.layout := rfl
@[simp] theorem State.modDie_groups (s : State) (d : Nat) (f : Die → Die) : (s.modDie d f).groups = s.groups := rfl
@[simp] theorem State.modDie_monitors (s : State) (d : Nat) (f : Die → Die) : (s.modDie d f).monitors = s.monitors := rfl
@[simp] theorem State.modDie_slots (s : State) (d : Nat) (f : Die → Die) : (s.modDie d f).slots = s.slots := rfl
@[simp] theorem State.modDie_trigger (s : State) (d : Nat) (f : Die → Die) : (s.modDie d f).trigger = s.trigger := rfl
@[simp] theorem State.modDie_triggered (s : State) (d : Nat) (f : Die → Die) : (s.modDie d f).triggered = s.triggered := rfl
@[simp] theorem State.modDie_launches (s : State) (d : Nat) (f : Die → Die) : (s.modDie d f).launches = s.launches := rfl
@[simp] theorem State.modDie_packs (s : State) (d : Nat) (f : Die → Die) : (s.modDie d f).packs = s.packs := rfl
@[simp] theorem State.modDie_clusters (s : State) (d : Nat) (f : Die → Die) : (s.modDie d f).clusters = s.clusters := rfl
@[simp] theorem State.modDie_lostDies (s : State) (d : Nat) (f : Die → Die) : (s.modDie d f).lostDies = s.lostDies := rfl
@[simp] theorem State.modDie_held (s : State) (d : Nat) (f : Die → Die) : (s.modDie d f).held = s.held := rfl
@[simp] theorem State.modDie_loans (s : State) (d : Nat) (f : Die → Die) : (s.modDie d f).loans = s.loans := rfl
@[simp] theorem State.modDie_linkDown (s : State) (d : Nat) (f : Die → Die) : (s.modDie d f).linkDown = s.linkDown := rfl
@[simp] theorem State.modDie_linkFrozen (s : State) (d : Nat) (f : Die → Die) : (s.modDie d f).linkFrozen = s.linkFrozen := rfl
@[simp] theorem State.modDie_msix (s : State) (d : Nat) (f : Die → Die) : (s.modDie d f).msix = s.msix := rfl
@[simp] theorem State.modDie_report (s : State) (d : Nat) (f : Die → Die) : (s.modDie d f).report = s.report := rfl
@[simp] theorem State.modDie_nextPack (s : State) (d : Nat) (f : Die → Die) : (s.modDie d f).nextPack = s.nextPack := rfl
@[simp] theorem State.modDie_nextId (s : State) (d : Nat) (f : Die → Die) : (s.modDie d f).nextId = s.nextId := rfl
@[simp] theorem State.modDie_agenda (s : State) (d : Nat) (f : Die → Die) : (s.modDie d f).agenda = s.agenda := rfl
@[simp] theorem State.modDie_cur (s : State) (d : Nat) (f : Die → Die) : (s.modDie d f).cur = s.cur := rfl
@[simp] theorem State.modDie_port1 (s : State) (d : Nat) (f : Die → Die) : (s.modDie d f).port1 = s.port1 := rfl
@[simp] theorem State.modDie_choices (s : State) (d : Nat) (f : Die → Die) : (s.modDie d f).choices = s.choices := rfl
@[simp] theorem State.modDie_passed (s : State) (d : Nat) (f : Die → Die) : (s.modDie d f).passed = s.passed := rfl

/-! ### setGroup -/

@[simp] theorem State.setGroup_mem (s : State) (g : Nat) (x : GroupEntry) : (s.setGroup g x).mem = s.mem := rfl
@[simp] theorem State.setGroup_stale (s : State) (g : Nat) (x : GroupEntry) : (s.setGroup g x).stale = s.stale := rfl
@[simp] theorem State.setGroup_unc (s : State) (g : Nat) (x : GroupEntry) : (s.setGroup g x).unc = s.unc := rfl
@[simp] theorem State.setGroup_corr (s : State) (g : Nat) (x : GroupEntry) : (s.setGroup g x).corr = s.corr := rfl
@[simp] theorem State.setGroup_lines (s : State) (g : Nat) (x : GroupEntry) : (s.setGroup g x).lines = s.lines := rfl
@[simp] theorem State.setGroup_icache (s : State) (g : Nat) (x : GroupEntry) : (s.setGroup g x).icache = s.icache := rfl
@[simp] theorem State.setGroup_linePar (s : State) (g : Nat) (x : GroupEntry) : (s.setGroup g x).linePar = s.linePar := rfl
@[simp] theorem State.setGroup_windows (s : State) (g : Nat) (x : GroupEntry) : (s.setGroup g x).windows = s.windows := rfl
@[simp] theorem State.setGroup_grants (s : State) (g : Nat) (x : GroupEntry) : (s.setGroup g x).grants = s.grants := rfl
@[simp] theorem State.setGroup_flips (s : State) (g : Nat) (x : GroupEntry) : (s.setGroup g x).flips = s.flips := rfl
@[simp] theorem State.setGroup_ports (s : State) (g : Nat) (x : GroupEntry) : (s.setGroup g x).ports = s.ports := rfl
@[simp] theorem State.setGroup_images (s : State) (g : Nat) (x : GroupEntry) : (s.setGroup g x).images = s.images := rfl
@[simp] theorem State.setGroup_version (s : State) (g : Nat) (x : GroupEntry) : (s.setGroup g x).version = s.version := rfl
@[simp] theorem State.setGroup_tlb (s : State) (g : Nat) (x : GroupEntry) : (s.setGroup g x).tlb = s.tlb := rfl
@[simp] theorem State.setGroup_ctxs (s : State) (g : Nat) (x : GroupEntry) : (s.setGroup g x).ctxs = s.ctxs := rfl
@[simp] theorem State.setGroup_layout (s : State) (g : Nat) (x : GroupEntry) : (s.setGroup g x).layout = s.layout := rfl
@[simp] theorem State.setGroup_monitors (s : State) (g : Nat) (x : GroupEntry) : (s.setGroup g x).monitors = s.monitors := rfl
@[simp] theorem State.setGroup_slots (s : State) (g : Nat) (x : GroupEntry) : (s.setGroup g x).slots = s.slots := rfl
@[simp] theorem State.setGroup_trigger (s : State) (g : Nat) (x : GroupEntry) : (s.setGroup g x).trigger = s.trigger := rfl
@[simp] theorem State.setGroup_triggered (s : State) (g : Nat) (x : GroupEntry) : (s.setGroup g x).triggered = s.triggered := rfl
@[simp] theorem State.setGroup_launches (s : State) (g : Nat) (x : GroupEntry) : (s.setGroup g x).launches = s.launches := rfl
@[simp] theorem State.setGroup_packs (s : State) (g : Nat) (x : GroupEntry) : (s.setGroup g x).packs = s.packs := rfl
@[simp] theorem State.setGroup_dies (s : State) (g : Nat) (x : GroupEntry) : (s.setGroup g x).dies = s.dies := rfl
@[simp] theorem State.setGroup_clusters (s : State) (g : Nat) (x : GroupEntry) : (s.setGroup g x).clusters = s.clusters := rfl
@[simp] theorem State.setGroup_lostDies (s : State) (g : Nat) (x : GroupEntry) : (s.setGroup g x).lostDies = s.lostDies := rfl
@[simp] theorem State.setGroup_held (s : State) (g : Nat) (x : GroupEntry) : (s.setGroup g x).held = s.held := rfl
@[simp] theorem State.setGroup_loans (s : State) (g : Nat) (x : GroupEntry) : (s.setGroup g x).loans = s.loans := rfl
@[simp] theorem State.setGroup_linkDown (s : State) (g : Nat) (x : GroupEntry) : (s.setGroup g x).linkDown = s.linkDown := rfl
@[simp] theorem State.setGroup_linkFrozen (s : State) (g : Nat) (x : GroupEntry) : (s.setGroup g x).linkFrozen = s.linkFrozen := rfl
@[simp] theorem State.setGroup_msix (s : State) (g : Nat) (x : GroupEntry) : (s.setGroup g x).msix = s.msix := rfl
@[simp] theorem State.setGroup_report (s : State) (g : Nat) (x : GroupEntry) : (s.setGroup g x).report = s.report := rfl
@[simp] theorem State.setGroup_nextPack (s : State) (g : Nat) (x : GroupEntry) : (s.setGroup g x).nextPack = s.nextPack := rfl
@[simp] theorem State.setGroup_nextId (s : State) (g : Nat) (x : GroupEntry) : (s.setGroup g x).nextId = s.nextId := rfl
@[simp] theorem State.setGroup_agenda (s : State) (g : Nat) (x : GroupEntry) : (s.setGroup g x).agenda = s.agenda := rfl
@[simp] theorem State.setGroup_cur (s : State) (g : Nat) (x : GroupEntry) : (s.setGroup g x).cur = s.cur := rfl
@[simp] theorem State.setGroup_port1 (s : State) (g : Nat) (x : GroupEntry) : (s.setGroup g x).port1 = s.port1 := rfl
@[simp] theorem State.setGroup_choices (s : State) (g : Nat) (x : GroupEntry) : (s.setGroup g x).choices = s.choices := rfl
@[simp] theorem State.setGroup_passed (s : State) (g : Nat) (x : GroupEntry) : (s.setGroup g x).passed = s.passed := rfl

/-! ### setLine -/

@[simp] theorem State.setLine_mem (s : State) (l : Nat) (x : Line) : (s.setLine l x).mem = s.mem := rfl
@[simp] theorem State.setLine_stale (s : State) (l : Nat) (x : Line) : (s.setLine l x).stale = s.stale := rfl
@[simp] theorem State.setLine_unc (s : State) (l : Nat) (x : Line) : (s.setLine l x).unc = s.unc := rfl
@[simp] theorem State.setLine_corr (s : State) (l : Nat) (x : Line) : (s.setLine l x).corr = s.corr := rfl
@[simp] theorem State.setLine_icache (s : State) (l : Nat) (x : Line) : (s.setLine l x).icache = s.icache := rfl
@[simp] theorem State.setLine_linePar (s : State) (l : Nat) (x : Line) : (s.setLine l x).linePar = s.linePar := rfl
@[simp] theorem State.setLine_windows (s : State) (l : Nat) (x : Line) : (s.setLine l x).windows = s.windows := rfl
@[simp] theorem State.setLine_grants (s : State) (l : Nat) (x : Line) : (s.setLine l x).grants = s.grants := rfl
@[simp] theorem State.setLine_flips (s : State) (l : Nat) (x : Line) : (s.setLine l x).flips = s.flips := rfl
@[simp] theorem State.setLine_ports (s : State) (l : Nat) (x : Line) : (s.setLine l x).ports = s.ports := rfl
@[simp] theorem State.setLine_images (s : State) (l : Nat) (x : Line) : (s.setLine l x).images = s.images := rfl
@[simp] theorem State.setLine_version (s : State) (l : Nat) (x : Line) : (s.setLine l x).version = s.version := rfl
@[simp] theorem State.setLine_tlb (s : State) (l : Nat) (x : Line) : (s.setLine l x).tlb = s.tlb := rfl
@[simp] theorem State.setLine_ctxs (s : State) (l : Nat) (x : Line) : (s.setLine l x).ctxs = s.ctxs := rfl
@[simp] theorem State.setLine_layout (s : State) (l : Nat) (x : Line) : (s.setLine l x).layout = s.layout := rfl
@[simp] theorem State.setLine_groups (s : State) (l : Nat) (x : Line) : (s.setLine l x).groups = s.groups := rfl
@[simp] theorem State.setLine_monitors (s : State) (l : Nat) (x : Line) : (s.setLine l x).monitors = s.monitors := rfl
@[simp] theorem State.setLine_slots (s : State) (l : Nat) (x : Line) : (s.setLine l x).slots = s.slots := rfl
@[simp] theorem State.setLine_trigger (s : State) (l : Nat) (x : Line) : (s.setLine l x).trigger = s.trigger := rfl
@[simp] theorem State.setLine_triggered (s : State) (l : Nat) (x : Line) : (s.setLine l x).triggered = s.triggered := rfl
@[simp] theorem State.setLine_launches (s : State) (l : Nat) (x : Line) : (s.setLine l x).launches = s.launches := rfl
@[simp] theorem State.setLine_packs (s : State) (l : Nat) (x : Line) : (s.setLine l x).packs = s.packs := rfl
@[simp] theorem State.setLine_dies (s : State) (l : Nat) (x : Line) : (s.setLine l x).dies = s.dies := rfl
@[simp] theorem State.setLine_clusters (s : State) (l : Nat) (x : Line) : (s.setLine l x).clusters = s.clusters := rfl
@[simp] theorem State.setLine_lostDies (s : State) (l : Nat) (x : Line) : (s.setLine l x).lostDies = s.lostDies := rfl
@[simp] theorem State.setLine_held (s : State) (l : Nat) (x : Line) : (s.setLine l x).held = s.held := rfl
@[simp] theorem State.setLine_loans (s : State) (l : Nat) (x : Line) : (s.setLine l x).loans = s.loans := rfl
@[simp] theorem State.setLine_linkDown (s : State) (l : Nat) (x : Line) : (s.setLine l x).linkDown = s.linkDown := rfl
@[simp] theorem State.setLine_linkFrozen (s : State) (l : Nat) (x : Line) : (s.setLine l x).linkFrozen = s.linkFrozen := rfl
@[simp] theorem State.setLine_msix (s : State) (l : Nat) (x : Line) : (s.setLine l x).msix = s.msix := rfl
@[simp] theorem State.setLine_report (s : State) (l : Nat) (x : Line) : (s.setLine l x).report = s.report := rfl
@[simp] theorem State.setLine_nextPack (s : State) (l : Nat) (x : Line) : (s.setLine l x).nextPack = s.nextPack := rfl
@[simp] theorem State.setLine_nextId (s : State) (l : Nat) (x : Line) : (s.setLine l x).nextId = s.nextId := rfl
@[simp] theorem State.setLine_agenda (s : State) (l : Nat) (x : Line) : (s.setLine l x).agenda = s.agenda := rfl
@[simp] theorem State.setLine_cur (s : State) (l : Nat) (x : Line) : (s.setLine l x).cur = s.cur := rfl
@[simp] theorem State.setLine_port1 (s : State) (l : Nat) (x : Line) : (s.setLine l x).port1 = s.port1 := rfl
@[simp] theorem State.setLine_choices (s : State) (l : Nat) (x : Line) : (s.setLine l x).choices = s.choices := rfl
@[simp] theorem State.setLine_passed (s : State) (l : Nat) (x : Line) : (s.setLine l x).passed = s.passed := rfl

/-! ### setContext -/

@[simp] theorem State.setContext_mem (s : State) (c : Nat) (x : Context) : (s.setContext c x).mem = s.mem := rfl
@[simp] theorem State.setContext_stale (s : State) (c : Nat) (x : Context) : (s.setContext c x).stale = s.stale := rfl
@[simp] theorem State.setContext_unc (s : State) (c : Nat) (x : Context) : (s.setContext c x).unc = s.unc := rfl
@[simp] theorem State.setContext_corr (s : State) (c : Nat) (x : Context) : (s.setContext c x).corr = s.corr := rfl
@[simp] theorem State.setContext_lines (s : State) (c : Nat) (x : Context) : (s.setContext c x).lines = s.lines := rfl
@[simp] theorem State.setContext_icache (s : State) (c : Nat) (x : Context) : (s.setContext c x).icache = s.icache := rfl
@[simp] theorem State.setContext_linePar (s : State) (c : Nat) (x : Context) : (s.setContext c x).linePar = s.linePar := rfl
@[simp] theorem State.setContext_windows (s : State) (c : Nat) (x : Context) : (s.setContext c x).windows = s.windows := rfl
@[simp] theorem State.setContext_grants (s : State) (c : Nat) (x : Context) : (s.setContext c x).grants = s.grants := rfl
@[simp] theorem State.setContext_flips (s : State) (c : Nat) (x : Context) : (s.setContext c x).flips = s.flips := rfl
@[simp] theorem State.setContext_ports (s : State) (c : Nat) (x : Context) : (s.setContext c x).ports = s.ports := rfl
@[simp] theorem State.setContext_images (s : State) (c : Nat) (x : Context) : (s.setContext c x).images = s.images := rfl
@[simp] theorem State.setContext_version (s : State) (c : Nat) (x : Context) : (s.setContext c x).version = s.version := rfl
@[simp] theorem State.setContext_tlb (s : State) (c : Nat) (x : Context) : (s.setContext c x).tlb = s.tlb := rfl
@[simp] theorem State.setContext_layout (s : State) (c : Nat) (x : Context) : (s.setContext c x).layout = s.layout := rfl
@[simp] theorem State.setContext_groups (s : State) (c : Nat) (x : Context) : (s.setContext c x).groups = s.groups := rfl
@[simp] theorem State.setContext_monitors (s : State) (c : Nat) (x : Context) : (s.setContext c x).monitors = s.monitors := rfl
@[simp] theorem State.setContext_slots (s : State) (c : Nat) (x : Context) : (s.setContext c x).slots = s.slots := rfl
@[simp] theorem State.setContext_trigger (s : State) (c : Nat) (x : Context) : (s.setContext c x).trigger = s.trigger := rfl
@[simp] theorem State.setContext_triggered (s : State) (c : Nat) (x : Context) : (s.setContext c x).triggered = s.triggered := rfl
@[simp] theorem State.setContext_launches (s : State) (c : Nat) (x : Context) : (s.setContext c x).launches = s.launches := rfl
@[simp] theorem State.setContext_packs (s : State) (c : Nat) (x : Context) : (s.setContext c x).packs = s.packs := rfl
@[simp] theorem State.setContext_dies (s : State) (c : Nat) (x : Context) : (s.setContext c x).dies = s.dies := rfl
@[simp] theorem State.setContext_clusters (s : State) (c : Nat) (x : Context) : (s.setContext c x).clusters = s.clusters := rfl
@[simp] theorem State.setContext_lostDies (s : State) (c : Nat) (x : Context) : (s.setContext c x).lostDies = s.lostDies := rfl
@[simp] theorem State.setContext_held (s : State) (c : Nat) (x : Context) : (s.setContext c x).held = s.held := rfl
@[simp] theorem State.setContext_loans (s : State) (c : Nat) (x : Context) : (s.setContext c x).loans = s.loans := rfl
@[simp] theorem State.setContext_linkDown (s : State) (c : Nat) (x : Context) : (s.setContext c x).linkDown = s.linkDown := rfl
@[simp] theorem State.setContext_linkFrozen (s : State) (c : Nat) (x : Context) : (s.setContext c x).linkFrozen = s.linkFrozen := rfl
@[simp] theorem State.setContext_msix (s : State) (c : Nat) (x : Context) : (s.setContext c x).msix = s.msix := rfl
@[simp] theorem State.setContext_report (s : State) (c : Nat) (x : Context) : (s.setContext c x).report = s.report := rfl
@[simp] theorem State.setContext_nextPack (s : State) (c : Nat) (x : Context) : (s.setContext c x).nextPack = s.nextPack := rfl
@[simp] theorem State.setContext_nextId (s : State) (c : Nat) (x : Context) : (s.setContext c x).nextId = s.nextId := rfl
@[simp] theorem State.setContext_agenda (s : State) (c : Nat) (x : Context) : (s.setContext c x).agenda = s.agenda := rfl
@[simp] theorem State.setContext_cur (s : State) (c : Nat) (x : Context) : (s.setContext c x).cur = s.cur := rfl
@[simp] theorem State.setContext_port1 (s : State) (c : Nat) (x : Context) : (s.setContext c x).port1 = s.port1 := rfl
@[simp] theorem State.setContext_choices (s : State) (c : Nat) (x : Context) : (s.setContext c x).choices = s.choices := rfl
@[simp] theorem State.setContext_passed (s : State) (c : Nat) (x : Context) : (s.setContext c x).passed = s.passed := rfl

/-! ### Reads after updates -/

theorem State.pack_setPack (s : State) (u v : Nat) (x : Pack) :
    (s.setPack u x).pack v = if u = v then some x else s.pack v := cget_cset _ _ _ _
@[simp] theorem State.pack_setPack_self (s : State) (u : Nat) (x : Pack) : (s.setPack u x).pack u = some x := by
  simp [State.pack_setPack]
theorem State.pack_modPack (s : State) (u v : Nat) (f : Pack → Pack) :
    (s.modPack u f).pack v = if u = v then (s.pack u).map f else s.pack v := by
  unfold State.modPack
  split
  · rename_i h
    by_cases huv : u = v
    · subst huv; simp [State.pack, h]
    · simp [huv]
  · rename_i p h
    rw [State.pack_setPack]
    by_cases huv : u = v
    · subst huv; simp [State.pack, h]
    · simp [huv]
theorem State.pack_modPack_self (s : State) (u : Nat) (f : Pack → Pack) : (s.modPack u f).pack u = (s.pack u).map f := by
  simp [State.pack_modPack]
theorem State.pack_modPack_ne (s : State) {u v : Nat} (f : Pack → Pack) (h : u ≠ v) : (s.modPack u f).pack v = s.pack v := by
  simp [State.pack_modPack, h]

theorem State.party_eq (s : State) (u w : Nat) : s.party u w = (s.pack u).bind fun p => cget p.parties w := rfl

theorem State.pack_setParty (s : State) (u w v : Nat) (x : Party) :
    (s.setParty u w x).pack v =
      if u = v then (s.pack u).map fun p => { p with parties := cset p.parties w x } else s.pack v :=
  State.pack_modPack s u v _
theorem State.party_setParty (s : State) (u w v y : Nat) (x : Party) :
    (s.setParty u w x).party v y =
      if u = v ∧ w = y then (s.pack u).map fun _ => x else s.party v y := by
  rw [State.party_eq, State.pack_setParty, State.party_eq]
  by_cases huv : u = v
  · subst huv
    by_cases hwy : w = y
    · subst hwy; cases s.pack u <;> simp
    · cases s.pack u <;> simp [hwy, cget_cset_ne]
  · simp [huv]
theorem State.party_modParty (s : State) (u w v y : Nat) (f : Party → Party) :
    (s.modParty u w f).party v y = if u = v ∧ w = y then (s.party u w).map f else s.party v y := by
  unfold State.modParty
  split
  · rename_i h
    by_cases huv : u = v ∧ w = y
    · obtain ⟨rfl, rfl⟩ := huv; simp [h]
    · simp [huv]
  · rename_i x h
    rw [State.party_setParty]
    by_cases huv : u = v ∧ w = y
    · obtain ⟨rfl, rfl⟩ := huv
      simp only [h, and_self, ↓reduceIte, Option.map_some]
      cases hp : s.pack u with
      | none => simp [State.party_eq, hp] at h
      | some k => rfl
    · simp [huv]
theorem State.party_modParty_self (s : State) (u w : Nat) (f : Party → Party) :
    (s.modParty u w f).party u w = (s.party u w).map f := by simp [State.party_modParty]
theorem State.pack_modParty (s : State) (u w v : Nat) (f : Party → Party) {k : Pack} {p : Party}
    (hk : s.pack u = some k) (hp : s.party u w = some p) :
    (s.modParty u w f).pack v =
      if u = v then some { k with parties := cset k.parties w (f p) } else s.pack v := by
  unfold State.modParty; rw [hp]
  simp only [State.pack_setParty, hk, Option.map_some]
theorem State.party_modRegs (s : State) (u w v y : Nat) (f : Regs → Regs) :
    (s.modRegs u w f).party v y =
      if u = v ∧ w = y then (s.party u w).map (fun x => { x with regs := f x.regs }) else s.party v y :=
  State.party_modParty s u w v y _
/-- A party has a pack. -/
theorem State.pack_of_party {s : State} {u w : Nat} {p : Party} (h : s.party u w = some p) :
    ∃ k, s.pack u = some k := by
  cases hk : s.pack u with
  | none => simp [State.party_eq, hk] at h
  | some k => exact ⟨k, rfl⟩

theorem State.cluster_setCluster (s : State) (c d : Nat) (x : Cluster) :
    (s.setCluster c x).cluster d = if c = d then x else s.cluster d := rd_wr _ _ _ _ _
theorem State.cluster_modCluster (s : State) (c d : Nat) (f : Cluster → Cluster) :
    (s.modCluster c f).cluster d = if c = d then f (s.cluster c) else s.cluster d := rd_wr _ _ _ _ _
theorem State.die_setDie (s : State) (c d : Nat) (x : Die) :
    (s.setDie c x).die d = if c = d then x else s.die d := rd_wr _ _ _ _ _
theorem State.die_modDie (s : State) (c d : Nat) (f : Die → Die) :
    (s.modDie c f).die d = if c = d then f (s.die c) else s.die d := rd_wr _ _ _ _ _
theorem State.group_setGroup (s : State) (g h : Nat) (x : GroupEntry) :
    (s.setGroup g x).group h = if g = h then x else s.group h := rd_wr _ _ _ _ _
theorem State.line_setLine (s : State) (l m : Nat) (x : Line) :
    (s.setLine l x).line m = if l = m then x else s.line m := rd_wr _ _ _ _ _
theorem State.kreg_setKreg (s : State) (u n m : Nat) (k : KReg) (h : (s.pack u).isSome) :
    (s.setKreg u n k).kreg u m = if n = m then k else s.kreg u m := by
  obtain ⟨p, hp⟩ := Option.isSome_iff_exists.mp h
  simp only [State.kreg, State.setKreg, State.pack_modPack_self, hp, Option.map_some, Option.getD_some, rd_wr]

end Sys2Proof.Machine
end

