-- ==== Sys2Proof/Laws/Memory.lean ====
section
/-! SUPPORT. Memory: what the operations that only move copies of lines, wake waiters or translate leave alone, what a byte
reads as after a write, which words a table lists, and that every operation keeps the one form of the memory. -/

namespace Sys2Proof.Machine

/-! ### Operations that leave the bytes alone -/

@[simp] theorem State.setDramChecks_mem (s : State) (l : Nat) (x : Checks) : (s.setDramChecks l x).mem = s.mem := rfl
@[simp] theorem State.readL1_mem (s : State) (c l : Nat) (m : BitVec 4) : (s.readL1 c l m).mem = s.mem := by
  simp only [State.readL1]; split <;> simp
@[simp] theorem State.readL2_mem (s : State) (l : Nat) (m : BitVec 4) : (s.readL2 l m).mem = s.mem := by
  simp only [State.readL2]; repeat' split
  all_goals simp
@[simp] theorem State.readDram_mem (s : State) (l : Nat) (m : BitVec 4) : (s.readDram l m).mem = s.mem := by
  simp only [State.readDram]; repeat' split
  all_goals simp
@[simp] theorem State.cleanL2_mem (s : State) (l : Nat) : (s.cleanL2 l).mem = s.mem := by
  simp only [State.cleanL2]; split <;> simp
@[simp] theorem State.evictL2_mem (s : State) (l : Nat) : (s.evictL2 l).mem = s.mem := by
  simp only [State.evictL2, State.setLine_mem, State.cleanL2_mem]
@[simp] theorem State.roomL2_mem (s : State) (l : Nat) : (s.roomL2 l).mem = s.mem := by
  simp only [State.roomL2]; repeat' split
  all_goals simp
@[simp] theorem State.fillL2_mem (s : State) (l : Nat) : (s.fillL2 l).mem = s.mem := by
  simp only [State.fillL2]; split <;> simp
@[simp] theorem State.writeBack_mem (s : State) (l : Nat) : (s.writeBack l).mem = s.mem := by
  simp only [State.writeBack, State.setLine_mem]; repeat' split
  all_goals simp
@[simp] theorem State.recall_mem (s : State) (l : Nat) : (s.recall l).mem = s.mem := by
  simp only [State.recall, State.setLine_mem]; split <;> simp
@[simp] theorem State.cleanL1_mem (s : State) (l : Nat) : (s.cleanL1 l).mem = s.mem := by
  simp only [State.cleanL1]; repeat' split
  all_goals simp
@[simp] theorem State.evictL1_mem (s : State) (c l : Nat) : (s.evictL1 c l).mem = s.mem := by
  simp only [State.evictL1]; split <;> simp
@[simp] theorem State.fillL1_mem (s : State) (c l : Nat) (x : Checks) (k : Nat) : (s.fillL1 c l x k).mem = s.mem := by
  simp only [State.fillL1, State.setLine_mem]; split <;> simp
@[simp] theorem State.retain_mem (s : State) (c l : Nat) (h : Alloc) : (s.retain c l h).mem = s.mem := by
  simp only [State.retain]; split <;> simp
@[simp] theorem State.dirRead_mem (s : State) (c pa n : Nat) (h : Alloc) : (s.dirRead c pa n h).mem = s.mem := by
  simp only [State.dirRead]; repeat' split
  all_goals simp
@[simp] theorem State.dirWrite_mem (s : State) (c pa n : Nat) (h : Alloc) : (s.dirWrite c pa n h).mem = s.mem := by
  simp only [State.dirWrite, State.retain_mem, State.setLine_mem]; repeat' split
  all_goals simp
theorem foldl_mem {α : Type} (f : State → α → State) (hf : ∀ s x, (f s x).mem = s.mem) (l : List α) (s : State) :
    (l.foldl f s).mem = s.mem := by
  induction l generalizing s with
  | nil => rfl
  | cons x r ih => rw [List.foldl_cons, ih, hf]
@[simp] theorem State.correct_mem (s : State) (pa n : Nat) : (s.correct pa n).mem = s.mem := by
  simp only [State.correct]; split
  all_goals first | rfl | skip
  all_goals
    refine foldl_mem _ (fun s l => ?_) _ _
    repeat' split
    all_goals simp
@[simp] theorem State.correctNear_mem (s : State) (c pa n : Nat) : (s.correctNear c pa n).mem = s.mem := by
  simp only [State.correctNear]; repeat' split
  all_goals simp
/-- A read changes no byte (R204, R211). -/
@[simp] theorem State.readBy_mem (s : State) (c pa n : Nat) (h : Alloc) : (s.readBy c pa n h).mem = s.mem := by
  simp only [State.readBy]; split <;> simp

@[simp] theorem State.wakeMonitor_mem (s : State) (m : Monitor) (w : Word64) (code : Nat) :
    (s.wakeMonitor m w code).mem = s.mem := by
  simp only [State.wakeMonitor]; split <;> simp

theorem State.moveIn_mem (s : State) (slice k : Nat) : (s.moveIn slice k).mem = s.mem := by
  induction k generalizing s with
  | zero => rfl
  | succ k ih =>
    simp only [State.moveIn]
    split
    · rfl
    · split
      · rfl
      · rw [ih]; split <;> simp

theorem State.evalMonitors_mem (s : State) (pa n : Nat) (ms : List Monitor) : (s.evalMonitors pa n ms).mem = s.mem := by
  induction ms generalizing s with
  | nil => rfl
  | cons m r ih => simp only [State.evalMonitors]; rw [ih]; split <;> simp

/-- Waking waiters changes no byte (R353). -/
@[simp] theorem State.notify_mem (s : State) (pa n : Nat) : (s.notify pa n).mem = s.mem := by
  simp only [State.notify]; split
  · rfl
  · rw [State.moveIn_mem, State.evalMonitors_mem]

@[simp] theorem State.notifyRange_mem (s : State) (pa n : Nat) : (s.notifyRange pa n).mem = s.mem := by
  simp only [State.notifyRange]; split
  · rfl
  · rw [foldl_mem _ fun s x => State.moveIn_mem s x _, State.evalMonitors_mem]

/-- A line of the home slice is made ready for a write without a byte changed. -/
@[simp] theorem State.openHome_mem (s : State) (alloc : Bool) (pa n l : Nat) : (s.openHome alloc pa n l).mem = s.mem := by
  simp only [State.openHome]; split
  · simp only [State.setLine_mem]
    repeat' split
    all_goals simp
  · simp
theorem State.openHomes_mem (s : State) (alloc : Bool) (pa n : Nat) (ls : List Nat) :
    (ls.foldl (fun (s : State) l => s.openHome alloc pa n l) s).mem = s.mem :=
  foldl_mem _ (fun s l => s.openHome_mem alloc pa n l) _ _

/-- A walk changes no byte, though it corrects the entries that it reads (R209). -/
@[simp] theorem State.correctWalk_mem (s : State) (ctx va : Nat) : (s.correctWalk ctx va).mem = s.mem :=
  foldl_mem _ (fun s a => s.correct_mem a 8) _ _

@[simp] theorem State.tlbFill_mem (s : State) (e : TlbEntry) : (s.tlbFill e).mem = s.mem := by
  simp only [State.tlbFill]; repeat' split
  all_goals rfl
@[simp] theorem State.tlbFillAll_mem (s : State) (us : List Nat) (ctx va log : Nat) (e : Word64) :
    (s.tlbFillAll us ctx va log e).mem = s.mem := by
  simp only [State.tlbFillAll]
  induction us generalizing s with
  | nil => rfl
  | cons u r ih => simp only [List.foldl_cons]; rw [ih]; split <;> simp

@[simp] theorem State.dropInto_mem (s : State) (pa n : Nat) : (s.dropInto pa n).mem = s.mem := rfl
@[simp] theorem State.flushRange_mem (s : State) (pa n : Nat) : (s.flushRange pa n).mem = s.mem := by
  simp only [State.flushRange]
  generalize s.linesIn pa n = ls
  induction ls generalizing s with
  | nil => rfl
  | cons l r ih => simp only [List.foldl_cons]; rw [ih]; simp

/-! ### A write leaves the contexts alone -/

@[simp] theorem State.setDramChecks_ctxs (s : State) (l : Nat) (x : Checks) : (s.setDramChecks l x).ctxs = s.ctxs := rfl
@[simp] theorem State.readL1_ctxs (s : State) (c l : Nat) (m : BitVec 4) : (s.readL1 c l m).ctxs = s.ctxs := by
  simp only [State.readL1]; split <;> simp
@[simp] theorem State.readL2_ctxs (s : State) (l : Nat) (m : BitVec 4) : (s.readL2 l m).ctxs = s.ctxs := by
  simp only [State.readL2]; repeat' split
  all_goals simp
@[simp] theorem State.readDram_ctxs (s : State) (l : Nat) (m : BitVec 4) : (s.readDram l m).ctxs = s.ctxs := by
  simp only [State.readDram]; repeat' split
  all_goals simp
@[simp] theorem State.cleanL2_ctxs (s : State) (l : Nat) : (s.cleanL2 l).ctxs = s.ctxs := by
  simp only [State.cleanL2]; split <;> simp
@[simp] theorem State.evictL2_ctxs (s : State) (l : Nat) : (s.evictL2 l).ctxs = s.ctxs := by
  simp only [State.evictL2, State.setLine_ctxs, State.cleanL2_ctxs]
@[simp] theorem State.roomL2_ctxs (s : State) (l : Nat) : (s.roomL2 l).ctxs = s.ctxs := by
  simp only [State.roomL2]; repeat' split
  all_goals simp
@[simp] theorem State.fillL2_ctxs (s : State) (l : Nat) : (s.fillL2 l).ctxs = s.ctxs := by
  simp only [State.fillL2]; split <;> simp
@[simp] theorem State.writeBack_ctxs (s : State) (l : Nat) : (s.writeBack l).ctxs = s.ctxs := by
  simp only [State.writeBack, State.setLine_ctxs]; repeat' split
  all_goals simp
@[simp] theorem State.recall_ctxs (s : State) (l : Nat) : (s.recall l).ctxs = s.ctxs := by
  simp only [State.recall, State.setLine_ctxs]; split <;> simp
@[simp] theorem State.wakeMonitor_ctxs (s : State) (m : Monitor) (w : Word64) (code : Nat) :
    (s.wakeMonitor m w code).ctxs = s.ctxs := by
  simp only [State.wakeMonitor]; split <;> simp
theorem State.moveIn_ctxs (s : State) (slice k : Nat) : (s.moveIn slice k).ctxs = s.ctxs := by
  induction k generalizing s with
  | zero => rfl
  | succ k ih =>
    simp only [State.moveIn]
    split
    · rfl
    · split
      · rfl
      · rw [ih]; split <;> simp
theorem State.evalMonitors_ctxs (s : State) (pa n : Nat) (ms : List Monitor) : (s.evalMonitors pa n ms).ctxs = s.ctxs := by
  induction ms generalizing s with
  | nil => rfl
  | cons m r ih => simp only [State.evalMonitors]; rw [ih]; split <;> simp
@[simp] theorem State.notify_ctxs (s : State) (pa n : Nat) : (s.notify pa n).ctxs = s.ctxs := by
  simp only [State.notify]; split
  · rfl
  · rw [State.moveIn_ctxs, State.evalMonitors_ctxs]
@[simp] theorem State.openHome_ctxs (s : State) (alloc : Bool) (pa n l : Nat) : (s.openHome alloc pa n l).ctxs = s.ctxs := by
  simp only [State.openHome]; split
  · simp only [State.setLine_ctxs]
    repeat' split
    all_goals simp
  · simp
theorem State.openHomes_ctxs (s : State) (alloc : Bool) (pa n : Nat) (ls : List Nat) :
    (ls.foldl (fun (s : State) l => s.openHome alloc pa n l) s).ctxs = s.ctxs := by
  induction ls generalizing s with
  | nil => rfl
  | cons l r ih => rw [List.foldl_cons, ih, State.openHome_ctxs]
@[simp] theorem State.putHome_ctxs (s : State) (pa : Nat) (bs : List Byte) : (s.putHome pa bs).ctxs = s.ctxs := by
  induction bs generalizing s pa with
  | nil => rfl
  | cons b r ih => rw [State.putHome, ih]
@[simp] theorem State.writeHomeWith_ctxs (s : State) (alloc : Bool) (pa : Nat) (bs : List Byte) :
    (s.writeHomeWith alloc pa bs).ctxs = s.ctxs := by
  simp only [State.writeHomeWith, State.landHome, State.notify_ctxs, State.putHome_ctxs]
  split <;> simp only [State.openHomes_ctxs]
@[simp] theorem State.writeHome_ctxs (s : State) (pa : Nat) (bs : List Byte) : (s.writeHome pa bs).ctxs = s.ctxs :=
  s.writeHomeWith_ctxs true pa bs

/-! ### What a byte reads as after a write -/

theorem State.putHome_mem (s : State) (pa : Nat) (bs : List Byte) (a : Nat) :
    (s.putHome pa bs).byteAt a = if h : pa ≤ a ∧ a < pa + bs.length then bs[a - pa] else s.byteAt a := by
  induction bs generalizing s pa with
  | nil => simp only [State.putHome]; split
           · rename_i h; simp only [List.length_nil] at h; omega
           · rfl
  | cons b r ih =>
    rw [State.putHome, ih]
    simp only [State.byteAt, List.length_cons, rd_wr]
    by_cases h1 : pa + 1 ≤ a ∧ a < pa + 1 + r.length
    · have h2 : pa ≤ a ∧ a < pa + (r.length + 1) := by omega
      have h3 : a - pa = a - (pa + 1) + 1 := by omega
      simp only [h1, h2, and_self, ↓reduceDIte, h3, List.getElem_cons_succ]
    · by_cases h2 : pa = a
      · subst h2
        have h3 : ¬ (pa + 1 ≤ pa ∧ pa < pa + 1 + r.length) := by omega
        have h4 : pa ≤ pa ∧ pa < pa + (r.length + 1) := by omega
        simp [h3, h4]
      · have h3 : ¬ (pa ≤ a ∧ a < pa + (r.length + 1)) := by omega
        rw [dif_neg h1, dif_neg h3, if_neg h2]

theorem State.putCached_mem (s : State) (pa : Nat) (bs : List Byte) (a : Nat) :
    (s.putCached pa bs).byteAt a = if h : pa ≤ a ∧ a < pa + bs.length then bs[a - pa] else s.byteAt a := by
  induction bs generalizing s pa with
  | nil => simp only [State.putCached]; split
           · rename_i h; simp only [List.length_nil] at h; omega
           · rfl
  | cons b r ih =>
    rw [State.putCached, ih]
    simp only [State.byteAt, List.length_cons, rd_wr]
    by_cases h1 : pa + 1 ≤ a ∧ a < pa + 1 + r.length
    · have h2 : pa ≤ a ∧ a < pa + (r.length + 1) := by omega
      have h3 : a - pa = a - (pa + 1) + 1 := by omega
      simp only [h1, h2, and_self, ↓reduceDIte, h3, List.getElem_cons_succ]
    · by_cases h2 : pa = a
      · subst h2
        have h3 : ¬ (pa + 1 ≤ pa ∧ pa < pa + 1 + r.length) := by omega
        have h4 : pa ≤ pa ∧ pa < pa + (r.length + 1) := by omega
        simp [h3, h4]
      · have h3 : ¬ (pa ≤ a ∧ a < pa + (r.length + 1)) := by omega
        rw [dif_neg h1, dif_neg h3, if_neg h2]

@[simp] theorem State.kept_length (s : State) (pa : Nat) (bs : List Byte) : (s.kept pa bs).length = bs.length := by
  simp [State.kept]
/-- A write changes the bytes that it covers, but for those that a submission area reserves (R5). -/
theorem State.kept_at (s : State) (pa : Nat) (bs : List Byte) (a : Nat) :
    (if h : pa ≤ a ∧ a < pa + (s.kept pa bs).length then (s.kept pa bs)[a - pa] else s.byteAt a) =
      if h : (pa ≤ a ∧ a < pa + bs.length) ∧ s.reservedAt a = false then bs[a - pa] else s.byteAt a := by
  by_cases h : pa ≤ a ∧ a < pa + bs.length
  · rw [dif_pos (by simpa using h)]
    simp only [State.kept, List.getElem_mapIdx, Nat.add_sub_cancel' h.1]
    by_cases r : s.reservedAt a = true
    · simp [r]
    · simp [h, Bool.eq_false_iff.2 r]
  · rw [dif_neg (by simpa using h), dif_neg (fun x => h x.1)]

/-- A byte after bytes have landed at the home slice. -/
theorem State.byteAt_landHome (s : State) (alloc : Bool) (pa : Nat) (bs : List Byte) (a : Nat) :
    (s.landHome alloc pa bs).byteAt a = if h : pa ≤ a ∧ a < pa + bs.length then bs[a - pa] else s.byteAt a := by
  simp only [State.landHome]
  have e (x : State) : (x.notify pa bs.length).byteAt a = x.byteAt a := by simp [State.byteAt]
  rw [e, State.putHome_mem]
  split
  · rfl
  · simp only [State.byteAt]; split <;> simp only [State.openHomes_mem]
/-- A byte after a write at the home slice. -/
theorem State.byteAt_writeHomeWith (s : State) (alloc : Bool) (pa : Nat) (bs : List Byte) (a : Nat) :
    (s.writeHomeWith alloc pa bs).byteAt a =
      if h : (pa ≤ a ∧ a < pa + bs.length) ∧ s.reservedAt a = false then bs[a - pa] else s.byteAt a := by
  rw [State.writeHomeWith, State.byteAt_landHome, State.kept_at]
theorem State.byteAt_writeHome (s : State) (pa : Nat) (bs : List Byte) (a : Nat) :
    (s.writeHome pa bs).byteAt a =
      if h : (pa ≤ a ∧ a < pa + bs.length) ∧ s.reservedAt a = false then bs[a - pa] else s.byteAt a :=
  s.byteAt_writeHomeWith true pa bs a

/-- A write leaves the reserved bytes where they are. -/
theorem State.reservedAt_of_ctxs {s t : State} (h : t.ctxs = s.ctxs) (a : Nat) : t.reservedAt a = s.reservedAt a := by
  simp only [State.reservedAt, h]

/-- A byte after a write over several lines. -/
theorem byteAt_writeLines (k pa : Nat) (bs : List Byte) (s : State) (a : Nat) (hk : bs.length ≤ k) :
    (writeLines k pa bs s).byteAt a =
      if h : (pa ≤ a ∧ a < pa + bs.length) ∧ s.reservedAt a = false then bs[a - pa] else s.byteAt a := by
  induction k generalizing pa bs s with
  | zero =>
    have : bs = [] := List.eq_nil_of_length_eq_zero (by omega)
    subst this
    rw [dif_neg (by simp only [List.length_nil]; omega)]
    rfl
  | succ k ih =>
    have hm : pa % 128 < 128 := Nat.mod_lt _ (by decide)
    simp only [writeLines]
    split
    · rename_i h
      rw [State.byteAt_writeHome, List.take_of_length_le h]
    · rename_i h
      rw [ih _ _ _ (by simp; omega), State.byteAt_writeHome]
      simp only [State.reservedAt_of_ctxs (s.writeHome_ctxs _ _), List.length_drop, List.length_take]
      by_cases r : s.reservedAt a = true
      · simp [r]
      simp only [Bool.eq_false_iff.2 r, and_true]
      by_cases h1 : pa + (128 - pa % 128) ≤ a ∧ a < pa + bs.length
      · rw [dif_pos (by omega), dif_pos (by omega), List.getElem_drop]
        congr 1
        omega
      · rw [dif_neg (by omega)]
        by_cases h2 : pa ≤ a ∧ a < pa + bs.length
        · rw [dif_pos (by omega), dif_pos h2, List.getElem_take]
        · rw [dif_neg (by omega), dif_neg h2]

/-- A byte after a write by a party of a cluster: nothing lands where no memory is (R206). -/
theorem State.byteAt_writeBy (s : State) (c pa : Nat) (al : Alloc) (bs : List Byte) (a : Nat) (h : s.target pa ≠ .absent) :
    (s.writeBy c pa al bs).byteAt a =
      if h : (pa ≤ a ∧ a < pa + bs.length) ∧ s.reservedAt a = false then bs[a - pa] else s.byteAt a := by
  have e (x : State) : (x.notify pa bs.length).byteAt a = x.byteAt a := by simp [State.byteAt]
  have f (x : State) (l : Nat) : (x.retain c l al).byteAt a = x.byteAt a := by simp [State.byteAt]
  simp only [State.writeBy]
  split
  · rw [State.putHome_mem, State.kept_at]
  · contradiction
  all_goals
    split
    · rw [f, State.byteAt_writeHomeWith]; simp only [State.reservedAt_of_ctxs (s.count_ctxs c 5 1)]; simp [State.byteAt]
    · rw [e, State.putCached_mem]
      rw [show (s.dirWrite c pa bs.length al).byteAt a = s.byteAt a by simp [State.byteAt], State.kept_at]

/-! ### The one form -/

theorem State.putHome_wf (s : State) (pa : Nat) (bs : List Byte) (h : Memory.wf s.mem = true) :
    Memory.wf (s.putHome pa bs).mem = true := by
  induction bs generalizing s pa with
  | nil => exact h
  | cons b r ih => exact ih _ _ (canonical_wr _ _ h)

theorem State.putCached_wf (s : State) (pa : Nat) (bs : List Byte) (h : Memory.wf s.mem = true) :
    Memory.wf (s.putCached pa bs).mem = true := by
  induction bs generalizing s pa with
  | nil => exact h
  | cons b r ih => exact ih _ _ (canonical_wr _ _ h)

theorem State.landHome_wf (s : State) (alloc : Bool) (pa : Nat) (bs : List Byte) (h : Memory.wf s.mem = true) :
    Memory.wf (s.landHome alloc pa bs).mem = true := by
  simp only [State.landHome, State.notify_mem]
  refine State.putHome_wf _ _ _ ?_
  split <;> simpa only [State.openHomes_mem] using h
theorem State.writeHomeWith_wf (s : State) (alloc : Bool) (pa : Nat) (bs : List Byte) (h : Memory.wf s.mem = true) :
    Memory.wf (s.writeHomeWith alloc pa bs).mem = true := s.landHome_wf alloc pa _ h
theorem State.writeHome_wf (s : State) (pa : Nat) (bs : List Byte) (h : Memory.wf s.mem = true) :
    Memory.wf (s.writeHome pa bs).mem = true := s.writeHomeWith_wf true pa bs h

theorem writeLines_wf (k pa : Nat) (bs : List Byte) (s : State) (h : Memory.wf s.mem = true) :
    Memory.wf (writeLines k pa bs s).mem = true := by
  induction k generalizing pa bs s with
  | zero => exact h
  | succ k ih =>
    simp only [writeLines]
    split
    · exact State.writeHome_wf _ _ _ h
    · exact ih _ _ _ (State.writeHome_wf _ _ _ h)

theorem State.writeBy_wf (s : State) (c pa : Nat) (al : Alloc) (bs : List Byte) (h : Memory.wf s.mem = true) :
    Memory.wf (s.writeBy c pa al bs).mem = true := by
  simp only [State.writeBy]
  split
  · exact State.putHome_wf _ _ _ h
  · exact h
  all_goals
    split
    · rw [State.retain_mem]; exact State.writeHomeWith_wf _ _ _ _ (by simpa using h)
    · rw [State.notify_mem]; exact State.putCached_wf _ _ _ (by simpa using h)

/-- A translation may set the accessed and dirty bits of the entry that it ends in (R358). -/
theorem translate_wf (s : State) (a : Asker) (va : Nat) (acc : Acc) (h : Memory.wf s.mem = true) :
    Memory.wf (translate s a va acc).1.mem = true := by
  have h' : Memory.wf (match a.cluster with
      | none => s
      | some c =>
        if (a.units.filter (100 ≤ ·)).any fun u => (tlbFind s u a.ctx va).isSome then s else s.count c 8 1).mem = true := by
    split
    · exact h
    · split <;> simpa using h
  simp only [translate]
  split
  · exact h
  · split
    · rw [State.tlbFillAll_mem]; exact h'
    · split
      · rw [State.correctWalk_mem]; exact h'
      · rw [State.correctWalk_mem]; exact h'
      · split
        · rw [State.correctWalk_mem]; exact h'
        · rw [State.tlbFillAll_mem]
          have w (b : Prop) [Decidable b] (x : State) (p : Nat) (bs : List Byte) (hx : Memory.wf x.mem = true) :
              Memory.wf (if b then x else x.writeHome p bs).mem = true := by
            split
            · exact hx
            · exact State.writeHome_wf _ _ _ hx
          exact w _ _ _ _ (by rw [State.correctWalk_mem]; exact h')

theorem access_wf (s : State) (a : Asker) (va : Word64) (n : Nat) (acc : Acc) (b : Consumes) (h : Memory.wf s.mem = true) :
    Memory.wf (access s a va n acc b).1.mem = true := by
  have := translate_wf s a va.toNat acc h
  simp only [access]
  split
  · exact h
  · split
    · simp_all
    · split <;> simp_all

theorem State.clearRange_wf (s : State) (pa n : Nat) (h : Memory.wf s.mem = true) :
    Memory.wf (s.clearRange pa n).mem = true := canonical_filter _ h

theorem State.zeroRange_wf (s : State) (pa n : Nat) (h : Memory.wf s.mem = true) :
    Memory.wf (s.zeroRange pa n).mem = true := by
  rw [State.zeroRange, State.notifyRange_mem]; exact s.clearRange_wf pa n h

theorem foldl_wr_wf (es : List Host.Cell) (f : Nat → Nat) (m : List Host.Cell) (h : Memory.wf m = true) :
    Memory.wf (es.foldl (fun m e => wr 0 m (f e.1) e.2) m) = true := by
  induction es generalizing m with
  | nil => exact h
  | cons e r ih => exact ih _ (canonical_wr _ _ h)

theorem State.moveRange_wf (s : State) (pa n new : Nat) (h : Memory.wf s.mem = true) :
    Memory.wf (s.moveRange pa n new).mem = true :=
  foldl_wr_wf _ _ _ (State.clearRange_wf _ _ _ (State.clearRange_wf _ _ _ h))

/-! ### Tables of which little is listed -/

/-- A key that is not listed. -/
theorem cget_none {α : Type} (m : Cells α) (k : Nat) (h : ∀ c ∈ m, c.1 ≠ k) : cget m k = none := by
  induction m with
  | nil => rfl
  | cons c r ih => simp [cget, h c List.mem_cons_self, ih fun x hx => h x (List.mem_cons_of_mem _ hx)]

/-- Where nothing is listed, a word of a table reads 0. -/
theorem State.readNat_unlisted (s : State) (a : Nat) (h : ∀ c ∈ s.mem, ¬ (a ≤ c.1 ∧ c.1 < a + 8)) : s.readNat a 8 = 0 := by
  have b (i : Nat) (hi : i < 8) : s.byteAt (a + i) = 0 := by
    unfold State.byteAt rd
    rw [cget_none _ _ fun c hc e => h c hc (by omega)]
    rfl
  have z : s.byteAt a = 0 := b 0 (by omega)
  simp [State.readNat, List.range, List.range.loop, b, z, ofBytes]

/-- Only the indices at which something is found contribute. -/
theorem flatMap_range {α : Type} (f : Nat → List α) (ks : List Nat) (n : Nat) (hs : ks.Pairwise (· < ·))
    (hn : ∀ k ∈ ks, k < n) (hf : ∀ i < n, i ∉ ks → f i = []) : (List.range n).flatMap f = ks.flatMap f := by
  have drop (l : List Nat) (h : ∀ i ∈ l, i ∉ ks → f i = []) : l.flatMap f = (l.filter fun i => decide (i ∈ ks)).flatMap f := by
    induction l with
    | nil => rfl
    | cons a r ih =>
      rw [List.flatMap_cons, ih fun i hi => h i (List.mem_cons_of_mem _ hi), List.filter_cons]
      by_cases m : a ∈ ks
      · simp [m]
      · simp [m, h a List.mem_cons_self m]
  rw [drop _ fun i hi => hf i (List.mem_range.1 hi)]
  congr 1
  have hp : ((List.range n).filter fun i => decide (i ∈ ks)).Perm ks :=
    (List.perm_ext_iff_of_nodup (List.nodup_range.filter _) (hs.imp Nat.ne_of_lt)).2 fun a => by
      simp only [List.mem_filter, List.mem_range, decide_eq_true_eq]
      exact ⟨And.right, fun m => ⟨hn a m, m⟩⟩
  exact hp.eq_of_pairwise (fun a b _ _ h1 h2 => absurd h1 (Nat.lt_asymm h2)) (List.pairwise_lt_range.filter _) hs

/-- The entries of a table are those at the indices whose words memory lists. -/
theorem entriesFrom_listed (s : State) (k level t : Nat) (ks : List Nat) (hs : ks.Pairwise (· < ·))
    (hn : ∀ i ∈ ks, i < tableEntries level) (hm : ∀ c ∈ s.mem, t ≤ c.1 → c.1 < t + 8 * tableEntries level → (c.1 - t) / 8 ∈ ks) :
    entriesFrom s (k + 1) level t = ks.flatMap fun i =>
      let e := u64 (s.readNat (t + 8 * i) 8)
      if !pteP e || pteBad s level e then []
      else (t + 8 * i, e) :: (if pteLeaf e then [] else entriesFrom s k (level + 1) (pteAddr e)) := by
  rw [entriesFrom.eq_2]
  refine flatMap_range _ ks _ hs hn fun i hi hk => ?_
  have z : s.readNat (t + 8 * i) 8 = 0 := s.readNat_unlisted _ fun c hc h =>
    hk (by have := hm c hc (by omega) (by omega); rwa [show (c.1 - t) / 8 = i by omega] at this)
  have p : pteP (u64 0) = false := by decide
  simp [z, p]

end Sys2Proof.Machine
end

