-- ==== Sys2Proof/Laws/Regs.lean ====
section
/-! SUPPORT. Registers and lanes: what a read gives after a write, and what a write leaves alone. -/

namespace Sys2Proof.Machine

/-! ### Lanes -/

theorem mem_lanesOf {m : Lanes} {l : Nat} : l ∈ lanesOf m ↔ m.getLsbD l = true := by
  unfold lanesOf
  simp only [List.mem_filter, List.mem_range]
  exact ⟨fun h => h.2, fun h => ⟨BitVec.lt_of_getLsbD h, h⟩⟩

theorem nodup_lanesOf (m : Lanes) : (lanesOf m).Nodup := List.nodup_range.filter _

theorem getLsbD_laneBit (l j : Nat) : (laneBit l).getLsbD j = (decide (j < 64) && decide (j = l)) := by
  unfold laneBit
  rw [BitVec.getLsbD_twoPow]
  by_cases h : j = l
  · subst h; by_cases h2 : j < 64 <;> simp [h2]
  · have h' : ¬ l = j := fun e => h e.symm
    simp [h, h']

theorem getLsbD_maskOf_foldl (ls : List Nat) (m : Lanes) (j : Nat) :
    (ls.foldl (fun m l => m ||| laneBit l) m).getLsbD j = (m.getLsbD j || (decide (j < 64) && decide (j ∈ ls))) := by
  induction ls generalizing m with
  | nil => simp
  | cons x r ih =>
    rw [List.foldl_cons, ih, BitVec.getLsbD_or, getLsbD_laneBit]
    by_cases h : j = x <;> by_cases h2 : j < 64 <;> simp_all

theorem getLsbD_maskOf (ls : List Nat) (j : Nat) :
    (maskOf ls).getLsbD j = (decide (j < 64) && decide (j ∈ ls)) := by
  unfold maskOf; rw [getLsbD_maskOf_foldl]; simp

theorem maskOf_lanesOf (m : Lanes) : maskOf (lanesOf m) = m := by
  apply BitVec.eq_of_getLsbD_eq
  intro i hi
  rw [getLsbD_maskOf]
  simp only [hi, decide_true, mem_lanesOf, Bool.true_and, Bool.decide_eq_true]

theorem mem_lanesFor_lane {m : Lanes} {l : Option Nat} :
    l ∈ lanesFor .lane m ↔ ∃ n, l = some n ∧ m.getLsbD n = true := by
  unfold lanesFor
  simp only [List.mem_map, mem_lanesOf]
  constructor
  · rintro ⟨n, h, rfl⟩; exact ⟨n, rfl, h⟩
  · rintro ⟨n, rfl, h⟩; exact ⟨n, h, rfl⟩

theorem nodup_lanesFor (f : Form) (m : Lanes) : (lanesFor f m).Nodup := by
  cases f with
  | lane => exact List.pairwise_map.mpr ((nodup_lanesOf m).imp fun h e => h (Option.some.inj e))
  | unif => simp [lanesFor]
  | gather => simp [lanesFor]

/-! ### Vector registers -/

theorem Regs.readV_writeV (r : Regs) (l n l' n' : Nat) (x : Word32) :
    (r.writeV l n x).readV l' n' = if l = l' ∧ n % 256 = n' % 256 then x else r.readV l' n' := by
  unfold Regs.readV Regs.writeV
  rw [rd_wr]
  have h : (256 * l + n % 256 = 256 * l' + n' % 256) ↔ (l = l' ∧ n % 256 = n' % 256) := by omega
  simp only [h]

@[simp] theorem Regs.readV_writeV_self (r : Regs) (l n : Nat) (x : Word32) : (r.writeV l n x).readV l n = x := by
  simp [Regs.readV_writeV]

theorem Regs.readV_writeV64 (r : Regs) (l n l' n' : Nat) (x : Word64) :
    (r.writeV64 l n x).readV l' n' =
      if l = l' ∧ (n + 1) % 256 = n' % 256 then x.extractLsb' 32 32
      else if l = l' ∧ n % 256 = n' % 256 then x.setWidth 32 else r.readV l' n' := by
  unfold Regs.writeV64; rw [Regs.readV_writeV, Regs.readV_writeV]

theorem halves (x : Word64) : x.extractLsb' 32 32 ++ x.setWidth 32 = x := by
  apply BitVec.eq_of_getLsbD_eq
  intro i hi
  rw [BitVec.getLsbD_append, BitVec.getLsbD_setWidth, BitVec.getLsbD_extractLsb']
  by_cases h : i < 32
  · simp [h]
  · have h1 : i - 32 < 32 := by omega
    have h2 : 32 + (i - 32) = i := by omega
    simp [h, h1, h2]

theorem Regs.readV64_writeV64_self (r : Regs) (l n : Nat) (x : Word64) : (r.writeV64 l n x).readV64 l n = x := by
  unfold Regs.readV64
  rw [Regs.readV_writeV64, Regs.readV_writeV64]
  have h : ¬ (n + 1) % 256 = n % 256 := by omega
  simp only [and_self, ↓reduceIte, h, and_false, halves]

theorem Regs.readV64_writeV64_ne (r : Regs) {l n l' n' : Nat} (x : Word64)
    (h : l ≠ l' ∨ (n' % 256 ≠ n % 256 ∧ n' % 256 ≠ (n + 1) % 256 ∧ (n' + 1) % 256 ≠ n % 256)) :
    (r.writeV64 l n x).readV64 l' n' = r.readV64 l' n' := by
  unfold Regs.readV64
  rw [Regs.readV_writeV64, Regs.readV_writeV64]
  have : (n + 1) % 256 = (n' + 1) % 256 → n % 256 = n' % 256 := by omega
  rcases h with h | ⟨h1, h2, h3⟩
  · simp [h]
  · have e1 : ¬ (n + 1) % 256 = n' % 256 := fun e => h2 e.symm
    have e2 : ¬ n % 256 = n' % 256 := fun e => h1 e.symm
    have e3 : ¬ (n + 1) % 256 = (n' + 1) % 256 := fun e => e2 (this e)
    have e4 : ¬ n % 256 = (n' + 1) % 256 := fun e => h3 e.symm
    simp [e1, e2, e3, e4]

/-! ### The other files -/

theorem Regs.readS_writeS (r : Regs) (n m : Nat) (x : Word64) :
    (r.writeS n x).readS m = if n % 64 = m % 64 then x else r.readS m := rd_wr _ _ _ _ _
theorem Regs.readH_writeH (r : Regs) (n m : Nat) (x : Word64) :
    (r.writeH n x).readH m = if n % 8 = m % 8 then x else r.readH m := rd_wr _ _ _ _ _
theorem Regs.readA_writeA (r : Regs) (n m : Nat) (x : BitVec 16) :
    (r.writeA n x).readA m = if n % 8 = m % 8 then x else r.readA m := rd_wr _ _ _ _ _

/-- Writes to p7 are discarded and p7 reads 1; the other predicates hold what is written (R116, R121). -/
theorem Regs.readP_writeP (r : Regs) (l n l' n' : Nat) (b : Bool) (hl : l' < 64) :
    (r.writeP l n b).readP l' n' =
      if n' % 8 = 7 then true else if l = l' ∧ n % 8 = n' % 8 then b else r.readP l' n' := by
  unfold Regs.writeP Regs.readP
  by_cases h7 : n' % 8 = 7
  · simp only [h7, ↓reduceIte]
  · rw [if_neg h7, if_neg h7, if_neg h7]
    by_cases hn : n % 8 = 7
    · rw [if_pos hn, if_neg (by omega)]
    · rw [if_neg hn]
      simp only []
      rw [rd_wr]
      by_cases he : n % 8 = n' % 8
      · rw [if_pos he, he]
        by_cases hll : l = l'
        · subst hll
          have hb : (laneBit l).getLsbD l = true := by rw [getLsbD_laneBit]; simp [hl]
          simp only [and_self, ↓reduceIte]
          cases b
          · simp only [Bool.false_eq_true, ↓reduceIte]
            rw [BitVec.getLsbD_and, BitVec.getLsbD_not, hb]; simp
          · simp only [↓reduceIte]
            rw [BitVec.getLsbD_or, hb, Bool.or_true]
        · have hb : (laneBit l).getLsbD l' = false := by
            rw [getLsbD_laneBit, decide_eq_false fun e : l' = l => hll e.symm, Bool.and_false]
          simp only [hll, false_and, ↓reduceIte]
          cases b
          · simp only [Bool.false_eq_true, ↓reduceIte]
            rw [BitVec.getLsbD_and, BitVec.getLsbD_not, hb]; simp [hl]
          · simp only [↓reduceIte]
            rw [BitVec.getLsbD_or, hb, Bool.or_false]
      · rw [if_neg he, if_neg (fun e => he e.2)]

theorem Regs.readQ_writeQ (r : Regs) (n m : Nat) (b : Bool) :
    (r.writeQ n b).readQ m = if n % 4 = m % 4 then b else r.readQ m := by
  unfold Regs.writeQ Regs.readQ
  have hm : m % 4 < 4 := Nat.mod_lt _ (by decide)
  have hb : (BitVec.twoPow 4 (n % 4)).getLsbD (m % 4) = decide (n % 4 = m % 4) := by
    rw [BitVec.getLsbD_twoPow]
    by_cases h : n % 4 = m % 4
    · simp [h, hm]
    · simp [h]
  cases b
  · simp only [Bool.false_eq_true, ↓reduceIte]
    rw [BitVec.getLsbD_and, BitVec.getLsbD_not, hb]
    by_cases h : n % 4 = m % 4 <;> simp [h, hm]
  · simp only [↓reduceIte]
    rw [BitVec.getLsbD_or, hb]
    by_cases h : n % 4 = m % 4 <;> simp [h]

theorem Regs.readL_writeL (r : Regs) (l i l' i' : Nat) (x : Latch) :
    (r.writeL l i x).readL l' i' = if l = l' ∧ i % 5 = i' % 5 then x else r.readL l' i' := by
  unfold Regs.readL Regs.writeL
  rw [rd_wr]
  have h : (5 * l + i % 5 = 5 * l' + i' % 5) ↔ (l = l' ∧ i % 5 = i' % 5) := by omega
  simp only [h]

theorem cget_filter {α : Type} (c : Cells α) (f : Nat → Bool) (k : Nat) :
    cget (c.filter fun e => f e.1) k = if f k then cget c k else none := by
  induction c with
  | nil => simp [cget]
  | cons e r ih =>
    obtain ⟨k', v'⟩ := e
    simp only [List.filter_cons]
    by_cases hk : k' = k
    · subst hk
      by_cases hf : f k' = true
      · simp [cget, hf]
      · simp only [hf, Bool.false_eq_true, ↓reduceIte, ih]
    · by_cases hf : f k' = true
      · simp only [hf, ↓reduceIte, cget, hk, ih]
      · simp only [hf, Bool.false_eq_true, ↓reduceIte, cget, hk, ih]

theorem Regs.readL_clearL (r : Regs) (m : Lanes) (l i : Nat) :
    (r.clearL m).readL l i = if m.getLsbD l then .invalid else r.readL l i := by
  unfold Regs.readL Regs.clearL rd
  simp only []
  rw [cget_filter r.latches (fun k => !(m.getLsbD (k / 5)))]
  have h : (5 * l + i % 5) / 5 = l := by omega
  simp only [h]
  by_cases hm : m.getLsbD l = true <;> simp [hm]

end Sys2Proof.Machine
end

