-- ==== Sys2Proof/Laws/Ops.lean ====
section
/-! SUPPORT. What the shared operations of Machine/Ops.lean do: an instruction that is ready reaches its body; leaving an
instruction moves PCs and latches; a computed result is written, flagged and deposited. -/

namespace Sys2Proof.Machine

/-! ### Reaching the body -/

/-- Acquiring k operands changes only the values acquired. -/
theorem acquireK_ok {d : Bool} {ns : List Nat} {s s' : State} {c c' : Cur} (h : acquireK d ns s c = .ok s' c') :
    s' = s ∧ c'.pack = c.pack ∧ c'.who = c.who ∧ c'.lanes = c.lanes ∧ c'.pc = c.pc ∧ c'.port = c.port ∧
      c'.regs = c.regs ∧ c'.active = c.active := by
  induction ns generalizing c with
  | nil => simp only [acquireK, Acquire.ok.injEq] at h; obtain ⟨rfl, rfl⟩ := h; simp
  | cons n r ih =>
    simp only [acquireK] at h
    split at h
    · exact ih h
    · split at h
      · cases h
      · split at h
        · split at h
          · have := ih h; simpa using this
          · cases h
        · split at h
          · have := ih h; simpa using this
          · cases h

namespace Ready
variable {o : Opts} {i : Instr} {s : State} {sh : Shape} {r c : Cur} {k : Pack} {p : Party}

/-- The issue as the body sees it is the issue with its executing lanes. -/
theorem same (h : Ready o i s sh r c k p) :
    c.pack = r.pack ∧ c.who = r.who ∧ c.lanes = r.lanes ∧ c.pc = r.pc ∧ c.port = r.port ∧ c.regs = r.regs ∧
      c.active = execLanes sh r := by
  have := acquireK_ok h.operands; simpa using this.2

theorem packC (h : Ready o i s sh r c k p) : s.pack c.pack = some k := by rw [h.same.1]; exact h.pack
theorem partyC (h : Ready o i s sh r c k p) : s.party c.pack c.who = some p := by
  rw [h.same.1, h.same.2.1]; exact h.party

/-- An instruction that is ready reaches its body. -/
theorem performs (h : Ready o i s sh r c k p) (body : State → Cur → Res) :
    performWith o i body s = .next (settle c (body s.idle c)) := by
  unfold performWith
  rw [h.cur, h.shape]
  simp only [h.pack, h.party]
  congr 1
  unfold run
  rw [if_neg (by simp [h.types]), if_neg (by simp [h.fields, h.alloc]), if_neg (by
    have := h.priv; simp only [State.idle] at this; simp [this]),
    if_neg (by simp [h.unit]), if_neg (by simp [h.tokens])]
  have hl : (guardLanes r.regs sh.form r.lanes sh.guard) ≠ 0 := h.lanes
  simp only [hl, ↓reduceIte]
  rw [if_neg (by simp [h.attached]), if_neg (by have := h.latches; simp only [execLanes] at this; simp [this])]
  have := h.operands
  simp only [execLanes, State.idle] at this
  simp only [this]
  rfl

end Ready

/-! ### Groups -/

theorem getLsbD_without (a m : Lanes) (l : Nat) : (a &&& ~~~m).getLsbD l = (a.getLsbD l && !m.getLsbD l) := by
  rw [BitVec.getLsbD_and, BitVec.getLsbD_not]
  by_cases h : l < 64
  · rw [decide_eq_true h, Bool.true_and]
  · rw [BitVec.getLsbD_of_ge a l (by omega)]; rfl
theorem zero_or_lanes (m : Lanes) : (0 : Lanes) ||| m = m := BitVec.zero_or

theorem foldl_lanes (gs : List Group) (m : Lanes) :
    gs.foldl (fun m g => m ||| g.lanes) m = m ||| gs.foldl (fun m g => m ||| g.lanes) 0 := by
  induction gs generalizing m with
  | nil => simp
  | cons g r ih => rw [List.foldl_cons, ih, List.foldl_cons, ih (0 ||| g.lanes), zero_or_lanes, BitVec.or_assoc]

/-- The lanes of some groups, and the PC of a lane among them. -/
def lanesIn (gs : List Group) : Lanes := gs.foldl (fun m g => m ||| g.lanes) 0
def pcIn (gs : List Group) (l : Nat) : Word64 := ((gs.find? fun g => g.lanes.getLsbD l).map (·.pc)).getD 0

theorem Party.pcOf_eq (p : Party) (l : Nat) : p.pcOf l = pcIn p.groups l := rfl
theorem Party.live_eq (p : Party) : p.live = lanesIn p.groups := rfl

theorem lanesIn_cons (g : Group) (gs : List Group) : lanesIn (g :: gs) = g.lanes ||| lanesIn gs := by
  unfold lanesIn; rw [List.foldl_cons, foldl_lanes, zero_or_lanes]

theorem lanesIn_append (a b : List Group) : lanesIn (a ++ b) = lanesIn a ||| lanesIn b := by
  induction a with
  | nil => simp [lanesIn]
  | cons g r ih => rw [List.cons_append, lanesIn_cons, lanesIn_cons, ih, BitVec.or_assoc]

theorem takeLanes_nil (m : Lanes) : takeLanes [] m = [] := rfl
theorem takeLanes_cons (g : Group) (gs : List Group) (m : Lanes) :
    takeLanes (g :: gs) m =
      if g.lanes &&& ~~~m = 0 then takeLanes gs m else { g with lanes := g.lanes &&& ~~~m } :: takeLanes gs m := by
  unfold takeLanes
  rw [List.map_cons, List.filter_cons]
  by_cases h : g.lanes &&& ~~~m = 0
  · rw [if_neg (by simpa using h), if_pos h]
  · rw [if_pos (bne_iff_ne.mpr h), if_neg h]

theorem lanesIn_takeLanes (gs : List Group) (m : Lanes) : lanesIn (takeLanes gs m) = lanesIn gs &&& ~~~m := by
  induction gs with
  | nil => simp [takeLanes, lanesIn]
  | cons g r ih =>
    rw [takeLanes_cons, lanesIn_cons]
    have hd : (g.lanes ||| lanesIn r) &&& ~~~m = (g.lanes &&& ~~~m) ||| (lanesIn r &&& ~~~m) := by
      apply BitVec.eq_of_getLsbD_eq
      intro i hi
      simp only [BitVec.getLsbD_and, BitVec.getLsbD_or, Bool.and_or_distrib_right]
    split
    · rename_i h; rw [ih, hd, h, zero_or_lanes]
    · rw [lanesIn_cons, ih, hd]

/-- Lanes that do not leave keep their PC. -/
theorem pcIn_takeLanes_stay (gs : List Group) (m : Lanes) (l : Nat) (h : m.getLsbD l = false) :
    pcIn (takeLanes gs m) l = pcIn gs l := by
  induction gs with
  | nil => rfl
  | cons g r ih =>
    rw [takeLanes_cons]
    have hg : (g.lanes &&& ~~~m).getLsbD l = g.lanes.getLsbD l := by
      rw [getLsbD_without, h, Bool.not_false, Bool.and_true]
    split
    · rename_i h0
      have : g.lanes.getLsbD l = false := by rw [← hg, h0]; simp
      rw [ih]; simp [pcIn, this]
    · unfold pcIn at *
      rw [List.find?_cons, List.find?_cons]
      simp only [hg]
      cases hgl : g.lanes.getLsbD l
      · simpa using ih
      · rfl

theorem find_of_not_in (gs : List Group) (l : Nat) (h : (lanesIn gs).getLsbD l = false) :
    gs.find? (fun g => g.lanes.getLsbD l) = none := by
  induction gs with
  | nil => rfl
  | cons g r ih =>
    rw [lanesIn_cons, BitVec.getLsbD_or, Bool.or_eq_false_iff] at h
    rw [List.find?_cons, h.1]; simpa using ih h.2

theorem find_map_or (gs : List Group) (f : Group → Bool) (m : Lanes) (l : Nat) (h : m.getLsbD l = false) :
    ((gs.map fun g => if f g then { g with lanes := g.lanes ||| m } else g).find? fun g => g.lanes.getLsbD l).map (·.pc)
      = (gs.find? fun g => g.lanes.getLsbD l).map (·.pc) := by
  induction gs with
  | nil => rfl
  | cons g r ih =>
    rw [List.map_cons, List.find?_cons, List.find?_cons]
    have he : (if f g then { g with lanes := g.lanes ||| m } else g).lanes.getLsbD l = g.lanes.getLsbD l := by
      split
      · rw [BitVec.getLsbD_or, h, Bool.or_false]
      · rfl
    rw [he]
    cases g.lanes.getLsbD l
    · simpa using ih
    · simp only [Option.map_some]; split <;> rfl

theorem pcIn_addLanes_stay (gs : List Group) (pc : Word64) (m : Lanes) (l : Nat) (h : m.getLsbD l = false) :
    pcIn (addLanes gs pc m) l = pcIn gs l := by
  unfold addLanes
  split
  · rfl
  · split
    · unfold pcIn; rw [find_map_or _ _ _ _ h]
    · unfold pcIn
      rw [List.find?_append]
      simp only [List.find?_cons, h, List.find?_nil]
      cases gs.find? fun g => g.lanes.getLsbD l <;> rfl

theorem pcIn_addLanes_go (gs : List Group) (pc : Word64) (m : Lanes) (l : Nat) (h : m.getLsbD l = true)
    (hn : (lanesIn gs).getLsbD l = false) : pcIn (addLanes gs pc m) l = pc := by
  have h0 : m ≠ 0 := by rintro rfl; simp at h
  unfold addLanes
  rw [if_neg h0]
  split
  · rename_i ha
    clear h0
    unfold pcIn
    induction gs with
    | nil => simp at ha
    | cons g r ih =>
      rw [lanesIn_cons, BitVec.getLsbD_or, Bool.or_eq_false_iff] at hn
      rw [List.map_cons, List.find?_cons]
      by_cases hg : (g.pc == pc && g.wait.isNone && !g.held) = true
      · have : (g.lanes ||| m).getLsbD l = true := by rw [BitVec.getLsbD_or, h, Bool.or_true]
        simp only [hg, ↓reduceIte, this]
        have hpc : (g.pc == pc) = true := by
          simp only [Bool.and_eq_true] at hg; exact hg.1.1
        simpa using hpc
      · simp only [hg, Bool.false_eq_true, ↓reduceIte, hn.1]
        refine ih hn.2 ?_
        rw [List.any_cons, Bool.or_eq_true] at ha
        rcases ha with ha | ha
        · exact absurd ha hg
        · exact ha
  · unfold pcIn
    rw [List.find?_append, find_of_not_in gs l hn]
    simp [h]

theorem lanesIn_map_or (gs : List Group) (f : Group → Bool) (m : Lanes) :
    lanesIn (gs.map fun g => if f g then { g with lanes := g.lanes ||| m } else g) =
      lanesIn gs ||| (if gs.any f then m else 0) := by
  induction gs with
  | nil => simp [lanesIn]
  | cons g r ih =>
    rw [List.map_cons, lanesIn_cons, ih, lanesIn_cons, List.any_cons]
    cases hf : f g
    · simp only [Bool.false_eq_true, ↓reduceIte, Bool.false_or, BitVec.or_assoc]
    · simp only [↓reduceIte, Bool.true_or]
      apply BitVec.eq_of_getLsbD_eq
      intro i hi
      simp only [BitVec.getLsbD_or]
      cases r.any f <;> simp <;> cases g.lanes.getLsbD i <;> cases m.getLsbD i <;> cases (lanesIn r).getLsbD i <;> simp

theorem lanesIn_addLanes (gs : List Group) (pc : Word64) (m : Lanes) :
    lanesIn (addLanes gs pc m) = lanesIn gs ||| m := by
  unfold addLanes
  split
  · rename_i h; subst h; simp
  · split
    · rename_i h; rw [lanesIn_map_or, if_pos h]
    · rw [lanesIn_append, lanesIn_cons]; simp [lanesIn]

/-- Lanes leave their groups and gather at a PC. -/
theorem pcIn_move (gs : List Group) (pc : Word64) (m : Lanes) (l : Nat) :
    pcIn (addLanes (takeLanes gs m) pc m) l = if m.getLsbD l then pc else pcIn gs l := by
  by_cases h : m.getLsbD l = true
  · rw [if_pos h]
    apply pcIn_addLanes_go _ _ _ _ h
    rw [lanesIn_takeLanes, getLsbD_without, h, Bool.not_true, Bool.and_false]
  · rw [if_neg h]
    have h' : m.getLsbD l = false := by simpa using h
    rw [pcIn_addLanes_stay _ _ _ _ h']
    exact pcIn_takeLanes_stay _ _ _ h'

theorem lanesIn_move (gs : List Group) (pc : Word64) (m : Lanes) :
    lanesIn (addLanes (takeLanes gs m) pc m) = lanesIn gs ||| m := by
  rw [lanesIn_addLanes, lanesIn_takeLanes]
  apply BitVec.eq_of_getLsbD_eq
  intro i hi
  simp only [BitVec.getLsbD_or, getLsbD_without]
  cases m.getLsbD i <;> simp

/-! ### Latches -/

theorem readL_setLatches (r : Regs) (slot : Nat) (ls : Lanes) (dep : List (Nat × Latch)) (l i : Nat) (hs : slot < 5)
    (hi : i < 5) :
    (setLatches r slot ls dep).readL l i =
      if ls.getLsbD l = true ∧ i = slot then ((dep.find? fun e => e.1 == l).map (·.2)).getD .invalid else r.readL l i := by
  unfold setLatches
  have key : ∀ (xs : List Nat) (r : Regs),
      (xs.foldl (fun r l => r.writeL l slot (((dep.find? fun e => e.1 == l).map (·.2)).getD .invalid)) r).readL l i =
        if l ∈ xs ∧ i = slot then ((dep.find? fun e => e.1 == l).map (·.2)).getD .invalid else r.readL l i := by
    intro xs
    induction xs with
    | nil => intro r; simp
    | cons x xs ih =>
      intro r
      rw [List.foldl_cons, ih, Regs.readL_writeL]
      have : slot % 5 = i % 5 ↔ i = slot := by omega
      simp only [this, List.mem_cons]
      by_cases h1 : i = slot
      · by_cases h2 : l ∈ xs
        · simp [h1, h2]
        · by_cases h3 : x = l
          · subst h3; simp [h1]
          · have h3' : ¬ l = x := fun e => h3 e.symm
            simp only [h1, h2, h3, h3', or_self, and_true, ↓reduceIte]
      · simp [h1]
  rw [key]; simp only [mem_lanesOf]

/-! ### Leaving an instruction in sequence -/

/-- What a body has done when it only computed: the whole group goes on to the successor. -/
def plainDone (s : State) (dep : List (Nat × Latch)) : Done := { doneAt s with dep := dep }

theorem maskOf_nil : maskOf [] = 0 := rfl

theorem without_zero (m : Lanes) : m &&& ~~~(0 : Lanes) = m := by
  apply BitVec.eq_of_getLsbD_eq; intro i _; rw [getLsbD_without]; simp

/-- The party after sequential flow. -/
theorem Party.retire_plain (p : Party) (c : Cur) (s : State) (dep : List (Nat × Latch)) :
    p.retire c (plainDone s dep) =
      { p with
        regs := if slotOf c.pc = 4 then (setLatches p.regs 4 c.lanes dep).clearL c.lanes
                else setLatches p.regs (slotOf c.pc) c.lanes dep
        groups := addLanes (takeLanes p.groups c.lanes) (succAddr c.pc) c.lanes
        jumped := p.jumped &&& ~~~c.lanes }.keepLines (if slotOf c.pc = 4 then c.lanes else 0) := by
  unfold Party.retire plainDone doneAt
  simp only [List.map_nil, maskOf_nil, List.foldl_nil, without_zero]
  have hz : (0 : Lanes) &&& c.lanes = 0 := BitVec.zero_and
  have ho : c.lanes ||| (0 : Lanes) = c.lanes := BitVec.or_zero
  have hjo : (p.jumped &&& ~~~c.lanes) ||| (0 : Lanes) = p.jumped &&& ~~~c.lanes := BitVec.or_zero
  have hcl (r : Regs) : r.clearL 0 = r := by
    unfold Regs.clearL
    have : r.latches.filter (fun e => !(0 : Lanes).getLsbD (e.1 / 5)) = r.latches := by
      apply List.filter_eq_self.mpr; intro e _; simp
    rw [this]
  simp only [hz, ho, hjo, without_zero, hcl]
  by_cases h4 : slotOf c.pc = 4
  · simp only [h4, ↓reduceIte]
    have : (0 : Lanes) ||| c.lanes = c.lanes := zero_or_lanes _
    simp only [this]
  · simp only [h4, ↓reduceIte]
    have : (0 : Lanes) ||| (0 : Lanes) = 0 := by decide
    simp only [this]

/-- Keeping lines changes only the kept lines and the fenced one. -/
theorem Party.keepLines_eq (p : Party) (m : Lanes) :
    ∃ ls f, p.keepLines m = { p with lines := ls, fenced := f } := by
  exact ⟨_, _, rfl⟩
@[simp] theorem Party.keepLines_regs (p : Party) (m : Lanes) : (p.keepLines m).regs = p.regs := by
  obtain ⟨ls, f, h⟩ := p.keepLines_eq m; rw [h]
@[simp] theorem Party.keepLines_groups (p : Party) (m : Lanes) : (p.keepLines m).groups = p.groups := by
  obtain ⟨ls, f, h⟩ := p.keepLines_eq m; rw [h]
theorem Party.keepLines_rest (p : Party) (m : Lanes) (ls : Cells (BitVec 512)) (f : Option Fenced) :
    { p.keepLines m with lines := ls, fenced := f } = { p with lines := ls, fenced := f } := by
  obtain ⟨ls', f', h⟩ := p.keepLines_eq m; rw [h]

theorem slotOf_lt_or (pc : Word64) : slotOf pc < 8 := Nat.mod_lt _ (by decide)

/-- Latches after sequential flow (R72, R73). -/
theorem Party.retire_latched (p : Party) (c : Cur) (s : State) (dep : List (Nat × Latch)) :
    Latched c p.regs (p.retire c (plainDone s dep)).regs
      (fun l => ((dep.find? fun e => e.1 == l).map (·.2)).getD .invalid) := by
  rw [Party.retire_plain, Party.keepLines_regs]
  refine ⟨fun h l i hl hi => ?_, fun h l i hl hi => ?_, fun l i hl hi => ?_⟩
  · have h4 : ¬ slotOf c.pc = 4 := by omega
    simp only [h4, ↓reduceIte]
    rw [readL_setLatches _ _ _ _ _ _ (by omega) hi]
    simp [hl]
  · simp only [h, ↓reduceIte]
    rw [Regs.readL_clearL, if_pos hl]
  · by_cases h4 : slotOf c.pc = 4
    · simp only [h4, ↓reduceIte]
      rw [Regs.readL_clearL, if_neg (by simp [hl]), readL_setLatches _ _ _ _ _ _ (by omega) hi]
      simp [hl]
    · simp only [h4, ↓reduceIte]
      unfold setLatches
      have key : ∀ (xs : List Nat) (r : Regs), l ∉ xs →
          (xs.foldl (fun r l => r.writeL l (slotOf c.pc) (((dep.find? fun e => e.1 == l).map (·.2)).getD .invalid)) r).readL
            l i = r.readL l i := by
        intro xs
        induction xs with
        | nil => intro r _; rfl
        | cons x xs ih =>
          intro r hx
          rw [List.foldl_cons, ih _ (fun h => hx (List.mem_cons_of_mem _ h)), Regs.readL_writeL, if_neg]
          intro h; exact hx (h.1 ▸ List.mem_cons_self)
      exact key _ _ (by rw [mem_lanesOf]; simp [hl])

/-- Only latches change when a party leaves an instruction in sequence. -/
theorem setLatches_rest (r : Regs) (slot : Nat) (ls : Lanes) (dep : List (Nat × Latch)) (x : Cells Latch) :
    { setLatches r slot ls dep with latches := x } = { r with latches := x } := by
  unfold setLatches
  generalize lanesOf ls = xs
  induction xs generalizing r with
  | nil => rfl
  | cons y ys ih => rw [List.foldl_cons, ih]; rfl

theorem Party.retire_regs_rest (p : Party) (c : Cur) (s : State) (dep : List (Nat × Latch)) (x : Cells Latch) :
    { (p.retire c (plainDone s dep)).regs with latches := x } = { p.regs with latches := x } := by
  rw [Party.retire_plain, Party.keepLines_regs]
  simp only []
  split
  · rw [← setLatches_rest p.regs 4 c.lanes dep x]; rfl
  · exact setLatches_rest _ _ _ _ _

theorem Party.retire_advances (p : Party) (c : Cur) (s : State) (dep : List (Nat × Latch)) :
    Advances c p (p.retire c (plainDone s dep)) := by
  have hg : (p.retire c (plainDone s dep)).groups = addLanes (takeLanes p.groups c.lanes) (succAddr c.pc) c.lanes := by
    rw [Party.retire_plain, Party.keepLines_groups]
  refine ⟨fun l h => ?_, fun l h => ?_, ?_⟩
  · rw [Party.pcOf_eq, hg, pcIn_move, if_pos h]
  · rw [Party.pcOf_eq, hg, pcIn_move, if_neg (by simp [h])]; rfl
  · rw [Party.live_eq, hg, lanesIn_move]; rfl

theorem Party.retire_rest (p : Party) (c : Cur) (s : State) (dep : List (Nat × Latch)) :
    { p.retire c (plainDone s dep) with regs := p.regs, groups := p.groups, jumped := p.jumped, lines := p.lines,
                                        fenced := p.fenced } = p := by
  rw [Party.retire_plain]
  generalize hq : ({ p with
        regs := if slotOf c.pc = 4 then (setLatches p.regs 4 c.lanes dep).clearL c.lanes
                else setLatches p.regs (slotOf c.pc) c.lanes dep
        groups := addLanes (takeLanes p.groups c.lanes) (succAddr c.pc) c.lanes
        jumped := p.jumped &&& ~~~c.lanes } : Party) = q
  have := Party.keepLines_rest q (if slotOf c.pc = 4 then c.lanes else 0) p.lines p.fenced
  have h2 : { q.keepLines (if slotOf c.pc = 4 then c.lanes else 0) with
      regs := p.regs, groups := p.groups, jumped := p.jumped, lines := p.lines, fenced := p.fenced } =
      { ({ q.keepLines (if slotOf c.pc = 4 then c.lanes else 0) with lines := p.lines, fenced := p.fenced } : Party) with
        regs := p.regs, groups := p.groups, jumped := p.jumped } := rfl
  rw [h2, this, ← hq]

/-! ### The state after sequential flow -/

theorem State.modPack_eq (s : State) (u : Nat) (f : Pack → Pack) :
    s.modPack u f = { s with packs := (s.modPack u f).packs } := by
  unfold State.modPack; split <;> rfl
theorem State.modParty_eq (s : State) (u w : Nat) (f : Party → Party) :
    s.modParty u w f = { s with packs := (s.modParty u w f).packs } := by
  unfold State.modParty
  split
  · rfl
  · exact State.modPack_eq _ _ _

theorem leavesLine_plain (c : Cur) (s : State) (dep : List (Nat × Latch)) :
    leavesLine c (plainDone s dep) = (slotOf c.pc == 4 && c.lanes != 0) := by
  unfold leavesLine plainDone doneAt
  have hz : (0 : Lanes) &&& c.lanes = 0 := BitVec.zero_and
  simp only [List.map_nil, maskOf_nil, without_zero, hz]
  simp

/-- A change of the issuing party alone. -/
structure OnlyParty (u w : Nat) (s t : State) (k : Pack) (q : Party) : Prop where
  state : ∃ P, t = { s with packs := P }
  pack : ∃ ps, t.pack u = some { k with parties := ps } ∧ cget ps w = some q ∧ ∀ v, v ≠ w → cget ps v = cget k.parties v
  packs : ∀ v, v ≠ u → t.pack v = s.pack v

theorem OnlyParty.party {u w : Nat} {s t : State} {k : Pack} {q : Party} (h : OnlyParty u w s t k q) :
    t.party u w = some q := by
  obtain ⟨ps, h1, h2, -⟩ := h.pack
  rw [State.party_eq, h1]; exact h2

theorem onlyParty_modParty {s : State} {u w : Nat} {k : Pack} {p : Party} (hk : s.pack u = some k)
    (hp : s.party u w = some p) (f : Party → Party) : OnlyParty u w s (s.modParty u w f) k (f p) := by
  refine ⟨⟨_, State.modParty_eq s u w f⟩, ⟨cset k.parties w (f p), ?_, cget_cset_self _ _ _, ?_⟩, ?_⟩
  · rw [State.pack_modParty _ _ _ _ _ hk hp, if_pos rfl]
  · intro v hv; exact cget_cset_ne _ _ (Ne.symm hv)
  · intro v hv; rw [State.pack_modParty _ _ _ _ _ hk hp, if_neg (Ne.symm hv)]

theorem OnlyParty.trans {u w : Nat} {s t r : State} {k : Pack} {q q' : Party} (h : OnlyParty u w s t k q)
    {k' : Pack} (hk : t.pack u = some k') (h' : OnlyParty u w t r k' q') : OnlyParty u w s r k q' := by
  obtain ⟨P, rfl⟩ := h.state
  obtain ⟨P', rfl⟩ := h'.state
  obtain ⟨ps, h1, h2, h3⟩ := h.pack
  obtain ⟨ps', h1', h2', h3'⟩ := h'.pack
  rw [h1] at hk
  cases hk
  exact ⟨⟨P', rfl⟩, ⟨ps', h1', h2', fun v hv => by rw [h3' v hv]; exact h3 v hv⟩,
    fun v hv => by rw [h'.packs v hv]; exact h.packs v hv⟩

/-- The state after an instruction that no lane exits by: the party has left it, and a line may have been retired. -/
theorem State.retire_spec {s : State} {c : Cur} {k : Pack} {p : Party} (hk : s.pack c.pack = some k)
    (hp : s.party c.pack c.who = some p) (d : Done) (hd : d.exits = 0) (hpl : (p.retire c d).place = p.place) :
    ∃ t', OnlyParty c.pack c.who s t' k (p.retire c d) ∧
      s.retire c d = (if leavesLine c d then
        (t'.modCluster p.place.cluster fun x => { x.count 1 1 with lineCount := x.lineCount + 1 }).modPack c.pack
          (fun k => { k with lines := k.lines + 1 }) else t') := by
  have ho := onlyParty_modParty hk hp fun p => p.retire c d
  refine ⟨_, ho, ?_⟩
  unfold State.retire
  simp only [hd, ↓reduceIte]
  cases hl : leavesLine c d
  · simp
  · simp only [↓reduceIte]
    unfold State.lineRetired
    rw [ho.party]
    simp only [hpl]

theorem Elsewhere.of_only {c : Cur} {s t' : State} {k : Pack} {p q : Party} (ho : OnlyParty c.pack c.who s.idle t' k q)
    (hq : { q with regs := p.regs, groups := p.groups, jumped := p.jumped, lines := p.lines, fenced := p.fenced } = p)
    (b : Bool) :
    let t := if b then
        (t'.modCluster p.place.cluster fun x => { x.count 1 1 with lineCount := x.lineCount + 1 }).modPack c.pack
          (fun k => { k with lines := k.lines + 1 }) else t'
    t.party c.pack c.who = some q ∧ Elsewhere c s t k p q := by
  intro t
  obtain ⟨P, hP⟩ := ho.state
  obtain ⟨ps, h1, h2, h3⟩ := ho.pack
  cases b
  · have ht : t = t' := rfl
    rw [ht]
    refine ⟨ho.party, ?_, ho.packs, ⟨_, h1, rfl, h3⟩, ?_, ?_, hq, ?_⟩
    · rw [hP]; rfl
    · intro n; rw [hP]; rfl
    · intro n j _; rw [hP]; rfl
    · rw [hP]; rfl
  · have ht : t = (t'.modCluster p.place.cluster fun x =>
        { x.count 1 1 with lineCount := x.lineCount + 1 }).modPack c.pack (fun k => { k with lines := k.lines + 1 }) := rfl
    clear_value t
    generalize hs3 : (t'.modCluster p.place.cluster fun x => { x.count 1 1 with lineCount := x.lineCount + 1 }) = s3 at ht
    have hk3 (v : Nat) : s3.pack v = t'.pack v := by rw [← hs3]; rfl
    have hc3 (n : Nat) : s3.cluster n = if p.place.cluster = n then
        { (s.cluster p.place.cluster).count 1 1 with lineCount := (s.cluster p.place.cluster).lineCount + 1 }
        else s.cluster n := by
      rw [← hs3, State.cluster_modCluster, hP]; rfl
    have hct (n : Nat) : t.cluster n = s3.cluster n := by rw [ht, State.modPack_eq]; rfl
    refine ⟨?_, ?_, ?_, ⟨{ k with parties := ps, lines := k.lines + 1 }, ?_, rfl, h3⟩, ?_, ?_, hq,
      by rw [ht, State.modPack_eq, ← hs3, hP]; rfl⟩
    · rw [ht, State.party_eq, State.pack_modPack_self, hk3, h1]; exact h2
    · rw [ht, State.modPack_eq, ← hs3, hP]; rfl
    · intro u hu; rw [ht, State.pack_modPack_ne _ _ (Ne.symm hu), hk3, ho.packs u hu]; rfl
    · rw [ht, State.pack_modPack_self, hk3, h1]; rfl
    · intro n
      rw [hct, hc3]
      split
      · rename_i he; subst he; rfl
      · rfl
    · intro n j hnj
      rw [hct, hc3]
      split
      · rename_i he
        subst he
        have hj : j ≠ 1 := by rcases hnj with h | h <;> simp_all
        show rd 0 (wr 0 _ 1 _) j = _
        rw [rd_wr_ne _ _ _ (Ne.symm hj)]
      · rfl

/-- A body that only changes the issuing party's registers and deposits: the next state. -/
theorem completes_plain {s : State} {c : Cur} {k : Pack} {p : Party} (hk : s.pack c.pack = some k)
    (hp : s.party c.pack c.who = some p) (f : Regs → Regs) (dep : List (Nat × Latch)) :
    let d := plainDone (s.idle.modRegs c.pack c.who f) dep
    let q := { p with regs := f p.regs }.retire c d
    (finish c d).party c.pack c.who = some q ∧ Advances c p q ∧ Elsewhere c s (finish c d) k p q := by
  intro d q
  have h1 : OnlyParty c.pack c.who s.idle (s.idle.modRegs c.pack c.who f) k { p with regs := f p.regs } :=
    onlyParty_modParty (s := s.idle) hk hp _
  obtain ⟨ps, hk1, -, -⟩ := h1.pack
  have hq : { q with regs := p.regs, groups := p.groups, jumped := p.jumped, lines := p.lines, fenced := p.fenced } = p :=
    congrArg (fun x : Party => { x with regs := p.regs }) (Party.retire_rest { p with regs := f p.regs } c (s.idle.modRegs c.pack c.who f) dep)
  have hpl : q.place = p.place := by have := congrArg Party.place hq; exact this
  obtain ⟨t', ho, ht⟩ := State.retire_spec hk1 h1.party d rfl hpl
  have ho' := h1.trans hk1 ho
  have hadv := Party.retire_advances { p with regs := f p.regs } c (s.idle.modRegs c.pack c.who f) dep
  have hfin : finish c d = d.s.retire c d := rfl
  have := Elsewhere.of_only ho' hq (leavesLine c d)
  rw [hfin, show d.s.retire c d = _ from ht]
  exact ⟨this.1, ⟨hadv.go, hadv.stay, hadv.live⟩, this.2⟩

/-! ### Results in registers -/

/-- A write at a width, as fields. -/
theorem writeSpec_holds {r : Regs} {t : Option Ty} {w : Width} {l : Option Nat} {d : Spec} {x : Nat}
    (hd : d.cls = .v ∨ d.cls = .s ∨ d.cls = .h ∨ d.cls = .a) : (writeSpec r t w l d x).holds t w l d x := by
  cases d with
  | v n =>
    cases w with
    | w32 => simp [writeSpec, Regs.holds]
    | w64 => simp only [writeSpec, Regs.holds]; exact Regs.readV64_writeV64_self _ _ _ _
    | w128 =>
      simp only [writeSpec, Regs.holds]
      refine ⟨?_, Regs.readV64_writeV64_self _ _ _ _⟩
      rw [Regs.readV64_writeV64_ne _ _ (.inr (by omega))]; exact Regs.readV64_writeV64_self _ _ _ _
  | s n =>
    cases w with
    | w32 => simp [writeSpec, Regs.holds, Regs.readS_writeS]
    | w64 => simp [writeSpec, Regs.holds, Regs.readS_writeS]
    | w128 =>
      simp only [writeSpec, Regs.holds, Regs.readS_writeS, ↓reduceIte, and_true]
      rw [if_neg]; omega
  | h n => simp [writeSpec, Regs.holds, Regs.readH_writeH]
  | a n => simp [writeSpec, Regs.holds, Regs.readA_writeA]
  | k n => simp [Spec.cls] at hd
  | const i => simp [Spec.cls] at hd
  | special r => simp [Spec.cls] at hd

theorem ofNat_toNat_mod {w n : Nat} (x : BitVec w) (k : Nat) (h : x.toNat % 2 ^ w = k % 2 ^ w) (_ : n = n) :
    x = BitVec.ofNat w k := by
  apply BitVec.eq_of_toNat_eq
  rw [BitVec.toNat_ofNat, ← h, Nat.mod_eq_of_lt x.isLt]

theorem mem_specCells_v {w : Width} {m n : BitVec 8} :
    Spec.v n ∈ specCells w (.v m) ↔ ∃ i < w.bits / 32, n = m + BitVec.ofNat 8 i := by
  simp only [specCells, List.mem_map, List.mem_range, Spec.v.injEq]
  constructor
  · rintro ⟨i, hi, h⟩; exact ⟨i, hi, h.symm⟩
  · rintro ⟨i, hi, h⟩; exact ⟨i, hi, h.symm⟩

theorem v_ne_of_not_mem {w : Width} {m n : BitVec 8} (h : Spec.v n ∉ specCells w (.v m)) {i : Nat} (hi : i < w.bits / 32) :
    ¬ (m.toNat + i) % 256 = n.toNat % 256 := by
  intro e
  apply h
  rw [mem_specCells_v]
  refine ⟨i, hi, ?_⟩
  apply BitVec.eq_of_toNat_eq
  rw [BitVec.toNat_add, BitVec.toNat_ofNat]
  have := n.isLt
  omega

/-- A write at a width leaves the registers outside its cells, and those of other lanes. -/
theorem readV_writeSpec {r : Regs} {t : Option Ty} {w : Width} {l : Option Nat} {d : Spec} {x l' : Nat} {n : BitVec 8}
    (h : d.cls ≠ .v ∨ l.getD 0 ≠ l' ∨ Spec.v n ∉ specCells w d) :
    (writeSpec r t w l d x).readV l' n.toNat = r.readV l' n.toNat := by
  cases d with
  | v m =>
    have hc (i : Nat) (hi : i < w.bits / 32) : ¬ (l.getD 0 = l' ∧ (m.toNat + i) % 256 = n.toNat % 256) := by
      rintro ⟨e1, e2⟩
      rcases h with h | h | h
      · exact h rfl
      · exact h e1
      · exact v_ne_of_not_mem h hi e2
    cases w with
    | w32 =>
      have := hc 0 (by decide)
      simp only [writeSpec, Regs.readV_writeV]; exact if_neg this
    | w64 =>
      have h0 := hc 0 (by decide)
      rw [Nat.add_zero] at h0
      have h1 := hc 1 (by decide)
      simp only [writeSpec, Regs.readV_writeV64]; rw [if_neg h1, if_neg h0]
    | w128 =>
      have h0 := hc 0 (by decide)
      rw [Nat.add_zero] at h0
      have h1 := hc 1 (by decide)
      have h2 := hc 2 (by decide)
      have h3 := hc 3 (by decide)
      simp only [writeSpec, Regs.readV_writeV64]
      rw [if_neg h3, if_neg h2, if_neg h1, if_neg h0]
  | s m => cases w <;> rfl
  | h m => rfl
  | a m => rfl
  | k m => rfl
  | const i => rfl
  | special r => rfl

theorem readS_writeSpec {r : Regs} {t : Option Ty} {w : Width} {l : Option Nat} {d : Spec} {x : Nat} {n : BitVec 6}
    (h : Spec.s n ∉ specCells w d) : (writeSpec r t w l d x).readS n.toNat = r.readS n.toNat := by
  cases d with
  | s m =>
    have hm := m.isLt
    have hn := n.isLt
    have h0 : ¬ m.toNat % 64 = n.toNat % 64 := by
      intro e
      have : n = m := BitVec.eq_of_toNat_eq (by omega)
      subst this
      apply h; cases w <;> simp [specCells]
    cases w with
    | w32 => simp only [writeSpec, Regs.readS_writeS]; exact if_neg h0
    | w64 => simp only [writeSpec, Regs.readS_writeS]; exact if_neg h0
    | w128 =>
      have h1 : ¬ (m.toNat + 1) % 64 = n.toNat % 64 := by
        intro e
        apply h
        have : n = m + 1 := by
          apply BitVec.eq_of_toNat_eq; rw [BitVec.toNat_add]; show _ = (m.toNat + 1) % 64; omega
        subst this; simp [specCells]
      simp only [writeSpec, Regs.readS_writeS]; rw [if_neg h1, if_neg h0]
  | v m => cases w <;> rfl
  | h m => rfl
  | a m => rfl
  | k m => rfl
  | const i => rfl
  | special r => rfl

theorem readH_writeSpec {r : Regs} {t : Option Ty} {w : Width} {l : Option Nat} {d : Spec} {x : Nat} {n : BitVec 3}
    (h : Spec.h n ∉ specCells w d) : (writeSpec r t w l d x).readH n.toNat = r.readH n.toNat := by
  cases d with
  | h m =>
    have hm := m.isLt
    have hn := n.isLt
    simp only [writeSpec, Regs.readH_writeH]
    rw [if_neg]
    intro e
    have : n = m := BitVec.eq_of_toNat_eq (by omega)
    subst this; exact h (by simp [specCells])
  | v m => cases w <;> rfl
  | s m => cases w <;> rfl
  | a m => rfl
  | k m => rfl
  | const i => rfl
  | special r => rfl

theorem readA_writeSpec {r : Regs} {t : Option Ty} {w : Width} {l : Option Nat} {d : Spec} {x : Nat} {n : BitVec 3}
    (h : Spec.a n ∉ specCells w d) : (writeSpec r t w l d x).readA n.toNat = r.readA n.toNat := by
  cases d with
  | a m =>
    have hm := m.isLt
    have hn := n.isLt
    simp only [writeSpec, Regs.readA_writeA]
    rw [if_neg]
    intro e
    have : n = m := BitVec.eq_of_toNat_eq (by omega)
    subst this; exact h (by simp [specCells])
  | v m => cases w <;> rfl
  | s m => cases w <;> rfl
  | h m => rfl
  | k m => rfl
  | const i => rfl
  | special r => rfl

/-- A write touches only the register files. -/
theorem writeSpec_rest (r : Regs) (t : Option Ty) (w : Width) (l : Option Nat) (d : Spec) (x : Nat) (v : Cells Word32)
    (s h : Cells Word64) (a : Cells (BitVec 16)) :
    { writeSpec r t w l d x with v := v, s := s, h := h, a := a } = { r with v := v, s := s, h := h, a := a } := by
  cases d <;> cases w <;> rfl

/-- A write to a vector register in one lane leaves what another lane's holds. -/
theorem holds_writeSpec_ne {r : Regs} {t : Option Ty} {w : Width} {l l' : Option Nat} {d : Spec} {x y : Nat}
    (hd : d.cls = .v) (hl : l.getD 0 ≠ l'.getD 0) (h : r.holds t w l' d y) : (writeSpec r t w l d x).holds t w l' d y := by
  cases d with
  | v n =>
    cases w with
    | w32 => simp only [writeSpec, Regs.holds, Regs.readV_writeV] at *; rw [if_neg (fun e => hl e.1)]; exact h
    | w64 => simp only [writeSpec, Regs.holds] at *; rw [Regs.readV64_writeV64_ne _ _ (.inl hl)]; exact h
    | w128 =>
      simp only [writeSpec, Regs.holds] at *
      rw [Regs.readV64_writeV64_ne _ _ (.inl hl), Regs.readV64_writeV64_ne _ _ (.inl hl),
        Regs.readV64_writeV64_ne _ _ (.inl hl), Regs.readV64_writeV64_ne _ _ (.inl hl)]
      exact h
  | s n => cases hd
  | h n => cases hd
  | a n => cases hd
  | k n => cases hd
  | const i => cases hd
  | special r => cases hd

/-- Flags leave the register files. -/
@[simp] theorem raise_holds (r : Regs) (fl : Flags) (t : Option Ty) (w : Width) (l : Option Nat) (d : Spec) (x : Nat) :
    (r.raise fl).holds t w l d x ↔ r.holds t w l d x := Iff.rfl

/-- The register side of `compute`: results and flags of a list of lanes. -/
def putAll (t : Option Ty) (w : Width) (d : Spec) (wbs : Bool) (f : Option Nat → Nat × Flags) (r : Regs)
    (ls : List (Option Nat)) : Regs :=
  (ls.map fun l => (l, f l)).foldl (fun r e => (writeDst r t w e.1 d wbs e.2.1).raise e.2.2) r

theorem putAll_cons (t : Option Ty) (w : Width) (d : Spec) (wbs : Bool) (f : Option Nat → Nat × Flags) (r : Regs)
    (l : Option Nat) (ls : List (Option Nat)) :
    putAll t w d wbs f r (l :: ls) = putAll t w d wbs f ((writeDst r t w l d wbs (f l).1).raise (f l).2) ls := rfl

theorem putAll_flags (t : Option Ty) (w : Width) (d : Spec) (wbs : Bool) (f : Option Nat → Nat × Flags) (r : Regs)
    (ls : List (Option Nat)) : (putAll t w d wbs f r ls).fpflags = ls.foldl (fun fl l => fl ||| (f l).2) r.fpflags := by
  induction ls generalizing r with
  | nil => rfl
  | cons l ls ih =>
    rw [putAll_cons, ih, List.foldl_cons]
    congr 1
    show (writeDst r t w l d wbs (f l).1).fpflags ||| (f l).2 = r.fpflags ||| (f l).2
    congr 1
    unfold writeDst
    split
    · rfl
    · have := writeSpec_rest r t w l d (f l).1 [] [] [] []
      have h2 := congrArg Regs.fpflags this; exact h2

/-- What writing the results of a list of lanes does. -/
theorem putAll_written (t : Option Ty) (w : Width) (d : Spec) (wbs : Bool) (f : Option Nat → Nat × Flags) (r : Regs)
    (ls : List (Option Nat)) (hd : d.cls = .v ∨ d.cls = .s ∨ d.cls = .h ∨ d.cls = .a)
    (hl : ls.Pairwise fun a b => d.cls = .v ∧ a.getD 0 ≠ b.getD 0) :
    (wbs = false → ∀ l ∈ ls, (putAll t w d wbs f r ls).holds t w l d (f l).1) ∧
    (∀ (l : Nat) (n : BitVec 8), (wbs = true ∨ (∀ x ∈ ls, x.getD 0 ≠ l) ∨ Spec.v n ∉ specCells w d) →
      (putAll t w d wbs f r ls).readV l n.toNat = r.readV l n.toNat) ∧
    (∀ n : BitVec 6, (wbs = true ∨ Spec.s n ∉ specCells w d) →
      (putAll t w d wbs f r ls).readS n.toNat = r.readS n.toNat) ∧
    (∀ n : BitVec 3, (wbs = true ∨ Spec.h n ∉ specCells w d) →
      (putAll t w d wbs f r ls).readH n.toNat = r.readH n.toNat) ∧
    (∀ n : BitVec 3, (wbs = true ∨ Spec.a n ∉ specCells w d) →
      (putAll t w d wbs f r ls).readA n.toNat = r.readA n.toNat) := by
  have stays : ∀ (ls : List (Option Nat)) (r : Regs) (l : Option Nat) (y : Nat), wbs = false → d.cls = .v →
      (∀ x ∈ ls, x.getD 0 ≠ l.getD 0) → r.holds t w l d y → (putAll t w d wbs f r ls).holds t w l d y := by
    intro ls
    induction ls with
    | nil => intro r l y _ _ _ h; exact h
    | cons x xs ih =>
      intro r l y hw hv hx h
      rw [putAll_cons]
      apply ih _ _ _ hw hv (fun z hz => hx z (List.mem_cons_of_mem _ hz))
      subst hw
      exact holds_writeSpec_ne hv (hx x List.mem_cons_self) h
  induction ls generalizing r with
  | nil => refine ⟨?_, ?_, ?_, ?_, ?_⟩ <;> intros <;> first | contradiction | rfl
  | cons x xs ih =>
    rw [List.pairwise_cons] at hl
    obtain ⟨h1, h2, h3, h4, h5⟩ := ih ((writeDst r t w x d wbs (f x).1).raise (f x).2) hl.2
    refine ⟨?_, ?_, ?_, ?_, ?_⟩
    · intro hw l hlm
      rw [putAll_cons]
      rcases List.mem_cons.mp hlm with rfl | hm
      · have h0 : ((writeDst r t w l d wbs (f l).1).raise (f l).2).holds t w l d (f l).1 := by
          subst hw; exact writeSpec_holds hd
        cases xs with
        | nil => exact h0
        | cons z zs =>
          have hv := (hl.1 z List.mem_cons_self).1
          exact stays _ _ _ _ hw hv (fun y hy => (Ne.symm (hl.1 y hy).2)) h0
      · exact h1 hw l hm
    · intro l n h
      rw [putAll_cons, h2 l n (by
        rcases h with h | h | h
        · exact .inl h
        · exact .inr (.inl fun y hy => h y (List.mem_cons_of_mem _ hy))
        · exact .inr (.inr h))]
      show (writeDst r t w x d wbs (f x).1).readV l n.toNat = _
      unfold writeDst
      split
      · rfl
      · rename_i hw
        apply readV_writeSpec
        rcases h with h | h | h
        · exact absurd h hw
        · exact .inr (.inl (h x List.mem_cons_self))
        · exact .inr (.inr h)
    · intro n h
      rw [putAll_cons, h3 n h]
      show (writeDst r t w x d wbs (f x).1).readS n.toNat = _
      unfold writeDst
      split
      · rfl
      · rename_i hw; exact readS_writeSpec (h.resolve_left hw)
    · intro n h
      rw [putAll_cons, h4 n h]
      show (writeDst r t w x d wbs (f x).1).readH n.toNat = _
      unfold writeDst
      split
      · rfl
      · rename_i hw; exact readH_writeSpec (h.resolve_left hw)
    · intro n h
      rw [putAll_cons, h5 n h]
      show (writeDst r t w x d wbs (f x).1).readA n.toNat = _
      unfold writeDst
      split
      · rfl
      · rename_i hw; exact readA_writeSpec (h.resolve_left hw)

theorem putAll_rest (t : Option Ty) (w : Width) (d : Spec) (wbs : Bool) (f : Option Nat → Nat × Flags) (r : Regs)
    (ls : List (Option Nat)) (v : Cells Word32) (s h : Cells Word64) (a : Cells (BitVec 16)) (fl : BitVec 5) :
    { putAll t w d wbs f r ls with v := v, s := s, h := h, a := a, fpflags := fl } =
      { r with v := v, s := s, h := h, a := a, fpflags := fl } := by
  induction ls generalizing r with
  | nil => rfl
  | cons x xs ih =>
    rw [putAll_cons, ih]
    unfold writeDst
    split
    · rfl
    · have := writeSpec_rest r t w x d (f x).1 v s h a
      exact congrArg (fun y : Regs => { y with fpflags := fl }) this

/-! ### `compute` as a whole -/

theorem find_flatMap_lane (xs : List Nat) (g : Nat → Latch) (l : Nat) :
    ((xs.map fun x => (x, g x)).find? fun e => e.1 == l).map (·.2) = if l ∈ xs then some (g l) else none := by
  induction xs with
  | nil => rfl
  | cons x xs ih =>
    rw [List.map_cons, List.find?_cons]
    by_cases h : x = l
    · subst h; simp
    · have h' : ¬ l = x := fun e => h e.symm
      have hb : ((x, g x).1 == l) = false := by simpa using h
      rw [hb, ih]; simp [h']

/-- The deposits of a computed result are the latches of R72. -/
theorem deposits_find (form : Form) (c : Cur) (w : Width) (f : Option Nat → Nat × Flags) (l : Nat)
    (hl : c.lanes.getLsbD l = true) :
    (((((lanesFor form c.active).map fun l => (l, f l)).flatMap fun e => deposits c w e.1 e.2.1).find?
      fun e => e.1 == l).map (·.2)).getD .invalid = latchOf c form w (fun l => (f l).1) l := by
  cases form with
  | lane =>
    have he : (((lanesFor .lane c.active).map fun l => (l, f l)).flatMap fun e => deposits c w e.1 e.2.1) =
        (lanesOf c.active).map fun l => (l, .lane (w != .w32) (u64 ((f (some l)).1 % 2 ^ (if (w != .w32) then 64 else 32)))) := by
      unfold lanesFor
      rw [List.map_map, List.flatMap_map]
      simp only [deposits, Function.comp]
      exact List.map_eq_flatMap.symm
    rw [he, find_flatMap_lane (lanesOf c.active)
      (fun l => .lane (w != .w32) (u64 ((f (some l)).1 % 2 ^ (if (w != .w32) then 64 else 32))))]
    unfold latchOf
    simp only [mem_lanesOf]
    cases c.active.getLsbD l <;> simp
  | unif =>
    simp only [lanesFor, List.map_cons, List.map_nil, List.flatMap_cons, List.flatMap_nil, List.append_nil, deposits]
    rw [find_flatMap_lane (lanesOf c.lanes) (fun _ => .uniform (w != .w32) _), if_pos (mem_lanesOf.mpr hl)]
    rfl
  | gather =>
    simp only [lanesFor, List.map_cons, List.map_nil, List.flatMap_cons, List.flatMap_nil, List.append_nil, deposits]
    rw [find_flatMap_lane (lanesOf c.lanes) (fun _ => .uniform (w != .w32) _), if_pos (mem_lanesOf.mpr hl)]
    rfl

theorem latched_congr {c : Cur} {p p' q : Regs} {f g : Nat → Latch} (h : Latched c p' q f)
    (hp : ∀ l i, p'.readL l i = p.readL l i) (hf : ∀ l, c.lanes.getLsbD l = true → f l = g l) : Latched c p q g := by
  refine ⟨fun h4 l i hl hi => ?_, h.left, fun l i hl hi => ?_⟩
  · rw [h.here h4 l i hl hi, hf l hl, hp]
  · rw [h.others l i hl hi, hp]

theorem pairwise_lanesFor {form : Form} {m : Lanes} {d : Spec} (hf : form = .lane → d.cls = .v) :
    (lanesFor form m).Pairwise fun a b => d.cls = .v ∧ a.getD 0 ≠ b.getD 0 := by
  cases form with
  | lane =>
    unfold lanesFor
    rw [List.pairwise_map]
    exact (nodup_lanesOf m).imp fun h => ⟨hf rfl, h⟩
  | unif => simp [lanesFor]
  | gather => simp [lanesFor]

/-- The whole of an instruction whose body changes only registers and deposits: it completes, and its registers are those
that the body wrote, with the latches that leaving the instruction gives. -/
theorem Ready.completes {o : Opts} {i : Instr} {s : State} {sh : Shape} {r c : Cur} {k : Pack} {p : Party}
    (h : Ready o i s sh r c k p) {body : State → Cur → Res} {g : Regs → Regs} {dep : List (Nat × Latch)}
    (hx : exec i s = performWith o i body s)
    (hb : body s.idle c = .done (plainDone (s.idle.modRegs c.pack c.who g) dep))
    (hg : (g p.regs).latches = p.regs.latches) {post : Regs → Regs → Prop}
    (hpost : ∀ q, { q with latches := [] } = { g p.regs with latches := [] } →
      Latched c p.regs q (fun l => ((dep.find? fun e => e.1 == l).map (·.2)).getD .invalid) → post p.regs q) :
    Completes i s c k p post := by
  obtain ⟨h1, h2, h3⟩ := completes_plain h.packC h.partyC g dep
  refine ⟨finish c (plainDone (s.idle.modRegs c.pack c.who g) dep), _, ?_, h1, h2, h3, ?_⟩
  · rw [hx, h.performs, hb]; rfl
  · apply hpost
    · exact Party.retire_regs_rest { p with regs := g p.regs } c (s.idle.modRegs c.pack c.who g) dep []
    · refine latched_congr (Party.retire_latched { p with regs := g p.regs } c (s.idle.modRegs c.pack c.who g) dep) ?_
        fun _ _ => rfl
      intro l i; unfold Regs.readL; rw [hg]

/-- Leaving an instruction by sequential flow. -/
theorem leaves_plain {a : State} {c : Cur} {k : Pack} {p : Party} (hk : a.pack c.pack = some k)
    (hp : a.party c.pack c.who = some p) (hc : a.cur = none) (dep : List (Nat × Latch)) :
    Leaves c (fun l => ((dep.find? fun e => e.1 == l).map (·.2)).getD .invalid) a (finish c (plainDone a dep)) := by
  have ha : a.idle = a := by show { a with cur := none } = a; rw [← hc]
  have hq := Party.retire_rest p c a dep
  have hpl : (p.retire c (plainDone a dep)).place = p.place := by have := congrArg Party.place hq; exact this
  obtain ⟨t', ho, ht⟩ := State.retire_spec hk hp (plainDone a dep) rfl hpl
  have he := Elsewhere.of_only (s := a) (by rw [ha]; exact ho) hq (leavesLine c (plainDone a dep))
  have hfin : finish c (plainDone a dep) = a.retire c (plainDone a dep) := rfl
  rw [hfin, ht]
  refine ⟨k, p, _, hk, hp, he.1, Party.retire_advances p c a dep, he.2, ?_⟩
  have hr := Party.retire_regs_rest p c a dep []
  have via {β : Type} (f : Regs → β) (e : ∀ x : Regs, f { x with latches := [] } = f x) :
      f (p.retire c (plainDone a dep)).regs = f p.regs := by rw [← e, hr, e]
  exact ⟨⟨via (·.v) fun _ => rfl, via (·.s) fun _ => rfl, via (·.h) fun _ => rfl, via (·.a) fun _ => rfl⟩,
    ⟨via (·.p) fun _ => rfl, via (·.q) fun _ => rfl⟩,
    ⟨via (·.fpmode) fun _ => rfl, via (·.xcause) fun _ => rfl, via (·.xaddr) fun _ => rfl, via (·.xpc) fun _ => rfl,
      via (·.xstat) fun _ => rfl, via (·.xvec) fun _ => rfl⟩,
    via (·.fpflags) fun _ => rfl, Party.retire_latched p c a dep⟩

/-- The whole of an instruction whose body makes a state and deposits. -/
theorem Ready.completesIn {o : Opts} {i : Instr} {s : State} {sh : Shape} {r c : Cur} {k : Pack} {p : Party}
    (h : Ready o i s sh r c k p) {body : State → Cur → Res} {a : State} {dep : List (Nat × Latch)}
    (hx : exec i s = performWith o i body s) (hb : body s.idle c = .done (plainDone a dep))
    (hk : (a.pack c.pack).isSome) (hp : (a.party c.pack c.who).isSome) (hc : a.cur = none) :
    CompletesIn i s c a fun l => ((dep.find? fun e => e.1 == l).map (·.2)).getD .invalid := by
  obtain ⟨k', hk⟩ := Option.isSome_iff_exists.mp hk
  obtain ⟨p', hp⟩ := Option.isSome_iff_exists.mp hp
  exact ⟨_, by rw [hx, h.performs, hb]; rfl, leaves_plain hk hp hc dep⟩

theorem Leaves.congr {c : Cur} {f g : Nat → Latch} {a t : State} (h : Leaves c f a t)
    (hf : ∀ l, c.lanes.getLsbD l = true → f l = g l) : Leaves c g a t := by
  obtain ⟨k, p, q, h1, h2, h3, h4, h5, h6, h7, h8, h9, h10⟩ := h
  exact ⟨k, p, q, h1, h2, h3, h4, h5, h6, h7, h8, h9, latched_congr h10 (fun _ _ => rfl) hf⟩

/-- The same for a body that ends without a result. -/
theorem Ready.completesN {o : Opts} {i : Instr} {s : State} {sh : Shape} {r c : Cur} {k : Pack} {p : Party}
    (h : Ready o i s sh r c k p) {body : State → Cur → Res} {a : State}
    (hx : exec i s = performWith o i body s) (hb : body s.idle c = .done (doneAt a))
    (hk : (a.pack c.pack).isSome) (hp : (a.party c.pack c.who).isSome) (hc : a.cur = none) :
    CompletesIn i s c a noDeposit :=
  h.completesIn (dep := []) hx hb hk hp hc

/-- The same for a body that ends with a 64-bit result of the uniform form. -/
theorem Ready.completesS {o : Opts} {i : Instr} {s : State} {sh : Shape} {r c : Cur} {k : Pack} {p : Party}
    (h : Ready o i s sh r c k p) {body : State → Cur → Res} {a : State} {d : Spec} {wbs : Bool} {x : Word64}
    (hx : exec i s = performWith o i body s) (hb : body s.idle c = doneS a c d wbs x)
    (hk : (a.pack c.pack).isSome) (hp : (a.party c.pack c.who).isSome) (hc : a.cur = none) :
    CompletesIn i s c (giveS a c d wbs x) (deposited x) := by
  obtain ⟨p', hp⟩ := Option.isSome_iff_exists.mp hp
  obtain ⟨k', hk⟩ := Option.isSome_iff_exists.mp hk
  have hp2 : ((giveS a c d wbs x).party c.pack c.who).isSome := by
    unfold giveS; rw [State.party_modRegs]; simp [hp]
  have hk2 : ((giveS a c d wbs x).pack c.pack).isSome := by
    obtain ⟨q, hq⟩ := Option.isSome_iff_exists.mp hp2
    obtain ⟨k2, hk2⟩ := State.pack_of_party hq
    simp [hk2]
  have hc2 : (giveS a c d wbs x).cur = none := by
    unfold giveS; show (State.modParty _ _ _ _).cur = none; rw [State.modParty_eq]; exact hc
  obtain ⟨t, h1, h2⟩ := h.completesIn (dep := deposits c .w64 none x.toNat) hx hb hk2 hp2 hc2
  refine ⟨t, h1, h2.congr fun l hl => ?_⟩
  have := deposits_find .unif c .w64 (fun _ => (x.toNat, 0)) l hl
  simp only [lanesFor, List.map_cons, List.map_nil, List.flatMap_cons, List.flatMap_nil, List.append_nil] at this
  rw [this]
  show Latch.uniform true (u64 (x.toNat % 2 ^ 64)) = Latch.uniform true x
  rw [Nat.mod_eq_of_lt x.isLt]; simp [u64]

/-- Registers that differ only in latches hold the same. -/
theorem holds_of_eq {q r : Regs} (h : { q with latches := [] } = { r with latches := [] }) {t : Option Ty} {w : Width}
    {l : Option Nat} {d : Spec} {x : Nat} (hr : r.holds t w l d x) : q.holds t w l d x := by
  obtain ⟨v, s, p, qq, hh, a, la, m, fl, x1, x2, x3, x4, x5⟩ := q
  obtain ⟨v', s', p', qq', hh', a', la', m', fl', x1', x2', x3', x4', x5'⟩ := r
  simp only [Regs.mk.injEq] at h
  obtain ⟨rfl, rfl, rfl, rfl, rfl, rfl, -, rfl, rfl, rfl, rfl, rfl, rfl, rfl⟩ := h
  exact hr

theorem specCells_cls {w : Width} {d : Spec} {n : BitVec 8} (h : Spec.v n ∈ specCells w d) : d.cls = .v := by
  unfold specCells at h
  split at h
  · rfl
  · split at h <;> simp at h
  all_goals simp at h

/-- What `putAll` leaves in registers that differ from its result only in latches. -/
theorem written_of_putAll {c : Cur} {p q : Regs} {t : Option Ty} {w : Width} {d : Spec} {wbs : Bool} {form : Form}
    {f : Option Nat → Nat × Flags}
    (h : { q with latches := [] } = { putAll t w d wbs f p (lanesFor form c.active) with latches := [] })
    (hf : form = .lane ↔ d.cls = .v) (hd : d.cls = .v ∨ d.cls = .s ∨ d.cls = .h ∨ d.cls = .a) :
    Written c p q t w d wbs form (fun l => (f l).1) ∧ PredsKept p q ∧ Fixed p q ∧
      Flagged c p q form (fun l => (f l).2) := by
  obtain ⟨w1, w2, w3, w4, w5⟩ := putAll_written t w d wbs f p (lanesFor form c.active) hd (pairwise_lanesFor hf.mp)
  have hrest := putAll_rest t w d wbs f p (lanesFor form c.active) [] [] [] [] 0
  have hflags := putAll_flags t w d wbs f p (lanesFor form c.active)
  generalize putAll t w d wbs f p (lanesFor form c.active) = r at *
  have hv : q.v = r.v := by have := congrArg Regs.v h; exact this
  have hs : q.s = r.s := by have := congrArg Regs.s h; exact this
  have hh : q.h = r.h := by have := congrArg Regs.h h; exact this
  have ha : q.a = r.a := by have := congrArg Regs.a h; exact this
  have rest {β : Type} (g : Regs → β) (e1 : ∀ x : Regs, g { x with latches := [] } = g x)
      (e2 : ∀ x : Regs, g { x with v := [], s := [], h := [], a := [], fpflags := 0 } = g x) : g q = g p := by
    rw [← e1 q, h, e1, ← e2 r, hrest, e2]
  refine ⟨⟨fun hw l hl => holds_of_eq h (w1 hw l hl), fun l n hn => ?_, fun n hn => ?_, fun n hn => ?_, fun n hn => ?_⟩,
    ⟨rest (·.p) (fun _ => rfl) fun _ => rfl, rest (·.q) (fun _ => rfl) fun _ => rfl⟩,
    ⟨rest (·.fpmode) (fun _ => rfl) fun _ => rfl, rest (·.xcause) (fun _ => rfl) fun _ => rfl,
      rest (·.xaddr) (fun _ => rfl) fun _ => rfl, rest (·.xpc) (fun _ => rfl) fun _ => rfl,
      rest (·.xstat) (fun _ => rfl) fun _ => rfl, rest (·.xvec) (fun _ => rfl) fun _ => rfl⟩, ?_⟩
  · unfold Regs.readV; rw [hv]
    apply w2
    rcases hn with hn | hn | hn
    · exact .inl hn
    · by_cases hfl : form = .lane
      · refine .inr (.inl fun x hx e => ?_)
        subst hfl
        obtain ⟨m, rfl, hm⟩ := mem_lanesFor_lane.mp hx
        simp only [Option.getD_some] at e
        subst e; rw [hn] at hm; cases hm
      · exact .inr (.inr fun hmem => hfl (hf.mpr (specCells_cls hmem)))
    · exact .inr (.inr hn)
  · unfold Regs.readS; rw [hs]; exact w3 n hn
  · unfold Regs.readH; rw [hh]; exact w4 n hn
  · unfold Regs.readA; rw [ha]; exact w5 n hn
  · have : q.fpflags = r.fpflags := by have := congrArg Regs.fpflags h; exact this
    show q.fpflags = _
    rw [this]; exact hflags

theorem putAll_latches (t : Option Ty) (w : Width) (d : Spec) (wbs : Bool) (f : Option Nat → Nat × Flags) (r : Regs)
    (ls : List (Option Nat)) : (putAll t w d wbs f r ls).latches = r.latches := by
  have := congrArg Regs.latches (putAll_rest t w d wbs f r ls [] [] [] [] 0)
  exact this

/-- The whole of an instruction whose body computes results in registers. -/
theorem Ready.computes {o : Opts} {i : Instr} {s : State} {sh : Shape} {r c : Cur} {k : Pack} {p : Party}
    (h : Ready o i s sh r c k p) {form : Form} {ty : Option Ty} {w : Width} {dst : Spec} {wbs : Bool}
    {f : State → Cur → Option Nat → Nat × Flags}
    (hx : exec i s = performWith o i (compute form ty w dst wbs f) s)
    (hf : form = .lane ↔ dst.cls = .v) (hd : dst.cls = .v ∨ dst.cls = .s ∨ dst.cls = .h ∨ dst.cls = .a) :
    Completes i s c k p (Result c ty w dst wbs form (f s.idle c)) := by
  refine h.completes hx (g := fun r => putAll ty w dst wbs (f s.idle c) r (lanesFor form c.active))
    (dep := ((lanesFor form c.active).map fun l => (l, f s.idle c l)).flatMap fun e => deposits c w e.1 e.2.1) rfl
    (putAll_latches ..) fun q hq hl => ?_
  obtain ⟨a1, a2, a3, a4⟩ := written_of_putAll hq hf hd
  exact ⟨a1, a2, a3, a4, latched_congr hl (fun _ _ => rfl) fun l hl => deposits_find form c w (f s.idle c) l hl⟩

/-! ### Predicates -/

/-- The register side of `computeP`. -/
def putPreds (pd : BitVec 4) (g : Option Nat → Bool × Flags) (r : Regs) (ls : List (Option Nat)) : Regs :=
  (ls.map fun l => (l, g l)).foldl (fun r e => (writePred r e.1 pd e.2.1).raise e.2.2) r

theorem putPreds_cons (pd : BitVec 4) (g : Option Nat → Bool × Flags) (r : Regs) (l : Option Nat)
    (ls : List (Option Nat)) :
    putPreds pd g r (l :: ls) = putPreds pd g ((writePred r l pd (g l).1).raise (g l).2) ls := rfl

theorem writePred_rest (r : Regs) (l : Option Nat) (f : BitVec 4) (b : Bool) (x : Cells Lanes) (y : BitVec 4) :
    { writePred r l f b with p := x, q := y } = { r with p := x, q := y } := by
  unfold writePred
  split
  · rfl
  · cases l with
    | none => rfl
    | some l => simp only [Regs.writeP]; split <;> rfl

theorem putPreds_rest (pd : BitVec 4) (g : Option Nat → Bool × Flags) (r : Regs) (ls : List (Option Nat))
    (x : Cells Lanes) (y : BitVec 4) (fl : BitVec 5) :
    { putPreds pd g r ls with p := x, q := y, fpflags := fl } = { r with p := x, q := y, fpflags := fl } := by
  induction ls generalizing r with
  | nil => rfl
  | cons l ls ih =>
    rw [putPreds_cons, ih]
    have := congrArg (fun z : Regs => { z with fpflags := fl }) (writePred_rest r l pd (g l).1 x y)
    exact this

theorem putPreds_flags (pd : BitVec 4) (g : Option Nat → Bool × Flags) (r : Regs) (ls : List (Option Nat)) :
    (putPreds pd g r ls).fpflags = ls.foldl (fun fl l => fl ||| (g l).2) r.fpflags := by
  induction ls generalizing r with
  | nil => rfl
  | cons l ls ih =>
    rw [putPreds_cons, ih, List.foldl_cons]
    congr 1
    show (writePred r l pd (g l).1).fpflags ||| (g l).2 = _
    congr 1
    have := congrArg Regs.fpflags (writePred_rest r l pd (g l).1 [] 0); exact this

/-- Predicates of one lane after a write to a field. -/
theorem readP_writePred (r : Regs) (l : Option Nat) (f : BitVec 4) (b : Bool) (j n : Nat) (hj : j < 64) (hn : n < 7)
    (h : (∀ x, l = some x → x ≠ j) ∨ f.toNat ≠ n) : (writePred r l f b).readP j n = r.readP j n := by
  unfold writePred
  split
  · rfl
  · rename_i hf
    cases l with
    | none => rfl
    | some x =>
      rw [Regs.readP_writeP _ _ _ _ _ _ hj, if_neg (by omega), if_neg]
      rintro ⟨rfl, e⟩
      have hf8 : f.toNat < 8 := by
        have := hf; rw [BitVec.le_def] at this; simpa using this
      rcases h with h | h
      · exact h _ rfl rfl
      · omega

theorem readQ_writePred (r : Regs) (l : Option Nat) (f : BitVec 4) (b : Bool) (n : Nat) (hn : n < 4)
    (h : f.toNat ≠ 8 + n ∧ f.toNat < 12) : (writePred r l f b).readQ n = r.readQ n := by
  unfold writePred
  split
  · rename_i hf
    rw [Regs.readQ_writeQ, if_neg]
    have : 8 ≤ f.toNat := by rw [BitVec.le_def] at hf; simpa using hf
    omega
  · cases l with
    | none => rfl
    | some x => show Regs.readQ (Regs.writeP _ _ _ _) _ = _; unfold Regs.writeP; split <;> rfl

/-- A predicate field of a form: p in lanes, q for the party. -/
def predFits (form : Form) (f : BitVec 4) : Prop := if form = .lane then f.toNat < 8 else 8 ≤ f.toNat ∧ f.toNat < 12

theorem readPred_writePred (r : Regs) (l : Option Nat) (f : BitVec 4) (b : Bool) (form : Form) (m : Lanes)
    (hl : l ∈ lanesFor form m) (hf : predFits form f) (h7 : f ≠ 7#4) : readPred (writePred r l f b) l f = b := by
  have h15 : f ≠ 15#4 := by
    rintro rfl; unfold predFits at hf; split at hf <;> simp at hf
  have hne : f.toNat ≠ 7 := fun e => h7 (BitVec.eq_of_toNat_eq e)
  unfold readPred
  rw [if_neg h15]
  cases form with
  | lane =>
    obtain ⟨n, rfl, hn⟩ := mem_lanesFor_lane.mp hl
    have hlt : f.toNat < 8 := by simpa [predFits] using hf
    have h8 : ¬ 8#4 ≤ f := by rw [BitVec.le_def]; simpa using hlt
    rw [if_neg h8]
    unfold writePred
    rw [if_neg h8]
    simp only []
    rw [Regs.readP_writeP _ _ _ _ _ _ (BitVec.lt_of_getLsbD hn), if_neg (by omega), if_pos ⟨rfl, rfl⟩]
  | unif =>
    have hge : 8 ≤ f.toNat := by simpa [predFits] using (show 8 ≤ f.toNat from by simp [predFits] at hf; exact hf.1)
    have h8 : 8#4 ≤ f := by rw [BitVec.le_def]; simpa using hge
    unfold writePred
    rw [if_pos h8, if_pos h8, Regs.readQ_writeQ, if_pos rfl]
  | gather =>
    have hge : 8 ≤ f.toNat := by simp [predFits] at hf; exact hf.1
    have h8 : 8#4 ≤ f := by rw [BitVec.le_def]; simpa using hge
    unfold writePred
    rw [if_pos h8, if_pos h8, Regs.readQ_writeQ, if_pos rfl]

theorem readPred_stays (r : Regs) (l x : Option Nat) (f : BitVec 4) (b : Bool) (m : Lanes)
    (hl : l ∈ lanesFor .lane m) (hx : x ∈ lanesFor .lane m) (hne : x ≠ l) (hf : f.toNat < 8) :
    readPred (writePred r x f b) l f = readPred r l f := by
  obtain ⟨n, rfl, hn⟩ := mem_lanesFor_lane.mp hl
  obtain ⟨y, rfl, hy⟩ := mem_lanesFor_lane.mp hx
  have h8 : ¬ 8#4 ≤ f := by rw [BitVec.le_def]; simpa using hf
  have h15 : f ≠ 15#4 := by rintro rfl; simp at hf
  unfold readPred
  rw [if_neg h15, if_neg h15, if_neg h8, if_neg h8]
  unfold writePred
  rw [if_neg h8]
  simp only []
  rw [Regs.readP_writeP _ _ _ _ _ _ (BitVec.lt_of_getLsbD hn)]
  by_cases h7 : f.toNat % 8 = 7
  · rw [if_pos h7]; unfold Regs.readP; rw [if_pos h7]
  · rw [if_neg h7, if_neg]; rintro ⟨rfl, -⟩; exact hne rfl

/-- What writing the predicates of the executing lanes, or of the party, does. -/
theorem predicated_putPreds (c : Cur) (p q : Regs) (form : Form) (pd : BitVec 4) (g : Option Nat → Bool × Flags)
    (hf : predFits form pd) (h : ∀ {β : Type} (k : Regs → β), (∀ x : Regs, k { x with latches := [] } = k x) →
      (k q = k (putPreds pd g p (lanesFor form c.active)))) :
    Predicated c p q form pd (fun l => (g l).1) := by
  have hP (l n : Nat) : q.readP l n = (putPreds pd g p (lanesFor form c.active)).readP l n :=
    h (fun x => x.readP l n) fun _ => rfl
  have hQ (n : Nat) : q.readQ n = (putPreds pd g p (lanesFor form c.active)).readQ n := h (fun x => x.readQ n) fun _ => rfl
  have hR (l : Option Nat) (f : BitVec 4) : readPred q l f = readPred (putPreds pd g p (lanesFor form c.active)) l f :=
    h (fun x => readPred x l f) fun _ => rfl
  refine ⟨fun h7 l hl => ?_, fun l n hl hn hor => ?_, fun n hn hne => ?_⟩
  · rw [hR]
    have gen : ∀ (ls : List (Option Nat)) (r : Regs), (∀ x ∈ ls, x ∈ lanesFor form c.active) → ls.Nodup →
        (l ∈ ls → readPred (putPreds pd g r ls) l pd = (g l).1) ∧
        (l ∉ ls → readPred (putPreds pd g r ls) l pd = readPred r l pd) := by
      intro ls
      induction ls with
      | nil => intro r _ _; exact ⟨fun h => absurd h (by simp), fun _ => rfl⟩
      | cons x xs ih =>
        intro r hm hn
        rw [List.nodup_cons] at hn
        obtain ⟨i1, i2⟩ := ih ((writePred r x pd (g x).1).raise (g x).2) (fun y hy => hm y (List.mem_cons_of_mem _ hy)) hn.2
        rw [putPreds_cons]
        constructor
        · intro hlx
          rcases List.mem_cons.mp hlx with rfl | hlx
          · rw [i2 hn.1]
            exact readPred_writePred r l pd (g l).1 form c.active hl hf h7
          · exact i1 hlx
        · intro hlx
          rw [List.mem_cons, not_or] at hlx
          rw [i2 hlx.2]
          show readPred (writePred r x pd (g x).1) l pd = _
          cases form with
          | lane => exact readPred_stays r l x pd _ c.active hl (hm x List.mem_cons_self) (Ne.symm hlx.1) (by simpa [predFits] using hf)
          | unif =>
            have h1 : x = none := by have := hm x List.mem_cons_self; simpa [lanesFor] using this
            have h2 : l = none := by simpa [lanesFor] using hl
            exact absurd (h2.trans h1.symm) hlx.1
          | gather =>
            have h1 : x = none := by have := hm x List.mem_cons_self; simpa [lanesFor] using this
            have h2 : l = none := by simpa [lanesFor] using hl
            exact absurd (h2.trans h1.symm) hlx.1
    exact (gen _ p (fun _ h => h) (nodup_lanesFor _ _)).1 hl
  · rw [hP]
    have gen : ∀ (ls : List (Option Nat)) (r : Regs), (∀ x ∈ ls, x ∈ lanesFor form c.active) →
        (putPreds pd g r ls).readP l n = r.readP l n := by
      intro ls
      induction ls with
      | nil => intro r _; rfl
      | cons x xs ih =>
        intro r hm
        rw [putPreds_cons, ih _ fun y hy => hm y (List.mem_cons_of_mem _ hy)]
        show (writePred r x pd (g x).1).readP l n = _
        apply readP_writePred _ _ _ _ _ _ hl hn
        rcases hor with h0 | h0
        · left
          rintro y rfl rfl
          have hx := hm _ List.mem_cons_self
          cases form with
          | lane => obtain ⟨z, e, hz⟩ := mem_lanesFor_lane.mp hx; cases e; rw [h0] at hz; cases hz
          | unif => simp [lanesFor] at hx
          | gather => simp [lanesFor] at hx
        · exact .inr h0
    exact gen _ p fun _ h => h
  · rw [hQ]
    have hlt : pd.toNat < 12 := by unfold predFits at hf; split at hf <;> omega
    have gen : ∀ (ls : List (Option Nat)) (r : Regs), (putPreds pd g r ls).readQ n = r.readQ n := by
      intro ls
      induction ls with
      | nil => intro r; rfl
      | cons x xs ih =>
        intro r
        rw [putPreds_cons, ih]
        exact readQ_writePred _ _ _ _ _ hn ⟨hne, hlt⟩
    exact gen _ p

/-- The whole of an instruction whose body computes a predicate. -/
theorem Ready.computesP {o : Opts} {i : Instr} {s : State} {sh : Shape} {r c : Cur} {k : Pack} {p : Party}
    (h : Ready o i s sh r c k p) {form : Form} {pd : BitVec 4} {g : State → Cur → Option Nat → Bool × Flags}
    (hx : exec i s = performWith o i (computeP form pd g) s) (hf : predFits form pd) :
    Completes i s c k p (PredResult c form pd (g s.idle c)) := by
  refine h.completes hx (g := fun r => putPreds pd (g s.idle c) r (lanesFor form c.active)) (dep := []) rfl
    (by have := congrArg Regs.latches (putPreds_rest pd (g s.idle c) p.regs (lanesFor form c.active) [] 0 0); exact this)
    fun q hq hl => ?_
  have hrest := putPreds_rest pd (g s.idle c) p.regs (lanesFor form c.active) [] 0 0
  have hfl := putPreds_flags pd (g s.idle c) p.regs (lanesFor form c.active)
  have via {β : Type} (k : Regs → β) (e : ∀ x : Regs, k { x with latches := [] } = k x) :
      k q = k (putPreds pd (g s.idle c) p.regs (lanesFor form c.active)) := by rw [← e q, hq, e]
  have rest {β : Type} (k : Regs → β) (e1 : ∀ x : Regs, k { x with latches := [] } = k x)
      (e2 : ∀ x : Regs, k { x with p := [], q := 0, fpflags := 0 } = k x) : k q = k p.regs := by
    rw [via k e1, ← e2 (putPreds _ _ _ _), hrest, e2]
  refine ⟨⟨rest (·.v) (fun _ => rfl) fun _ => rfl, rest (·.s) (fun _ => rfl) fun _ => rfl,
      rest (·.h) (fun _ => rfl) fun _ => rfl, rest (·.a) (fun _ => rfl) fun _ => rfl⟩,
    predicated_putPreds c p.regs q form pd (g s.idle c) hf via,
    ⟨rest (·.fpmode) (fun _ => rfl) fun _ => rfl, rest (·.xcause) (fun _ => rfl) fun _ => rfl,
      rest (·.xaddr) (fun _ => rfl) fun _ => rfl, rest (·.xpc) (fun _ => rfl) fun _ => rfl,
      rest (·.xstat) (fun _ => rfl) fun _ => rfl, rest (·.xvec) (fun _ => rfl) fun _ => rfl⟩, ?_, ?_⟩
  · show q.fpflags = _
    rw [via (·.fpflags) fun _ => rfl]; exact hfl
  · exact latched_congr hl (fun _ _ => rfl) fun _ _ => rfl

end Sys2Proof.Machine
end

