-- ==== Sys2Proof/Laws/PerInstr.lean ====
section
/-! SUPPORT. Encoding and decoding agree, constructor by constructor: every field of a format comes back from the bits it
was laid out in, and so does every instruction from its word. -/

namespace Sys2Proof

/-! ### Bits of a word -/

theorem ext_lo {m n : Nat} (a : BitVec m) (b : BitVec n) (k l : Nat) (h : k + l ≤ n) :
    (a ++ b).extractLsb' k l = b.extractLsb' k l := by
  apply BitVec.eq_of_getLsbD_eq
  intro i hi
  rw [BitVec.getLsbD_extractLsb', BitVec.getLsbD_extractLsb', BitVec.getLsbD_append, if_pos (by omega)]
theorem ext_hi {m n : Nat} (a : BitVec m) (b : BitVec n) (k l : Nat) (h : n ≤ k) :
    (a ++ b).extractLsb' k l = a.extractLsb' (k - n) l := by
  apply BitVec.eq_of_getLsbD_eq
  intro i hi
  rw [BitVec.getLsbD_extractLsb', BitVec.getLsbD_extractLsb', BitVec.getLsbD_append, if_neg (by omega),
    show k + i - n = k - n + i by omega]
theorem ext_all {n : Nat} (a : BitVec n) (k : Nat) (h : k = 0) : a.extractLsb' k n = a := by
  subst h
  apply BitVec.eq_of_getLsbD_eq
  intro i hi
  rw [BitVec.getLsbD_extractLsb']; simp [hi]
theorem bit_lo {m n : Nat} (a : BitVec m) (b : BitVec n) (k : Nat) (h : k < n) : (a ++ b).getLsbD k = b.getLsbD k := by
  rw [BitVec.getLsbD_append, if_pos h]
theorem bit_hi {m n : Nat} (a : BitVec m) (b : BitVec n) (k : Nat) (h : n ≤ k) :
    (a ++ b).getLsbD k = a.getLsbD (k - n) := by
  rw [BitVec.getLsbD_append, if_neg (by omega)]

theorem Spec.dec_enc (r : Spec) (h : r.wf = true) : Spec.dec r.enc = some r := by
  cases r with
  | v n => revert n; decide
  | s n => revert n; decide
  | k n => revert n; decide
  | h n => revert n; decide
  | a n => revert n; decide
  | const n => revert n; decide
  | special n => cases n with
    | widf f => revert f; decide
    | _ => rfl

theorem Src.dec_enc (x : Src) (h : x.wf = true) : Src.dec x.enc = some x := by
  cases x with
  | latch n neg abs => revert n neg abs; decide
  | reg r neg abs =>
    have h1 : (Src.reg r neg abs).enc.getLsbD 12 = false := by
      simp only [Src.enc]; repeat rw [bit_hi _ _ _ (by omega)]
      rfl
    have h2 : (Src.reg r neg abs).enc.extractLsb' 0 10 = r.enc := by
      simp only [Src.enc]; rw [ext_lo _ _ _ _ (by omega), ext_all _ _ rfl]
    have h3 : (Src.reg r neg abs).enc.getLsbD 11 = neg := by
      simp only [Src.enc]; rw [bit_hi _ _ _ (by omega), bit_hi _ _ _ (by omega), bit_lo _ _ _ (by omega)]
      cases neg <;> rfl
    have h4 : (Src.reg r neg abs).enc.getLsbD 10 = abs := by
      simp only [Src.enc]; rw [bit_hi _ _ _ (by omega), bit_lo _ _ _ (by omega)]
      cases abs <;> rfl
    unfold Src.dec
    rw [h1, h2, h3, h4, Spec.dec_enc r h]; rfl
theorem Guard.dec_enc (g : Guard) (h : g.wf = true) : Guard.dec g.enc = g := by
  cases g with
  | pred n neg => revert n neg; decide
  | always => rfl
  | never => rfl
theorem Ty.of_code (t : Ty) : Ty.ofCode t.code = some t := by cases t <;> rfl
theorem Rm.of_code (t : Rm) : Rm.ofCode t.code = some t := by cases t <;> rfl


theorem bit_bool (b : Bool) (k : Nat) (h : k = 0) : (BitVec.ofBool b).getLsbD k = b := by subst h; cases b <;> rfl

theorem parseA_bits (o : FmtA) (h : o.wf = true) (x : BitVec 12) :
    Ty.ofCode ((x ++ o.bits : Word96).extractLsb' 21 4) = some o.ty ∧ parseA (x ++ o.bits) o.ty = (o, true) := by
  simp only [FmtA.wf, Bool.and_eq_true] at h
  obtain ⟨⟨⟨⟨h1, h2⟩, h3⟩, h4⟩, h5⟩ := h
  constructor
  · unfold FmtA.bits
    simp (disch := omega) only [ext_lo, ext_hi, ext_all, Ty.of_code]
  · unfold parseA guardAt specAt srcAt FmtA.bits
    simp (disch := omega) only [ext_lo, ext_hi, bit_lo, bit_hi, ext_all, bit_bool]
    simp (disch := omega) only [Spec.dec_enc _ h2, Guard.dec_enc _ h1, Src.dec_enc _ h3,
      Src.dec_enc _ h4, Src.dec_enc _ h5, Rm.of_code]
    simp [orV0, orZero]

theorem parseP_bits (o : FmtP) (h : o.wf = true) (x : BitVec 12) :
    Ty.ofCode ((x ++ o.bits : Word96).extractLsb' 21 4) = some o.ty ∧ parseP (x ++ o.bits) o.ty = (o, true) := by
  simp only [FmtP.wf, Bool.and_eq_true] at h
  obtain ⟨h1, h2⟩ := h
  constructor
  · unfold FmtP.bits
    simp (disch := omega) only [ext_lo, ext_hi, ext_all, Ty.of_code]
  · unfold parseP guardAt specAt FmtP.bits
    simp (disch := omega) only [ext_lo, ext_hi, bit_lo, bit_hi, ext_all, bit_bool]
    simp (disch := omega) only [Spec.dec_enc _ h2, Guard.dec_enc _ h1, Rm.of_code]
    simp [orV0]

theorem parseI_bits (o : FmtI) (h : o.wf = true) (x : BitVec 12) : parseI (x ++ o.bits) = (o, true) := by
  simp only [FmtI.wf, Bool.and_eq_true] at h
  obtain ⟨⟨h1, h2⟩, h3⟩ := h
  unfold parseI guardAt specAt srcAt FmtI.bits
  simp (disch := omega) only [ext_lo, ext_hi, bit_lo, bit_hi, ext_all, bit_bool]
  simp (disch := omega) only [Spec.dec_enc _ h2, Guard.dec_enc _ h1, Src.dec_enc _ h3]
  simp [orV0, orZero]

theorem parseM_bits (o : FmtM) (h : o.wf = true) (x : BitVec 12) : parseM (x ++ o.bits) = (o, true) := by
  simp only [FmtM.wf, Bool.and_eq_true] at h
  obtain ⟨⟨⟨h1, h2⟩, h3⟩, h4⟩ := h
  unfold parseM guardAt specAt srcAt FmtM.bits
  simp (disch := omega) only [ext_lo, ext_hi, ext_all]
  simp (disch := omega) only [Spec.dec_enc _ h2, Guard.dec_enc _ h1, Src.dec_enc _ h3, Src.dec_enc _ h4]
  simp [orV0, orZero]

theorem parseB_bits (o : FmtB) (h : o.wf = true) (x : BitVec 12) : parseB (x ++ o.bits) = (o, true) := by
  simp only [FmtB.wf, Bool.and_eq_true] at h
  obtain ⟨⟨⟨h1, h2⟩, h3⟩, h4⟩ := h
  unfold parseB guardAt specAt srcAt FmtB.bits
  simp (disch := omega) only [ext_lo, ext_hi, ext_all]
  simp (disch := omega) only [Spec.dec_enc _ h2, Guard.dec_enc _ h1, Src.dec_enc _ h3, Src.dec_enc _ h4]
  simp [orV0, orZero]

theorem parseT_bits (o : FmtT) (h : o.wf = true) (x : BitVec 12) : parseT (x ++ o.bits) = (o, true) := by
  simp only [FmtT.wf, Bool.and_eq_true] at h
  obtain ⟨h1, h2⟩ := h
  unfold parseT guardAt specAt FmtT.bits
  simp (disch := omega) only [ext_lo, ext_hi, ext_all]
  simp (disch := omega) only [Spec.dec_enc _ h2, Guard.dec_enc _ h1]
  simp [orV0]

theorem parseE_bits (o : FmtE) (h : o.wf = true) (x : BitVec 12) : parseE (x ++ o.bits) = (o, true) := by
  simp only [FmtE.wf, Bool.and_eq_true] at h
  obtain ⟨⟨⟨⟨h1, h2⟩, h3⟩, h4⟩, h5⟩ := h
  unfold parseE guardAt specAt srcAt FmtE.bits
  simp (disch := omega) only [ext_lo, ext_hi, ext_all]
  simp (disch := omega) only [Spec.dec_enc _ h2, Guard.dec_enc _ h1, Src.dec_enc _ h3, Src.dec_enc _ h4, Src.dec_enc _ h5]
  simp [orV0, orZero]

/-! ### One instruction -/

theorem decode_word {op : BitVec 8} {sub : BitVec 4} {bits : BitVec 84} {m : Maker} {i : Instr}
    (hm : (makers op.toNat)[sub.toNat]? = some m) (hp : m.parse (op ++ sub ++ bits) = some (i, true))
    (ht : i.typeOk = true) (hf : i.fieldOk = true) : decode (op ++ sub ++ bits) = .ok i := by
  have h1 : (op ++ sub ++ bits : Word96).extractLsb' 88 8 = op := by
    simp (disch := omega) only [ext_hi, ext_all]
  have h2 : (op ++ sub ++ bits : Word96).extractLsb' 84 4 = sub := by
    simp (disch := omega) only [ext_lo, ext_hi, ext_all]
  unfold decode
  rw [h1, h2, hm]
  simp only [hp]
  simp [ht, hf]

theorem encodable_wf {i : Instr} (h : i.encodable = true) : i.fields.wf = true ∧ i.typeOk = true ∧ i.fieldOk = true := by
  simp only [Instr.encodable, Instr.wf, Bool.and_eq_true] at h; exact ⟨h.1.1.1, h.1.2, h.2⟩

namespace Laws.Words

/-- The word of an instruction that its entry accepts decodes to that instruction. -/
def Statement (i : Instr) : Prop := i.encodable = true → ∃ w, encode i = some w ∧ decode w = .ok i

theorem ofA {i : Instr} {f : FmtA → Instr} {o : FmtA} {op : BitVec 8} {sub : BitVec 4}
    (h : i.encodable = true) (hi : i.opSub = some (op, sub)) (hf : i.fields = .a o)
    (hm : (makers op.toNat)[sub.toNat]? = some (.a f)) (ho : f o = i) :
    ∃ w, encode i = some w ∧ decode w = .ok i := by
  obtain ⟨hw, ht, hx⟩ := encodable_wf h
  rw [hf] at hw
  obtain ⟨h1, h2⟩ := parseA_bits o hw (op ++ sub)
  refine ⟨op ++ sub ++ o.bits, by simp only [encode, hi, hf]; rfl, decode_word hm ?_ ht hx⟩
  simp only [Maker.parse, h1, Option.map_some, h2, ho]

theorem ofP {i : Instr} {f : FmtP → Instr} {o : FmtP} {op : BitVec 8} {sub : BitVec 4}
    (h : i.encodable = true) (hi : i.opSub = some (op, sub)) (hf : i.fields = .p o)
    (hm : (makers op.toNat)[sub.toNat]? = some (.p f)) (ho : f o = i) :
    ∃ w, encode i = some w ∧ decode w = .ok i := by
  obtain ⟨hw, ht, hx⟩ := encodable_wf h
  rw [hf] at hw
  obtain ⟨h1, h2⟩ := parseP_bits o hw (op ++ sub)
  refine ⟨op ++ sub ++ o.bits, by simp only [encode, hi, hf]; rfl, decode_word hm ?_ ht hx⟩
  simp only [Maker.parse, h1, Option.map_some, h2, ho]

theorem ofI {i : Instr} {f : FmtI → Instr} {o : FmtI} {op : BitVec 8} {sub : BitVec 4}
    (h : i.encodable = true) (hi : i.opSub = some (op, sub)) (hf : i.fields = .i o)
    (hm : (makers op.toNat)[sub.toNat]? = some (.i f)) (ho : f o = i) :
    ∃ w, encode i = some w ∧ decode w = .ok i := by
  obtain ⟨hw, ht, hx⟩ := encodable_wf h
  rw [hf] at hw
  refine ⟨op ++ sub ++ o.bits, by simp only [encode, hi, hf]; rfl, decode_word hm ?_ ht hx⟩
  simp only [Maker.parse, parseI_bits o hw (op ++ sub), ho]

theorem ofM {i : Instr} {f : FmtM → Instr} {o : FmtM} {op : BitVec 8} {sub : BitVec 4}
    (h : i.encodable = true) (hi : i.opSub = some (op, sub)) (hf : i.fields = .m o)
    (hm : (makers op.toNat)[sub.toNat]? = some (.m f)) (ho : f o = i) :
    ∃ w, encode i = some w ∧ decode w = .ok i := by
  obtain ⟨hw, ht, hx⟩ := encodable_wf h
  rw [hf] at hw
  refine ⟨op ++ sub ++ o.bits, by simp only [encode, hi, hf]; rfl, decode_word hm ?_ ht hx⟩
  simp only [Maker.parse, parseM_bits o hw (op ++ sub), ho]

theorem ofB {i : Instr} {f : FmtB → Instr} {o : FmtB} {op : BitVec 8} {sub : BitVec 4}
    (h : i.encodable = true) (hi : i.opSub = some (op, sub)) (hf : i.fields = .b o)
    (hm : (makers op.toNat)[sub.toNat]? = some (.b f)) (ho : f o = i) :
    ∃ w, encode i = some w ∧ decode w = .ok i := by
  obtain ⟨hw, ht, hx⟩ := encodable_wf h
  rw [hf] at hw
  refine ⟨op ++ sub ++ o.bits, by simp only [encode, hi, hf]; rfl, decode_word hm ?_ ht hx⟩
  simp only [Maker.parse, parseB_bits o hw (op ++ sub), ho]

theorem ofT {i : Instr} {f : FmtT → Instr} {o : FmtT} {op : BitVec 8} {sub : BitVec 4}
    (h : i.encodable = true) (hi : i.opSub = some (op, sub)) (hf : i.fields = .t o)
    (hm : (makers op.toNat)[sub.toNat]? = some (.t f)) (ho : f o = i) :
    ∃ w, encode i = some w ∧ decode w = .ok i := by
  obtain ⟨hw, ht, hx⟩ := encodable_wf h
  rw [hf] at hw
  refine ⟨op ++ sub ++ o.bits, by simp only [encode, hi, hf]; rfl, decode_word hm ?_ ht hx⟩
  simp only [Maker.parse, parseT_bits o hw (op ++ sub), ho]

theorem ofE {i : Instr} {f : FmtE → Instr} {o : FmtE} {op : BitVec 8} {sub : BitVec 4}
    (h : i.encodable = true) (hi : i.opSub = some (op, sub)) (hf : i.fields = .e o)
    (hm : (makers op.toNat)[sub.toNat]? = some (.e f)) (ho : f o = i) :
    ∃ w, encode i = some w ∧ decode w = .ok i := by
  obtain ⟨hw, ht, hx⟩ := encodable_wf h
  rw [hf] at hw
  refine ⟨op ++ sub ++ o.bits, by simp only [encode, hi, hf]; rfl, decode_word hm ?_ ht hx⟩
  simp only [Maker.parse, parseE_bits o hw (op ++ sub), ho]

/-! ### Every constructor -/

/-- What an entry of format A asks beside its operands holds of an encodable instruction. -/
theorem extra_of {i : Instr} {o : FmtA} {e : EntA} (hs : i.shape = some (shapeA o e)) (h : i.encodable = true) :
    e.extra = true := by
  have h' := (encodable_wf h).2.2
  simp only [Instr.fieldOk, hs, Option.map_some, Option.getD_some, shapeA, Bool.and_eq_true] at h'
  exact h'.2

theorem nop (o : FmtA) : Statement (.nop o) := fun h => ofA h rfl rfl rfl rfl
theorem mov (o : FmtA) : Statement (.mov o) := fun h => ofA h rfl rfl rfl rfl
theorem movi (o : FmtI) : Statement (.movi o) := fun h => ofI h rfl rfl rfl rfl
theorem moviSx (o : FmtI) : Statement (.moviSx o) := fun h => ofI h rfl rfl rfl rfl
theorem moviZx (o : FmtI) : Statement (.moviZx o) := fun h => ofI h rfl rfl rfl rfl
theorem moviHi (o : FmtI) : Statement (.moviHi o) := fun h => ofI h rfl rfl rfl rfl
theorem iadd (o : FmtA) : Statement (.iadd o) := fun h => ofA h rfl rfl rfl rfl
theorem isub (o : FmtA) : Statement (.isub o) := fun h => ofA h rfl rfl rfl rfl
theorem imul (o : FmtA) : Statement (.imul o) := fun h => ofA h rfl rfl rfl rfl
theorem imulh (o : FmtA) : Statement (.imulh o) := fun h => ofA h rfl rfl rfl rfl
theorem imad (o : FmtA) : Statement (.imad o) := fun h => ofA h rfl rfl rfl rfl
theorem imin (o : FmtA) : Statement (.imin o) := fun h => ofA h rfl rfl rfl rfl
theorem imax (o : FmtA) : Statement (.imax o) := fun h => ofA h rfl rfl rfl rfl
theorem iabsd (o : FmtA) : Statement (.iabsd o) := fun h => ofA h rfl rfl rfl rfl
theorem and (o : FmtA) : Statement (.and o) := fun h => ofA h rfl rfl rfl rfl
theorem or (o : FmtA) : Statement (.or o) := fun h => ofA h rfl rfl rfl rfl
theorem xor (o : FmtA) : Statement (.xor o) := fun h => ofA h rfl rfl rfl rfl
theorem andn (o : FmtA) : Statement (.andn o) := fun h => ofA h rfl rfl rfl rfl
theorem lut3 (o : FmtA) : Statement (.lut3 o) := fun h => ofA h rfl rfl rfl rfl
theorem shl (o : FmtA) : Statement (.shl o) := fun h => ofA h rfl rfl rfl rfl
theorem shr (o : FmtA) : Statement (.shr o) := fun h => ofA h rfl rfl rfl rfl
theorem sar (o : FmtA) : Statement (.sar o) := fun h => ofA h rfl rfl rfl rfl
theorem rot (o : FmtA) : Statement (.rot o) := fun h => ofA h rfl rfl rfl rfl
theorem bfx (sx : Bool) (o : FmtA) : Statement (.bfx sx o) := fun h => by cases sx <;> exact ofA h rfl rfl rfl rfl
theorem bfi (o : FmtA) : Statement (.bfi o) := fun h => ofA h rfl rfl rfl rfl
theorem popc (o : FmtA) : Statement (.popc o) := fun h => ofA h rfl rfl rfl rfl
theorem clz (o : FmtA) : Statement (.clz o) := fun h => ofA h rfl rfl rfl rfl
theorem brev (o : FmtA) : Statement (.brev o) := fun h => ofA h rfl rfl rfl rfl
theorem icmp (o : FmtA) : Statement (.icmp o) := fun h => ofA h rfl rfl rfl rfl
theorem sel (o : FmtA) : Statement (.sel o) := fun h => ofA h rfl rfl rfl rfl
theorem lea (m : LeaMode) (o : FmtA) : Statement (.lea m o) := fun h => by cases m <;> exact ofA h rfl rfl rfl rfl
theorem xtnd (sx : Bool) (o : FmtA) : Statement (.xtnd sx o) := fun h => by cases sx <;> exact ofA h rfl rfl rfl rfl
theorem plop (o : FmtP) : Statement (.plop o) := fun h => ofP h rfl rfl rfl rfl
theorem pmovPack (o : FmtA) : Statement (.pmovPack o) := fun h => ofA h rfl rfl rfl rfl
theorem pmovLoad (o : FmtA) : Statement (.pmovLoad o) := fun h => ofA h rfl rfl rfl rfl
theorem idivQ (o : FmtA) : Statement (.idivQ o) := fun h => ofA h rfl rfl rfl rfl
theorem idivR (o : FmtA) : Statement (.idivR o) := fun h => ofA h rfl rfl rfl rfl
theorem bra (o : FmtB) : Statement (.bra o) := fun h => ofB h rfl rfl rfl rfl
theorem brx (o : FmtB) : Statement (.brx o) := fun h => ofB h rfl rfl rfl rfl
theorem call (o : FmtB) : Statement (.call o) := fun h => ofB h rfl rfl rfl rfl
theorem callIndirect (o : FmtB) : Statement (.callIndirect o) := fun h => ofB h rfl rfl rfl rfl
theorem ret (o : FmtB) : Statement (.ret o) := fun h => ofB h rfl rfl rfl rfl
theorem yield (o : FmtB) : Statement (.yield o) := fun h => ofB h rfl rfl rfl rfl
theorem exit (o : FmtB) : Statement (.exit o) := fun h => ofB h rfl rfl rfl rfl
theorem loops (o : FmtB) : Statement (.loops o) := fun h => ofB h rfl rfl rfl rfl
theorem wsync (o : FmtB) : Statement (.wsync o) := fun h => ofB h rfl rfl rfl rfl
theorem bar (o : FmtB) : Statement (.bar o) := fun h => ofB h rfl rfl rfl rfl
theorem fadd (o : FmtA) : Statement (.fadd o) := fun h => ofA h rfl rfl rfl rfl
theorem fsub (o : FmtA) : Statement (.fsub o) := fun h => ofA h rfl rfl rfl rfl
theorem fmul (o : FmtA) : Statement (.fmul o) := fun h => ofA h rfl rfl rfl rfl
theorem ffma (o : FmtA) : Statement (.ffma o) := fun h => ofA h rfl rfl rfl rfl
theorem fmin (o : FmtA) : Statement (.fmin o) := fun h => ofA h rfl rfl rfl rfl
theorem fmax (o : FmtA) : Statement (.fmax o) := fun h => ofA h rfl rfl rfl rfl
theorem fcmp (o : FmtA) : Statement (.fcmp o) := fun h => ofA h rfl rfl rfl rfl
theorem frcp (o : FmtA) : Statement (.frcp o) := fun h => ofA h rfl rfl rfl rfl
theorem frsq (o : FmtA) : Statement (.frsq o) := fun h => ofA h rfl rfl rfl rfl
theorem fsqrt (o : FmtA) : Statement (.fsqrt o) := fun h => ofA h rfl rfl rfl rfl
theorem fdiv (o : FmtA) : Statement (.fdiv o) := fun h => ofA h rfl rfl rfl rfl
theorem fexp2 (o : FmtA) : Statement (.fexp2 o) := fun h => ofA h rfl rfl rfl rfl
theorem flog2 (o : FmtA) : Statement (.flog2 o) := fun h => ofA h rfl rfl rfl rfl
theorem fsinp (o : FmtA) : Statement (.fsinp o) := fun h => ofA h rfl rfl rfl rfl
theorem fcosp (o : FmtA) : Statement (.fcosp o) := fun h => ofA h rfl rfl rfl rfl
theorem ftanh (o : FmtA) : Statement (.ftanh o) := fun h => ofA h rfl rfl rfl rfl
theorem fcvtF (o : FmtA) : Statement (.fcvtF o) := fun h => ofA h rfl rfl rfl rfl
theorem fcvtI (o : FmtA) : Statement (.fcvtI o) := fun h => ofA h rfl rfl rfl rfl
theorem fcvtRint (o : FmtA) : Statement (.fcvtRint o) := fun h => ofA h rfl rfl rfl rfl
theorem icvt (o : FmtA) : Statement (.icvt o) := fun h => ofA h rfl rfl rfl rfl
theorem fclass (o : FmtA) : Statement (.fclass o) := fun h => ofA h rfl rfl rfl rfl
theorem pfma2 (o : FmtA) : Statement (.pfma2 o) := fun h => ofA h rfl rfl rfl rfl
theorem fdot2 (o : FmtA) : Statement (.fdot2 o) := fun h => ofA h rfl rfl rfl rfl
theorem idot4 (o : FmtA) : Statement (.idot4 o) := fun h => ofA h rfl rfl rfl rfl
theorem bqnt (o : FmtA) : Statement (.bqnt o) := fun h => ofA h rfl rfl rfl rfl
theorem bdeq (o : FmtA) : Statement (.bdeq o) := fun h => ofA h rfl rfl rfl rfl
theorem shflMap (o : FmtA) : Statement (.shflMap o) := fun h => ofA h rfl rfl rfl rfl
theorem shflRot (o : FmtA) : Statement (.shflRot o) := fun h => ofA h rfl rfl rfl rfl
theorem shflGath (o : FmtA) : Statement (.shflGath o) := fun h => ofA h rfl rfl rfl rfl
theorem voteTest (o : FmtA) : Statement (.voteTest o) := fun h => ofA h rfl rfl rfl rfl
theorem voteMask (o : FmtA) : Statement (.voteMask o) := fun h => ofA h rfl rfl rfl rfl
theorem voteSum (o : FmtA) : Statement (.voteSum o) := fun h => ofA h rfl rfl rfl rfl
theorem wredAdd (o : FmtA) : Statement (.wredAdd o) := fun h => ofA h rfl rfl rfl rfl
theorem wredMin (o : FmtA) : Statement (.wredMin o) := fun h => ofA h rfl rfl rfl rfl
theorem wredMax (o : FmtA) : Statement (.wredMax o) := fun h => ofA h rfl rfl rfl rfl
theorem wredAnd (o : FmtA) : Statement (.wredAnd o) := fun h => ofA h rfl rfl rfl rfl
theorem wredOr (o : FmtA) : Statement (.wredOr o) := fun h => ofA h rfl rfl rfl rfl
theorem wredXor (o : FmtA) : Statement (.wredXor o) := fun h => ofA h rfl rfl rfl rfl
theorem wscanAdd (o : FmtA) : Statement (.wscanAdd o) := fun h => ofA h rfl rfl rfl rfl
theorem wscanMin (o : FmtA) : Statement (.wscanMin o) := fun h => ofA h rfl rfl rfl rfl
theorem wscanMax (o : FmtA) : Statement (.wscanMax o) := fun h => ofA h rfl rfl rfl rfl
theorem wscanAnd (o : FmtA) : Statement (.wscanAnd o) := fun h => ofA h rfl rfl rfl rfl
theorem wscanOr (o : FmtA) : Statement (.wscanOr o) := fun h => ofA h rfl rfl rfl rfl
theorem wscanXor (o : FmtA) : Statement (.wscanXor o) := fun h => ofA h rfl rfl rfl rfl
theorem rdlane (o : FmtA) : Statement (.rdlane o) := fun h => ofA h rfl rfl rfl rfl
theorem rdlaneRank (o : FmtA) : Statement (.rdlaneRank o) := fun h => ofA h rfl rfl rfl rfl
theorem wrlane (o : FmtA) : Statement (.wrlane o) := fun h => ofA h rfl rfl rfl rfl
theorem wrlaneRank (o : FmtA) : Statement (.wrlaneRank o) := fun h => ofA h rfl rfl rfl rfl
theorem matchClass (o : FmtA) : Statement (.matchClass o) := fun h => ofA h rfl rfl rfl rfl
theorem matchPeers (o : FmtA) : Statement (.matchPeers o) := fun h => ofA h rfl rfl rfl rfl
theorem elect (o : FmtA) : Statement (.elect o) := fun h => ofA h rfl rfl rfl rfl
theorem kput (o : FmtA) : Statement (.kput o) := fun h => ofA h rfl rfl rfl rfl
theorem kget (o : FmtA) : Statement (.kget o) := fun h => ofA h rfl rfl rfl rfl
theorem kpeek (o : FmtA) : Statement (.kpeek o) := fun h => ofA h rfl rfl rfl rfl
theorem karm (o : FmtA) : Statement (.karm o) := fun h => ofA h rfl rfl rfl rfl
theorem kred (o : FmtA) : Statement (.kred o) := fun h => ofA h rfl rfl rfl rfl
theorem kclr (o : FmtA) : Statement (.kclr o) := fun h => ofA h rfl rfl rfl rfl
theorem kstat (o : FmtA) : Statement (.kstat o) := fun h => ofA h rfl rfl rfl rfl
theorem rdep (o : FmtA) : Statement (.rdep o) := fun h => ofA h rfl rfl rfl rfl
theorem rdepLanding (pack : Nat) : Statement (.rdepLanding pack) := fun h => nomatch (show false = true from (encodable_wf h).2.1)
theorem ld (sx : Bool) (o : FmtM) : Statement (.ld sx o) := fun h => by cases sx <;> exact ofM h rfl rfl rfl rfl
theorem st (o : FmtM) : Statement (.st o) := fun h => ofM h rfl rfl rfl rfl
theorem lds (sx : Bool) (o : FmtM) : Statement (.lds sx o) := fun h => by cases sx <;> exact ofM h rfl rfl rfl rfl
theorem sts (o : FmtM) : Statement (.sts o) := fun h => ofM h rfl rfl rfl rfl
theorem smarkE (o : FmtM) : Statement (.smarkE o) := fun h => ofM h rfl rfl rfl rfl
theorem smarkF (o : FmtM) : Statement (.smarkF o) := fun h => ofM h rfl rfl rfl rfl
theorem atomAdd (o : FmtM) : Statement (.atomAdd o) := fun h => ofM h rfl rfl rfl rfl
theorem atomUmin (o : FmtM) : Statement (.atomUmin o) := fun h => ofM h rfl rfl rfl rfl
theorem atomUmax (o : FmtM) : Statement (.atomUmax o) := fun h => ofM h rfl rfl rfl rfl
theorem atomSmin (o : FmtM) : Statement (.atomSmin o) := fun h => ofM h rfl rfl rfl rfl
theorem atomSmax (o : FmtM) : Statement (.atomSmax o) := fun h => ofM h rfl rfl rfl rfl
theorem atomAnd (o : FmtM) : Statement (.atomAnd o) := fun h => ofM h rfl rfl rfl rfl
theorem atomOr (o : FmtM) : Statement (.atomOr o) := fun h => ofM h rfl rfl rfl rfl
theorem atomXor (o : FmtM) : Statement (.atomXor o) := fun h => ofM h rfl rfl rfl rfl
theorem atomExch (o : FmtM) : Statement (.atomExch o) := fun h => ofM h rfl rfl rfl rfl
theorem atomFadd (o : FmtM) : Statement (.atomFadd o) := fun h => ofM h rfl rfl rfl rfl
theorem acas (o : FmtM) : Statement (.acas o) := fun h => ofM h rfl rfl rfl rfl
theorem fence (o : FmtM) : Statement (.fence o) := fun h => ofM h rfl rfl rfl rfl
theorem cmaintWbL1 (o : FmtM) : Statement (.cmaintWbL1 o) := fun h => ofM h rfl rfl rfl rfl
theorem cmaintWbiL1 (o : FmtM) : Statement (.cmaintWbiL1 o) := fun h => ofM h rfl rfl rfl rfl
theorem cmaintWbMem (o : FmtM) : Statement (.cmaintWbMem o) := fun h => ofM h rfl rfl rfl rfl
theorem prefL1 (o : FmtM) : Statement (.prefL1 o) := fun h => ofM h rfl rfl rfl rfl
theorem prefL2 (o : FmtM) : Statement (.prefL2 o) := fun h => ofM h rfl rfl rfl rfl
theorem icinv (o : FmtM) : Statement (.icinv o) := fun h => ofM h rfl rfl rfl rfl
theorem ifence (o : FmtM) : Statement (.ifence o) := fun h => ofM h rfl rfl rfl rfl
theorem bankcfgCache (o : FmtA) : Statement (.bankcfgCache o) := fun h => by
  have hx : o.ext = 0#18 := by simpa using extra_of rfl h
  exact ofA (f := bankcfg) h rfl rfl rfl (by unfold bankcfg; rw [hx]; rfl)
theorem bankcfgSpad (o : FmtA) : Statement (.bankcfgSpad o) := fun h => by
  have hx : o.ext = 0x10000#18 := by simpa using extra_of rfl h
  exact ofA (f := bankcfg) h rfl rfl rfl (by unfold bankcfg; rw [hx]; rfl)
theorem bankcfgFifo (o : FmtA) : Statement (.bankcfgFifo o) := fun h => by
  have hx : o.ext = 0x20000#18 := by simpa using extra_of rfl h
  exact ofA (f := bankcfg) h rfl rfl rfl (by unfold bankcfg; rw [hx]; rfl)
theorem bankSwitchDone (cluster bank : Nat) : Statement (.bankSwitchDone cluster bank) := fun h => nomatch (show false = true from (encodable_wf h).2.1)
theorem lcopy (t : BitVec 3) (o : FmtM) : Statement (.lcopy t o) := by
  have key : (makers 0x9D)[(BitVec.setWidth 4 t).toNat]? = some (.m (.lcopy t)) := by
    revert t; intro t
    have : t = 0 ∨ t = 1 ∨ t = 2 ∨ t = 3 ∨ t = 4 ∨ t = 5 ∨ t = 6 ∨ t = 7 := by revert t; decide
    rcases this with rfl | rfl | rfl | rfl | rfl | rfl | rfl | rfl <;> rfl
  exact fun h => ofM h rfl rfl key rfl
theorem lcopyLanding (pack idx : Nat) : Statement (.lcopyLanding pack idx) := fun h => nomatch (show false = true from (encodable_wf h).2.1)
theorem scopy (o : FmtE) : Statement (.scopy o) := fun h => ofE h rfl rfl rfl rfl
theorem scpmxCopy (o : FmtE) : Statement (.scpmxCopy o) := fun h => ofE h rfl rfl rfl rfl
theorem scpmxArm (o : FmtE) : Statement (.scpmxArm o) := fun h => ofE h rfl rfl rfl rfl
theorem sgath (o : FmtE) : Statement (.sgath o) := fun h => ofE h rfl rfl rfl rfl
theorem sscat (o : FmtE) : Statement (.sscat o) := fun h => ofE h rfl rfl rfl rfl
theorem scancel (o : FmtE) : Statement (.scancel o) := fun h => ofE h rfl rfl rfl rfl
theorem sprobe (o : FmtE) : Statement (.sprobe o) := fun h => ofE h rfl rfl rfl rfl
theorem streamerLanding (cluster entry piece : Nat) : Statement (.streamerLanding cluster entry piece) := fun h => nomatch (show false = true from (encodable_wf h).2.1)
theorem streamerCopyCompletion (cluster entry : Nat) : Statement (.streamerCopyCompletion cluster entry) := fun h => nomatch (show false = true from (encodable_wf h).2.1)
theorem followOnMplaneEntry (cluster slot : Nat) : Statement (.followOnMplaneEntry cluster slot) := fun h => nomatch (show false = true from (encodable_wf h).2.1)
theorem mplane (o : FmtE) : Statement (.mplane o) := fun h => ofE h rfl rfl rfl rfl
theorem mplaneBc (o : FmtE) : Statement (.mplaneBc o) := fun h => ofE h rfl rfl rfl rfl
theorem mscale (o : FmtE) : Statement (.mscale o) := fun h => ofE h rfl rfl rfl rfl
theorem mepil (o : FmtE) : Statement (.mepil o) := fun h => ofE h rfl rfl rfl rfl
theorem mzero (o : FmtE) : Statement (.mzero o) := fun h => ofE h rfl rfl rfl rfl
theorem mplaneStep (cluster core : Nat) : Statement (.mplaneStep cluster core) := fun h => nomatch (show false = true from (encodable_wf h).2.1)
theorem mscaleStep (cluster core : Nat) : Statement (.mscaleStep cluster core) := fun h => nomatch (show false = true from (encodable_wf h).2.1)
theorem mepilStep (cluster core : Nat) : Statement (.mepilStep cluster core) := fun h => nomatch (show false = true from (encodable_wf h).2.1)
theorem mzeroStep (cluster core : Nat) : Statement (.mzeroStep cluster core) := fun h => nomatch (show false = true from (encodable_wf h).2.1)
theorem engineCommandCompletion (cluster core : Nat) : Statement (.engineCommandCompletion cluster core) := fun h => nomatch (show false = true from (encodable_wf h).2.1)
theorem btake (o : FmtE) : Statement (.btake o) := fun h => ofE h rfl rfl rfl rfl
theorem bpass (o : FmtE) : Statement (.bpass o) := fun h => ofE h rfl rfl rfl rfl
theorem btakeService (pack who : Nat) : Statement (.btakeService pack who) := fun h => nomatch (show false = true from (encodable_wf h).2.1)
theorem launch (o : FmtE) : Statement (.launch o) := fun h => ofE h rfl rfl rfl rfl
theorem taskq (o : FmtE) : Statement (.taskq o) := fun h => ofE h rfl rfl rfl rfl
theorem taskd (o : FmtE) : Statement (.taskd o) := fun h => ofE h rfl rfl rfl rfl
theorem tdone (o : FmtE) : Statement (.tdone o) := fun h => ofE h rfl rfl rfl rfl
theorem spillMove (die : Nat) : Statement (.spillMove die) := fun h => nomatch (show false = true from (encodable_wf h).2.1)
theorem fenq (o : FmtA) : Statement (.fenq o) := fun h => ofA h rfl rfl rfl rfl
theorem fdeq (o : FmtA) : Statement (.fdeq o) := fun h => ofA h rfl rfl rfl rfl
theorem bqpostJoin (o : FmtE) : Statement (.bqpostJoin o) := fun h => ofE h rfl rfl rfl rfl
theorem bqpostRow (o : FmtE) : Statement (.bqpostRow o) := fun h => ofE h rfl rfl rfl rfl
theorem bqpostStep (o : FmtE) : Statement (.bqpostStep o) := fun h => ofE h rfl rfl rfl rfl
theorem bqpostLeave (o : FmtE) : Statement (.bqpostLeave o) := fun h => ofE h rfl rfl rfl rfl
theorem bqget (o : FmtE) : Statement (.bqget o) := fun h => ofE h rfl rfl rfl rfl
theorem bqdone (o : FmtE) : Statement (.bqdone o) := fun h => ofE h rfl rfl rfl rfl
theorem kelpieStatusWrite (die : Nat) : Statement (.kelpieStatusWrite die) := fun h => nomatch (show false = true from (encodable_wf h).2.1)
theorem svc (o : FmtE) : Statement (.svc o) := fun h => ofE h rfl rfl rfl rfl
theorem svcCompletion (cluster : Nat) : Statement (.svcCompletion cluster) := fun h => nomatch (show false = true from (encodable_wf h).2.1)
theorem gopen (o : FmtA) : Statement (.gopen o) := fun h => ofA h rfl rfl rfl rfl
theorem gjoin (o : FmtA) : Statement (.gjoin o) := fun h => ofA h rfl rfl rfl rfl
theorem gleave (o : FmtA) : Statement (.gleave o) := fun h => ofA h rfl rfl rfl rfl
theorem gbar (o : FmtA) : Statement (.gbar o) := fun h => ofA h rfl rfl rfl rfl
theorem gvoteAny (o : FmtA) : Statement (.gvoteAny o) := fun h => ofA h rfl rfl rfl rfl
theorem gvoteAll (o : FmtA) : Statement (.gvoteAll o) := fun h => ofA h rfl rfl rfl rfl
theorem gvoteCount (o : FmtA) : Statement (.gvoteCount o) := fun h => ofA h rfl rfl rfl rfl
theorem gredAdd (o : FmtA) : Statement (.gredAdd o) := fun h => ofA h rfl rfl rfl rfl
theorem gredMin (o : FmtA) : Statement (.gredMin o) := fun h => ofA h rfl rfl rfl rfl
theorem gredMax (o : FmtA) : Statement (.gredMax o) := fun h => ofA h rfl rfl rfl rfl
theorem gredAnd (o : FmtA) : Statement (.gredAnd o) := fun h => ofA h rfl rfl rfl rfl
theorem gredOr (o : FmtA) : Statement (.gredOr o) := fun h => ofA h rfl rfl rfl rfl
theorem gredXor (o : FmtA) : Statement (.gredXor o) := fun h => ofA h rfl rfl rfl rfl
theorem gstat (o : FmtA) : Statement (.gstat o) := fun h => ofA h rfl rfl rfl rfl
theorem gclose (o : FmtA) : Statement (.gclose o) := fun h => ofA h rfl rfl rfl rfl
theorem waitc (cmp : WaitCmp) (o : FmtM) : Statement (.waitc cmp o) := fun h => by cases cmp <;> exact ofM h rfl rfl rfl rfl
theorem warpEviction (pack who : Nat) : Statement (.warpEviction pack who) := fun h => nomatch (show false = true from (encodable_wf h).2.1)
theorem waitx (o : FmtA) : Statement (.waitx o) := fun h => ofA h rfl rfl rfl rfl
theorem xlate (o : FmtM) : Statement (.xlate o) := fun h => ofM h rfl rfl rfl rfl
theorem sqopen (o : FmtA) : Statement (.sqopen o) := fun h => ofA h rfl rfl rfl rfl
theorem sqapp (o : FmtA) : Statement (.sqapp o) := fun h => ofA h rfl rfl rfl rfl
theorem rebuildComplete (slot : Nat) : Statement (.rebuildComplete slot) := fun h => nomatch (show false = true from (encodable_wf h).2.1)
theorem sqmatch (o : FmtA) : Statement (.sqmatch o) := fun h => ofA h rfl rfl rfl rfl
theorem sqmatchLen (o : FmtA) : Statement (.sqmatchLen o) := fun h => ofA h rfl rfl rfl rfl
theorem sqsave (o : FmtA) : Statement (.sqsave o) := fun h => ofA h rfl rfl rfl rfl
theorem sqload (o : FmtA) : Statement (.sqload o) := fun h => ofA h rfl rfl rfl rfl
theorem sqclose (o : FmtA) : Statement (.sqclose o) := fun h => ofA h rfl rfl rfl rfl
theorem heapClr (o : FmtA) : Statement (.heapClr o) := fun h => ofA h rfl rfl rfl rfl
theorem heapPush (o : FmtA) : Statement (.heapPush o) := fun h => ofA h rfl rfl rfl rfl
theorem heapMerge (o : FmtA) : Statement (.heapMerge o) := fun h => ofA h rfl rfl rfl rfl
theorem heapRead (o : FmtA) : Statement (.heapRead o) := fun h => ofA h rfl rfl rfl rfl
theorem heapDraw (o : FmtA) : Statement (.heapDraw o) := fun h => ofA h rfl rfl rfl rfl
theorem draw (o : FmtA) : Statement (.draw o) := fun h => ofA h rfl rfl rfl rfl
theorem lcwait (o : FmtA) : Statement (.lcwait o) := fun h => ofA h rfl rfl rfl rfl
theorem lcwaitOldest (o : FmtA) : Statement (.lcwaitOldest o) := fun h => ofA h rfl rfl rfl rfl
theorem aset (o : FmtA) : Statement (.aset o) := fun h => ofA h rfl rfl rfl rfl
theorem awaitGe (o : FmtA) : Statement (.awaitGe o) := fun h => ofA h rfl rfl rfl rfl
theorem awaitEq (o : FmtA) : Statement (.awaitEq o) := fun h => ofA h rfl rfl rfl rfl
theorem xexp (o : FmtM) : Statement (.xexp o) := fun h => ofM h rfl rfl rfl rfl
theorem xwait (o : FmtM) : Statement (.xwait o) := fun h => ofM h rfl rfl rfl rfl
theorem pcnt (o : FmtA) : Statement (.pcnt o) := fun h => ofA h rfl rfl rfl rfl
theorem trap (o : FmtT) : Statement (.trap o) := fun h => ofT h rfl rfl rfl rfl
theorem rte (o : FmtB) : Statement (.rte o) := fun h => ofB h rfl rfl rfl rfl
theorem rteNext (o : FmtB) : Statement (.rteNext o) := fun h => ofB h rfl rfl rfl rfl
theorem mfs (o : FmtA) : Statement (.mfs o) := fun h => ofA h rfl rfl rfl rfl
theorem mts (o : FmtA) : Statement (.mts o) := fun h => ofA h rfl rfl rfl rfl
theorem migrate (o : FmtM) : Statement (.migrate o) := fun h => ofM h rfl rfl rfl rfl
theorem migrateLanding (die : Nat) : Statement (.migrateLanding die) := fun h => nomatch (show false = true from (encodable_wf h).2.1)
theorem tlbinvPage (o : FmtM) : Statement (.tlbinvPage o) := fun h => ofM h rfl rfl rfl rfl
theorem tlbinvCtx (o : FmtM) : Statement (.tlbinvCtx o) := fun h => ofM h rfl rfl rfl rfl
theorem tlbinvAll (o : FmtM) : Statement (.tlbinvAll o) := fun h => ofM h rfl rfl rfl rfl
theorem snap (o : FmtA) : Statement (.snap o) := fun h => ofA h rfl rfl rfl rfl
theorem skipCountForce (pack who : Nat) : Statement (.skipCountForce pack who) := fun h => nomatch (show false = true from (encodable_wf h).2.1)
theorem yieldCountdownExpiry (pack who lane : Nat) : Statement (.yieldCountdownExpiry pack who lane) := fun h => nomatch (show false = true from (encodable_wf h).2.1)
theorem port1Reissue (pack who : Nat) : Statement (.port1Reissue pack who) := fun h => nomatch (show false = true from (encodable_wf h).2.1)
theorem killRecordWrite (die : Nat) : Statement (.killRecordWrite die) := fun h => nomatch (show false = true from (encodable_wf h).2.1)
theorem faultQueueEntryWrite (die : Nat) : Statement (.faultQueueEntryWrite die) := fun h => nomatch (show false = true from (encodable_wf h).2.1)
theorem dispatcherLaunchService (ctx : Nat) : Statement (.dispatcherLaunchService ctx) := fun h => nomatch (show false = true from (encodable_wf h).2.1)
theorem layoutSet (ctx : Nat) : Statement (.layoutSet ctx) := fun h => nomatch (show false = true from (encodable_wf h).2.1)
theorem layoutInval (ctx : Nat) : Statement (.layoutInval ctx) := fun h => nomatch (show false = true from (encodable_wf h).2.1)
theorem packPlacement (pack cluster : Nat) : Statement (.packPlacement pack cluster) := fun h => nomatch (show false = true from (encodable_wf h).2.1)
theorem packResume (pack cluster : Nat) : Statement (.packResume pack cluster) := fun h => nomatch (show false = true from (encodable_wf h).2.1)
theorem priorityPreemption (pack : Nat) : Statement (.priorityPreemption pack) := fun h => nomatch (show false = true from (encodable_wf h).2.1)
theorem packDrainComplete (pack : Nat) : Statement (.packDrainComplete pack) := fun h => nomatch (show false = true from (encodable_wf h).2.1)
theorem launchCompletionWrite (launch : Nat) : Statement (.launchCompletionWrite launch) := fun h => nomatch (show false = true from (encodable_wf h).2.1)
theorem drainComplete (die : Nat) : Statement (.drainComplete die) := fun h => nomatch (show false = true from (encodable_wf h).2.1)
theorem arithmeticClockCycle (cluster : Nat) : Statement (.arithmeticClockCycle cluster) := fun h => nomatch (show false = true from (encodable_wf h).2.1)
theorem sliceExpiry (cluster : Nat) : Statement (.sliceExpiry cluster) := fun h => nomatch (show false = true from (encodable_wf h).2.1)
theorem blkrd (cluster : Nat) (reply : ExtReply) : Statement (.blkrd cluster reply) := fun h => nomatch (show false = true from (encodable_wf h).2.1)
theorem blkwr (cluster : Nat) (reply : ExtReply) : Statement (.blkwr cluster reply) := fun h => nomatch (show false = true from (encodable_wf h).2.1)
theorem fopen (cluster : Nat) (reply : ExtReply) : Statement (.fopen cluster reply) := fun h => nomatch (show false = true from (encodable_wf h).2.1)
theorem fread (cluster : Nat) (reply : ExtReply) : Statement (.fread cluster reply) := fun h => nomatch (show false = true from (encodable_wf h).2.1)
theorem fclose (cluster : Nat) (reply : ExtReply) : Statement (.fclose cluster reply) := fun h => nomatch (show false = true from (encodable_wf h).2.1)
theorem nconn (cluster : Nat) (reply : ExtReply) : Statement (.nconn cluster reply) := fun h => nomatch (show false = true from (encodable_wf h).2.1)
theorem nread (cluster : Nat) (reply : ExtReply) : Statement (.nread cluster reply) := fun h => nomatch (show false = true from (encodable_wf h).2.1)
theorem nwrite (cluster : Nat) (reply : ExtReply) : Statement (.nwrite cluster reply) := fun h => nomatch (show false = true from (encodable_wf h).2.1)
theorem nclose (cluster : Nat) (reply : ExtReply) : Statement (.nclose cluster reply) := fun h => nomatch (show false = true from (encodable_wf h).2.1)
theorem notify (cluster : Nat) (reply : ExtReply) : Statement (.notify cluster reply) := fun h => nomatch (show false = true from (encodable_wf h).2.1)
theorem faultService (die : Nat) (entry : Option (BitVec 64)) : Statement (.faultService die entry) := fun h => nomatch (show false = true from (encodable_wf h).2.1)
theorem ownershipFlip (ctx : Nat) (va : Nat) (entry : BitVec 64) : Statement (.ownershipFlip ctx va entry) := fun h => nomatch (show false = true from (encodable_wf h).2.1)
theorem hostSnoop (pa : Nat) : Statement (.hostSnoop pa) := fun h => nomatch (show false = true from (encodable_wf h).2.1)
theorem hostMemoryAccess (acc : OuterAccess) : Statement (.hostMemoryAccess acc) := fun h => nomatch (show false = true from (encodable_wf h).2.1)
theorem hostSubmissionPost (ctx : Nat) (value : BitVec 64) : Statement (.hostSubmissionPost ctx value) := fun h => nomatch (show false = true from (encodable_wf h).2.1)
theorem layoutRingPost (ctx : Nat) (value : BitVec 64) : Statement (.layoutRingPost ctx value) := fun h => nomatch (show false = true from (encodable_wf h).2.1)
theorem hostControlWordWrite (ctx offset : Nat) (value : BitVec 64) : Statement (.hostControlWordWrite ctx offset value) := fun h => nomatch (show false = true from (encodable_wf h).2.1)
theorem virtualFunctionReset (ctx : Nat) : Statement (.virtualFunctionReset ctx) := fun h => nomatch (show false = true from (encodable_wf h).2.1)
theorem setSliceLength (die log2 : Nat) : Statement (.setSliceLength die log2) := fun h => nomatch (show false = true from (encodable_wf h).2.1)
theorem setBatchThreshold (die t : Nat) : Statement (.setBatchThreshold die t) := fun h => nomatch (show false = true from (encodable_wf h).2.1)
theorem setShareGroup (ctx group : Nat) : Statement (.setShareGroup ctx group) := fun h => nomatch (show false = true from (encodable_wf h).2.1)
theorem orderlyOfflineRequest (die : Nat) : Statement (.orderlyOfflineRequest die) := fun h => nomatch (show false = true from (encodable_wf h).2.1)
theorem evacuationFailed (die : Nat) : Statement (.evacuationFailed die) := fun h => nomatch (show false = true from (encodable_wf h).2.1)
theorem offlineRequestCancel (die : Nat) : Statement (.offlineRequestCancel die) := fun h => nomatch (show false = true from (encodable_wf h).2.1)
theorem forcedOffline (die : Nat) : Statement (.forcedOffline die) := fun h => nomatch (show false = true from (encodable_wf h).2.1)
theorem dieReadmission (die : Nat) : Statement (.dieReadmission die) := fun h => nomatch (show false = true from (encodable_wf h).2.1)
theorem dieReset (die : Nat) : Statement (.dieReset die) := fun h => nomatch (show false = true from (encodable_wf h).2.1)
theorem packageReset (outcome : BringUp) : Statement (.packageReset outcome) := fun h => nomatch (show false = true from (encodable_wf h).2.1)
theorem borrowRequest (borrower lender units : Nat) : Statement (.borrowRequest borrower lender units) := fun h => nomatch (show false = true from (encodable_wf h).2.1)
theorem loanRecall (lender borrower units : Nat) : Statement (.loanRecall lender borrower units) := fun h => nomatch (show false = true from (encodable_wf h).2.1)
theorem loanRepayment (lender borrower units : Nat) : Statement (.loanRepayment lender borrower units) := fun h => nomatch (show false = true from (encodable_wf h).2.1)
theorem powerGuardTrip (cluster : Nat) : Statement (.powerGuardTrip cluster) := fun h => nomatch (show false = true from (encodable_wf h).2.1)
theorem peerAccess (link : Nat) (flit : PeerFlit) : Statement (.peerAccess link flit) := fun h => nomatch (show false = true from (encodable_wf h).2.1)
theorem peerLinkDown (link : Nat) : Statement (.peerLinkDown link) := fun h => nomatch (show false = true from (encodable_wf h).2.1)
theorem linkRetrain (link : Nat) : Statement (.linkRetrain link) := fun h => nomatch (show false = true from (encodable_wf h).2.1)
theorem attestationRequest (nonce : BitVec 256) : Statement (.attestationRequest nonce) := fun h => nomatch (show false = true from (encodable_wf h).2.1)
theorem debugPortTrigger : Statement (.debugPortTrigger) := fun h => nomatch (show false = true from (encodable_wf h).2.1)
theorem snapshotReadout : Statement (.snapshotReadout) := fun h => nomatch (show false = true from (encodable_wf h).2.1)
theorem softErrorCounterClear (cluster number : Nat) : Statement (.softErrorCounterClear cluster number) := fun h => nomatch (show false = true from (encodable_wf h).2.1)
theorem virtualFunctionEnable (ctx area root : Nat) : Statement (.virtualFunctionEnable ctx area root) := fun h => nomatch (show false = true from (encodable_wf h).2.1)
theorem pageTableUpdate (pa : Nat) (entry : BitVec 64) : Statement (.pageTableUpdate pa entry) := fun h => nomatch (show false = true from (encodable_wf h).2.1)
theorem windowDefinition (window : Nat) (binding : Option Window) : Statement (.windowDefinition window binding) := fun h => nomatch (show false = true from (encodable_wf h).2.1)
theorem pageEvacuation (pa log newPa : Nat) : Statement (.pageEvacuation pa log newPa) := fun h => nomatch (show false = true from (encodable_wf h).2.1)
theorem snapshotEnable (ctx : Nat) (on : Bool) : Statement (.snapshotEnable ctx on) := fun h => nomatch (show false = true from (encodable_wf h).2.1)

end Laws.Words
end Sys2Proof
end

