-- ==== Sys2Proof/Laws/Values.lean ====
section
/-! SUPPORT. Elements of packed values: a value put together from elements gives each of them back, and wrapping keeps an
integer modulo its range. -/

namespace Sys2Proof.Machine
theorem digit (B n a x : Nat) (_ : 0 < B) (ha : a < B ^ n) (f : Nat) : (a + f * B ^ n + x * B ^ (n + 1)) / B ^ n % B = f % B := by
  have hp : 0 < B ^ n := Nat.pow_pos ‹_›
  have e : a + f * B ^ n + x * B ^ (n + 1) = a + (f + x * B) * B ^ n := by
    rw [Nat.pow_succ, Nat.add_mul, Nat.mul_assoc, Nat.mul_comm B, Nat.add_assoc]
  rw [e, Nat.add_mul_div_right _ _ hp, Nat.div_eq_of_lt ha, Nat.zero_add, Nat.add_mul_mod_self_right]

/-- Numbers put together from digits. -/
def digits (B : Nat) (g : Nat → Nat) (m : Nat) : Nat := (List.range m).foldl (fun x e => x + g e * B ^ e) 0
theorem digits_succ (B : Nat) (g : Nat → Nat) (m : Nat) : digits B g (m + 1) = digits B g m + g m * B ^ m := by
  unfold digits; rw [List.range_succ, List.foldl_append]; rfl
theorem digits_lt (B : Nat) (g : Nat → Nat) (hg : ∀ e, g e < B) (m : Nat) : digits B g m < B ^ m := by
  induction m with
  | zero => simp [digits]
  | succ m ih =>
    rw [digits_succ, Nat.pow_succ]
    have := Nat.mul_le_mul_right (B ^ m) (Nat.succ_le_of_lt (hg m))
    rw [Nat.succ_mul, Nat.mul_comm B] at this
    omega
theorem digits_split (B : Nat) (g : Nat → Nat) (n d : Nat) :
    ∃ x, digits B g (n + d) = digits B g n + x * B ^ n := by
  induction d with
  | zero => exact ⟨0, by simp⟩
  | succ d ih =>
    obtain ⟨x, hx⟩ := ih
    refine ⟨x + g (n + d) * B ^ d, ?_⟩
    rw [← Nat.add_assoc, digits_succ, hx, Nat.add_mul, Nat.mul_assoc, ← Nat.pow_add, Nat.add_comm d n, Nat.add_assoc]
theorem digits_get (B : Nat) (g : Nat → Nat) (hB : 0 < B) (hg : ∀ e, g e < B) (n m : Nat) (h : n < m) :
    digits B g m / B ^ n % B = g n := by
  obtain ⟨d, rfl⟩ : ∃ d, m = (n + 1) + d := ⟨m - (n + 1), by omega⟩
  obtain ⟨x, hx⟩ := digits_split B g (n + 1) d
  rw [hx, digits_succ, digit B n _ x hB (digits_lt B g hg n), Nat.mod_eq_of_lt (hg n)]
theorem elemOf_ofElems (t : Ty) (f : Nat → Nat) (n : Nat) (h : n < t.count) :
    elemOf t (ofElems t f) n = f n % 2 ^ t.elem := by
  have := digits_get (2 ^ t.elem) (fun e => f e % 2 ^ t.elem) (Nat.two_pow_pos _)
    (fun e => Nat.mod_lt _ (Nat.two_pow_pos _)) n t.count h
  unfold elemOf ofElems
  simp only [digits, ← Nat.pow_mul] at this
  exact this

theorem unsignedOf_lt (w : Nat) (x : Int) : unsignedOf w x < 2 ^ w := by
  unfold unsignedOf
  have h : (0:Int) < (2 ^ w : Nat) := by exact_mod_cast Nat.two_pow_pos w
  have := Int.emod_lt_of_pos x h
  have := Int.emod_nonneg x (Int.ne_of_gt h)
  omega

theorem elem_pos (t : Ty) : 0 < t.elem := by cases t <;> decide

theorem intElem_wrap (t : Ty) (f : Nat → Nat) (x : Int) (n : Nat) (h : n < t.count) (hf : f n = unsignedOf t.elem x) :
    ∃ m : Int, intElem t (ofElems t f) n = x + m * (2 ^ t.elem : Nat) ∧ t.lo ≤ intElem t (ofElems t f) n ∧
      intElem t (ofElems t f) n ≤ t.hi := by
  unfold intElem
  rw [elemOf_ofElems t f n h, hf, Nat.mod_eq_of_lt (unsignedOf_lt _ _)]
  have h0 : (0:Int) < (2 ^ t.elem : Nat) := by exact_mod_cast Nat.two_pow_pos t.elem
  have hd := Int.mul_ediv_add_emod x (2 ^ t.elem : Nat)
  have h1 := Int.emod_nonneg x (Int.ne_of_gt h0)
  have h2 := Int.emod_lt_of_pos x h0
  have hu : (unsignedOf t.elem x : Int) = x % (2 ^ t.elem : Nat) := by unfold unsignedOf; omega
  have hw : 2 ^ t.elem = 2 * 2 ^ (t.elem - 1) := by
    have := elem_pos t
    rw [← Nat.pow_succ', show (t.elem - 1).succ = t.elem by omega]
  by_cases hs : t.isSigned = true
  · rw [if_pos hs]
    unfold signedOf Ty.lo Ty.hi
    rw [if_pos hs, if_pos hs, Nat.mod_eq_of_lt (unsignedOf_lt _ _)]
    split
    · exact ⟨-(x / (2 ^ t.elem : Nat)), by rw [hu, Int.neg_mul, Int.mul_comm (x / _)]; omega, by omega, by omega⟩
    · refine ⟨-(x / (2 ^ t.elem : Nat)) - 1, ?_, by omega, by omega⟩
      rw [hu, Int.sub_mul, Int.neg_mul, Int.mul_comm (x / _)]; omega
  · rw [if_neg hs]
    unfold Ty.lo Ty.hi
    rw [if_neg hs, if_neg hs]
    exact ⟨-(x / (2 ^ t.elem : Nat)), by rw [hu, Int.neg_mul, Int.mul_comm (x / _)]; omega, by omega, by omega⟩

end Sys2Proof.Machine
end

