-- ==== Sys2Proof/Machine/Ordering.lean ====
section
/-! DEFINITION. The ordering model (spec/06, R180; spec/08, R225 to R242; spec/13, R373), as a test of finite executions: which reads-from relations, orders
of writes and total orders of `.SC` operations the manual allows. The machine performs its accesses one at a time in the order of its
steps, so that each of its runs is one of them (log 1); what is said here of weaker executions is used by no step. -/

namespace Sys2Proof.Machine.Ordering

/-! ### Parties, operations and scopes (R225 to R228) -/

/-- R225: what a party is. -/
inductive PartyKind where
  | lane | spine | streamer | sequencer | dieUnit | host | peer
deriving DecidableEq, Repr

/-- Where a party stands when it performs an operation; an engine's operation names the workgroups that it serves, of one pack,
and the party that issued its command. -/
structure Standing where
  party : Nat
  kind : PartyKind
  die : Nat
  cluster : Nat
  pack : Nat
  wg : Nat
  warp : Nat
  detached : Bool
  serves : List Nat
  issuer : Nat
deriving DecidableEq, Repr

inductive Scope where
  | wg | cl | die | dev | sys
deriving DecidableEq, Repr
inductive Order where
  | rlx | acq | rel | ar | sc
deriving DecidableEq, Repr
inductive OpKind where
  | read | write | rmw | fence | point
deriving DecidableEq, Repr

def PartyKind.outside : PartyKind → Bool
  | .host | .peer => true
  | .lane | .spine | .streamer | .sequencer | .dieUnit => false
def PartyKind.onCluster : PartyKind → Bool
  | .lane | .spine | .streamer | .sequencer => true
  | .dieUnit | .host | .peer => false
def PartyKind.engine : PartyKind → Bool
  | .streamer | .sequencer => true
  | .lane | .spine | .dieUnit | .host | .peer => false
/-- R227: a party on the same cluster; on the same die. -/
def sameCluster (a b : Standing) : Bool := a.kind.onCluster && b.kind.onCluster && a.cluster == b.cluster
def sameDie (a b : Standing) : Bool := !a.kind.outside && !b.kind.outside && a.die == b.die
/-- R227: whether the party of `b` is among those that the scope denotes for `a`. -/
def holds (s : Scope) (a b : Standing) : Bool :=
  if a.kind.outside then true
  else
    match s with
    | .sys => true
    | .dev => !b.kind.outside
    | .die => sameDie a b
    | .cl => if a.kind = .dieUnit then sameDie a b else sameCluster a b
    | .wg =>
      match a.kind with
      | .lane =>
        if a.detached then b.kind == .lane && b.pack == a.pack && b.wg == a.wg && b.warp == a.warp
        else (b.kind == .lane && !b.detached && b.pack == a.pack && b.wg == a.wg) || (b.kind.engine && sameCluster a b)
      | .spine => sameCluster a b
      | .streamer | .sequencer =>
        b.party == a.party || b.party == a.issuer || (b.kind == .lane && b.pack == a.pack && a.serves.contains b.wg)
      | .dieUnit | .host | .peer => sameDie a b

/-- R239, R373: what parties, engines and units do that releases or acquires. A scope is an argument where the row leaves it
to the instruction or to the group. `lineEmpty` is what makes a line EMPTY (R201): SMARK.E, or the probe of a copy. A request
to a slot stands at two objects: at the slot, for the requests that are served after it, and at itself, for its unit's receipt
and report, between which the unit's accesses stand (R238, R373). -/
inductive Act where
  | kput | karm | kred | kget | kpeek | kOperand | kstat | kclr
  | rdep | await
  | wsyncJoin | wsyncLeave
  | barArrive | barLeave
  | copyIssue (s : Scope) | copyReceipt (s : Scope) | copyToken (s : Scope) | lineFull (s : Scope) | counterDown (s : Scope)
  | lineRead (s : Scope) | xwait (s : Scope)
  | smarkF (s : Scope) | lineEmpty
  | lcopyLanding | lcwait
  | engineIssue (bc : Bool) | engineReceipt (bc : Bool) | engineToken (bc : Bool)
  | tokenRead (s : Scope)
  | bpass | btake
  | slotLanding (s : Scope) | followOn (s : Scope)
  | arrival (s : Scope) | completion (s : Scope)
  | satisfying (s : Scope) | wake (s : Scope)
  | fenq | fdeq
  | taskq | tdone | taskd
  | bqpost | bqget | bqdone | rowRead
  | launch | firstInstruction | retirement (hostWaits : Bool) | doneRead (hostWaits : Bool)
  | bitSet | placement
  | svcIssue | svcReceipt | svcWord | svcRead
  | hostPost | postRead
  | migrate | landing
  | slotIssue | slotCompletion
  | unitIssue | unitReceipt | unitReport | unitDone
deriving DecidableEq, Repr

/-- What an act does to what stands at its object: it releases, beside the releases that stand there or in their place; it
acquires them; it takes them away; or it does nothing. -/
inductive Role where
  | adds | replaces | acquires | clears | nothing
deriving DecidableEq, Repr
/-- The Release and Acquire columns. -/
def Act.role : Act → Role
  | .kput | .karm => .replaces
  | .kred => .adds
  | .kget | .kpeek | .kOperand => .acquires
  | .kstat => .nothing
  | .kclr | .lineEmpty => .clears
  | .smarkF _ | .rdep | .wsyncJoin | .barArrive | .counterDown _ | .lcopyLanding | .slotLanding _ | .arrival _ | .slotIssue => .adds
  | .await | .wsyncLeave | .barLeave | .xwait _ | .lcwait | .followOn _ | .completion _ | .slotCompletion => .acquires
  | .copyIssue _ | .copyToken _ | .lineFull _ | .engineIssue _ | .engineToken _ | .bpass | .satisfying _ => .replaces
  | .copyReceipt _ | .lineRead _ | .engineReceipt _ | .tokenRead _ | .btake | .wake _ => .acquires
  | .fenq | .taskq | .bqpost | .bqdone | .launch | .bitSet | .svcIssue | .svcWord | .hostPost | .migrate | .unitIssue | .unitReport => .replaces
  | .tdone | .retirement _ => .adds
  | .fdeq | .taskd | .bqget | .rowRead | .firstInstruction | .doneRead _ | .placement | .svcReceipt | .svcRead | .postRead |
      .landing | .unitReceipt | .unitDone => .acquires
/-- The Scope column. -/
def Act.scope : Act → Scope
  | .kput | .karm | .kred | .kget | .kpeek | .kOperand | .kstat | .kclr | .rdep | .await | .bpass | .btake | .fenq | .fdeq => .cl
  | .wsyncJoin | .wsyncLeave | .barArrive | .barLeave | .lcopyLanding | .lcwait | .lineEmpty => .wg
  | .copyIssue s | .copyReceipt s | .copyToken s | .lineFull s | .counterDown s | .lineRead s | .xwait s | .smarkF s |
      .tokenRead s | .slotLanding s | .followOn s | .arrival s | .completion s | .satisfying s | .wake s => s
  | .engineIssue bc | .engineReceipt bc | .engineToken bc => if bc then .cl else .wg
  | .taskq | .tdone | .taskd | .bitSet | .placement | .launch | .firstInstruction | .migrate | .landing | .slotIssue |
      .slotCompletion | .unitIssue | .unitReceipt | .unitReport | .unitDone => .dev
  | .bqpost | .bqget | .bqdone | .rowRead => .die
  | .retirement h | .doneRead h => if h then .sys else .dev
  | .svcIssue | .svcReceipt | .svcWord | .svcRead | .hostPost | .postRead => .sys
/-- R241: the scope of a named group for one phase. -/
def groupScope (members : List Standing) : Scope :=
  if members.all fun a => members.all (holds .cl a) then .cl
  else if members.all fun a => members.all (holds .die a) then .die
  else .dev

/-- R226: where locations lie. -/
inductive Area where
  | device | hostWindow | peerWindow | scratchpad
deriving DecidableEq, Repr

/-- One operation of its parties (more than one for a uniform form) on the bytes `locs` of an area, or an ordering point;
`act` is what it does at an object of a mechanism: a register, a counter, a record, a line, a token, a ring, a phase, an
element, a word, a slot. -/
structure Op where
  parties : List Nat
  stand : Standing
  kind : OpKind
  order : Order
  scope : Scope
  area : Area
  locs : List Nat
  act : Option (Act × Nat)
deriving DecidableEq, Repr

def OpKind.reads : OpKind → Bool
  | .read | .rmw => true
  | .write | .fence | .point => false
def OpKind.writes : OpKind → Bool
  | .write | .rmw => true
  | .read | .fence | .point => false
def Order.acquires : Order → Bool
  | .acq | .ar | .sc => true
  | .rlx | .rel => false
def Order.releases : Order → Bool
  | .rel | .ar | .sc => true
  | .rlx | .acq => false
/-- R228: a relaxed operation is taken at `.SYS`. -/
def Op.reach (a : Op) : Scope := if a.order = .rlx then .sys else a.scope
/-- R228: mutually in scope, each at a scope. -/
def inScope (a : Op) (s : Scope) (b : Op) (t : Scope) : Bool := holds s a.stand b.stand && holds t b.stand a.stand
def mutually (a b : Op) : Bool := inScope a a.reach b b.reach

/-! ### Executions -/

/-- Operations by number, those of one party in its program order; where each read reads each of its bytes from (none: the
initial value); the order of the writes of each byte; for each object of a mechanism, what happened there in its order;
dependencies. -/
structure Execution where
  ops : List Op
  rf : List (Nat × Nat × Option Nat)
  co : List (Nat × List Nat)
  served : List (Nat × List Nat)
  deps : List (Nat × Nat)
deriving DecidableEq, Repr

namespace Execution

def op (x : Execution) (i : Nat) : Op :=
  (x.ops[i]?).getD { parties := [], stand := ⟨0, .lane, 0, 0, 0, 0, 0, false, [], 0⟩, kind := .point, order := .rlx, scope := .sys,
                       area := .device, locs := [], act := none }
def ids (x : Execution) : List Nat := List.range x.ops.length
/-- R225: program order. -/
def po (x : Execution) (i j : Nat) : Bool := decide (i < j) && (x.op i).parties.any (x.op j).parties.contains
def readsFrom (x : Execution) (r l : Nat) : Option Nat := ((x.rf.find? fun e => e.1 == r && e.2.1 == l).map (·.2.2)).getD none
def writesOf (x : Execution) (l : Nat) : List Nat := ((x.co.find? fun e => e.1 == l).map (·.2)).getD []
/-- The place of a write in the coherence order of a byte; the initial value stands at 0. -/
def place (x : Execution) (l : Nat) : Option Nat → Nat
  | none => 0
  | some w => (x.writesOf l).idxOf w + 1
def shared (x : Execution) (i j : Nat) : List Nat := (x.op i).locs.filter (x.op j).locs.contains

/-- R230: `v` belongs to the release sequence of `w` at a byte. -/
def inSequence (x : Execution) (l w v : Nat) : Bool :=
  let ws := x.writesOf l
  let a := ws.idxOf w
  let b := ws.idxOf v
  decide (a ≤ b) && decide (b < ws.length) && ((ws.take (b + 1)).drop (a + 1)).all fun u => (x.op u).kind == .rmw
/-- R231: the writes of a release and the reads of an acquire. -/
def heads (x : Execution) (a : Nat) : List Nat :=
  if !(x.op a).order.releases then []
  else if (x.op a).kind = .fence then x.ids.filter fun w => (x.op w).kind.writes && x.po a w
  else if (x.op a).kind.writes then [a] else []
def tails (x : Execution) (b : Nat) : List Nat :=
  if !(x.op b).order.acquires then []
  else if (x.op b).kind = .fence then x.ids.filter fun r => (x.op r).kind.reads && x.po r b
  else if (x.op b).kind.reads then [b] else []
/-- The act of an operation at an object. -/
def actAt (x : Execution) (o i : Nat) : Option Act := ((x.op i).act.bind fun e => if e.2 = o then some e.1 else none)
/-- The releases that stand at an object after what happened there, given latest first: those from the last that took the place
of others on, none where it was cleared. The write that satisfies a monitor counts as far as it is a release (R242). -/
def standing (x : Execution) (o : Nat) : List Nat → List Nat
  | [] => []
  | i :: r =>
    match x.actAt o i with
    | none => standing x o r
    | some a =>
      match a.role with
      | .adds => i :: standing x o r
      | .replaces =>
        match a with
        | .satisfying _ => if (x.op i).order.releases then [i] else []
        | _ => [i]
      | .clears => []
      | .acquires | .nothing => standing x o r
/-- R180, R239, R373: the releases whose effect an acquire of a mechanism receives. -/
def received (x : Execution) (b : Nat) : List Nat :=
  match (x.op b).act with
  | none => []
  | some (a, o) =>
    if a.role = .acquires then
      let l := ((x.served.find? fun e => e.1 == o).map (·.2)).getD []
      if l.contains b then x.standing o (l.take (l.idxOf b)).reverse else []
    else []
/-- The scope of an operation's act: of its row. -/
def actScope (x : Execution) (i : Nat) : Scope := ((x.op i).act.map fun e => e.1.scope).getD .sys

/-- R231: synchronises with. -/
def sw (x : Execution) (a b : Nat) : Bool :=
  ((x.received b).contains a && inScope (x.op a) (x.actScope a) (x.op b) (x.actScope b)) ||
    (mutually (x.op a) (x.op b) &&
      (x.heads a).any fun w => (x.tails b).any fun r => (x.shared w r).any fun l =>
        match x.readsFrom r l with
        | none => false
        | some v => x.inSequence l w v)

/-- The transitive closure of a relation on the first `n` numbers, given by the list of its pairs. -/
def closure (n : Nat) (m : List (Nat × Nat)) : List (Nat × Nat) :=
  (List.range n).foldl (fun m k =>
    let from' := (m.filter fun e => e.1 == k).map (·.2)
    let into := (m.filter fun e => e.2 == k).map (·.1)
    m ++ (into.flatMap fun i => from'.map fun j => (i, j)).filter fun e => !m.contains e) m
def pairsOf (x : Execution) (f : Nat → Nat → Bool) : List (Nat × Nat) :=
  x.ids.flatMap fun i => (x.ids.filter (f i)).map fun j => (i, j)
/-- R232: happens-before. -/
def hb (x : Execution) : List (Nat × Nat) := closure x.ops.length (x.pairsOf fun i j => x.po i j || x.sw i j)

/-! ### What an execution must obey (R226, R229, R233 to R236) -/

/-- The relations name what is there: every read reads each byte from a write of it, and the order of each byte holds its writes. -/
def shaped (x : Execution) : Bool :=
  let bytes := (x.ops.flatMap (·.locs)).eraseDups
  bytes.all (fun l =>
    let ws := x.ids.filter fun i => (x.op i).kind.writes && (x.op i).locs.contains l
    (x.writesOf l).length == ws.length && ws.all (x.writesOf l).contains) &&
  x.ids.all fun r => !(x.op r).kind.reads || (x.op r).locs.all fun l =>
    match x.readsFrom r l with
    | none => true
    | some w => (x.writesOf l).contains w
/-- R226: two bytes of an operation that are read or written together: up to 128 bits of device memory or a host window, of a
peer window those of one aligned 64-bit half; of a scratchpad no rule says it. -/
def together (a : Op) (l l' : Nat) : Bool :=
  l == l' || match a.area with
    | .device | .hostWindow => decide (a.locs.length ≤ 16)
    | .peerWindow => decide (l / 8 = l' / 8)
    | .scratchpad => false
/-- R226: such bytes take one place in every order that they enter, and are read together. -/
def single (x : Execution) : Bool :=
  x.ids.all fun i => x.ids.all fun j =>
    let ls := x.shared i j
    ls.all fun l => ls.all fun l' => !together (x.op i) l l' || !together (x.op j) l l' ||
      (!((x.op i).kind.writes && (x.op j).kind.writes) ||
        (decide (x.place l (some i) < x.place l (some j)) == decide (x.place l' (some i) < x.place l' (some j)))) &&
      (!((x.op i).kind.writes && (x.op j).kind.reads) || x.readsFrom j l != some i ||
        decide (x.place l' (some i) ≤ x.place l' (x.readsFrom j l')))
/-- R229: coherence; the second operation sees no older write than the first. -/
def coherent (x : Execution) (hb : List (Nat × Nat)) : Bool :=
  hb.all fun e => (x.shared e.1 e.2).all fun l =>
    let a := x.op e.1
    let b := x.op e.2
    (!(a.kind.writes && b.kind.writes) || decide (x.place l (some e.1) < x.place l (some e.2))) &&
    (!(a.kind.writes && b.kind.reads) || decide (x.place l (some e.1) ≤ x.place l (x.readsFrom e.2 l))) &&
    (!(a.kind.reads && b.kind.writes) || decide (x.place l (x.readsFrom e.1 l) < x.place l (some e.2))) &&
    (!(a.kind.reads && b.kind.reads) || decide (x.place l (x.readsFrom e.1 l) ≤ x.place l (x.readsFrom e.2 l)))
/-- R233: a read does not happen before the write that it reads. -/
def causal (x : Execution) (hb : List (Nat × Nat)) : Bool :=
  x.rf.all fun e => match e.2.2 with
    | none => true
    | some w => !hb.contains (e.1, w) && (w != e.1)
/-- R234: a read-modify-write reads the write before its own. -/
def atomic (x : Execution) : Bool :=
  x.ids.all fun i => (x.op i).kind != .rmw || (x.op i).locs.all fun l => x.place l (x.readsFrom i l) + 1 == x.place l (some i)
/-- R237: what a fence of an order keeps ahead of what. -/
def keeps (o : Order) (a b : OpKind) : Bool :=
  match o with
  | .rlx => false
  | .rel => (a.reads || a.writes) && b.writes
  | .acq => a.reads && (b.reads || b.writes)
  | .ar | .sc => (a.reads || a.writes) && (b.reads || b.writes)
/-- The pairs of operations among `v` that fences keep in order for those that perform `v`: fences whose scope reaches them all
(R237; DEDUCED, log 89). -/
def fenced (x : Execution) (v : List Nat) : List (Nat × Nat) :=
  (x.ids.filter fun f => (x.op f).kind == .fence && v.all fun i => holds (x.op f).scope (x.op f).stand (x.op i).stand).flatMap
    fun f => x.pairsOf fun a b =>
      v.contains a && v.contains b && x.po a f && x.po f b && keeps (x.op f).order (x.op a).kind (x.op b).kind
/-- Two moments of an operation: 2i is when a read gets its value, or when a write is first seen by another party; 2i + 1 is when
a write is performed for every party. -/
def ends (x : Execution) (i : Nat) : Nat := if (x.op i).kind.writes then 2 * i + 1 else 2 * i
/-- What parties see of each other's operations among `v`: a read comes after the beginning of the write that it reads, before
the end of one that it does not read yet; a write begins before the end of a later one of its byte. -/
def seen (x : Execution) (v : List Nat) : List (Nat × Nat) :=
  let apart := x.pairsOf fun a b => v.contains a && v.contains b && a != b && !x.po a b && !x.po b a
  let rf := apart.filter fun e => (x.op e.1).kind.writes && (x.op e.2).kind.reads &&
    (x.shared e.1 e.2).any fun l => x.readsFrom e.2 l == some e.1
  let later := apart.filter fun e => (x.op e.2).kind.writes && (x.shared e.1 e.2).any fun l =>
    ((x.op e.1).kind.reads && decide (x.place l (x.readsFrom e.1 l) < x.place l (some e.2))) ||
      ((x.op e.1).kind.writes && decide (x.place l (some e.1) < x.place l (some e.2)))
  rf.map (fun e => (2 * e.1, 2 * e.2)) ++ later.map (fun e => (2 * e.1, 2 * e.2 + 1)) ++ v.map fun i => (2 * i, 2 * i + 1)
/-- R235: a write, or a read with an acquire part, waits for the reads that it depends on. -/
def waitsFor (x : Execution) : List (Nat × Nat) :=
  (closure x.ops.length x.deps).filter fun e => (x.op e.2).kind.writes || (x.op e.2).order.acquires
/-- Every part of a list. -/
def parts : List Nat → List (List Nat)
  | [] => [[]]
  | a :: r => let q := parts r; q ++ q.map (a :: ·)
/-- R235: nothing appears from nothing; R237: nor does anything go round among parties against what their fences keep in order:
what stands before a fence is performed for them before what stands behind it begins. -/
def grounded (x : Execution) : Bool :=
  let rf := x.rf.filterMap fun e => e.2.2.map fun w => (w, e.1)
  let acyclic (n : Nat) (m : List (Nat × Nat)) : Bool := (closure n m).all fun e => e.1 != e.2
  acyclic x.ops.length (rf ++ x.deps) &&
    (parts (x.ops.flatMap (·.parties)).eraseDups).all fun q =>
      let v := x.ids.filter fun i => (x.op i).parties.all q.contains
      let f := x.fenced v
      let d := x.waitsFor.filter fun e => v.contains e.1 && v.contains e.2
      f.isEmpty || acyclic (2 * x.ops.length)
        (f.map (fun e => (x.ends e.1, 2 * e.2)) ++ x.seen v ++ d.map fun e => (2 * e.1, 2 * e.2))

/-- R236: the `.SC` operations and ordering points. -/
def scOps (x : Execution) : List Nat := x.ids.filter fun i => (x.op i).order == .sc
/-- R236, rules 1 and 2, of a read. -/
def scRead (x : Execution) (s : List Nat) (r : Nat) : Bool :=
  (x.op r).locs.all fun l =>
    let before (w : Nat) : Bool := (x.op w).kind.writes && (x.op w).locs.contains l && mutually (x.op w) (x.op r)
    (match x.readsFrom r l with
     | none => true
     | some w => !(s.contains w && before w) || decide (s.idxOf w < s.idxOf r)) &&
    match ((s.take (s.idxOf r)).filter before).getLast? with
    | none => true
    | some w => decide (x.place l (some w) ≤ x.place l (x.readsFrom r l))
/-- R236, rules 3 and 4: what stands before a fence, or an `.SC` write itself, is seen behind a later fence. -/
def scFence (x : Execution) (s : List Nat) (a f : Nat) : Bool :=
  !(decide (s.idxOf a < s.idxOf f) && (x.op f).kind == .fence && mutually (x.op a) (x.op f)) ||
    let ws := if (x.op a).kind = .fence then x.ids.filter fun w => (x.op w).kind.writes && x.po w a
      else if (x.op a).kind.writes then [a] else []
    ws.all fun w => x.ids.all fun r => !((x.op r).kind.reads && x.po f r) || (x.shared w r).all fun l =>
      decide (x.place l (some w) ≤ x.place l (x.readsFrom r l))
/-- R236: a total order of the `.SC` operations that agrees with happens-before and obeys the rules. -/
def scOrder (x : Execution) (hb : List (Nat × Nat)) (s : List Nat) : Bool :=
  hb.all (fun e => !(s.contains e.1 && s.contains e.2) || decide (s.idxOf e.1 < s.idxOf e.2)) &&
    s.all (fun r => !(x.op r).kind.reads || x.scRead s r) && s.all fun a => s.all (x.scFence s a)

/-- Every order of a list. -/
def insertions (a : Nat) : List Nat → List (List Nat)
  | [] => [[a]]
  | b :: r => (a :: b :: r) :: (insertions a r).map (b :: ·)
def orders : List Nat → List (List Nat)
  | [] => [[]]
  | a :: r => (orders r).flatMap (insertions a)
/-- The manual allows the execution. -/
def allowed (x : Execution) : Bool :=
  let hb := x.hb
  x.shaped && x.single && hb.all (fun e => e.1 != e.2) && x.coherent hb && x.causal hb && x.atomic && x.grounded &&
    (orders x.scOps).any (x.scOrder hb)

end Execution

end Sys2Proof.Machine.Ordering
end

