-- ==== Sys2Proof/Tests/Slice0.lean ====
section
/-! SUPPORT. Tests: words of the spec, small steps whose results are worked out from the spec, ill-formed terms, and for every
statement a state and operands that meet its hypotheses. -/

namespace Sys2Proof.Tests
set_option Elab.async false
open Sys2Proof.Machine Sys2Proof.Claims

/-! ### Small states -/

/-- A resident pack of context 0 that owns its cluster: one workgroup of one warp and a spine thread. -/
def packet0 : BitVec 1024 := BitVec.ofNat 1024 ((0x780 + 2 ^ 27) * 2 ^ 128)
def spad0 : Spad := { size := 4096, bytes := [], emptyLines := [], bad := [], corr := [], units := [256] }
def pack0 (p q : Party) : Pack := { codePack 1 with packet := packet0, parties := [(0, p), (spineWho, q)], spads := [(0, spad0)] }
def warp0 (r : Regs) (m : Lanes) : Party := newParty r (u64 codeVa) m (codePlace 0)
/-- Context 0 with the pack, whose one page of code and data is mapped and in the TLBs. -/
def package (p q : Party) (c : Cur) : State :=
  { State.reset.loadLine codeVa (codeLine nopWord) with
    packs := [(1, pack0 p q)], cur := some c, nextPack := 2
    tlb := [⟨quadUnit (codePlace 0), 0, codeVa, 16, codeEntry⟩, ⟨100, 0, codeVa, 16, codeEntry⟩] }
/-- Lanes of the warp of pack 1 issue, or its spine thread. -/
def stand (r : Regs) (m : Lanes) : State := package (warp0 r m) (warp0 Regs.zero 1) (curOf 1 0 m (u64 codeVa) 0 r)
def standSpine (r : Regs) : State := package (warp0 Regs.zero 1) (warp0 r 1) (curOf 1 spineWho 1 (u64 codeVa) 0 r)
/-- v8, s8: an address in the page; v12 and s12: 2. -/
def regs0 : Regs :=
  { Regs.zero with v := [(8, 0x10400), (12, 2), (264, 0x10408), (268, 2)], s := [(8, 0x10400), (12, 2), (16, 0x10500)] }

/-- What `Ready` asks, computed. -/
def facts (o : Opts) (i : Instr) (s : State) : Option (Shape × Cur × Cur × Pack × Party) :=
  match s.cur, i.shape with
  | some r, some sh =>
    match s.pack r.pack, s.party r.pack r.who with
    | some k, some p =>
      if sh.typeOk && sh.fieldOk && allocOk (pkVregs k.packet) sh && o.priv s.idle r && unitOk sh r.who &&
          !stalls p.pending sh && execLanes sh r != 0 && !(o.attached && p.detached) && !latchFault o sh r.regs (execLanes sh r) then
        match acquireK p.detached (kOperands o sh r.regs (execLanes sh r)) s.idle { r with active := execLanes sh r } with
        | .ok s' c => if s' = s.idle then some (sh, r, c, k, p) else none
        | _ => none
      else none
    | _, _ => none
  | _, _ => none

theorem ready_of_facts {o : Opts} {i : Instr} {s : State} {sh : Shape} {r c : Cur} {k : Pack} {p : Party}
    (h : facts o i s = some (sh, r, c, k, p)) : Ready o i s sh r c k p := by
  unfold facts at h
  split at h
  · rename_i r' sh' hr hsh
    split at h
    · rename_i k' p' hk hp
      split at h
      · rename_i hc
        simp only [Bool.and_eq_true, Bool.not_eq_true', bne_iff_ne, ne_eq] at hc
        obtain ⟨⟨⟨⟨⟨⟨⟨⟨h1, h2⟩, h3⟩, h4⟩, h5⟩, h6⟩, h7⟩, h8⟩, h9⟩ := hc
        split at h
        · rename_i s' c' hs
          split at h
          · rename_i hi
            simp only [Option.some.injEq, Prod.mk.injEq] at h
            obtain ⟨rfl, rfl, rfl, rfl, rfl⟩ := h
            exact ⟨hr, hsh, hk, hp, h1, h2, h3, h4, h5, h6, h7, h8, h9, hi ▸ hs⟩
          · cases h
        · cases h
      · cases h
    · cases h
  · cases h

/-- An instruction is ready in a state, and what else a statement asks of it holds. -/
def Met (o : Opts) (i : Instr) (s : State) (f : Shape → Cur → Cur → Pack → Party → Bool) : Bool :=
  match facts o i s with | some (sh, r, c, k, p) => f sh r c k p | none => false
theorem met {o : Opts} {i : Instr} {s : State} {f : Shape → Cur → Cur → Pack → Party → Bool} (h : Met o i s f = true) :
    ∃ sh r c k p, Ready o i s sh r c k p ∧ f sh r c k p = true := by
  unfold Met at h
  split at h
  · exact ⟨_, _, _, _, _, ready_of_facts (by assumption), h⟩
  · cases h
/-- Ready, and nothing else is asked. -/
def Fits (o : Opts) (i : Instr) (s : State) : Bool := (facts o i s).isSome

/-- Operands that the entries of format A accept, and an entry that accepts some of them. -/
def operandsA : List FmtA :=
  let x : FmtA := { plainA with dst := .v 4, a := ofV 8 }
  [x, { x with ty := .f32 }, { x with b := ofS 12, ty := .u32 }, { x with ty := .u32 }, { x with ty := .u64 },
   { x with ty := .f16x2 }, { x with ty := .i8x4 }, { x with ext := 1 }, { x with ty := .f32, ext := 0x20000 },
   { x with ext := 0x20000 }, { x with ty := .f32, rm := .rne }, { x with b := ofS 12, ty := .u32, ext := 0x3000 },
   { plainA with a := ofV 8 }, { plainA with ty := .u32 }, { plainA with dst := .v 4, ty := .u64 },
   { plainA with dst := .v 4, ty := .u32 }, { plainA with dst := .v 4, a := ofS 8, b := ofS 12, ty := .u32 },
   { plainA with dst := .v 4, a := ofS 8, ty := .u32 }, { plainA with a := ofV 8, ty := .f32 }, { plainA with dst := .v 4 }]
def Accepts (f : FmtA → Instr) (s : State) : Bool := operandsA.any fun o => Fits {} (f o) s
def s0 : State := stand regs0 3
def s1 : State := standSpine regs0

/-! ### Hypotheses that can be met: registers and lanes -/

theorem witness_Select : (Fits { reads := selReads { plainA with dst := .v 4, a := ofV 8 } } (.sel { plainA with dst := .v 4, a := ofV 8 }) s0) =
    true := by decide +kernel

theorem witness_IntegerArithmetic : (arithmetic.all fun e => Accepts e.1 s0) = true := by decide +kernel
theorem witness_IntegerBits : (bitwise.all fun e => Accepts e.1 s0) = true := by decide +kernel
theorem witness_Moves : (moves.all fun e => Accepts (fun o => (e o).i) s0) = true := by decide +kernel
theorem witness_Immediates :
    (immediates.all fun e => Fits {} (e.1 ⟨.always, .v 4, false, 0, 0, ofV 0, 0, 7⟩) s0) = true := by decide +kernel
theorem witness_Floats : (floats.all fun e => Accepts (fun o => (e o).i) s0) = true := by decide +kernel
theorem witness_Conversions : (conversions.all fun e => Accepts (fun o => (e o).i) s0) = true := by decide +kernel
theorem witness_Predicates : (Accepts .icmp s0 && Accepts .fcmp s0 && Accepts .pmovLoad s0 &&
    Fits {} (.plop ⟨.always, .v 0, false, 0, 0, 0x96, 0, .i32, .mode, 0⟩) s0) = true := by decide +kernel
theorem witness_Lanes : ((classify :: shuffles ++ matches').all fun e => Accepts (fun o => (e o).i) s0) = true := by decide +kernel
theorem witness_Gathers : (gathers.all fun e => Accepts (fun o => (e o).i) s0) = true := by decide +kernel
theorem witness_Reductions : (reductions.all fun e => Accepts e.1 s0 && Accepts e.2.1 s0) = true := by decide +kernel
theorem witness_Blocks : (Accepts .bqnt s0 && Accepts .bdeq s0) = true := by decide +kernel
theorem witness_LaneChoices : (Accepts .voteTest s0 && Accepts .wrlane s0 && Accepts .wrlaneRank s0 && Accepts .elect s0) = true := by
  decide +kernel

/-- A number that stands exactly, and one between two that carry more bits than any format keeps. -/
theorem witness_Rounding : (0 < (3 : Rat) ∧ Stands 3 0 false 3) ∧ 0 < scaled (2 ^ 100) 0 + 1 / 2 ∧
    Stands (2 ^ 100) 0 true (scaled (2 ^ 100) 0 + 1 / 2) ∧ fp64.fw + 36 ≤ bitLen (2 ^ 100) ∧ numQ (.fin true 3 (-1)) ≠ none := by
  unfold Stands
  decide +kernel
theorem witness_CorrectFunctions : 0 < 1 ∧ 0 < 2 ^ 16 - 1 ∧ 2 ^ 16 - 1 < 2 ^ 16 := by decide
/-- Blocks with an infinity, of zeros of both signs, and with a number. -/
theorem witness_QuantisedBlocks :
    let block (x : Machine.Num) : List (Machine.Num × Mode) := (x, .rne) :: List.replicate 31 (.fin true 0 0, .rdn)
    ((block (.inf true)).length = 32 ∧ numQ (.inf true) = none) ∧ (∀ x ∈ block (.fin false 0 0), numQ x.1 = some 0) ∧
      numQ (.fin true 3 0) ≠ some 0 := by
  decide +kernel
/-- A NaN scale, a zero scale, a zero element, and an element and a scale that give a number. -/
theorem witness_DequantisedBlocks : 1023 < 1024 ∧ 1023 / 4 = 255 ∧ 3 / 4 = 0 ∧ (planeFmt 8).value 0 = 0 ∧ 508 / 4 ≠ 255 ∧ 508 / 4 ≠ 0 ∧
    (planeFmt 8).value 1 ≠ 0 ∧ 1 < 2 ^ (planeFmt 8).bits := by decide +kernel

/-! ### Control flow, memory (spec/04, spec/07) -/

/-- Operands of format B; s8 and v8 then hold the address of a slot that is a legal target, v12 the mask of lanes 0 and 1. -/
def operandsB : List FmtB :=
  [plainB, { plainB with target := ofV 8 }, { plainB with link := .v 4 }, { plainB with link := .v 4, target := ofV 8 },
   { plainB with mask := ofV 12 }, { plainB with mask := ofS 12 }]
def sB : State :=
  stand { Regs.zero with v := [(8, 0x10001), (12, 3), (264, 0x10001), (268, 3)], s := [(12, 1)] } 3
def AcceptsB (f : FmtB → Instr) (s : State) (g : FmtB → Shape → Cur → Cur → Pack → Party → Bool) : Bool :=
  operandsB.any fun o => Met {} (f o) s (g o)

theorem witness_Transfers :
    (transfers.all fun e => AcceptsB e.1 sB fun o _ _ c _ _ =>
      decide (checkTargets (sB.asker c) (sB.here c)
        ((lanesFor (formOf o.link) c.active).filterMap fun l => (e.2.1 o sB c l).map fun t => (l.getD (lowLane c.lanes), t))
        sB.idle).2.isEmpty) = true := by decide +kernel
/-- Lines whose TGT bits are clear; an address whose bits [5:3] are not 0; one of a sixth slot; one that is not mapped. -/
theorem witness_TransferFaults :
    (let body : BitVec 512 := (codeLine nopWord) >>> 32 <<< 32
     let closed : State := (sB.loadLine codeVa (body ||| (parOf body).setWidth 512)).loadLine (codeVa + 64) (body ||| (parOf body).setWidth 512)
     let at' (t : Word64) : State := stand { Regs.zero with v := [(8, t.setWidth 32), (264, 0x10001)] } 3
     let faults (s : State) (e : (FmtB → Instr) × (FmtB → State → Cur → Option Nat → Option Word64) × Option (FmtB → Width × (State → Cur → Option Nat → Nat)))
         (code : Nat) : Bool := AcceptsB e.1 s fun o _ _ c _ _ =>
       match (checkTargets (s.asker c) (s.here c) ((lanesFor (formOf o.link) c.active).filterMap fun l =>
         (e.2.1 o s c l).map fun t => (l.getD (lowLane c.lanes), t)) s.idle).2 with
       | (_, f) :: _ => f.code == code | [] => false
     (transfers.all fun e => faults closed e 4) && ((transfers.drop 1).take 1).all fun e =>
       faults (at' 0x10008) e 4 && faults (at' 0x10005) e 4 && faults (at' 0x90000000) e 0x0B) = true := by decide +kernel
/-- A WSYNC mask that leaves its lane out, and one that meets a pending record of another mask; a BAR mask without its warp, two
different ones, and one that differs from the pending one. -/
theorem witness_SynchronisationFaults :
    (let o : FmtB := { plainB with mask := ofV 12 }
     let at' (x y : Word32) (z : Word64) : State := stand { Regs.zero with v := [(12, x), (268, y)], s := [(12, z)] } 3
     let pending := (at' 3 3 0).modParty 1 0 fun p => { p with syncs := [{ mask := 6, arrived := 4 }] }
     let sync (s : State) (m : Lanes) : Bool := Met {} (.wsync o) s fun _ _ c _ p => !c.again && (joinSyncs (syncMasks o s c) p.syncs).2 == m
     let bars (q : FmtB) (s : State) (k : List (Nat × BarRec)) (m : Lanes) : Bool := Met { attached := true } (.bar q) (s.modPack 1 fun x => { x with bars := k }) fun _ _ c _ p =>
       !p.detached && m == maskOf ((barMasks q s c).filterMap fun x =>
         if !x.2.getLsbD (c.who % 16) || (barMasks q s c).any (fun y => decide (y.1 < x.1) && y.2 != x.2) ||
           ((cget k (c.who / 16)).bind (·.mask)).any (· != x.2) then some x.1 else none)
     let ofMask : FmtB := { plainB with mask := ofS 12 }
     sync (at' 2 3 0) 1 && sync pending 3 && bars ofMask (at' 0 0 2) [] 3 &&
       bars { plainB with mask := .reg (.special .laneid) false false } (at' 0 0 0) [] 3 &&
       bars ofMask (at' 0 0 1) [(0, { mask := some 3, lanes := [] })] 3) = true := by
  decide +kernel
theorem witness_YieldExit : (Fits {} (.yield plainB) s0 && Fits {} (.yield { plainB with link := .s 0 }) s1 && Fits {} (.nop plainA) s1 &&
    Fits {} (.fence { plainM with order := 1 }) s0 && Fits {} (.exit plainB) s0 &&
    Fits {} (.exit { plainB with guard := .pred 0 true }) (stand { regs0 with p := [(0, 1)] } 3)) = true := by decide +kernel
/-- WSYNC and BAR whose record closes, and WSYNC and BAR that wait for a lane or a warp that has not arrived. -/
theorem witness_Synchronisation :
    (let o : FmtB := { plainB with mask := ofV 12 }
     let q : FmtB := { plainB with mask := ofS 12 }
     let later := stand { Regs.zero with v := [(12, 3)] } 1
     let two := { stand { regs0 with s := [(12, 3)] } 3 with
       packs := [(1, { pack0 (warp0 regs0 3) (warp0 regs0 1) with parties := [(0, warp0 regs0 3), (1, warp0 regs0 3)] })] }
     let masks (s : State) (c : Cur) (p : Party) (full : Bool) : Bool :=
       let r := joinSyncs (syncMasks o s c) p.syncs
       let x := ({ p with syncs := r.1 }.closeSyncs).syncing &&& c.active
       r.2 == 0 && !c.again && (if full then x == c.lanes else x == 0)
     let bars (s : State) (c : Cur) (k : Pack) (full : Bool) : Bool :=
       let m := BitVec.ofNat 16 (word .w64 s c (some (lowLane c.lanes)) q.mask)
       let a := (s.idle.setPack c.pack { k with bars := cset k.bars (c.who / 16) (arrive k c m) }).closeBar c.pack (c.who / 16)
       let x := a.barLanes c.pack c.who &&& c.active
       m.getLsbD (c.who % 16) && (cget k.bars 0).isNone && (if full then x == c.lanes else x == 0)
     Met {} (.wsync o) sB (fun _ _ c _ p => masks sB c p false) &&
       Met {} (.wsync o) { later with packs := [(1, pack0 { warp0 { Regs.zero with v := [(12, 3)] } 1 with groups := [⟨u64 codeVa, 1, none, false⟩, ⟨0x10040, 2, none, false⟩] } (warp0 regs0 1))] }
         (fun _ _ c _ p => masks later c p true) &&
       Met { attached := true } (.bar q) sB (fun _ _ c k _ => bars sB c k false) && Met { attached := true } (.bar q) two (fun _ _ c k _ => bars two c k true)) = true := by
  decide +kernel

/-! Memory. -/
def oM : FmtM := { plainM with data := .v 4, size := 2, base := ofV 8 }
def oMU : FmtM := { plainM with data := .s 4, base := ofS 8, index := ofConst 0x10 }
/-- No access of the executing lanes faults. -/
def Clear (o : FmtM) (acc : Acc) (b : Consumes) (s : State) (c : Cur) : Bool :=
  let r := accessLanes (s.asker c) c (sizeBytes o.size) acc b ((lanesFor (formM o) c.active).map fun l => (l, address o s c l)) s.idle
  r.2.2.isEmpty && r.2.1.length == (lanesFor (formM o) c.active).length
/-- The same page without a TLB entry: context 0 has a table whose walk ends in a leaf of 512 MiB (R357, R358). -/
def sWalk : State :=
  let s := ((s0.putHome (0x200000 + 8 * 0) (bytesOf 8 0x210001)).putHome 0x210000 (bytesOf 8 0x7F))
  { s.setContext 0 { s.context 0 with enabled := true, root := 0x200000 } with tlb := [] }

/-- A TLB holds the address; a walk ends in a leaf that lets the access through, that does not, and without one; an address
that is not canonical. -/
theorem witness_Translation :
    (let a := s0.asker (curOf 1 0 3 (u64 codeVa) 0 regs0)
     let ok (r : State × Trans) : Bool := match r.2 with | .ok _ _ => true | .fault _ _ _ => false
     ok (translate s0 a 0x10400 .write) && ok (translate sWalk a 0x10400 .read) &&
       !(a.units.any fun u => (tlbFind sWalk u a.ctx 0x10400).isSome) && allows (walk sWalk a.ctx 0x10400).2.2 .write &&
       !allows ((walk sWalk a.ctx 0x10400).2.2 &&& 0xFFFFFFFFFFFFFFF7#64) .read &&
       (walk sWalk a.ctx 0x10400).1 == .leaf && (walk sWalk a.ctx (2 ^ 52 - 1)).1 == .missing 3 &&
       (translate sWalk a (2 ^ 52) .read).2 == .fault cPerm 2 0) = true := by decide +kernel
/-- The nearest TLB's entry, which lets the access through, is for no program, leads to no memory, and lies in a page on its way to
host ownership; a leaf whose A and D are set, and one that lacks D. -/
theorem witness_Translation_hits :
    (let a := s0.asker (curOf 1 0 3 (u64 codeVa) 0 regs0)
     let at' (e : Word64) : State := { s0 with tlb := [⟨quadUnit (codePlace 0), 0, codeVa, 16, e⟩] }
     let going : State := { s0 with flips := [{ pa := codeVa, log := 16, place := 0x200000, entry := 0, stage := .quiet }] }
     let nearest (s : State) (r : Option Trans) : Bool := match a.units with
       | u :: _ => (match tlbFind s u a.ctx 0x10400 with | some x => turnedAway s x.log x.entry 0x10400 .write == r | none => false)
       | [] => false
     let leaf (e : Nat) : State := sWalk.putHome 0x210000 (bytesOf 8 e)
     nearest s0 none && nearest (at' (codeEntry &&& ~~~8)) (some (.fault 0x0C 1 0)) && nearest (at' (codeEntry ||| u64 (2 ^ 40))) (some (.fault 0x0C 3 0)) &&
       nearest going (some (.fault 0x0B 0 0)) && (walk (leaf 0x10000000000FF) 0 0x10400).2.2 == 0x10000000000FF &&
       turnedAway (leaf 0x100000000000FF) 29 0x100000000000FF 0x10400 .write == none && (walk (leaf 0x100000000000FF) 0 0x10400).1 == .leaf &&
       (0x100000000000FF#64 ||| 0x0010000000000080#64) == 0x100000000000FF#64 && (0x7F#64 ||| 0x80#64) != 0x7F#64) = true := by decide +kernel
/-- Lane 0 reaches memory and lane 1 is misaligned, has no page, or meets an uncorrectable word. -/
theorem witness_AccessFaults :
    (let at' (x : Word32) : State := stand { regs0 with v := [(8, 0x10400), (12, 2), (264, x), (268, 2)] } 3
     let faults (s : State) (e : (FmtM → Instr) × Acc × (FmtM → Consumes)) (code : Nat) : Bool := Met {} (e.1 oM) s fun _ _ c _ _ =>
       let r := accessLanes (s.asker c) c (sizeBytes oM.size) e.2.1 (e.2.2 oM) ((lanesFor (formM oM) c.active).map fun l => (l, address oM s c l)) s.idle
       r.2.1.length == 1 && (r.2.2.map fun f => (f.1, f.2.code)) == [(1, code)] && (r.1.party 1 0).isSome && s.port1.isNone
     globals.all fun e => faults (at' 0x10402) e 0x0D && faults (at' 0x90000000) e 0x0B &&
       (e.2.1 == .write || faults { at' 0x10440 with unc := [0x10440 / 32] } e 0x0F)) = true := by decide +kernel
theorem witness_Memory :
    (Met {} (.ld false oM) s0 (fun _ _ c _ _ => Clear oM .read .near s0 c) &&
      Met {} (.ld true { oM with size := 0 }) sWalk (fun _ _ c _ _ => Clear { oM with size := 0 } .read .near sWalk c) &&
      Met {} (.st oM) s0 (fun _ _ c _ _ => Clear oM .write .nothing s0 c) &&
      Met {} (.acas oM) s0 (fun _ _ c _ _ => Clear oM .rmw .near s0 c) &&
      atomics.all fun e => Met {} (e.1 oM) s0 fun _ _ c _ _ => Clear oM .rmw .near s0 c) = true := by decide +kernel
/-- Scratchpad accesses up to the last word of the allocation, and marks of none and of all lines. -/
theorem witness_Scratchpad :
    (let s := stand { Regs.zero with v := [(8, 0), (264, 4092)], s := [(4, 0), (8, 0)] } 3
     let t := stand { Regs.zero with s := [(4, 32), (8, 0)] } 3
     let pads (b : Bool) (s : State) (c : Cur) : Bool := (lanesFor (formM oM) c.active).all fun l =>
       let f := padOffset oM s c l
       f % 4 == 0 && f + 4 ≤ spad0.size && !spad0.emptyAt f 4 && !(b && spad0.uncAt f 4)
     let lines (s : State) (c : Cur) (n : Nat) : Bool := padOffset oMU s c none % 128 == 0 &&
       readSpec s c none .w32 none oMU.data % 65536 == n && padOffset oMU s c none + 128 * n ≤ spad0.size
     (s.spad 1 0 == some spad0) && Met {} (.lds true { oM with size := 2 }) s (fun _ _ c _ p => !p.detached && pads true s c) &&
       Met {} (.sts oM) s (fun _ _ c _ _ => pads false s c) && Met {} (.smarkE oMU) s (fun _ _ c _ _ => lines s c 0) &&
       Met {} (.smarkF { oMU with order := 2 }) t (fun _ _ c _ _ => lines t c 32)) = true := by decide +kernel
/-- Lane 1 misaligned, beyond the allocation, at an uncorrectable word and at an EMPTY line; marks off a line and beyond the
allocation; a detached warp. -/
theorem witness_ScratchpadFaults :
    (let at' (x : Word32) (y : Spad) (det : Bool) : State :=
       ((stand { Regs.zero with v := [(8, 0), (264, x)], s := [(4, 32), (8, x.setWidth 64)] } 3).modPack 1 fun k => { k with spads := [(0, y)] }).modParty 1 0
         fun p => { p with detached := det }
     let bad : Spad := { spad0 with bad := [4] }
     let empty : Spad := { spad0 with emptyLines := [1] }
     let code (s : State) (i : Instr) (consumes : Bool) (y : Spad) (n : Nat) : Bool := Met {} i s fun _ _ c _ p => !p.detached &&
       s.spad 1 0 == some y && (padFaults oM consumes s c y).map (fun f => (f.1, f.2.code)) == if n = 0 then [] else [(1, n)]
     let all (x : Word32) (y : Spad) (n m : Nat) : Bool := code (at' x y false) (.lds false oM) true y n && code (at' x y false) (.lds true { oM with size := 1 }) true y n &&
       code (at' x y false) (.sts oM) false y m
     let mark (x : Word32) (f : Nat → Nat → Bool) : Bool := [Instr.smarkE oMU, .smarkF { oMU with order := 2 }].all fun i => Met {} i (at' x spad0 false) fun _ _ c _ p =>
       !p.detached && f (padOffset oMU (at' x spad0 false) c none) (readSpec (at' x spad0 false) c none .w32 none oMU.data % 65536)
     all 129 spad0 0x0D 0x0D && all 4096 spad0 0x0E 0x0E && all 128 bad 0x0F 0 && all 128 empty 0 0 && empty.emptyAt 128 4 &&
       mark 64 (fun f _ => f % 128 != 0) && mark 128 (fun f n => f % 128 == 0 && decide (0 < n ∧ spad0.size < f + 128 * n)) &&
       [Instr.lds false oM, .lds true { oM with size := 1 }, .sts oM, .smarkE oMU, .smarkF { oMU with order := 2 }].all fun i =>
         Met {} i (at' 128 spad0 true) fun _ _ _ _ p => p.detached) = true := by decide +kernel
theorem witness_Maintenance :
    (let s := stand { Regs.zero with s := [(4, 2), (8, 0x10400)] } 3
     let lines (c : Cur) : Bool :=
       match (translatePieces (s.asker c) (rangePieces (lineRange oMU s c).1 (128 * (lineRange oMU s c).2)) s.idle).2 with
       | .ok ps => !ps.isEmpty | .error _ => false
     (maintenance.all fun e => Met {} (e.1 oMU) s fun _ _ c _ _ => lines c) && Met {} (.icinv oMU) s (fun _ _ c _ _ => lines c) &&
       Fits {} (.prefL1 { plainM with base := ofV 8 }) s0 && Fits {} (.prefL2 { plainM with base := ofV 8 }) s0 &&
       Fits {} (.ifence { plainM with data := .s 0 }) s0) = true := by decide +kernel
/-- The cells of BANKCFG that give a status at once, the one that switches, and the completion of a switch. -/
theorem witness_BankConfiguration :
    (let o (mode : BitVec 18) (b : BitVec 6) : FmtA := { plainA with dst := .s 4, a := ofS b, ext := mode }
     let s := standSpine { Regs.zero with s := [(12, 2), (20, 20)] }
     let st (i : Instr) (w : Nat) (b : Nat) (want : Option Nat) : Bool := Met ownerOpts i s fun _ _ c _ _ =>
       let x := (s.cluster (s.here c)).bank b
       !c.again && bankStatus x.mode w (s.cluster (s.here c)).cacheBanks (s.unitsUsed (s.here c) b)
         ((s.cluster (s.here c)).taskBank == some b) x.elems.isEmpty == want
     st (.bankcfgCache (o 0 12)) 0 2 (some 0) && st (.bankcfgSpad (o 0x10000 12)) 1 2 none &&
       st (.bankcfgFifo (o 0x20000 20)) 2 20 none &&
       (((s.modCluster 0 fun x => x.setBank 3 { x.bank 3 with mode := .switching 1 }).cluster 0).bank 3).mode == .switching 1) = true := by
  decide +kernel

/-! ### Shared registers, deposits and counters (spec/06, spec/14) -/

/-- The group stands inside its instruction and has been served. -/
def resumed (s : State) (vals : List Word64) : State :=
  match s.cur with
  | none => s
  | some c =>
    { s.modParty c.pack c.who fun p => { p with groups := p.groups.map fun g =>
        if g.lanes = c.lanes then
          { g with wait := some { (g.wait.getD { regs := p.regs, served := none, kvals := [], kept := [], probed := none, port := 0 }) with served := some vals } }
        else g } with
      cur := some { c with again := true, served := some vals } }
/-- A k register of pack 1. -/
def withK (s : State) (n : Nat) (k : KReg) : State := s.setKreg 1 n k
def full (n : BitVec 8) : KReg := { KReg.zero with st := .full, val := 7, cnt := n }
def armed (n : BitVec 8) : KReg := { KReg.zero with st := .armed, cnt := n, rc := 1 }
def oK : FmtA := { plainA with dst := .k 2, a := ofS 12, b := ofConst 0x14, ty := .u64 }
def oArm : FmtA := { oK with c := ofConst 0x11 }
def oRed : FmtA := { oK with b := ofV 0 }
def oGet : FmtA := { plainA with dst := .s 4, a := .reg (.k 2) false false, ty := .u64 }

theorem witness_SharedRegisters :
    (Fits {} (.kput oK) s0 && Fits {} (.karm oArm) s0 && Fits {} (.kred oRed) s0 && Fits {} (.kput oK) (resumed s0 []) &&
      Met {} (.kget oGet) (withK s0 2 (full 1)) (fun _ _ c _ p => !c.again && !p.detached) &&
      Met {} (.kpeek oGet) (resumed s0 [7]) (fun _ _ c _ _ => c.again && c.served == some [7])) = true := by decide +kernel
theorem witness_DetachedRequests :
    (let s := s0.modParty 1 0 fun p => { p with detached := true }
     let det (i : Instr) : Bool := Met {} i s fun _ _ _ _ p => p.detached
     det (.kput oK) && det (.karm oArm) && det (.kred oRed) && det (.kget oGet) && det (.kpeek oGet) &&
       det (.kstat { plainA with dst := .s 4, a := .reg (.k 2) false false }) && det (.rdep { plainA with dst := .v 4, a := ofV 8, b := ofConst 0x10, ty := .u32 }) &&
       reductions.all fun e => operandsA.any fun o => det (e.1 { o with dst := .k 2 })) = true := by decide +kernel
/-- Every cell serves some request: last and middle contributions and reads. -/
theorem witness_Serves : (∃ k, Serves KReg.zero (.put 5 2) k) ∧ (∃ k, Serves KReg.zero (.arm 0 1 0 0 0 0) k) ∧
    (∃ k, Serves KReg.zero (.arm 0 0 0 0 0 0) k) ∧ (∃ k, Serves (armed 2) (.red 5) k) ∧ (∃ k, Serves (armed 1) (.red 5) k) ∧
    (∃ k, Serves (full 1) .get k) ∧ (∃ k, Serves (full 2) .get k) ∧ (∃ k, Serves (full 0) .get k) ∧ ∃ k, Serves (full 0) .peek k :=
  ⟨⟨_, .put _ _ rfl⟩, ⟨_, .arm _ _ _ _ _ _ rfl (by decide)⟩, ⟨_, .armNone _ _ _ _ _ rfl⟩, ⟨_, .red _ _ _ rfl (by decide) rfl⟩,
    ⟨_, .redLast _ _ _ rfl rfl rfl⟩, ⟨_, .getLast rfl rfl⟩, ⟨_, .get rfl (by decide)⟩, ⟨_, .getSticky rfl rfl⟩, ⟨_, .peek rfl⟩⟩
theorem witness_NotServed : (∀ k, ¬ Serves (full 1) (.put 5 2) k) ∧ (∀ k, ¬ Serves KReg.zero .get k) ∧ ∀ k, ¬ Serves KReg.zero .peek k :=
  ⟨fun _ h => by cases h; contradiction, fun _ h => by cases h <;> contradiction, fun _ h => by cases h; contradiction⟩
theorem witness_WaiterScan :
    let g : KWait := { who := 0, lanes := 3, req := .get }
    let p : KWait := { who := 0, lanes := 4, req := .put 5 1 }
    ∃ k, (KReg.zero.queue ++ g :: [p]).length = 2 ∧ (∀ k', ¬ Serves KReg.zero g.req k') ∧ Serves KReg.zero p.req k :=
  ⟨_, rfl, witness_NotServed.2.1, .put _ _ rfl⟩
theorem witness_ReductionsIntoShared :
    (reductions.all fun e => operandsA.any fun o => Fits {} (e.1 { o with dst := .k 2 }) s0) = true := by decide +kernel
theorem witness_ClearAndStatus :
    (Fits {} (.kclr { plainA with dst := .k 2 }) (withK s1 2 (full 1)) &&
      Fits {} (.kstat { plainA with dst := .s 4, a := .reg (.k 2) false false }) s0) = true := by decide +kernel

def oDep : FmtA := { plainA with dst := .v 4, a := ofV 8, b := ofConst 0x10, ty := .u32 }
def Reachable (s : State) (u who : Nat) : Bool :=
  match s.party u who with
  | some p => !p.ended && !p.detached && p.live != 0
  | none => false
theorem reachable_of {s : State} {u who : Nat} (h : Reachable s u who = true) : reachable s u who := by
  unfold Reachable at h
  split at h
  · simp only [Bool.and_eq_true, Bool.not_eq_true', bne_iff_ne] at h; exact ⟨_, by assumption, h.1.1, h.1.2, h.2⟩
  · cases h
/-- A deposit to the warp itself, and to a warp that does not exist. -/
theorem witness_RemoteDeposit :
    (Met {} (.rdep oDep) s0 (fun _ _ c _ _ => Reachable s0 1 (depositOf oDep s0 c).target) &&
      Met {} (.rdep { oDep with b := ofS 12 }) s0 (fun _ _ c _ _ => (s0.party 1 (depositOf { oDep with b := ofS 12 } s0 c).target).isNone)) =
    true := by decide +kernel
theorem witness_DepositLanding :
    ∃ k p x, (s0.modPack 1 fun k => { k with deposits := [⟨0, false, .v 4, [(0, 5), (1, 6)], 7⟩] }).pack 1 = some k ∧
      k.deposits = [x] ∧ x.dst.cls = .v ∧ x.counter < 8 ∧ reachable s0 1 x.target ∧ s0.party 1 x.target = some p :=
  ⟨_, _, _, rfl, rfl, rfl, by decide, reachable_of (by decide +kernel), rfl⟩

theorem witness_ArrivalCounters :
    (let o : FmtA := { plainA with dst := .s 4, a := .reg (.a 1) false false, b := ofConst 0x10 }
     let t := stand { regs0 with a := [(1, 0x8000)] } 3
     let holds (s : State) (c : Cur) (p : Party) : Bool :=
       decide (((p.regs.readA 1).toNat + (2 ^ 16 - word .w32 s c none o.b % 2 ^ 16)) % 2 ^ 16 < 2 ^ 15)
     Fits {} (.aset { plainA with dst := .a 2, a := ofS 12 }) s0 && Met {} (.awaitGe o) s0 (fun _ _ c _ p => holds s0 c p) &&
       Met {} (.awaitGe o) t (fun _ _ c _ p => !holds t c p) &&
       Met {} (.awaitEq o) s0 (fun _ _ c _ p => (p.regs.readA 1).toNat == word .w32 s0 c none o.b % 2 ^ 16)) = true := by
  decide +kernel
theorem witness_BatchTags :
    (let o : FmtA := { plainA with dst := .s 4 }
     let busy := s0.modParty 1 0 fun p => { p with tags := [(7, 1)], order := [7] }
     let kept := resumed (busy.modParty 1 0 fun p => { p with groups := p.groups.map fun g =>
       { g with wait := some { regs := p.regs, served := none, kvals := [], kept := [7], probed := none, port := 0 } } }) []
     Met {} (.lcwait { o with ext := 7 }) s0 (fun _ _ _ _ p => rd 0 p.tags 7 == 0) &&
       Met {} (.lcwait { o with ext := 7 }) busy (fun _ _ _ _ p => rd 0 p.tags 7 != 0) &&
       Met {} (.lcwaitOldest o) busy (fun _ _ c _ p => !c.again && p.order == [7]) &&
       Met {} (.lcwaitOldest o) s0 (fun _ _ c _ p => !c.again && p.order == []) &&
       Met {} (.lcwaitOldest o) kept (fun _ _ c _ _ => c.again && kept.keptFor c == [u64 7])) = true := by decide +kernel
/-- The last counter word of the allocation. -/
theorem witness_TransferCounters :
    (let x : FmtM := { oMU with size := 3 }
     let w : FmtM := { plainM with data := .s 0, size := 3, base := ofS 8, order := 1, index := ofConst 0x10 }
     let s := stand { Regs.zero with s := [(8, 4088)] } 3
     let busy := s.modPack 1 fun k => { k with spads := [(0, { spad0 with bytes := [(4088, 1)] })] }
     let ok (s : State) (c : Cur) (p : Party) (zero : Bool) : Bool :=
       match s.spad c.pack 0 with
       | some d => !p.detached && padOffset x s c none == 4088 && 4088 + 8 ≤ d.size && !d.uncAt 4088 8 && (d.readNat 4088 8 == 0) == zero
       | none => false
     Met {} (.xexp x) busy (fun _ _ c _ p => ok busy c p false) && Met {} (.xwait w) s (fun _ _ c _ p => ok s c p true) &&
       Met {} (.xwait w) busy (fun _ _ c _ p => ok busy c p false)) = true := by decide +kernel
/-- A counter off its place, beyond the allocation and uncorrectable; a detached warp. -/
theorem witness_TransferCounterFaults :
    (let x : FmtM := { oMU with size := 3 }
     let w : FmtM := { plainM with data := .s 0, size := 3, base := ofS 8, order := 1, index := ofConst 0x10 }
     let at' (n : Nat) (y : Spad) (det : Bool) : State :=
       ((stand { Regs.zero with s := [(8, BitVec.ofNat 64 n)] } 3).modPack 1 fun k => { k with spads := [(0, y)] }).modParty 1 0 fun p => { p with detached := det }
     let ok (s : State) (f : Nat → Spad → Party → Bool) : Bool := [(Instr.xexp x, x), (.xwait w, w)].all fun e => Met {} e.1 s fun _ _ c _ p =>
       match s.spad c.pack 0 with | some y => f (padOffset e.2 s c none) y p | none => false
     ok (at' 4 spad0 false) (fun f _ p => !p.detached && f % 8 != 0) && ok (at' 4096 spad0 false) (fun f y p => !p.detached && f % 8 == 0 && decide (y.size < f + 8)) &&
       ok (at' 4088 { spad0 with bad := [127] } false) (fun f y p => !p.detached && f % 8 == 0 && decide (f + 8 ≤ y.size) && y.uncAt f 8) &&
       ok (at' 0 spad0 true) (fun _ _ p => p.detached)) = true := by decide +kernel
theorem witness_CounterReads : Fits {} (.pcnt { plainA with dst := .s 4, a := ofS 8 }) s0 = true := by decide +kernel

/-! ### Faults, traps, special registers (spec/02, spec/15) -/

/-- Checks that pass, and the steps at which each fault of R82 is met. -/
def shapeOf (i : Instr) : Shape := (i.shape).getD { guard := .always, form := .unif, runs := .both, uses := [], defs := [], result := false, typeOk := false, fieldOk := false }
theorem witness_FaultOrder :
    (let bad (o : FmtA) : Shape := shapeOf (.iadd o)
     let x : FmtA := { plainA with dst := .v 4, a := ofV 8 }
     !(bad { x with ty := .f32 }).typeOk && (bad x).typeOk && !(bad { x with ext := 1 }).fieldOk && (bad x).fieldOk &&
       !allocOk 16 (bad { x with dst := .v 16 }) && allocOk 16 (bad { x with dst := .v 15 }) &&
       !(inTrapOpts.priv s0.idle (curOf 1 0 3 (u64 codeVa) 0 regs0)) &&
       unitOk (shapeOf (.ld false oM)) 0 && !unitOk (shapeOf (.ld false oM)) spineWho &&
       stalls 0x10#64 (shapeOf (.snap { plainA with dst := .s 4, a := ofS 8 })) &&
       execLanes (bad { x with guard := .never }) (curOf 1 0 3 (u64 codeVa) 0 regs0) == 0 &&
       (let l : FmtA := { x with a := .latch 0 false false }
        latchFault {} (bad l) regs0 3 && execLanes (bad l) (curOf 1 0 3 (u64 codeVa) 0 regs0) != 0)) = true := by decide +kernel
/-- BAR of a detached warp, with a mask in a latch that is INVALID. -/
theorem witness_DetachedBarriers :
    (let i : Instr := .bar { plainB with mask := .latch 0 false false }
     let s := s0.modParty 1 0 fun p => { p with detached := true }
     match s.cur, s.pack 1, s.party 1 0 with
     | some r, some k, some p => (shapeOf i).typeOk && (shapeOf i).fieldOk && allocOk (pkVregs k.packet) (shapeOf i) && (optsOf i).priv s.idle r &&
         unitOk (shapeOf i) r.who && !stalls p.pending (shapeOf i) && execLanes (shapeOf i) r != 0 && p.detached &&
         latchFault {} (shapeOf i) r.regs (execLanes (shapeOf i) r)
     | _, _, _ => false) = true := by decide +kernel
/-- A k operand that is FULL, and one that is not. -/
theorem witness_SharedOperands :
    (let o : FmtA := { plainA with dst := .v 4, a := .reg (.k 2) false false }
     let c := curOf 1 0 3 (u64 codeVa) 0 regs0
     kOperands {} (shapeOf (.iadd o)) regs0 3 == [2] &&
       (match acquireK false [2] (withK s0 2 (full 1)).idle c with | .ok _ _ => true | _ => false) &&
       decide ((s0.kreg 1 2).st ≠ .full)) = true := by decide +kernel

/-- The warp with a handler at slot 1 of its line, and the same inside its handler. -/
def trapper : State :=
  let r := { regs0 with xvec := 0x10001, xpc := 0x10000 }
  stand r 3
def framed : State :=
  trapper.modParty 1 0 fun p => { p with intrap := true, frame := some { lanes := 3, xpc := u64 codeVa, latches := [] } }
def c0 : Cur := curOf 1 0 3 (u64 codeVa) 0 { regs0 with xvec := 0x10001, xpc := 0x10000 }
theorem witness_TrapEntry :
    (let f : Trap := trapOf cTrap 0 3
     match (haltPorts trapper c0).pack 1, (haltPorts trapper c0).party 1 0 with
     | some k, some p => p.regs.xvec != 0 && !p.intrap &&
         ((faultAt (haltPorts trapper c0) c0 f p).checkTarget (askerOf k.ctx p.place false) p.place.cluster p.regs.xvec).2.isNone
     | _, _ => false) = true ∧ Handled 0 (trapOf cTrap 0 3) := ⟨by decide +kernel, Or.inr (Or.inl rfl)⟩
theorem witness_CauseRegister : c0.port < 2 ∧ (trapOf 255 255 3).code < 256 ∧ (trapOf 255 255 3).sub < 256 ∧ (trapOf 1 0 3).detail < 2 ^ 16 := by
  decide
theorem witness_PageFaults : s0.port1 = none ∧ (s0.pack 1).isSome ∧ (s0.party 1 0).isSome ∧ (trapOf cPage 0 3).code = 0x0B := by
  decide +kernel
theorem witness_FatalFaults :
    (let s := { s0 with launches := [(1, { ctx := 0, packet := packet0, next := 1, left := 1, killed := 0, broken := false })] }
     s.port1.isNone && ((s.party 1 0).map fun p => decide (p.place.cluster < 96) && p.regs.xvec == 0) == some true &&
       ((s.pack 1).map fun k => (cget s.launches k.launch).isSome) == some true) = true ∧ ¬ Handled 0 (trapOf 0x0D 0 3) :=
  ⟨by decide +kernel, by simp [Handled, trapOf]⟩
/-- The spine thread without a vector, and a warp of its pack that lives. -/
theorem witness_FatalSpineFaults :
    (s1.port1.isNone && ((s1.pack 1).map fun k => k.state == .resident) == some true &&
      ((s1.party 1 spineWho).map fun p => !p.ended && p.regs.xvec == 0) == some true && ((s1.party 1 0).map fun p => p.ended) == some false &&
      (trapOf 0x0D 0 1).code != 0x0B) = true := by decide +kernel
theorem witness_Traps :
    (let o : FmtT := ⟨.always, .v 0, 0, 0, 0xFFFF, 0⟩
     Met {} (.trap o) trapper fun _ _ c k p =>
       let f : Trap := { trapOf 0x14 0 c.active with detail := o.code.toNat }
       p.regs.xvec != 0 && !p.intrap &&
         ((faultAt (haltPorts trapper.idle c) c f p).checkTarget (askerOf k.ctx p.place (c.who == spineWho)) p.place.cluster p.regs.xvec).2.isNone) =
    true := by decide +kernel
theorem witness_ReturnFromTrap :
    (let back (i : Instr) (f : Word64 → Word64) : Bool := Met inTrapOpts i framed fun _ _ c k p =>
       match p.frame with
       | some x => x.lanes &&& p.live &&& ~~~c.lanes == 0 &&
           (framed.idle.checkTarget (askerOf k.ctx p.place (c.who == spineWho)) p.place.cluster (f c.regs.xpc)).2.isNone
       | none => false
     back (.rte plainB) id && back (.rteNext plainB) successor) = true := by decide +kernel
/-- A handler's frame with a live lane outside the issuing group, and no frame; a MIGRATE of a part of a warp, with a tag in use, and
with scratchpad. -/
theorem witness_ReturnAndMigrationFaults :
    (let some' := { framed with cur := framed.cur.map fun c => { c with lanes := 1, active := 1 } }
     let back (i : Instr) : Bool := Met inTrapOpts i some' fun _ _ c _ p => match p.frame with | some x => x.lanes &&& p.live &&& ~~~c.lanes != 0 | none => false
     let o : FmtM := { plainM with data := .s 4, base := ofS 8, index := ofConst 0x10 }
     let part := { s0 with cur := s0.cur.map fun c => { c with lanes := 1, active := 1 } }
     let tags := s0.modParty 1 0 fun p => { p with tags := [(2, 1)] }
     let away (s : State) (f : Cur → Party → Bool) : Bool := Met {} (.migrate o) s fun _ _ c _ p => !c.again && f c p
     back (.rte plainB) && back (.rteNext plainB) &&
       (match (Instr.rte plainB).shape, (trapper.party 1 0) with
        | some sh, some p => sh.typeOk && sh.fieldOk && allocOk (pkVregs packet0) sh && p.frame.isNone | _, _ => false) &&
       away part (fun c p => p.live &&& ~~~c.lanes != 0) && away tags (fun c p => p.live &&& ~~~c.lanes == 0 && p.tags != []) &&
       away s0 (fun c p => p.live &&& ~~~c.lanes == 0 && p.tags == []) && ((s0.spad 1 0).map (·.size)) == some 4096) = true := by decide +kernel
theorem witness_SpecialRegisterMoves :
    (Fits {} (.mfs { plainA with dst := .v 4, a := .reg (.special .laneid) false false, ty := .u32 }) s0 &&
      settings.all fun e => Fits {} (.mts { plainA with dst := .special e.1, a := ofS 8, ty := .u64 }) s0) = true := by decide +kernel
/-- An address on the warp's own die, one on another die with and without pending tokens, and a landing that is served. -/
theorem witness_Migration :
    (let o : FmtM := { plainM with data := .s 4, base := ofS 8, index := ofConst 0x10 }
     let far (p : Party) : State := { package p (warp0 Regs.zero 1) (curOf 1 0 3 (u64 codeVa) 0 regs0) with
       tlb := [⟨quadUnit (codePlace 0), 0, codeVa, 16, u64 (codeVa + 2 ^ 56 + 2 ^ 36 + 0x1F)⟩] }
     let bare (s : State) : State := s.modPack 1 fun k => { k with spads := [(0, { spad0 with size := 0 })] }
     let away (s : State) (d : Nat) (free : Bool) : Bool := Met {} (.migrate o) s fun _ _ c _ p =>
       !c.again && p.live &&& ~~~c.lanes == 0 && p.tags == [] && (p.pending == 0) == free &&
         match translate s.idle (s.asker c) (address o s c none).toNat .read with
         | (a, .ok pa e) => !a.lost pa && pteHome e % 8 == d
         | _ => false
     Met {} (.migrate o) (resumed (bare s0) [5]) (fun _ _ c _ _ => c.again && (resumed (bare s0) [5]).servedFor c == some [5]) &&
       away (bare s0) 0 true && away (bare (far (warp0 regs0 3))) 1 true &&
       away (bare (far { warp0 regs0 3 with pending := 0x100000 })) 1 false) = true := by decide +kernel
def landingState : State :=
  let s := s0.modDie 1 fun d => { d with landing := [(1, 0)] }
  s.modParty 1 0 fun p => { p with life := .migrating 1, detached := true }
theorem witness_MigrationLanding :
    ((landingState.die 1).status != .offline && (landingState.die 1).landing == [(1, 0)] &&
      ((landingState.party 1 0).map (·.life)) == some (.migrating 1) && (landingState.landingPlace 1 (pkVregs packet0)).isSome) = true := by
  decide +kernel
theorem witness_TlbInvalidation :
    (invalidations.all fun e => [oMU, { plainM with data := .s 4 }].any fun o => Fits firmwareOpts (e.1 o) s0) = true := by decide +kernel
theorem witness_Snapshots :
    (let o : FmtA := { plainA with dst := .s 4, a := ofS 8 }
     let on := s0.setContext 0 { s0.context 0 with snap := true }
     Met {} (.snap o) s0 (fun _ _ _ k _ => !(s0.context k.ctx).snap) && Met {} (.snap o) on (fun _ _ _ k _ => (on.context k.ctx).snap && !on.triggered) &&
       Met {} (.snap o) { on with triggered := true } (fun _ _ _ k _ => (on.context k.ctx).snap)) = true := by decide +kernel

/-! ### Monitors, queries, lane copies and groups (spec/12, spec/07) -/

def oWait : FmtM := { plainM with data := .s 4, size := 3, base := ofS 8, order := 1, index := ofConst 0x10 }
/-- The word waited on: 8 bytes at 0x10400, which the warp waits to differ from 0. -/
def watch0 : Monitor :=
  { pa := 0x10400, wide := true, cmp := .ne, mask := BitVec.allOnes 64, exp := 0, scope := 4, ctx := 0, pack := 1, who := 0, lanes := 3,
    woken := false, overflow := false }
def standing : Group := ⟨u64 codeVa, 3, some { regs := regs0, served := none, kvals := [], kept := [], probed := none, port := 0 }, false⟩
def parked : State :=
  { s0 with monitors := [watch0], packs := [(1, pack0 { warp0 regs0 3 with groups := [standing] } (warp0 Regs.zero 1))] }
/-- The condition holds at once; does not; the group has been woken. -/
theorem witness_MonitorWaits :
    (let s : State := stand { regs0 with s := [(5, BitVec.allOnes 64), (8, 0x10400)] } 3
     let t := s.putHome 0x10400 [1]
     let woken := resumed parked [5, 0]
     let ok (s : State) (c : Cur) (k : Pack) (met : Bool) : Bool :=
       match access s.idle (s.asker c) (address oWait s c none) 8 .read .home with
       | (a, .ok pa) => (match a.target pa with | .dram _ => true | _ => false) && !c.again &&
           (let b := a.correct pa 8
            let m := watch .ne oWait b c k.ctx pa
            (((u64 (b.readNat pa 8) &&& m.mask) != (m.exp &&& m.mask)) == met))
       | _ => false
     Met {} (.waitc .ne oWait) t (fun _ _ c k _ => ok t c k true) && Met {} (.waitc .ne oWait) s (fun _ _ c k _ => ok s c k false) &&
       Met {} (.waitc .ne oWait) woken (fun _ _ c _ _ => c.again && woken.servedFor c == some [5, 0])) = true := by decide +kernel
theorem witness_MonitorWakes :
    (let s := parked.putHome 0x10400 [1]
     s.monitors == [watch0] && (u64 (s.readNat 0x10400 8) &&& watch0.mask) != (watch0.exp &&& watch0.mask) && (s.party 1 0).isSome &&
       ((s.pack 1).map (·.state)) == some .resident) = true := by decide +kernel
/-- An overflow entry whose word a write meets or misses, and one that moves in when a slice entry is freed. -/
theorem witness_MonitorOverflow :
    (let m : Monitor := { watch0 with overflow := true }
     let s := { (parked.putHome 0x10400 [1]) with monitors := [m] }
     let two := { s with monitors := [{ watch0 with pack := 2 }, m] }
     let gone (x : Monitor) : Bool := x.pack == 2
     s.homeDie m.pa == s.homeDie 0x10800 && m.pa / 2 ^ 21 == 0x10800 / 2 ^ 21 && (m.cmp == .ne) && (watched s m &&& m.mask) != (m.exp &&& m.mask) &&
       (watched { parked with monitors := [m] } m &&& m.mask) == (m.exp &&& m.mask) && ((s.pack 1).map (·.state)) == some .resident &&
       (s.party 1 0).isSome && !gone m && (two.monitors.any fun (x : Monitor) => gone x && !x.overflow && s.sliceOf x.pa == s.sliceOf m.pa) &&
       two.monitors.length < 256 &&
       two.monitors.all fun (x : Monitor) => !x.same m || x == m) = true := by decide +kernel
theorem witness_ParkedWarpEviction :
    ((parked.party 1 0).map fun p => !p.evicted && p.life == .running && p.live != 0 && p.groups.all fun g =>
      parked.monitors.any fun m => m.pack == 1 && m.who == 0 && m.lanes == g.lanes && !m.woken) = some true := by decide +kernel
theorem witness_MonitorCancels :
    (let o : FmtA := { plainA with dst := .s 4, a := ofS 8, b := ofS 12 }
     Met {} (.waitx o) { s0 with monitors := [watch0] } fun _ _ c _ _ =>
       match (access s0.idle (s0.asker c) (u64 (word .w64 s0 c none o.a)) 1 .read .nothing).2 with | .ok _ => true | .error _ => false) = true := by
  decide +kernel
theorem witness_TranslationQueries : Fits {} (.xlate { plainM with data := .v 4, size := 4, base := ofV 8 }) s0 = true := by decide +kernel

def oLane : FmtM := { plainM with data := .v 4, size := 5, base := ofV 8 }
/-- Copies of 32 bytes to the last line of the allocation, and a tag that counts 255. -/
theorem witness_LaneCopies :
    (let s := stand { Regs.zero with v := [(4, 4064), (5, 32), (8, 0x10400), (260, 4032), (261, 32), (264, 0x10420)] } 3
     let t := s.modParty 1 0 fun p => { p with tags := [(2, 255)] }
     Met {} (.lcopy 2 oLane) s (fun _ _ c _ p => !p.detached && rd 0 p.tags 2 != 255 &&
       (let r := lcopyChecks (s.asker c) spad0 c ((lanesOf c.active).map fun l => (some l, address oLane s c (some l),
          min (readSpec s c none .w64 (some l) oLane.data / 2 ^ 32 % 64) 32, readSpec s c none .w64 (some l) oLane.data % 2 ^ 32)) s.idle
        r.2.2.isEmpty && r.2.1.length == 2)) &&
       Met {} (.lcopy 2 oLane) t (fun _ _ _ _ p => rd 0 p.tags 2 == 255)) = true := by decide +kernel
/-- A destination beyond the allocation for lane 1; a detached warp. -/
theorem witness_LaneCopyFaults :
    (let s := stand { Regs.zero with v := [(4, 4064), (5, 32), (8, 0x10400), (260, 4096), (261, 32), (264, 0x10420)] } 3
     Met {} (.lcopy 2 oLane) s fun _ _ c _ p => !p.detached && (s.spad c.pack 0) == some spad0 && rd 0 p.tags 2 != 255 &&
       ((lcopyChecks (s.asker c) spad0 c ((lanesOf c.active).map fun l => (some l, address oLane s c (some l),
          min (readSpec s c none .w64 (some l) oLane.data / 2 ^ 32 % 64) 32, readSpec s c none .w64 (some l) oLane.data % 2 ^ 32)) s.idle).2.2.map
            fun f => f.1) == [1]) = true ∧
      Met {} (.lcopy 2 oLane) (s0.modParty 1 0 fun p => { p with detached := true }) (fun _ _ _ _ p => p.detached) = true :=
  ⟨by decide +kernel, by decide +kernel⟩
theorem witness_LaneCopyLanding :
    (let s := (s0.modPack 1 fun k => { k with lcopies := [{ who := 0, tag := 2, hint := 0, lanes := 1, moves := [(0x10400, 32, 4064)], lapsed := false }] }).modParty
       1 0 fun p => { p with tags := [(2, 1)] }
     ((s.pack 1).map fun k => k.state == .resident && (k.lcopies[0]?).isSome) == some true && (s.spad 1 0).isSome &&
       ((s.party 1 0).map (·.life)) == some .running) = true := by decide +kernel

/-- The warp is the member of index 0 of group 5, whose handle is in h1; the spine thread, of index 1, has arrived. -/
def member0 : Member :=
  { pack := 1, who := 0, index := 0, since := 0, mask := 3, pending := false, lanes := 0, arrived := false, contrib := none, waits := [] }
def member1 : Member := { member0 with who := spineWho, index := 1, mask := 1, lanes := 1, arrived := true, contrib := some 4 }
def group0 (ms : List Member) : GroupEntry := { GroupEntry.zero with st := .opened, gen := 3, members := ms }
def grouped (x : GroupEntry) : State := (stand { regs0 with h := [(1, 0x3005)], s := [(12, 3)] } 3).setGroup 5 x
def oG : FmtA := { plainA with dst := .s 4, a := ofH 1, b := ofS 12, ty := .u64 }
def operandsG : List FmtA :=
  [oG, { oG with ty := .i32 }, { oG with ty := .u32 }, { oG with b := ofV 0, ty := .i32 }, { oG with b := ofConst 0x10 }]
def AcceptsG (f : FmtA → Instr) (s : State) (g : FmtA → Cur → Pack → Party → Bool) : Bool :=
  operandsG.any fun o => Met {} (f o) s fun _ _ c k p => g o c k p

/-- Each sub-code of HND.GROUP, and a phase of another kind. -/
theorem witness_GroupHandles :
    (let t (h : Word64) : State := { stand { regs0 with h := [(1, h)] } 3 with groups := [(5, group0 [])] }
     let codes (h : Word64) (sub : Nat) : Bool := ([Instr.gjoin, .gleave, .gstat, .gclose] ++ arrivals.map (·.i)).all fun f =>
       AcceptsG f (t h) fun o c k _ => !c.again && handleFault (t h) k.ctx (handle o (t h) c) == some sub
     let s := grouped { group0 [member0] with kind := some 0 }
     codes 0 4 && codes 0x1003005 2 && codes 0x4005 1 && arrivals.all fun e => AcceptsG e.i s fun o c k _ =>
       handleFault s k.ctx (handle o s c) == none && kindNow (s.group 5) (some member0) == some 0 && e.kind o != 0) = true := by
  decide +kernel
/-- A name that is new, and one that is open; every die is online, so a name is homed on its own die. -/
theorem witness_GroupOpening :
    (let o : FmtA := { plainA with dst := .h 2, a := ofS 8 }
     Fits {} (.gopen o) s0 && ((List.range 8).all fun d => (s0.die d).status == .online) && (s0.group 0).st == .free) = true := by decide +kernel
theorem witness_GroupMembership :
    (let s := grouped (group0 [])
     let m := grouped (group0 [member0])
     let z := grouped { group0 [member0] with st := .closing }
     let ok (s : State) (o : FmtA) (c : Cur) (k : Pack) (mine : Bool) : Bool :=
       handleFault s k.ctx (handle o s c) == none && entryOf o s c == 5 && ((s.group 5).mine c).isSome == mine
     AcceptsG .gjoin s (fun o c k p => ok s o c k false && (u64 (word .w64 s c none o.b) &&& p.live) != 0 &&
       decide ((s.groupsOf c.pack c.who).length < 8)) &&
       AcceptsG .gjoin m (fun o c k _ => ok m o c k true) && AcceptsG .gjoin z (fun o c k _ => ok z o c k true && (z.group 5).st == .closing) &&
       AcceptsG .gleave s (fun o c k _ => ok s o c k false) && AcceptsG .gleave m (fun o c k _ => ok m o c k true)) = true := by decide +kernel
/-- Arrivals of a party that is no member, of a member that completes the phase or waits, and of one that has been served. -/
theorem witness_GroupArrivals :
    (let s := grouped (group0 [])
     let alone := grouped (group0 [member0])
     let two := grouped (group0 [member0, { member1 with arrived := false, lanes := 0 }])
     arrivals.all fun e =>
       AcceptsG e.i s (fun o c k _ => handleFault s k.ctx (handle o s c) == none && !c.again) &&
       AcceptsG e.i (resumed alone [4, 0]) (fun _ c _ _ => c.again && (resumed alone [4, 0]).servedFor c == some [4, 0]) &&
       ([alone, two].all fun s => AcceptsG e.i s fun o c k _ => handleFault s k.ctx (handle o s c) == none && !c.again &&
         ((s.group 5).mine c) == some member0 && member0.mask &&& c.lanes != 0 &&
         ((((s.idle.enterWait c).setGroup 5 (recorded (s.group 5) member0 (e.kind o) c (e.contrib o s c))).advance 5).servedFor c).isSome ==
           (s == alone))) = true := by decide +kernel
theorem witness_GroupDepartures :
    (((grouped (group0 [{ member0 with waits := [3] }, member1])).group 5).members.find? fun y => y.pack == 1 && y.who == 0) =
      some { member0 with waits := [3] } := by decide +kernel
theorem witness_PhaseCompletion :
    (let s := grouped (group0 [{ member0 with lanes := 3, arrived := true, contrib := some 2 }, member1])
     ((s.group 5).members.filter fun m => !m.pending).length == 2 && (s.group 5).members.all (s.memberArrived ·)) = true := by decide +kernel
theorem witness_GroupStatusAndClosing :
    (let ok (s : State) (o : FmtA) (c : Cur) (k : Pack) : Bool := handleFault s k.ctx (handle o s c) == none && entryOf o s c == 5
     [grouped (group0 []), grouped (group0 [member0]), grouped { group0 [member0] with st := .closing }].all fun s =>
       AcceptsG .gstat s (fun o c k _ => ok s o c k) && AcceptsG .gclose s (fun o c k _ => ok s o c k)) = true := by decide +kernel

/-! ### The streamer and the plane engines (spec/09, spec/10) -/

/-- A valid layout entry of context 0: 16 elements of 32 bits in one row at 0x10400; as handle 7. -/
def entry0 : BitVec 512 :=
  BitVec.ofNat 512 (0x10400 + 16 * 2 ^ 0x100 + 2 ^ 0x118 + 2 ^ 0x130 + 2 ^ 0x148 + 2 ^ 0x160 + 15 * 2 ^ 0x178 + 0x16 * 2 ^ 0x1A0 +
    0x80 * 2 ^ 0x1A8)
def sStream : State := { standSpine { Regs.zero with s := [(8, 7)] } with layout := [(7, entry0)] }
def oE : FmtE := { plainE with token := .s 4, s1 := ofS 8, s2 := ofS 12, s3 := ofS 16 }
def mayProduce (k : Pack) (who : Nat) : Bool :=
  if pkProdw k.packet then who != spineWho && who % 16 == pkPwarp k.packet else who == spineWho
def passes (s : State) (x : Command) (c : Cur) (k : Pack) (p : Party) (f : State → Copy → Bool) : Bool :=
  match probeCmd k p (x.copy oE s.idle c k) (x.list oE s c) s.idle c with | (a, .pass y) => f a y | _ => false
/-- The first piece of the copy that SCOPY enters, in its queue. -/
def copying : State :=
  match probeCmd (pack0 (warp0 Regs.zero 1) (warp0 { Regs.zero with s := [(8, 7)] } 1)) (warp0 { Regs.zero with s := [(8, 7)] } 1)
      (copyOf oE .g2s false none (pack0 (warp0 Regs.zero 1) (warp0 { Regs.zero with s := [(8, 7)] } 1)) sStream.idle
        (curOf 1 spineWho 1 (u64 codeVa) 0 { Regs.zero with s := [(8, 7)] })) none sStream.idle
      (curOf 1 spineWho 1 (u64 codeVa) 0 { Regs.zero with s := [(8, 7)] }) with
  | (a, .pass y) => a.modCluster 0 fun x => { x with copies := [y] }
  | (a, _) => a

/-- A party without the right, one that is detached, and a handle without an entry. -/
theorem witness_StreamerFaults :
    ((probes :: copies).all fun e =>
      Met {} (e.i oE) { sStream with cur := some (curOf 1 0 1 (u64 codeVa) 0 Regs.zero) } (fun _ _ c k p => !p.detached && !mayProduce k c.who) &&
      Met {} (e.i oE) s1 (fun _ _ c k p => !p.detached && mayProduce k c.who && layoutSub k.ctx (e.copy oE s1.idle c k) == some 1)) = true := by
  decide +kernel
/-- The same copy from the scratchpad and from one entry to the other, with a join slot. -/
def copyingAs (f : Copy → Copy) : State :=
  copying.modCluster 0 fun x => { x with copies := x.copies.map f }
/-- A queue with room, at its last place and full, for a command that is probed and for one that has waited with its probe
made; a slot that is FREE, one of the pack and one of another pack. -/
theorem witness_CopyCommands :
    (let fill (n : Nat) : State := match (copying.cluster 0).copies with
       | y :: _ => sStream.modCluster 0 fun x => { x with copies := List.replicate n y }
       | [] => sStream
     (copies.all fun e => [(sStream, 0), (fill 63, 63), (fill 64, 64)].all fun s =>
       Met {} (e.i oE) s.1 fun _ _ c k p => passes s.1 e c k p fun a _ => (a.cluster k.cluster).copies.length == s.2 &&
         (cget (a.cluster k.cluster).joins 0).isNone) && (match (copying.cluster 0).copies with
        | y :: _ =>
          let j : Join := { owner := 1, n := 1, f := false, cmd := none, go := false }
          copies.all fun e => [(sStream, none), (fill 64, none), (sStream, some j), (sStream, some { j with owner := 2 })].all fun s =>
            let z := { y with join := e.join oE, kind := e.kind oE, rows := [0] }
            let a := s.1.modCluster 0 fun x => { x with joins := match s.2 with | some x => [(0, x)] | none => [] }
            let b := match a.cur with | some c => { waitsWith a c z with cur := some { c with again := true } } | none => a
            Met {} (e.i oE) b fun _ _ c _ _ => b.idle.keptCopy c == some z && z.ended.isNone
        | [] => false)) = true := by decide +kernel
theorem witness_ProbeOutcomes :
    (let gone := { sStream with layout := [(7, entry0)], tlb := [⟨0, 0, codeVa, 16, u64 (codeVa + 2 ^ 41 + 0x1F)⟩, ⟨100, 0, codeVa, 16, u64 (codeVa + 2 ^ 41 + 0x1F)⟩] }
     let lacks := sStream.modPack 1 fun k => { k with spads := [(0, { spad0 with emptyLines := [0] })] }
     Met {} (.sprobe oE) sStream (fun _ _ c k p => passes sStream probes c k p fun _ _ => true) &&
       Met {} (.sprobe oE) gone (fun _ _ c k p => match probeCmd k p (probes.copy oE gone.idle c k) none gone.idle c with
         | (_, .absent _) => true | _ => false) &&
       Met {} (.sgath oE) lacks (fun _ _ c k p =>
         match probeCmd k p (copyOf oE .gath false none k lacks.idle c) (some (0, 1)) lacks.idle c with | (_, .wait _) => true | _ => false)) =
    true := by decide +kernel
theorem witness_RowElements : lyW entry0 = 8 * 4 ∧ (spanOf entry0 [0, 0, 0, 0, 0] [0, 0, 0, 0]).isSome = true ∧
    (spanOf entry0 [15, 0, 0, 0, 0] [0, 0, 0, 0]).isSome = true ∧ spanOf entry0 [0, 1, 0, 0, 0] [0, 0, 0, 0] = none := by decide +kernel
/-- The last piece of the copy, and the one row of the copies into global memory. -/
theorem witness_PieceLanding :
    ([(copying, 3), (copyingAs fun y => { y with kind := .s2g }, 0), (copyingAs fun y => { y with kind := .g2g, entry2 := y.entry }, 0),
      (copyingAs fun y => { y with kind := .scat, coords := [0], rows := [0] }, 0)].all fun e =>
      match (e.1.cluster 0).copies with
      | [y] => y.id == 1 && y.npieces == e.2 + 1 && e.1.mayLand y e.2 && ((e.1.pack 1).map (·.state)) == some .resident &&
          (y.toPad || match y.span y.target e.2 with | some g => decide ((rangePieces g.va g.n).length ≤ 1) | none => false) &&
          (match pageCheck (askerCluster 0 0) .read (y.sides e.2).1 e.1 with
           | (a, .go) => (match pageCheck (askerCluster 0 0) .write (y.sides e.2).2 a with
             | (b, .go) => y.kind == .g2g || (b.spad y.pack y.wg).isSome | _ => false)
           | _ => false)
      | _ => false) = true := by decide +kernel
/-- A copy that has landed whole and one that was cancelled, without a slot and with one: its last copy, not its last, one with a
command, whose token receives JOIN when a copy failed; a slot that another pack has now. -/
theorem witness_CopyCompletion :
    (let j : Join := { owner := 1, n := 1, f := false, cmd := none, go := false }
     let cmd : EngCmd := { (engCmdOf oE .mplane false sStream.idle (curOf 1 spineWho 1 (u64 codeVa) 0 regs0)) with token := 9 }
     [none, some j, some { j with n := 2, cmd := some cmd }, some { j with cmd := some cmd }, some { j with f := true, cmd := some cmd },
       some { j with owner := 2 }].all fun x =>
       [none, some 1].all fun w =>
         let s := (copyingAs fun y => { y with landed := [3, 2, 1, 0], bytes := 64, ended := w, join := x.map fun _ => 0 }).modCluster 0
           fun y => { y with joins := match x with | some x => [(0, x)] | none => [] }
         match (s.cluster 0).copies with
         | [z] => decide (z.npieces ≤ z.landed.length) && z.ended != some 0 && decide (z.token < 64) && cget (s.cluster 0).joins 0 == x &&
             ((s.pack 1).map (·.state)) == some .resident && ((s.party z.pack z.who).map (·.life)) == some .running
         | _ => false) = true := by decide +kernel
theorem witness_CopyCancelling :
    (Met {} (.scancel { plainE with token := .s 4 }) { copying with cur := sStream.cur } fun _ _ c k p => !p.detached && mayProduce k c.who) = true := by
  decide +kernel

/-- A pack whose scratchpad holds the operands of every engine command; with a command entered; and with a baton ring. -/
def rEng : Regs := { Regs.zero with s := [(8, 0x0006000000000000), (12, 0x0009800000090000), (16, 1)] }
def sEngine : State := (standSpine rEng).modPack 1 fun k => { k with spads := [(0, { spad0 with size := 0x400000 })] }
def cmd0 (op : EngOp) (bc : Bool) : EngCmd := engCmdOf oE op bc sEngine.idle (curOf 1 spineWho 1 (u64 codeVa) 0 rEng)
def batonPacket : BitVec 1024 := packet0 ||| BitVec.ofNat 1024 (2 ^ 26 * 2 ^ 128)
def sBaton (b : Baton) : State :=
  (stand rEng 3).modPack 1 fun k => { k with packet := batonPacket, batons := [(0, b)], spads := [(0, { spad0 with size := 0x400000 })] }

/-- A slot that is FREE, one of the pack with and without copies, a failed one, and one of another pack. -/
theorem witness_JoinSlots :
    (let at' (x : Option Join) : State := sEngine.modCluster 0 fun y => { y with joins := match x with | some x => [(0, x)] | none => [] }
     let j : Join := { owner := 1, n := 0, f := false, cmd := none, go := false }
     let go : Join := { j with cmd := some (cmd0 .mplane false), go := true }
     ([none, some j, some { j with n := 255 }, some { j with f := true }, some { j with owner := 2 }, some go].all fun x =>
       Met {} (.scpmxArm oE) (at' x) fun _ _ c k p => !p.detached && mayProduce k c.who &&
         (engTrap k c (engCmdOf oE .mplane (oE.armSub == 1) (at' x).idle c)).isNone && cget ((at' x).cluster k.cluster).joins oE.slot == x) &&
       (match (at' (some go)).pack 1 with | some k => k.state == .resident && (at' (some go)).engRoom k (cmd0 .mplane false) | none => false)) =
    true := by decide +kernel
/-- A detached party, one without the right, one that does not hold the baton, the holder with a broadcast, and regions that do not
fit. -/
theorem witness_JoinFaults :
    (let o (bc : Bool) : FmtE := { oE with mid := if bc then 8 else oE.mid }
     let i (bc : Bool) : Instr := .scpmxArm (o bc)
     let warp (b : Baton) : State := (sBaton b).modPack 1 fun k => { k with packet := k.packet ||| BitVec.ofNat 1024 (2 ^ (128 + 21)) }
     let mine : Baton := { holder := 0, taken := true, members := [0, 1], waits := [] }
     let holds (k : Pack) : Bool := match cget k.batons 0 with | some b => b.holder == 0 | none => false
     Met {} (i false) (sEngine.modParty 1 spineWho fun p => { p with detached := true }) (fun _ _ _ _ p => p.detached) &&
       Met {} (i false) (stand rEng 3) (fun _ _ c k p => !p.detached && !mayProduce k c.who) &&
       Met {} (i false) (warp { mine with holder := 1 }) (fun _ _ c k p => !p.detached && mayProduce k c.who && pkBaton k.packet && !holds k) &&
       Met {} (i true) (warp mine) (fun _ _ c k p => !p.detached && mayProduce k c.who && pkBaton k.packet && holds k && (o true).armSub == 1) &&
       Met {} (i false) s1 (fun _ _ c k p => !p.detached && mayProduce k c.who && !pkBaton k.packet &&
         (engCheck k (engCmdOf (o false) .mplane false s1.idle c)).isSome)) = true := by decide +kernel
/-- MZERO has no second source. -/
def oEng (op : EngOp) : FmtE := if op = .mzero then { oE with s2 := ofV 0 } else oE
/-- Without a baton ring and with one: the spine thread does not hold it, workgroup 0 does; queues with room and full. -/
theorem witness_EngineCommands :
    (engines.all fun e =>
      let full := sEngine.modCluster 0 fun y => { y with cmds := List.replicate 16 (cmd0 .mzero false) }
      [(sEngine, true), (full, false)].all (fun s => Met {} (e.1 (oEng e.2.1)) s.1 fun _ _ c k p => !p.detached && (engSync k c.who e.2.2).isNone &&
        (engCheck k (engCmdOf (oEng e.2.1) e.2.1 e.2.2 s.1.idle c)).isNone && s.1.engRoom k (engCmdOf (oEng e.2.1) e.2.1 e.2.2 s.1.idle c) == s.2) &&
      Met {} (e.1 (oEng e.2.1)) s1 (fun _ _ c k p => !p.detached && (engSync k c.who e.2.2).isNone &&
        (engCheck k (engCmdOf (oEng e.2.1) e.2.1 e.2.2 s1.idle c)).isSome) &&
      Met {} (e.1 (oEng e.2.1)) (sBaton { holder := 1, taken := false, members := [0, 1], waits := [] }) (fun _ _ c k _ => pkBaton k.packet && c.who == 0) &&
      Met {} (e.1 (oEng e.2.1)) (sBaton { holder := 0, taken := true, members := [0, 1], waits := [] }) fun _ _ c k _ => pkBaton k.packet &&
        (engSync k c.who e.2.2).isSome == e.2.2) = true := by decide +kernel
/-- A command that waits for its queues and is tried again: with room, without, and behind one that came before it; a detached party. -/
theorem witness_EngineCommands_waiting :
    (engines.all fun e =>
      let o := oEng e.2.1
      let x (n : Nat) : EngCmd := { engCmdOf o e.2.1 e.2.2 sEngine.idle (curOf 1 spineWho 1 (u64 codeVa) 0 rEng) with id := n }
      let at' (s : State) (l : List (EngCmd × Lanes)) : State := s.modCluster 0 fun y => { y with arrivals := l }
      let full := sEngine.modCluster 0 fun y => { y with cmds := List.replicate 16 (cmd0 .mzero false) }
      let again (s : State) : State := { s with cur := s.cur.map fun c => { c with again := true } }
      let ok (s : State) (room : Bool) : Bool := Met {} (e.1 o) s fun _ _ c k _ => c.again && s.arrived k.cluster c.pack c.who c.lanes == some (x 7) &&
        s.engRoom k (x 7) == room
      ok (again (at' sEngine [(x 7, 1)])) true && ok (again (at' full [(x 7, 1)])) false &&
        Met {} (e.1 o) (sEngine.modParty 1 spineWho fun p => { p with detached := true }) (fun _ _ c _ p => !c.again && p.detached) &&
        ((at' sEngine [(x 6, 0), (x 7, 1)]).modCluster 0 fun y => { y with joins := [(0, { owner := 1, n := 0, f := false, cmd := some (x 6), go := true })] }).comes 0 (x 6, 0)) = true := by decide +kernel
theorem witness_EngineRegions :
    (engines.all fun e => ((sEngine.pack 1).map fun k => (engCheck k (cmd0 e.2.1 e.2.2)).isNone) == some true) = true := by decide +kernel
/-- The first step, the last step and the completion of a command, and a step with an uncorrectable operand. -/
theorem witness_EngineSteps :
    (engineSteps.all fun e =>
      let x := cmd0 e.2 false
      let s (x : EngCmd) : State := sEngine.modCluster 0 fun y => { y with cmds := [x] }
      let bad : State := (s x).modPack 1 fun k => { k with spads := k.spads.map fun p => (p.1, { p.2 with bad := List.range 0x6000 }) }
      let may (s : State) (x : EngCmd) (unc : Bool) : Bool := match s.headCmd 0 0 with
        | some (k, y) => y == x && x.op == e.2 && !x.discard && !x.uncorr && decide (x.next < x.steps) && k.state == .resident && x.linesFull k &&
            x.uncOperand k == unc
        | none => false
      may (s x) x false && may (s { x with next := x.steps - 1 }) { x with next := x.steps - 1 } false && (e.2 == .mzero || may bad x true)) =
    true := by decide +kernel
theorem witness_EngineBytes : (cmd0 .mzero false).op = .mzero ∧ (cmd0 .mscale false).op = .mscale ∧ (cmd0 .mepil false).op = .mepil := by
  decide +kernel
theorem witness_EngineCompletion :
    (let x : EngCmd := { cmd0 .mplane false with next := (cmd0 .mplane false).steps }
     let s := sEngine.modCluster 0 fun y => { y with cmds := [x] }
     (s.headCmd 0 0).isSome && decide (x.steps ≤ x.next) && decide (x.token < 64) && ((s.party x.pack x.who).map (·.life)) == some .running) =
    true := by decide +kernel
/-- The holder, another workgroup, the only member and no baton; a waiting BTAKE whose workgroup holds it. -/
theorem witness_Batons :
    (let e : FmtE := { plainE with token := .s 4 }
     let b (h : Nat) (ms : List Nat) : Baton := { holder := h, taken := false, members := ms, waits := [(0, 3)] }
     let ok (s : State) (x : Option Baton) : Bool := [Instr.btake, .bpass].all fun f => Met {} (f e) s fun _ _ c k p =>
       !p.detached && !c.again && cget k.batons ((k.cores[c.who / 16]?).getD 0) == x
     ok (sBaton (b 0 [0, 1])) (some (b 0 [0, 1])) && ok (sBaton (b 1 [0, 1])) (some (b 1 [0, 1])) && ok (sBaton (b 0 [0])) (some (b 0 [0])) &&
       ok s0 none && Met {} (.btake e) (resumed (sBaton (b 0 [0])) [5]) (fun _ _ c _ _ => c.again && (resumed (sBaton (b 0 [0])) [5]).servedFor c == some [5]) &&
       ((b 0 [0]).waits.find? fun y => y.1 == 0) == some (0, 3)) = true ∧ follows [0, 1] 0 1 ∧ follows [0, 1] 1 0 :=
  ⟨by decide +kernel, ⟨by simp, Or.inl ⟨by decide, by simp⟩⟩, ⟨by simp, Or.inr ⟨by simp, by simp⟩⟩⟩
theorem witness_Batons_detached :
    (let s := (sBaton { holder := 0, taken := false, members := [0, 1], waits := [] }).modParty 1 0 fun p => { p with detached := true }
     [Instr.btake { plainE with token := .s 4 }, .bpass { plainE with token := .s 4 }].all fun i => Met {} i s fun _ _ _ _ p => p.detached) = true := by
  decide +kernel
/-- Formats and stored elements of one bit and more. -/
theorem witness_BlockDotProduct : ∀ c, c < 0x14 → 0 < 2 ^ (planeFmt c).bits := fun _ _ => Nat.two_pow_pos _

/-! ### Launches, tasks, FIFO banks (spec/11) -/

/-- One workgroup of one warp at 0x10000, one pack, no spine thread; the bytes of a packet at 0x10400. -/
def launch0 : BitVec 1024 := BitVec.ofNat 1024 (0x10000 * 2 ^ 64 + 1 * 2 ^ 256 + 1 * 2 ^ 288 + 1 * 2 ^ 320)
def sLaunch (w : BitVec 1024) : State := s0.putHome 0x10400 (bytesOf 128 w.toNat)
def oOne : FmtE := { plainE with token := .s 4, s1 := ofS 8 }
def reads (s : State) (c : Cur) (n : Nat) (acc : Acc) (k : Consumes := .home) : Option (State × Nat) :=
  match access s.idle (s.asker c) (field64 s c oOne.s1) n acc k with | (a, .ok pa) => some (a, pa) | _ => none
def readsPacket (s : State) (w : BitVec 1024) (c : Cur) (p : Party) (f : State → Nat → Bool) : Bool :=
  match reads s c 128 .read .near with
  | some (a, pa) => BitVec.ofNat 1024 (a.readNat pa 128) == w && f (readHere a p.place.cluster pa 128) (p.place.cluster / 12)
  | none => false

/-- A packet that makes a launch; one that fails a check. -/
theorem witness_Launches :
    (Met {} (.launch oOne) (sLaunch launch0) (fun _ _ c k p => !c.again && readsPacket (sLaunch launch0) launch0 c p fun b d =>
       (launchCode b d (pkOwner k.packet) launch0).isNone && (match launchProbe ((sLaunch launch0).asker c) launch0 b with
         | (x, none) => x.launchRoom d launch0 | _ => false)) &&
     Met {} (.launch oOne) (sLaunch 0) (fun _ _ c k p => readsPacket (sLaunch 0) 0 c p fun b d => (launchCode b d (pkOwner k.packet) 0).isSome)) =
    true := by decide +kernel
/-- Every status is the first one of some packet. -/
theorem witness_LaunchChecks :
    (let s := State.reset.modDie 7 fun d => { d with status := .draining }
     (launchCode s 0 false launch0).isNone && [(2 ^ 150, 0x10), (5 * 2 ^ 160, 0x11), (2 ^ 257, 0x12), (2 ^ 158, 0x13), (2 ^ 155, 0x14), (2 ^ 243, 0x15)].all fun e =>
       launchCode s 0 false (launch0 ||| BitVec.ofNat 1024 e.1) == some e.2) = true := by decide +kernel
theorem witness_LaunchCreation : (s0.packs.all fun e => decide (e.1 < s0.nextPack)) = true ∧ packCount launch0 = 1 := by decide +kernel

def task0 : Task := { ctx := 0, record := 0 }
/-- A queue that is absent, full and at its last place; counts of 2, 1 and 0 under TDONE. -/
theorem witness_TaskQueues :
    (let withQ (n : Nat) : State := s0.modCluster 0 fun x => { x with taskBank := some 9, tasks := List.replicate n task0 }
     [s0, withQ 2047, withQ 2048].all (fun s => Met {} (.taskq oOne) s fun _ _ c _ _ => (reads s c 64 .read .near).isSome) &&
       [0, 1, 2].all (fun n => let s := s0.putHome 0x10400 [BitVec.ofNat 8 n]
         Met {} (.tdone oOne) s fun _ _ c _ _ => field64 s c oOne.s1 != 0 && (match reads s c 128 .probeRead .nothing with
           | some (a, _) => (match access a (s.asker c) (field64 s c oOne.s1) 128 .probeWrite .nothing with
             | (b, .ok pa) => b.readNat pa 8 == n && !b.uncAt pa 8 | _ => false)
           | none => false)) &&
       Met {} (.tdone oOne) (stand Regs.zero 3) fun _ _ c _ _ => field64 (stand Regs.zero 3) c oOne.s1 == 0) = true := by decide +kernel
/-- The last 64 bytes of the allocation, with a task and with none, and with an EMPTY line. -/
theorem witness_TaskTaking :
    (let s := stand { Regs.zero with s := [(8, 4032)] } 3
     let t := s.modCluster 0 fun x => { x with taskBank := some 9, tasks := [task0] }
     let u := t.modPack 1 fun k => { k with spads := [(0, { spad0 with emptyLines := [31] })] }
     [s, t, u].all fun s => Met {} (.taskd oOne) s fun _ _ c k p => !p.detached && (field64 s c oOne.s1).toNat % 2 ^ 32 == 4032 &&
       ((s.spad c.pack 0).map (·.size)) == some 4096 &&
       ((s.cluster 0).tasks.all fun t => t.ctx == k.ctx && t.shape == pkWarps k.packet - 1) &&
       ((searchOrder p.place.cluster oOne.dir).head?.map (·.2)) == some 0) = true := by decide +kernel
theorem witness_SpilledTasks :
    (let s := (s0.modDie 0 fun d => { d with spill := [task0] }).modCluster 11 fun x => { x with taskBank := some 9, tasks := List.replicate 2047 task0 }
     (s.die 0).spill == [task0] && (s.cluster 11).taskBank.isSome && decide ((s.cluster 11).tasks.length < 2048)) = true := by decide +kernel
/-- A bank that the pack may not use, one that is no FIFO, and FIFOs with no element and with one. -/
theorem witness_FifoBanks :
    (let o : FmtA := { plainA with dst := .v 4, a := ofS 12 }
     let q : FmtA := { plainA with a := ofS 12, b := ofV 8 }
     let open' (s : State) : State := s.modPack 1 fun k => { k with packet := packet0 ||| BitVec.ofNat 1024 (4 * 2 ^ 192) }
     let fifo (n : Nat) : State := (open' s0).modCluster 0 fun x =>
       x.setBank 2 { mode := .fifo, bound := some 0, elems := List.replicate n 5 }
     let free (k : Pack) (s : State) (x : FmtA) (c : Cur) : Bool := (pkFifomask k.packet).testBit (fifoBank x s c) && (s.cluster 0).taskBank != some 2
     let st (s : State) (want : Bool) : Bool :=
       Met {} (.fdeq o) s (fun _ _ c k p => !p.detached && fifoBank o s c == 2 && free k s o c == want) &&
         Met {} (.fenq q) s fun _ _ c k p => !p.detached && fifoBank q s c == 2 && free k s q c == want
     st s0 false && st (open' s0) true && ((s0.cluster 0).bank 2).mode != .fifo &&
       [0, 1].all fun n => st (fifo n) true && (((fifo n).cluster 0).bank 2).elems.length == n) = true := by decide +kernel

/-! ### Batches and service calls (spec/11) -/

def row0 : Row := { entry := 0, reported := false }
/-- Context 0 has the group of its own, of key 256. -/
def batch0 (st : BatchState) (n : Nat) : Batch := { number := 1, group := 256, st, rows := List.replicate n row0 }
def poster0 : Poster := { ctx := 0, share := 0, pack := 1, flag := false, iter := 5 }
def sKelpie (ps : Cells Poster) (bs : List Batch) (r : Regs := { regs0 with s := [(8, 0x500000000), (12, 1), (16, 0)] }) : State :=
  (stand r 3).modDie 0 fun d => { d with posters := ps, batches := bs }
def oB : FmtE := { plainE with token := .s 4, s1 := ofS 8, s2 := ofS 12, s3 := ofS 16 }

/-- The poster of the pack and another pack's; iterations below, at and above the recorded one; 63 and 64 posters. -/
theorem witness_Posters :
    (let many (n : Nat) : State := sKelpie ((List.range n).map fun i => (i, poster0)) []
     let mine := sKelpie [(0, poster0)] []
     let late := sKelpie [(0, { poster0 with iter := 6 })] []
     let other := sKelpie [(0, { poster0 with pack := 2 })] []
     [many 0, many 63, many 64].all (fun s => Fits {} (.bqpostJoin { plainE with token := .s 4 }) s) &&
       [mine, late, other].all fun s =>
         Met {} (.bqpostStep oOne) s (fun _ _ c _ _ => (field64 s c oOne.s1).toNat % 64 == 0 && (field64 s c oOne.s1).toNat / 2 ^ 32 == 5) &&
         Fits {} (.bqpostLeave oOne) s && Fits {} (.bqpostRow oB) s) = true := by decide +kernel
/-- No OPEN batch, one, and 64 batches without one. -/
theorem witness_PostedRows :
    (let ps : Cells Poster := [(0, poster0)]
     [sKelpie ps [], sKelpie ps [batch0 .opened 255], sKelpie ps (List.replicate 64 (batch0 .taken 1))].all fun s =>
       Met {} (.bqpostRow oB) s fun _ _ c k p => (field64 s c oB.s1).toNat % 64 == 0 && p.place.cluster == 0 && s.shareKey k.ctx == 256 &&
         ((s.die 0).posters.any fun e => e.2.pack == c.pack && decide (e.2.ctx < 256))) = true := by decide +kernel
theorem witness_BatchClosing :
    (let s := sKelpie [(0, { poster0 with flag := true })] [batch0 .opened 1]
     (s.die 0).posters.all (fun e => s.shareKey e.2.ctx == 256 && e.2.flag) && (s.die 0).batches.any fun b =>
       b.group == 256 && b.st == .opened && !b.rows.isEmpty) = true := by decide +kernel
/-- No READY batch, one whose rows fit, one that does not fit, and EMPTY lines. -/
theorem witness_BatchTaking :
    (let at' (n : Nat) (bs : List Batch) (e : List Nat) : State :=
       (sKelpie [] bs { Regs.zero with s := [(8, n)] }).modPack 1 fun k => { k with spads := [(0, { spad0 with emptyLines := e })] }
     [at' 0 [] [], at' 1 [] [], at' 3968 [batch0 .ready 4] [], at' 3968 [batch0 .ready 5] [], at' 3968 [batch0 .ready 4] [31]].all fun s =>
       Met {} (.bqget oOne) s fun _ _ c k p => !p.detached && (s.spad c.pack 0).isSome && s.shareKey k.ctx == 256) = true := by decide +kernel
/-- A TAKEN batch whose last row is reported, one with another row, and no such batch. -/
theorem witness_RowReports :
    ([[batch0 .taken 1], [batch0 .taken 2], []].all fun bs =>
      let s := sKelpie [] bs { Regs.zero with s := [(8, 1), (12, 1)] }
      Met {} (.bqdone oB) s fun _ _ c k _ => s.shareKey k.ctx == 256 && (field64 s c oB.s1).toNat % 2 ^ 32 == 1 &&
        (field64 s c oB.s2).getLsbD 0) = true := by decide +kernel
theorem witness_AgentWords :
    (let s := { s0 with tlb := ⟨0, 0, codeVa, 16, codeEntry⟩ :: s0.tlb }
     let x : StatusWrite := { ctx := 0, va := 0x10400, word := 5, orIn := true }
     let y : StatusWrite := { x with ctx := 9 }
     (match translate s (askerDie 0 0) 0x10400 .write with | (a, .ok pa _) => !a.lost pa | _ => false) &&
       (match translate s (askerDie 9 0) 0x10400 .write with | (_, .fault c _ _) => c == 0x0B | _ => false) &&
       (match s.agentWord 0 x.ctx x.va x.word x.orIn with | (_, .done) => true | _ => false) &&
       (match s.agentWord 0 y.ctx y.va y.word y.orIn with | (_, .page _) => !s.asking 0 y.ctx y.va | _ => false)) = true := by decide +kernel

def call0 (fn : BitVec 16) (args : List Word64) : SvcCall := { ctx := 0, number := 1, fn, args, done := 0x10480, answer := none }
theorem witness_ServiceCalls :
    (let s := stand { Regs.zero with s := [(8, 0x30), (12, 0x10400), (16, 0x10480)] } 3
     let full := s.modCluster 0 fun x => { x with mailbox := List.replicate 32 (call0 0x30 []) }
     [(s, 0), (full, 32)].all fun e => Met {} (.svc oB) e.1 fun _ _ c _ p => !c.again &&
       match access e.1.idle (e.1.asker c) (field64 e.1 c oB.s2) 64 .read .near with
       | (a, .ok pa) =>
         let b := readHere a p.place.cluster pa 64
         (match access b (e.1.asker c) (field64 b c oB.s3) 8 .probeWrite .nothing with
          | (x, .ok _) => ((x.cluster 0).mailbox.filter fun m => m.answer.isNone).length == e.2
          | _ => false)
       | _ => false) = true := by decide +kernel
/-- For each function a call with its buffer there and a count within and above 16 MiB, with a handle that the context holds. -/
theorem witness_ServiceAnswers :
    (let s := { s0.setContext 0 { s0.context 0 with handles := [2, 3] } with tlb := ⟨0, 0, codeVa, 16, codeEntry⟩ :: s0.tlb }
     services.all fun e =>
       let args : List Word64 := if e.fn = 0x10 then [0x10400, 8] else if e.fn = 0x20 then [0x10400] else if e.fn = 0x22 ∨ e.fn = 0x21 then [0, 8, 0x10400]
         else [0, 0, 8, 0x10400]
       let m := call0 (BitVec.ofNat 16 e.fn) args
       (match probePieces (askerDie 0 0) e.acc (rangePieces (e.va m).toNat 8) s with | (_, none, false) => true | _ => e.fn == 0x12 || e.fn == 0x23) &&
         decide ((e.len m).getD (if e.fn ≤ 2 then (argOf m 2).toNat else 0) ≤ 16 * 2 ^ 20) &&
         (e.kind == 0 || (s.context 0).handles.contains (4 * (argOf m 0).toNat + e.kind))) = true := by decide +kernel
/-- A buffer that is not there: without a page, and without the right. -/
theorem witness_ServiceAnswers_fault :
    (let s (e : Word64) : State := { s0 with tlb := [⟨0, 0, codeVa, 16, e⟩] }
     let m (va : Word64) : SvcCall := call0 2 [0, 0, 1, va]
     let probe (s : State) (va : Word64) : Option LaneFault := (probePieces (askerDie 0 0) .read (rangePieces va.toNat 8) s).2.1
     (probe (s codeEntry) (argOf (m 0x90000000) 3)).map (·.code) == some 0x0B && (probe (s (codeEntry &&& ~~~8)) (argOf (m 0x10400) 3)).map (·.code) == some 0x0C &&
       probe (s codeEntry) (argOf (m 0x10400) 3) == none) = true := by decide +kernel
theorem witness_FirstCall : FirstCall (s0.modCluster 0 fun x => { x with mailbox := [call0 0x30 [15]] }) 0 0x30 (call0 0x30 [15]) :=
  ⟨rfl, rfl, [], [], by decide +kernel, by simp⟩
theorem witness_ServiceCompletion :
    (let s := s0.modCluster 0 fun x => { x with mailbox := [call0 0x30 [2], call0 0x31 []] }
     (s.cluster 0).mailbox == [call0 0x30 [2]] ++ call0 0x31 [] :: [] && (call0 0x31 []).answer.isNone &&
       !([0x0001, 0x0002, 0x0010, 0x0011, 0x0012, 0x0020, 0x0021, 0x0022, 0x0023, 0x0030].contains (call0 0x31 []).fn.toNat)) = true := by
  decide +kernel

/-! ### Sequence slots and sampling (spec/13) -/

/-- s8 holds the handle of slot 0 of context 0 with generation 1. -/
def regsSq : Regs := { regs0 with v := [(8, 7), (264, 9)], s := [(8, 0x1000), (12, 0x10400), (16, 2)] }
def slot0 : Slot := { Slot.zero with st := .opened, gen := 1, log2c := 2, lmin := 1, hist := [5, 6, 5] }
def sSlot (x : Slot) (r : Regs := regsSq) : State := (stand r 3).setSlot 0 x
def oSq : FmtA := { plainA with dst := .s 4, a := ofS 8, b := ofV 8, c := ofS 16, ty := .u32 }
/-- SQMATCH.LEN and SQCLOSE. -/
def oLen : FmtA := { plainA with dst := .s 4, a := ofS 8, ty := .u32 }
def oClose : FmtA := { plainA with dst := .s 4, a := ofS 8 }
def oSave : FmtA := { plainA with dst := .s 4, a := ofS 8, b := ofS 12, c := ofS 16 }
/-- What `Arrives` and `Serving` ask, for slot 0. -/
def arrives0 (o : FmtA) (s : State) (c : Cur) (k : Pack) (p : Party) : Bool :=
  !c.again && (p.groups.any fun g => g.lanes == c.lanes) && slotFault s k.ctx (handle o s c) == none &&
    slotNo (handle o s c) == 0 && (s.slot 0).queue == []
def served0 (o : FmtA) (s : State) (c : Cur) (k : Pack) (p : Party) : Bool :=
  arrives0 o s c k p && (s.slot 0).st == .opened && (s.slot 0).gen == (handle o s c).extractLsb' 12 8
theorem serving_of {o : FmtA} {s : State} {c : Cur} {k : Pack} {p : Party} (h : served0 o s c k p = true) : Serving o s c k p 0 (s.slot 0) := by
  simp only [served0, arrives0, Bool.and_eq_true, Bool.not_eq_true', beq_iff_eq, List.any_eq_true] at h
  obtain ⟨⟨⟨⟨⟨⟨h1, h2⟩, h3⟩, h4⟩, h5⟩, h6⟩, h7⟩ := h
  exact ⟨⟨h1, h2, h3, h4, rfl, h5⟩, h6, h7⟩

/-- The null handle, another context's, a slot of an OFFLINE die; a REBUILDING slot, a FREE slot and another generation; answers of a
unit; a queue of two requests. -/
theorem witness_SlotRequests :
    (let at' (h : Nat) : State := stand { regsSq with s := [(8, h), (12, 0x10400), (16, 2)] } 3
     let f (s : State) (sub : Option Nat) : Bool := Met {} (.sqclose oClose) s fun _ _ c k _ => !c.again && slotFault s k.ctx (handle oClose s c) == sub
     let g (s : State) : Bool := Met {} (.sqclose oClose) s fun _ _ c k p => arrives0 oClose s c k p
     let w : SlotWait := ⟨1, 0, 1, 1, .length⟩
     f (at' 0) (some 4) && f (at' (2 ^ 24 + 0x1000)) (some 2) && f ((at' 0x1000).modDie 0 fun d => { d with status := .offline }) (some 6) &&
       f (sSlot { slot0 with st := .rebuilding, queue := [w] }) none && g (sSlot Slot.zero) && g (sSlot { slot0 with gen := 2 }) &&
       (slotOps.all fun e => [oSq, { oLen with dst := .v 4 }, oLen, oSave, oClose].any fun o => Fits {} (e.1 o) (at' 0) && Fits {} (e.1 o) (sSlot Slot.zero) &&
         [[1, 0x0B, 0, 0x10400, 3, 4], [0, 5]].all fun ws => Met {} (e.1 o) (resumed (sSlot slot0) ws) fun _ _ c _ _ =>
           c.again && (resumed (sSlot slot0) ws).servedFor c == some ws) &&
       (let s := sSlot { slot0 with queue := [w, { w with gen := 2 }] }
        (s.slot 0).queue.length == 2 && (s.slot 0).st == .opened)) = true := by decide +kernel
/-- log2C of 11 and 12, and 12 where the die is not ONLINE and has nothing to give. -/
theorem witness_SlotOpeningAndClosing :
    (let o : FmtA := { plainA with dst := .h 2, a := ofS 8 }
     let at' (n : Nat) : State := stand { regsSq with s := [(8, n)] } 3
     [(at' 11, 11), (at' 12, 12), ((at' 12).modDie 0 fun d => { d with status := .offline }, 12)].all (fun e =>
       Met {} (.sqopen o) e.1 fun _ _ c _ p => (u64 (word .w64 e.1 c none o.a)).extractLsb' 0 5 == BitVec.ofNat 5 e.2 &&
         dieAsked (u64 (word .w64 e.1 c none o.a)) p.place.cluster == 0) &&
       Met {} (.sqclose oClose) (sSlot slot0) fun _ _ c k p => served0 oClose (sSlot slot0) c k p) = true := by decide +kernel
theorem witness_NoSlot (n : Nat) : ¬ Takes (s0.modDie 0 fun d => { d with status := .offline }) 0 12 n := by
  intro h
  exact absurd h.1 (by decide +kernel)
/-- What a die's pool holds is free (log 16): with room for one slot it supplies its lowest. -/
theorem witness_OpenedSlot (h : 65536 ≤ Config.poolBytes 0) : Takes s0 0 12 0 := by
  refine ⟨by decide +kernel, ?_, 0, by decide, by decide, by decide +kernel, fun m hm => absurd hm (Nat.not_lt_zero m)⟩
  show _ ≤ _
  rw [show ((List.range 1024).map fun j => if (s0.slot (1024 * 0 + j)).st = .free then 0 else 16 * 2 ^ (s0.slot (1024 * 0 + j)).log2c).sum = 0 from by
    decide +kernel]
  omega

/-- Counts of 0 and 2, a token that is too large, a slot that fills and one that does not, with an uncorrectable error and without;
a rebuild with tokens left and with none. -/
theorem witness_SequenceAppends :
    (let f (s : State) (n : Nat) : Bool := Met {} (.sqapp oSq) s fun _ _ c k p => served0 oSq s c k p && word .w32 s c none oSq.c % 32 == n
     let at' (n : Nat) : Regs := { regsSq with s := [(8, 0x1000), (16, n)] }
     f (sSlot { slot0 with hist := [5] } (at' 0)) 0 && f (sSlot { slot0 with hist := [5] }) 2 && f (sSlot slot0) 2 &&
       f (sSlot { slot0 with bad := true }) 2 && f (sSlot slot0 { (at' 1) with v := [(8, 2 ^ 24)] }) 1 &&
       [none, some (⟨1, 0, 3, 1, .append 1 [9]⟩, [9])].all fun w =>
         ((s0.setSlot 0 { slot0 with st := .rebuilding, rest := w }).slot 0).st == .rebuilding) = true := by decide +kernel
theorem witness_SequenceMatches :
    (let o : FmtA := { oLen with dst := .v 4, ext := 0x06004 }
     ([slot0, { slot0 with bad := true }].all fun x => Met {} (.sqmatch o) (sSlot x) (fun _ _ c k p => served0 o (sSlot x) c k p) &&
       Met {} (.sqmatchLen oLen) (sSlot x) (fun _ _ c k p => served0 oLen (sSlot x) c k p)) &&
       Met {} (.sqmatch o) (resumed (sSlot slot0) [0, 0x300000000, 7, 9]) fun _ _ c _ _ =>
         c.again && (resumed (sSlot slot0) [0, 0x300000000, 7, 9]).servedFor c == some (0 :: 0x300000000 :: [(7 : Word32), 9].map fun t => t.setWidth 64)) =
    true := by decide +kernel
/-- An image that is misaligned, one that is too large for its room, and one that is written, whole or up to an error. -/
theorem witness_SequenceImages :
    (let len := 160
     let at' (va n : Nat) (b : Bool) : State := sSlot { slot0 with bad := b } { regsSq with s := [(8, 0x1000), (12, va), (16, n)] }
     [(at' 0x10401 0 false, 1), (at' 0x10400 159 false, 2), (at' 0x10400 160 false, 3), (at' 0x10400 160 true, 3)].all fun e =>
       Met {} (.sqsave oSave) e.1 fun _ _ c k p =>
         let va := u64 (word .w64 e.1 c none oSave.b)
         let room := word .w64 e.1 c none oSave.c
         let b := (atSlot oSave (fun _ _ _ => .save va (u64 room)) e.1 c 0 (e.1.slot 0)).enterWait c
         served0 oSave e.1 c k p && 64 + 64 * ((4 * (e.1.slot 0).hist.length + 63) / 64) + 8 * 2 ^ (e.1.slot 0).log2c == len && match e.2 with
           | 1 => va.toNat % 64 != 0
           | 2 => va.toNat % 64 == 0 && room < len
           | _ => va.toNat % 64 == 0 && len ≤ room &&
             match probePieces (b.asker c) .probeWrite (rangePieces va.toNat len) b with | (_, none, false) => true | _ => false) =
      true := by decide +kernel
/-- Bytes that are no image, and an image of three tokens without an index. -/
def image0 : List Byte :=
  let head := bytesOf 4 0x42485351 ++ bytesOf 2 1 ++ bytesOf 1 12 ++ bytesOf 1 1 ++ bytesOf 4 3 ++ List.replicate 12 0
  let toks := bytesOf 4 5 ++ bytesOf 4 6 ++ bytesOf 4 5
  head ++ bytesOf 4 (crc32c (head ++ List.replicate 8 0 ++ List.replicate 32 0 ++ toks)) ++ List.replicate 36 0 ++ toks
theorem witness_SequenceLoads :
    (let o : FmtA := { plainA with dst := .h 2, a := ofS 8, b := ofS 12 }
     let r : Regs := { Regs.zero with s := [(8, 0x10400)] }
     let s := stand r 3
     let t := { s with mem := (image0.zipIdx.filter fun e => e.1 != 0).map fun e => (0x400 + (pteAddr codeEntry) + e.2, e.1) }
     let reads (s : State) (c : Cur) (n : Nat) : Bool := match probePieces (s.asker c) .probeRead (rangePieces 0x10400 n) s with
       | (a, none, false) => !rangeUnc a (s.asker c) 0x10400 n | _ => false
     Met {} (.sqload o) s (fun _ _ c _ _ => word .w64 s c none o.a == 0x10400 && reads s.idle c 64 &&
         badImage (lookBytes s.idle (s.asker c) 0x10400 64) == some 1) &&
       Met {} (.sqload o) t fun _ _ c _ _ => word .w64 t c none o.a == 0x10400 && reads t.idle c 64 && Memory.wf t.mem &&
         (let hd := lookBytes t.idle (t.asker c) 0x10400 64
          badImage hd == none && fieldAt hd 8 4 == 3 && fieldAt hd 6 1 == 12 && reads t.idle c 128 &&
            (let bs := lookBytes t.idle (t.asker c) 0x10400 76
             fieldAt bs 0x18 4 == crc32c (bs.take 0x18 ++ List.replicate 8 0 ++ bs.drop 0x20)))) = true := by decide +kernel
theorem witness_NoSlotForImage (j : Nat) : ¬ Takes (s0.modDie 0 fun d => { d with status := .offline }) 0 12 j := witness_NoSlot j

def heap0 : Heap := { owner := 1, invt := 0, m := 0xFF800000, s := 0, disc := false, pushed := 0, refused := 0, cands := [] }
def regsHeap : Regs := { Regs.zero with v := [(8, 0x3F800000), (264, 0x40000000)], s := [(8, 128), (12, 0x3F800000), (16, 5)] }
def sHeap (h : Option Heap) (x : Spad := spad0) (det : Bool := false) (r : Regs := regsHeap) : State :=
  let s := (stand r 3).modPack 1 fun k => { k with spads := [(0, x)] }
  let s := s.modParty 1 0 fun p => { p with detached := det }
  s.modCluster 0 fun c => { c with heaps := match h with | some y => [(0, y)] | none => [] }
def oHeap : FmtA := { plainA with dst := .s 4, a := ofS 8 }
def oPush : FmtA := { plainA with a := ofV 8, ty := .f32 }
/-- A FREE heap, the pack's own, another's; a detached warp; EMPTY lines; an image that fits and one that does not. -/
theorem witness_SamplingHeaps :
    (let all (s : State) : Bool := Fits {} (.heapClr { oHeap with ty := .f32 }) s && Fits {} (.heapPush oPush) s && Fits {} (.heapMerge oHeap) s &&
       Fits {} (.heapRead oHeap) s && Fits {} (.heapDraw { oHeap with b := ofS 12, c := ofS 16 }) s
     let good : Spad := { spad0 with bytes := [(130, 0x80), (131, 0xFF)] }
     [sHeap none, sHeap (some heap0), sHeap (some { heap0 with owner := 2 }), sHeap (some heap0) spad0 true,
      sHeap (some heap0) { spad0 with emptyLines := [1] }, sHeap (some heap0) good].all all &&
       Met {} (.heapMerge oHeap) (sHeap (some heap0) good) (fun _ _ c _ p => !p.detached && word .w32 (sHeap (some heap0) good) c none oHeap.a == 128 &&
         p.place.cluster == 0 && good.emptyAt 128 2112 == false && good.uncAt 128 2112 == false &&
         imageFits heap0 (good.heapImage 128).1 (good.heapImage 128).2) &&
       !imageFits heap0 (spad0.heapImage 128).1 (spad0.heapImage 128).2 && spad0.emptyAt 128 2112 == false &&
       { spad0 with emptyLines := [1] }.emptyAt 128 2112) = true := by decide +kernel
/-- A NaN and a number; above, at and below M; +0 against a candidate of the same token with −0. -/
theorem witness_HeapPushes :
    (let h : Heap := { heap0 with invt := 0x3F800000, m := 0x3F800000, s := 0x3F800000, cands := [(0x3F800000, 3)] }
     (f32Of (logit h 0x7FC00000)).isNan && logit h 0x40000000 == 0x40000000 && numLess (f32Of h.m) (f32Of 0x40000000) &&
       !numLess (f32Of h.m) (f32Of (logit h 0x3F800000)) && !(f32Of (logit h 0x40000000)).isNan &&
       f32Of (logit h 0x40000000) != .inf false && candFirst (0, 3) (0x80000000, 3) && !candFirst (0x80000000, 3) (0, 3)) = true := by decide +kernel
/-- An empty heap; one candidate, which is kept and drawn; a second that was discarded and is needed. -/
theorem witness_HeapDraws :
    (let o : FmtA := { oHeap with b := ofS 12, c := ofS 16 }
     let h : Heap := { heap0 with invt := 0x3F800000, m := 0x3F800000, s := 0x3F800000, cands := [(0x3F800000, 3)] }
     let ps := h.cands.map fun e => h.prob e.1
     [some heap0, some h, some { h with disc := true }].all (fun x => Met {} (.heapDraw o) (sHeap x) fun _ _ c _ p => !p.detached &&
       word .w32 (sHeap x) c none o.a == 128 && readSrc (sHeap x) c (some .f32) .w32 none o.b == 0x3F800000 && word .w32 (sHeap x) c none o.c == 5) &&
       h.keep 128 0x3F800000 ps == some 1 && { h with disc := true }.keep 128 0x3F800000 ps == none && ps.length == 1 &&
       below24 (5 / 256) ((ps[0]?).getD 0) ((ps[0]?).getD 0)) = true := by decide +kernel
theorem witness_ReproducibleDraws : (Fits {} (.draw { plainA with dst := .v 4, a := ofS 8, b := ofV 8, c := ofS 16, ty := .u32 }) s0) = true := by
  decide +kernel

/-! ### The dispatcher (spec/01, spec/11, spec/15, spec/18) -/

/-- Lanes skipped 31 and 32 times, a countdown at 1, lanes that were sent back. -/
theorem witness_IssueCounters :
    (let p : Party := { warp0 regs0 3 with skip := [(0, 31), (1, 32)], yield := [(1, 1)], reissue := 2 }
     let s := s0.setParty 1 0 p
     (match s.party 1 0 with
      | some q => ((List.range 64).all fun l => (BitVec.ofNat 64 2).getLsbD l ==
            (q.live.getLsbD l && !q.forced.getLsbD l && decide (32 ≤ (rd 0 q.skip l).toNat))) && rd 0 q.yield 1 == 1 &&
          q.replay == 0 && q.running && ((List.range 64).all fun l => (BitVec.ofNat 64 2).getLsbD l ==
            (q.reissue.getLsbD l && q.groups.any fun g => !g.held && g.lanes.getLsbD l))
      | none => false)) = true := by decide +kernel

/-- A pack that waits for its place, new or saved; it has the owner right, as pack 1 has. -/
def waiting (st : PackState) (prio : Nat) (own : Bool) : Pack :=
  { codePack 2 with packet := if own then packet0 else launch0, state := st, prio, parties := if st == .saved then [(0, warp0 regs0 3), (spineWho, warp0 Regs.zero 1)] else [], spads := if st == .saved then [(0, spad0)] else [] }
def withPack (k : Pack) (s : State := s0) : State := { s with packs := s.packs ++ [(2, k)] }
/-- It is the one pack that waits, so that none precedes it. -/
def nextOn (s : State) (cl : Nat) (st : PackState) : Bool :=
  let b := s.promote 0
  match s.pack 2, b.pack 2 with
  | some k0, some k => k0.die == 0 && k.state == st && (st == .saved || k.parties.isEmpty) && b.canTake 2 k cl && b.packs.all fun e =>
      decide (e.2.prio ≤ 3) && (e.1 == 2 || e.2.state == .resident)
  | _, _ => false
theorem witness_PackPlacement : (nextOn (withPack (waiting .placeable 0 false)) 1 .placeable) = true := by decide +kernel
theorem witness_PackResume : (nextOn (withPack (waiting .saved 0 false)) 1 .saved) = true := by decide +kernel
/-- Clusters 1 to 11 take no pack, and cluster 0 none with the owner right. -/
def crowded (prio : Nat) : State :=
  { withPack (waiting .placeable prio true) with
    clusters := (0, (s0.cluster 0)) :: (List.range 11).map fun i => (i + 1, { Cluster.zero with frozen := true }) }
def homeless2 (b : State) : Bool := match b.pack 2 with
  | some k => k.state == .placeable && k.die == 0 && (b.context k.ctx).frozen.isEmpty && k.reserved.isNone &&
      (List.range 12).all fun i => !b.canTake 2 k (12 * 0 + i)
  | none => false
/-- Pack 1 alone is removed from cluster 0, and the pack that waits fits there then. -/
theorem witness_PriorityPreemption :
    (let b := (crowded 1).promote 0
     homeless2 b && b.packs.map (·.1) == [1, 2] && match b.pack 1, b.pack 2 with
       | some q, some k => q.state == .resident && q.cluster == 0 && decide (q.prio < k.prio) && (b.savePack 1 q).canTake 2 k 0 &&
           b.packs.all fun x => x.1 == 1 || x.2.state != .resident
       | _, _ => false) = true := by
  decide +kernel
/-- The slice has ended; the highest waiting priority has a resident pack, or has none. -/
theorem witness_SliceExpiry :
    ([0, 1].all fun prio =>
      let s := (crowded prio).modCluster 0 fun x => { x with lineCount := 2 ^ 20 }
      let b := (s.promote 0).modCluster 0 fun x => { x with lineCount := 0 }
      decide (2 ^ (s.die 0).sliceLog ≤ (s.cluster 0).lineCount) && homeless2 b && b.packs.all fun e =>
        if e.1 == 2 then e.2.prio == prio else e.2.state == .resident && e.2.cluster == 0 && e.2.prio == 0) = true := by decide +kernel
theorem witness_NoHomelessPack :
    (let s := s0.modCluster 0 fun x => { x with lineCount := 2 ^ 20 }
     decide (2 ^ (s.die 0).sliceLog ≤ (s.cluster 0).lineCount) && (s.promote 0).packs.all fun e => e.2.state == .resident) = true := by
  decide +kernel
theorem witness_PackDrainComplete :
    (let s := (sHeap (some heap0)).modPack 1 fun k => { k with state := .draining }
     (match s.pack 1 with | some k => k.state == .draining && k.allStopped && k.victimOf.isNone | none => false)) = true := by decide +kernel

/-- A new pack with a thread and room for its warps is placed, whichever of its places is chosen. -/
theorem bring_isSome {s : State} {u cl : Nat} {k : Pack} (hk : s.pack u = some k) (hs : k.state = .placeable)
    (hf : (s.fits u k cl).isEmpty = false) (ht : (s.freeThread cl (some u)).isSome = true) : ∃ t, s.bring u cl = some t := by
  have hl : 0 < (s.fits u k cl).length := List.length_pos_iff.mpr fun h => by simp [h] at hf
  have hp : ∃ x, s.pick (s.fits u k cl) = some x := ⟨_, List.getElem?_eq_getElem (Nat.mod_lt _ hl)⟩
  obtain ⟨t, ht⟩ := Option.isSome_iff_exists.mp ht
  obtain ⟨⟨cores, ws⟩, hp⟩ := hp
  exact ⟨_, by simp only [State.bring, hk, hs, State.placeNew, hp, ht]; rfl⟩
def sServed (cl : Nat) (own : Bool) : State := withPack { waiting .placeable 1 own with reserved := some cl }
theorem witness_PackDrainComplete_bring : ∃ t, (sServed 1 false).bring 2 1 = some t := by
  refine bring_isSome (k := { waiting .placeable 1 false with reserved := some 1 }) ?_ rfl ?_ ?_ <;> decide +kernel
/-- A pack whose pre-emptions are complete, which fits on its cluster or does not; one for which a drain is under way. -/
theorem witness_PackDrainComplete_served :
    (let at' := sServed
     let served (s : State) : Bool := s.packs.all (fun x => x.2.victimOf.isNone) && (s.packs.all fun x => x.2.holds.isEmpty) &&
       ((s.packs.map fun x => x.2.reserved.isSome)) == [false, true]
     let fits (s : State) (cl : Nat) : Bool := match s.pack 2 with | some k => s.canTake 2 k cl | none => false
     served (at' 1 false) && fits (at' 1 false) 1 && served (at' 0 true) && !fits (at' 0 true) 0 &&
       !served ((at' 1 false).modPack 1 fun k => { k with victimOf := some 2 })) = true := by decide +kernel
/-- A completion word that is wanted at no address, at one that is mapped, at one without the right, at one without a page. -/
def finished (va : Nat) : Launch := { ctx := 0, packet := launch0 ||| BitVec.ofNat 1024 (va * 2 ^ 448), next := 1, left := 0, killed := 0, broken := false }
def sDone (va : Nat) (e : Word64) : State :=
  { s0 with launches := [(1, finished va)], tlb := [⟨0, 0, codeVa, 16, e⟩] }
theorem witness_LaunchCompletion :
    (let write (s : State) : Option AgentWrite := (cget s.launches 1).map fun l => (s.agentWord (1 / 2 ^ 29) l.ctx (pkDone l.packet) (launchWord l) false).2
     (match cget (sDone 0 codeEntry).launches 1 with | some l => l.left == 0 && pkDone l.packet == 0 | none => false) &&
       (match cget (sDone 0x10400 codeEntry).launches 1 with | some l => l.left == 0 && pkDone l.packet == 0x10400 | none => false) &&
       (match write (sDone 0x10400 codeEntry) with | some .done => true | _ => false) &&
       (match write (sDone 0x10400 (codeEntry &&& ~~~2)) with | some .dropped => true | _ => false) &&
       (match write (sDone 0x50000000 codeEntry) with | some (.page _) => !(sDone 0x50000000 codeEntry).asking 0 0 0x50000000 | _ => false)) =
      true := by decide +kernel

/-- The submission area of context 0 stands at 0x20000; one packet is posted. -/
def sHost (w : BitVec 1024) : State :=
  let s := { s0.setContext 0 { s0.context 0 with enabled := true, area := 0x20000 } with tlb := [⟨0, 0, codeVa, 16, codeEntry⟩] }
  (s.putHome 0x20000 [1]).putHome 0x21000 (bytesOf 128 w.toNat)
theorem witness_HostSubmissions :
    ([(launch0, 0), (0, 1), (launch0 ||| BitVec.ofNat 1024 (0x50000000 * 2 ^ 448), 2), (launch0 ||| BitVec.ofNat 1024 (0x20000 * 2 ^ 448), 3)].all fun e =>
      let s := { sHost e.1 with tlb := ⟨0, 0, 0x20000, 16, codeEntry &&& ~~~2⟩ :: (sHost e.1).tlb }
      let w : BitVec 1024 := BitVec.ofNat 1024 (s.readNat (0x20000 + 0x1000) 128)
      let b := (s.correct 0x20000 64).correct 0x21000 128
      (s.context 0).enabled && (s.context 0).frozen.isEmpty && control s 0 0x08 == 0 && control s 0 0 == 1 && w == e.1 &&
        match launchCode b 0 true w, launchProbe (askerDie 0 0) w b with
        | some _, _ => e.2 == 1
        | none, (a, none) => e.2 == 0 && a.launchRoom 0 w
        | none, (_, some (f, _)) => if f.code == 0x0B then e.2 == 2 && !b.asking 0 0 f.addr else e.2 == 3) = true := by decide +kernel
theorem witness_ClockCycles : (95 : Nat) < 96 := by decide

/-! ### The service firmware (spec/07, spec/11, spec/12, spec/15, spec/18) -/

def kill0 (ctx : Nat) : KillRec := { pack := 1, xpc := 0, xaddr := 0, xcause := 0x04, req := 0, ctx, flags := 0, seq := 0 }
/-- A record of a context without an area, behind one whose function is frozen for reason 3; a ring that has room for one more. -/
theorem witness_KillRecords :
    (let takes (s : State) (r : KillRec) : Bool := (s.context r.ctx).area == 0 ||
       (!(s.context r.ctx).frozen.contains 3 && decide ((u64 (control s r.ctx 0x30) - u64 (control s r.ctx 0x38)).toNat < 128))
     let x := { s0.context 0 with enabled := true, area := 0x20000 }
     let s := (s0.setContext 0 x).setContext 1 { x with area := 0x30000, frozen := [1, 3] }
     let s := (s.modDie 0 fun d => { d with kills := [kill0 1, kill0 0, kill0 2] }).putHome 0x20030 [127]
     (s.die 0).kills == [kill0 1] ++ kill0 0 :: [kill0 2] && !takes s (kill0 1) && takes s (kill0 0) && control s 0 0x30 == 127 &&
       takes s (kill0 2) && !takes (s.putHome 0x20030 [128]) (kill0 0)) = true := by decide +kernel

/-- The tables of context 0: a table of level 1 at 0x110000 in which nothing is mapped yet. -/
def sTables : State := (s0.setContext 0 { s0.context 0 with enabled := true, root := 0x100000, area := 0x20000 }).putHome 0x100000 (bytesOf 8 0x110001)
def leaf512 : Word64 := 0x4000007F
def fault0 : FaultEntry :=
  { va := 0x50000000, lanes := 3, seq := 0, merge := 0, req := 0, ctx := 0, acc := 0, hint := 3, list := [.party 1 0 3], place := 0 }
/-- A ring with room for one more and a full one; an entry behind one whose page is on its way to host ownership; the requesters of a
page: a warp and a copy, and a copy that is in its probe. -/
theorem witness_FaultQueues :
    (let ring (x : Die) : Bool := x.faultProd - x.faultCons < 2 ^ x.faultLog
     let s := sTables.modDie 0 fun d => { d with faultWait := [fault0], faultProd := 10, faultCons := 7, faultLog := 2 }
     let mapped (s : State) (f : FaultEntry) : Bool := s.up && (match s.mapPage 0 f.va.toNat leaf512 with
       | some b => decide ((b.die 0).faults = [f]) && f.covers 0 f.va && decide ((b.die 0).faults.Nodup) | none => false)
     let one (f : FaultEntry) (x : Copy → Copy) : State := { (copyingAs x) with ctxs := sTables.ctxs, mem := sTables.mem }.modDie 0 fun d => { d with faults := [f] }
     let copy : FaultEntry := { fault0 with list := [.copy 0 1] }
     let going : Flip := { pa := 0x40000000, log := 29, place := 0x110010, entry := 0, stage := .quiet }
     let met := { sTables.putHome 0x110010 (bytesOf 8 leaf512.toNat) with flips := [going] }
     let meets (va : Nat) : Bool := match walk met 0 va with
       | (.leaf, _, e) => decide (going.pa ≤ pteAddr e + va % 2 ^ pteLog e ∧ pteAddr e + va % 2 ^ pteLog e < going.pa + 2 ^ going.log)
       | _ => false
     ring (s.die 0) && !ring { s.die 0 with faultProd := 11 } && mapped (sTables.modDie 0 fun d => { d with faults := [fault0] }) fault0 &&
       (sTables.party 1 0).isSome && mapped (one copy fun y => { y with pageWait := true }) copy &&
       mapped (one copy fun y => { y with pageWait := true, probing := true }) copy &&
       (((one copy id).cluster 0).copies.map fun y => (y.id, y.pack)) == [(1, 1)] && ((one copy id).pack 1).isSome &&
       meets 0x50000000 && !meets 0x70000000) = true := by decide +kernel

def rising (s : State) : Bool := risingFrom 0 s.packs
/-- Context 1 with a launch, a pack, a group, a slot, a bank, a task, a call, a row and a monitor. -/
theorem witness_FunctionReset :
    (let s := sTables.setContext 1 { sTables.context 0 with area := 0x30000, frozen := [2], handles := [7] }
     let s := { (s.setGroup 5 { group0 [] with ctx := 1 }).setSlot 3 { slot0 with ctx := 1 } with
       packs := s.packs ++ [(2, { pack0 (warp0 regs0 3) (warp0 regs0 1) with ctx := 1, launch := 2 })]
       launches := [(2, { ctx := 1, packet := packet0, next := 1, left := 1, killed := 0, broken := false })]
       monitors := [{ watch0 with ctx := 1 }] }
     let s := s.modCluster 0 fun x => { x.setBank 3 { mode := .fifo, bound := some 1, elems := [5] } with
       tasks := [{ task0 with ctx := 1 }], mailbox := [{ call0 0x30 [2] with ctx := 1 }] }
     let s := s.modDie 0 fun d => { d with faults := [{ fault0 with ctx := 1 }], spill := [{ task0 with ctx := 1 }] }
     s.up && (s.context 1).area == 0x30000) = true := by decide +kernel
/-- One call; one launch; one row of a batch that is taken; a call and a launch together. -/
theorem witness_ResetWords :
    (let base := { (s0.setContext 1 { s0.context 0 with enabled := true, area := 0x30000 }) with
       packs := [], tlb := [⟨0, 1, codeVa, 16, codeEntry⟩] }
     let call := base.modCluster 0 fun x => { x with mailbox := [{ call0 0x30 [2] with ctx := 1 }] }
     let launch := { base with launches := [(1, { ctx := 1, packet := launch0 ||| BitVec.ofNat 1024 (0x10480 * 2 ^ 448), next := 1, left := 1, killed := 3, broken := false })] }
     let row := base.modDie 0 fun d => { d with batches := [{ batch0 .taken 0 with
       rows := [{ entry := BitVec.ofNat 256 (0x10480 * 2 ^ 192 + 2 ^ 176), reported := false }] }] }
     (lastWords { call with launches := launch.launches } 1).length == 2 && [(call, 7), (launch, 3 * 2 ^ 32 + 2), (row, 2 ^ 32 + 0xFFFFFFFF)].all fun e =>
       e.1.up && !e.1.reservedAt 0x10480 && decide (lastWords e.1 1 = [(0, 0x10480, u64 e.2)]) && e.1.packs.isEmpty && e.1.target 0x10480 == .dram 0 && !e.1.lost 0x10480 &&
         match translate e.1 (askerDie 1 0) 0x10480 .write with | (_, .ok pa _) => pa == 0x10480 | _ => false) = true := by decide +kernel
theorem witness_FunctionEnable :
    (s0.up && s0.target 0x30000 == .dram 0 && (s0.die 0).status != .offline && s0.tagFree 1) = true := by decide +kernel
/-- Counts that are in order, that fall, and that run ahead, of both rings; KDONE at and above KPOST; a function frozen before. -/
theorem witness_HostPosts :
    (let s := putControl (putControl sTables 0 0 2) 0 0x10 2
     let ran (off limit v : Nat) : Bool := let b := putControl s 0 off v
       decide (control b 0 off < control s 0 off ∨ control b 0 (off + 8) + limit < control b 0 off)
     s.up && (s.context 0).enabled && !ran 0 256 2 && ran 0 256 1 && !ran 0 256 256 && ran 0 256 257 && !ran 0x10 64 2 && ran 0x10 64 1 &&
       !ran 0x10 64 64 && ran 0x10 64 65 && decide (control (putControl s 0 0x38 0) 0 0x38 ≤ control (putControl s 0 0x38 0) 0 0x30) &&
       decide (control (putControl s 0 0x38 1) 0 0x30 < control (putControl s 0 0x38 1) 0 0x38) &&
       ((s.setContext 0 { s.context 0 with frozen := [3] }).context 0).frozen == [3]) = true := by decide +kernel
theorem witness_FirmwareSettings : State.reset.up = true ∧ (16 ≤ 24 ∧ 1 ≤ 256) ∧ 0 < 256 := by decide +kernel

/-- A command in the ring of context 0, with entries at 0x10400 and its completion word at 0x10480. -/
def layout0 : BitVec 512 := BitVec.ofNat 512 ((1 + 2 ^ 24 + 2 ^ 48 + 2 ^ 72 + 2 ^ 96) * 2 ^ (8 * 0x20) + 2 ^ (8 * 0x35))
def sCommand (opc count src : Nat) (e : BitVec 512) : State :=
  let s := { sTables with tlb := [⟨0, 0, codeVa, 16, codeEntry⟩] }
  let s := (s.putHome 0x20010 [1]).putHome 0x29000 (bytesOf 4 opc ++ bytesOf 4 count ++ bytesOf 4 0 ++ bytesOf 4 0 ++ bytesOf 8 src ++ bytesOf 8 0x10480)
  s.putHome 0x10400 (bytesOf 64 e.toNat)
theorem witness_LayoutCommands :
    (let good (s : State) : Bool := (s.context 0).enabled && (s.context 0).frozen.isEmpty && decide (control s 0 0x18 < control s 0 0x10)
     let there (s : State) (va n : Nat) (acc : Acc) : Bool := match probePieces (askerDie 0 0) acc (rangePieces va n) s with
       | (_, none, false) => true | _ => false
     let reason (s : State) : Option Nat := layoutRefusal (BitVec.ofNat 512 (ofBytes (lookBytes s (askerDie 0 0) 0x10400 64)))
     let set (e : BitVec 512) : State := sCommand 1 1 0x10400 e
     [sCommand 3 1 0x10400 0, sCommand 2 1 0 0, sCommand 1 1 0x60000000 0, set 0, set layout0].all good &&
       layoutField (sCommand 3 1 0x10400 0) 0 0 0 4 == 3 && layoutField (set 0) 0 0 0 4 == 1 && layoutField (set 0) 0 0 0x18 8 == 0x10480 &&
       layoutField (set 0) 0 0 4 4 == 1 && layoutField (set 0) 0 0 0x10 8 == 0x10400 &&
       there (set 0) 0x10400 64 .read && there (set 0) 0x10480 8 .write && !there (set 0) 0x60000000 64 .read && reason (set 0) == some 2 &&
       reason (set layout0) == none) = true := by decide +kernel
/-- An entry of a table, and bytes of a submission area that no one names. -/
theorem witness_PageTableUpdates : (sTables.up && sTables.target 0x100008 == .dram 0 && !sTables.reservedAt 0x100008 &&
    sTables.target 0x20040 == .dram 0 && sTables.reservedAt 0x20040) = true := by decide +kernel
/-- A page that is mapped at two places, and its way to host ownership. -/
def sPage : State := (sTables.putHome 0x110010 (bytesOf 8 leaf512.toNat)).putHome 0x110018 (bytesOf 8 leaf512.toNat)
def flip0 (x : FlipStage) : Flip := { pa := 0x40000000, log := 29, place := 0x110010, entry := 0x1000000007F, stage := x }
def sFlip (x : FlipStage) : State := { sPage with flips := [flip0 x] }
/-- Memory lists words of a table at some indices only. -/
def Lists (s : State) (level t : Nat) (ks : List Nat) : Prop :=
  ks.Pairwise (· < ·) ∧ (∀ i ∈ ks, i < tableEntries level) ∧
    (s.mem.all fun c => !(decide (t ≤ c.1) && decide (c.1 < t + 8 * tableEntries level)) || ks.contains ((c.1 - t) / 8)) = true
theorem listed {s : State} {level t : Nat} {ks : List Nat} (h : Lists s level t ks) :
    ∀ c ∈ s.mem, t ≤ c.1 → c.1 < t + 8 * tableEntries level → (c.1 - t) / 8 ∈ ks := by
  intro c hc ha hb
  have := List.all_eq_true.1 h.2.2 c hc
  simpa [ha, hb] using this
/-- A table with one entry, which leads to another. -/
theorem tableDown (s : State) (k level t i n : Nat) (e : Word64) (h : Lists s level t [i])
    (he : (decide (u64 (s.readNat (t + 8 * i) 8) = e) && pteP e && !pteBad s level e && !pteLeaf e && decide (pteAddr e = n)) = true) :
    entriesFrom s (k + 1) level t = (t + 8 * i, e) :: entriesFrom s k (level + 1) n := by
  simp only [Bool.and_eq_true, Bool.not_eq_true', decide_eq_true_eq] at he
  obtain ⟨⟨⟨⟨h1, h2⟩, h3⟩, h4⟩, h5⟩ := he
  rw [entriesFrom_listed s k level t [i] h.1 h.2.1 (listed h)]
  simp [h1, h2, h3, h4, h5]
/-- A table of leaf entries. -/
theorem tableLeaves (s : State) (k level t : Nat) (l : List (Nat × Word64)) (h : Lists s level t (l.map (·.1)))
    (he : (l.all fun x => decide (u64 (s.readNat (t + 8 * x.1) 8) = x.2) && pteP x.2 && !pteBad s level x.2 && pteLeaf x.2) = true) :
    entriesFrom s (k + 1) level t = l.map fun x => (t + 8 * x.1, x.2) := by
  rw [entriesFrom_listed s k level t _ h.1 h.2.1 (listed h)]
  clear h
  induction l with
  | nil => rfl
  | cons x r ih =>
    simp only [List.all_cons, Bool.and_eq_true, Bool.not_eq_true', decide_eq_true_eq] at he
    obtain ⟨⟨⟨⟨h1, h2⟩, h3⟩, h4⟩, h5⟩ := he
    have := ih (by simpa using h5)
    simp only [List.map_cons, List.flatMap_cons, this]
    simp [h1, h2, h3, h4]
theorem pageEntries : sPage.allEntries = [(0x100000, 0x110001), (0x110010, leaf512), (0x110018, leaf512)] := by
  have c : sPage.contexts.map (fun e => e.2.root) = [0x100000] := by decide +kernel
  rw [State.allEntries, ← List.flatMap_map (fun e : Nat × Context => e.2.root), c, List.flatMap_singleton]
  rw [tableDown sPage 3 0 0x100000 0 0x110000 0x110001 (by unfold Lists; decide +kernel) (by decide +kernel),
    tableLeaves sPage 2 1 0x110000 [(2, leaf512), (3, leaf512)] (by unfold Lists; decide +kernel) (by decide +kernel)]
  rfl
/-- A page of 32 MiB: the places of its block stand apart from submission areas, and hold all that maps it. -/
theorem witness_OwnershipFlips_wide :
    (let f : Flip := { flip0 .transferred with log := 25 }
     ((List.range 128).all fun i => !sPage.reservedAt (f.place / 128 * 128 + i)) && (0x110018 / 128 == f.place / 128) &&
       f.pa + 2 ^ f.log == 0x42000000) = true := by decide +kernel
theorem witness_OwnershipFlips :
    (((List.range 16).all fun i => !sPage.reservedAt (0x110010 + i)) && sPage.up && walk sPage 0 0x50000000 == (.leaf, 0x110010, leaf512) && sPage.flips.isEmpty && pteSize (flip0 .quiet).entry != 2 &&
       (flip0 .quiet).log != 25 && pteLeaf leaf512 && decide (0x40000000 ≤ pteAddr leaf512 ∧ pteAddr leaf512 < 0x60000000)) = true := by decide +kernel
/-- A lane copy into it under way. -/
theorem witness_OwnershipFlips_under :
    (((sFlip .invalidated).modPack 1 fun k => { k with lcopies := [⟨0, 2, 0, 1, [(0x40000100, 32, 0)], false⟩] }).packs.any fun e =>
      e.2.lcopies.any fun c => c.moves.any fun m => decide (m.1 < 0x60000000) && decide (0x40000000 < m.1 + m.2.1)) = true := by decide +kernel
/-- An access that met it. -/
theorem witness_OwnershipFlips_met :
    (match walk (sFlip .transferred) 0 (fault0.va.toNat % 2 ^ 52) with
     | (.leaf, _, e) => decide (0x40000000 ≤ pteAddr e + fault0.va.toNat % 2 ^ pteLog e ∧ pteAddr e + fault0.va.toNat % 2 ^ pteLog e < 0x60000000)
     | _ => false) = true := by decide +kernel
/-- A page of 64 KiB that a table entry maps, and a root and an area that lie beside it and in it. -/
def sMoving : State :=
  let s := { sTables with ctxs := [(0, { sTables.context 0 with enabled := true }), (1, { sTables.context 1 with root := 0x100000, area := 0x20000 })] }
  let s := (s.putHome 0x110010 (bytesOf 8 0x120001)).putHome 0x120000 (bytesOf 8 0x130001)
  (s.putHome 0x130000 (bytesOf 8 0x1001F)).modDie 0 fun d => { d with status := .draining }
theorem witness_PageEvacuation : Memory.wf sMoving.mem = true ∧ (sMoving.up && sMoving.target 0x10000 == .dram 0 && (sMoving.die 0).status == .draining &&
    ([0x100000, 0x110010, 0x120000, 0x130000].all fun a => (List.range 8).all fun j => !sMoving.reservedAt (a + j)) &&
    sMoving.target (2 ^ 36) == .dram 1 && (sMoving.die 1).status == .online && sMoving.flips.isEmpty) = true :=
  ⟨by decide +kernel, by decide +kernel⟩
theorem witness_PageEvacuation_mapped :
    sMoving.allEntries = [(0x100000, 0x110001), (0x110010, 0x120001), (0x120000, 0x130001), (0x130000, 0x1001F)] := by
  have r : sMoving.contexts.map (fun e => e.2.root) = [0x100000] := by decide +kernel
  rw [State.allEntries, ← List.flatMap_map (fun e : Nat × Context => e.2.root), r, List.flatMap_singleton]
  rw [tableDown sMoving 3 0 0x100000 0 0x110000 0x110001 (by unfold Lists; decide +kernel) (by decide +kernel),
    tableDown sMoving 2 1 0x110000 2 0x120000 0x120001 (by unfold Lists; decide +kernel) (by decide +kernel),
    tableDown sMoving 1 2 0x120000 0 0x130000 0x130001 (by unfold Lists; decide +kernel) (by decide +kernel),
    tableLeaves sMoving 0 3 0x130000 [(0, 0x1001F)] (by unfold Lists; decide +kernel) (by decide +kernel)]
  rfl
theorem witness_PageEvacuation_entry : (pteAddr 0x1001F == 0x10000 && pteLeaf 0x1001F && pteLog 0x1001F == 16) = true := by decide

/-! ### Hosts, peers, dies, power and bring-up (spec/01, spec/07, spec/08, spec/14, spec/15, spec/18) -/

/-- Reads, writes and atomics up to the end of a line, away from the control words, at reserved bytes and at a control word; an access
in a granted window, beside it, and to no memory; link 11 up, down and frozen; a host window. -/
theorem witness_OutsideAccesses :
    (let s := { sTables with windows := [(1, .host 0 3), (2, .peer 5 7)], grants := [{ link := 11, package := 7, base := 0x10000, size := 0x100 },
       { link := 11, package := 7, base := 2 ^ 41, size := 64 }] }
     let loc (pa : Nat) : Bool := match s.target pa with | .dram _ | .host _ => true | .peer _ | .absent => false
     let control (a : OuterAccess) : Bool := s.ctxs.any fun e => e.2.enabled && decide (e.2.area ≤ outerStart a ∧ outerStart a < e.2.area + 0x40)
     let granted (a : OuterAccess) : Bool := s.grants.any fun g => g.link == 11 && g.package == 7 &&
       decide (g.base ≤ outerStart a ∧ outerStart a + outerCount a ≤ g.base + g.size)
     s.up && ([OuterAccess.read 0x20000 128, .write 0x1007F [5], .atomic 0x10078 true 10 1 0, .atomic 0x1007C false 9 1 0, .write 0x20040 [1, 2, 3, 4],
         .write 0x20038 [9], .write 0x20FFF [1], .write 0x2AFFE [1, 2]].all fun a => a.wf && loc (outerStart a)) &&
       control (.write 0x20038 [9]) && !control (.write 0x20040 [1]) && s.ctxs.map (·.1) == [0] && granted (.read 0x10080 128) &&
       !granted (.read 0x10100 1) && granted (.read (2 ^ 41) 4) && !loc (2 ^ 41) && (OuterAccess.read (2 ^ 41) 4).wf && (PeerFlit.malformed).wf &&
       s.reservedAt 0x20040 && s.reservedAt 0x20FFF && !s.reservedAt 0x2003F && !s.reservedAt 0x21000 &&
       !s.linkDown.getLsbD 11 && !s.linkFrozen.getLsbD 11 && { s with linkDown := 0x800 }.linkDown.getLsbD 11 &&
       { s with linkFrozen := 0x800 }.linkFrozen.getLsbD 11 && s.target (2 ^ 40) == .host 3) = true := by decide +kernel
theorem witness_LinksAndWindows :
    (s0.up && { s0 with linkFrozen := 0x800 }.linkFrozen.getLsbD 11 && decide (1 ≤ 4095 ∧ 4095 < 4096)) = true := by decide +kernel

/-- The pool has nothing left; die 1 has lent 3 units to die 0, one of which it recalls. -/
def sLoan : State :=
  { s0 with held := [248, 242, 245, 245, 245, 245, 245, 245, 45, 45, 60, 0], loans := [{ lender := 1, borrower := 0, units := 3, recalled := 1 }] }
theorem witness_PowerLoans :
    (sLoan.up && sLoan.held.length == 12 && askedBy 0 == [11] ++ 1 :: [2, 3, 4, 5, 6, 7] &&
      !([11] : List Nat).contains 1 && spare sLoan 11 == 0 && spare sLoan 1 == 82 && spare s0 11 == 90 && askedBy 9 == [] ++ 11 :: List.range 8 &&
      lent sLoan 1 0 == some { lender := 1, borrower := 0, units := 3, recalled := 1 } && decide (1 + 2 ≤ 3 ∧ 1 ≤ 1) && (sLoan.held[0]?).getD 0 == 248) =
      true := by decide +kernel
theorem witness_PowerGuards :
    (let s := { s0 with held := [160, 160, 160, 160, 160, 160, 160, 160, 45, 45, 60, 0] }
     s.up && (askedBy (95 / 12)).all (spare s · == 0) && (askedBy (0 / 12)).all (spare s · == 0)) = true := by decide +kernel
/-- Each state of a die; one that has been evacuated, and one that may be reset and one that may return. -/
theorem witness_DieStates :
    (let at' (st : DieStatus) : State := State.reset.modDie 7 fun d => { d with status := st, cleared := true }
     (at' .online).up && ((at' .online).die 7).status == .online && ((at' .draining).die 7).status == .draining && (at' .draining).drained 7 &&
       ((at' .offline).die 7).status == .offline && ((at' .offline).die 7).kills.isEmpty && ((at' .offline).die 7).cleared &&
       (at' .draining).held.length == 12) = true := by decide +kernel
/-- A warp of pack 1 has landed on die 0. -/
theorem witness_ForcedOffline :
    (let s := s0.modParty 1 0 fun p => { p with detached := true }
     let owner := sTables.context 0
     sTables.contexts.any (fun e => e.2 == owner) && sTables.pagesOn owner 0 && s.up && (s.die 0).status != .offline && ((s.party 1 0).map fun p => p.detached && !p.ended && p.life == .running && p.place.cluster / 12 == 0) ==
       some true) = true := by decide +kernel
/-- Each outcome of bring-up: an image that carries the fused digests and the fused version is accepted. -/
theorem witness_PackageResets :
    (let good : SignedImage := { rsaKey := Config.rsaDigest, slhKey := Config.slhDigest, rsaOk := true, slhOk := true,
                                 version := Config.fusedVersion, measure := 5 }
     Accepted good ∧ ¬ Accepted { good with rsaOk := false }) ∧ { State.reset with ports := List.replicate 4 .silent }.up = false :=
  ⟨⟨⟨rfl, rfl, rfl, rfl, Nat.le_refl _⟩, fun h => absurd h.1 (by decide)⟩, by decide +kernel⟩
/-- A line of a peer window; a ring that holds 4 entries, at a size of 4; an OPEN slot; a fetch line that is not struck yet. -/
theorem witness_OuterActs :
    (let s := { s0 with windows := [(2, .peer 5 7)] }.modDie 0 fun d => { d with faultProd := 4 }
     s.up && s.target (2 ^ 41) == .peer 5 && s.target 0x10000 == .dram 0 && decide ((s.die 0).faultProd - (s.die 0).faultCons ≤ 2 ^ 2) && ({ s with slots := [(0, { Slot.zero with st := .opened })] }.slot 0).st != .free &&
       !s.linePar.contains (icKey 0 codeVa)) = true := by decide +kernel
/-- What the fuse is, is free (log 8): where it allows snapshots the second premise holds of every state that has none. -/
theorem witness_SecurityAndCounters : (s0.up && { s0 with triggered := true }.triggered && !s0.triggered) = true := by decide +kernel

/-! ### Steps, words and reset (spec/01, spec/02, spec/18) -/

def Decodes (w : Word96) (i : Instr) : Bool := match decode w with | .ok j => decide (j = i) | .error _ => false
theorem decodes {w : Word96} {i : Instr} (h : Decodes w i = true) : decode w = .ok i := by
  unfold Decodes at h
  split at h
  · simp_all
  · cases h

/-- The step that fetches the one instruction of a program: what is selected, and that its word is read; each fault of a fetch. -/
theorem witness_StepRunsDecoded :
    (let s := State.reset.loadWord nopWord
     let sel := match s.pack 1, s.party 1 0 with
       | some k, some p => p.returning == 0 && (p.choose ({ s with agenda := [] }.eligible 1 0 k p)).isSome
       | _, _ => false
     let q : PortOne := { pack := 1, who := 0, lanes := BitVec.allOnes 64, pc := u64 codeVa, regs := none }
     let t := { s with agenda := [], port1 := some q }
     let fetched (s : State) : Bool := match s.fetchLine 1 0 (u64 codeVa) (BitVec.allOnes 64) with
       | (_, .ok l) => parOk l && reservedOk l && Decodes (slotWord l 0) (.nop plainA) | _ => false
     s.port1.isNone && s.agenda == [.issue 1 0] && sel && fetched { s with agenda := [] } &&
       (match t.party 1 0 with
        | some p => (p.split q.lanes).groups.any fun g => g.lanes == q.lanes && g.pc == q.pc && g.wait.isNone && !g.held
        | none => false) &&
       { s with agenda := [.event (.arithmeticClockCycle 5)] }.agenda == [.event (.arithmeticClockCycle 5)] &&
       (State.reset.occurs (.arithmeticClockCycle 5))) = true := by decide +kernel
theorem witness_StepRunsDecoded_faults :
    (let at' (l : BitVec 512) : State := (State.reset.loadWord nopWord).loadLine codeVa l
     let line (s : State) (f : BitVec 512 → Bool) : Bool := match s.fetchLine 1 0 (u64 codeVa) (BitVec.allOnes 64) with
       | (_, .ok l) => f l | _ => false
     let refused (w : Word96) (e : EncFault) : Bool := match decode w with | .error x => decide (x = e) | .ok _ => false
     let body : BitVec 512 := codeLine nopWord ^^^ 0x100
     line (at' (codeLine nopWord ^^^ 1)) (fun l => !parOk l) && line (at' (body ^^^ (parOf (codeLine nopWord) ^^^ parOf body).setWidth 512)) (fun l => parOk l && !reservedOk l) &&
       line (at' (codeLine 0xFF0700000000000000000000)) (fun l => parOk l && reservedOk l && refused (slotWord l 0) .opcode) &&
       line (at' (codeLine (nopWord ||| 0x1))) (fun l => parOk l && reservedOk l && refused (slotWord l 0) .field) &&
       (match { State.reset.loadWord nopWord with tlb := [] }.fetchLine 1 0 (u64 codeVa) (BitVec.allOnes 64) with
        | (_, .error f) => f.code == 0x0B | _ => false)) = true := by decide +kernel
/-- A load, whose results come back later: a group that reads one of them, one that does not, and no result outstanding. -/
theorem witness_LoadResults :
    (let b : Busy := { lanes := 1, regs := [.v 4] }
     let s := (State.reset.loadLine codeVa (codeLine 0x030701580008008000000000#96)).setPack 1 (codePack 1)
     let s := { s with tlb := (State.reset.loadWord nopWord).tlb }
     let busy := s.modParty 1 0 fun p => { p with busy := [{ lanes := 1, regs := [.v 5] }] }
     (match (Instr.ld false oM).shape with
      | some sh => sh.defs.flatMap (fun d => specCells d.2 d.1) == [.v 4]
      | none => false) &&
     (match busy.instrAt 1 0 (u64 codeVa) (BitVec.allOnes 64) with
      | (_, .ok i) => (match i.shape with | some sh => (shapeCells sh).contains (.v 5) | none => false)
      | _ => false) &&
     (match s.pack 1, s.party 1 0 with
      | some k, some p => k.executes p && p.pending == 0 && p.busy == [] && (match p.merged.groups with | [g] => k.mayIssue 0 p g != 0 | _ => false)
      | _, _ => false) && (s0.party 1 0).isSome && b.lanes == 1) = true := by decide +kernel
theorem witness_LoadResults_late : Late (.ld false oM) := by unfold Late; decide

/-! What is chosen. -/
theorem resetMoves : State.reset.moves = State.reset.clockEvents := by decide +kernel
/-- A choice among what stands in a list, or what stood before. -/
theorem fold_choice {α : Type} (f : Option α → α → Option α) (hf : ∀ b a, f b a = some a ∨ (f b a = b ∧ b.isSome)) (l : List α) (b : Option α)
    (h : l ≠ [] ∨ b.isSome) : ∃ x, l.foldl f b = some x ∧ (x ∈ l ∨ b = some x) := by
  induction l generalizing b with
  | nil => obtain ⟨x, hx⟩ := Option.isSome_iff_exists.1 (h.resolve_left (by simp)); exact ⟨x, hx, Or.inr hx⟩
  | cons a l ih =>
    rcases hf b a with e | ⟨e, g⟩
    · obtain ⟨x, hx, hm⟩ := ih (f b a) (Or.inr (by simp [e]))
      exact ⟨x, hx, Or.inl (hm.elim (List.mem_cons_of_mem _) fun q => by rw [e] at q; cases q; exact List.mem_cons_self ..)⟩
    · obtain ⟨x, hx, hm⟩ := ih (f b a) (Or.inr (by rw [e]; exact g))
      exact ⟨x, hx, hm.elim (fun q => Or.inl (List.mem_cons_of_mem _ q)) fun q => Or.inr (e ▸ q)⟩
theorem overdue_of (s : State) (l : List Action) (a : Action) (h : a ∈ l) (p : Config.patience ≤ s.passes a) :
    ∃ x, s.overdue l = some x ∧ x ∈ l := by
  unfold State.overdue
  have ne : (l.filter fun a => decide (Config.patience ≤ s.passes a)) ≠ [] :=
    List.ne_nil_of_mem (List.mem_filter.2 ⟨h, by simpa using p⟩)
  obtain ⟨x, hx, hm⟩ := fold_choice (fun best a => match best with
      | none => some a
      | some b => if s.passes b < s.passes a then some a else some b) (by
    intro b a
    cases b with
    | none => exact Or.inl rfl
    | some b =>
      by_cases q : s.passes b < s.passes a
      · exact Or.inl (if_pos q)
      · exact Or.inr ⟨if_neg q, rfl⟩) _ none (Or.inl ne)
  exact ⟨x, hx, (List.mem_filter.1 (hm.resolve_right (by simp))).1⟩
/-- The clock of cluster 0 has been passed over as often as the bound lets it. -/
def sPatient : State := { State.reset with passed := [(.event (.arithmeticClockCycle 0), Config.patience)] }
theorem patientMoves : sPatient.moves = (List.range 96).map fun c => Action.event (.arithmeticClockCycle c) := by
  have h : sPatient.moves = sPatient.clockEvents := by decide +kernel
  rw [h]
  rfl
theorem patientPasses : sPatient.passes (.event (.arithmeticClockCycle 0)) = Config.patience := by
  simp [State.passes, sPatient]
theorem patientChosen : ∃ b i, sPatient.chosen = some (b, .event i) := by
  have m : sPatient.moves.filter (fun a => !a.optional) = (List.range 96).map fun c => Action.event (.arithmeticClockCycle c) := by
    rw [patientMoves]; rfl
  have h0 : Action.event (.arithmeticClockCycle 0) ∈ (List.range 96).map fun c => Action.event (.arithmeticClockCycle c) :=
    List.mem_map.2 ⟨0, List.mem_range.2 (by decide), rfl⟩
  obtain ⟨x, hx, hm⟩ := overdue_of sPatient _ _ h0 (patientPasses ▸ Nat.le_refl _)
  obtain ⟨c, -, rfl⟩ := List.mem_map.1 hm
  refine ⟨sPatient.passOver (sPatient.moves.filter fun a => !a.optional) (.event (.arithmeticClockCycle c)), .arithmeticClockCycle c, ?_⟩
  unfold State.chosen
  simp only [m, hx]
/-- Whatever is chosen, one of two clocks has been passed over. -/
theorem witness_ChosenEvents : sPatient.port1 = none ∧ sPatient.agenda = [] ∧ sPatient.servedNow = none ∧ sPatient.dueSlices = [] ∧
    ∃ b i, sPatient.chosen = some (b, .event i) := by
  refine ⟨by decide +kernel, by decide +kernel, by decide +kernel, by decide +kernel, patientChosen⟩
theorem witness_Progress : ∃ b x a, sPatient.chosen = some (b, x) ∧ a ∈ sPatient.moves ∧ a.optional = false ∧ a ≠ x := by
  obtain ⟨b, i, h⟩ := patientChosen
  by_cases e : i = .arithmeticClockCycle 0
  · exact ⟨b, _, .event (.arithmeticClockCycle 1), h, by rw [patientMoves]; exact List.mem_map.2 ⟨1, by simp, rfl⟩, rfl, by simp [e]⟩
  · exact ⟨b, _, .event (.arithmeticClockCycle 0), h, by rw [patientMoves]; exact List.mem_map.2 ⟨0, by simp, rfl⟩, rfl, by
      simpa using Ne.symm e⟩
theorem witness_Progress_due : ∃ a ∈ sPatient.moves, a.optional = false ∧ Config.patience ≤ sPatient.passes a :=
  ⟨.event (.arithmeticClockCycle 0), by rw [patientMoves]; exact List.mem_map.2 ⟨0, by simp, rfl⟩, rfl, patientPasses ▸ Nat.le_refl _⟩
theorem witness_EncodeDecode : ((Instr.iadd { plainA with dst := .v 5, clamp := 3, a := ofV 1, b := ofV 2 }).encodable) = true := by decide +kernel
theorem witness_DecodeEncode :
    decode 0x030701580008008000000000#96 = .ok (.iadd { plainA with dst := .v 5, clamp := 3, a := ofV 1, b := ofV 2 }) := decodes (by decide +kernel)
theorem witness_StepKeepsMemoryForm : (Memory.wf (State.reset.loadWord nopWord).mem &&
    match step (State.reset.loadWord nopWord) with | .next _ => true | _ => false) = true := by decide +kernel
theorem witness_InstructionAddresses : (2 ^ 58 - 1 < 2 ^ 58 ∧ 4 < 5) ∧ (5 * (2 ^ 58 - 1) + 4 : Int) + (-1 : Int) < 5 * 2 ^ 58 := by decide
theorem witness_HandleLayouts : 255 < 256 ∧ 4095 < 4096 ∧ 7 < 8 ∧ 1023 < 1024 := by decide
theorem witness_IntegerDivision :
    (let o : FmtA := { plainA with dst := .v 4, a := ofV 8, b := ofV 12 }
     Fits {} (.idivQ o) s0 && Fits {} (.idivR o) s0 && Fits {} (.idivQ { o with b := ofV 0 }) s0 &&
       let m := stand { regs0 with v := [(8, 0x80000000), (12, 0xFFFFFFFF)] } 1
       Met {} (.idivQ o) m (fun _ _ c _ _ => elemI o m c (some 0) o.a 0 == -(2 ^ 31) && elemI o m c (some 0) o.b 0 == -1)) = true := by
  decide +kernel
theorem witness_YieldCountdowns : (Met {} (.yield plainB) s0 fun _ _ c _ _ => c.who != spineWho) = true := by decide +kernel

/-! ### Ill-formed terms: one for each check of WellFormed.lean -/

/-- Specifiers, latches and guards that name nothing, in each format. -/
theorem test_illFormedOperands :
    ([Instr.iadd { plainA with a := ofConst 0x90 }, .iadd { plainA with b := .latch 5 false false }, .mov { plainA with guard := .pred 7 false },
      .iadd { plainA with dst := .const 0x90 }, .movi ⟨.always, .const 0xFF, false, 0, 0, ofV 0, 0, 0⟩,
      .plop ⟨.pred 7 true, .v 0, false, 0, 0, 0, 0, .i32, .mode, 0⟩, .ld false { plainM with base := .latch 7 false false },
      .st { plainM with index := ofConst 0x90 }, .bra { plainB with target := .latch 6 false false }, .ret { plainB with guard := .pred 7 false },
      .trap ⟨.pred 7 false, .v 0, 0, 0, 0, 0⟩, .launch { plainE with s1 := ofConst 0xA0 }, .scopy { plainE with token := .const 0x90 }].all fun i =>
      !i.wf && !i.encodable) = true := by decide +kernel
/-- Events that name units, contexts, places or sizes that do not exist. -/
theorem test_illFormedEvents :
    ([Instr.spillMove 8, .sliceExpiry 96, .mplaneStep 0 4, .btakeService 1 129, .yieldCountdownExpiry 1 0 64, .virtualFunctionReset 256,
      .peerLinkDown 12, .bankSwitchDone 0 32, .followOnMplaneEntry 0 8, .rebuildComplete 8192, .hostControlWordWrite 0 0x40 0,
      .hostControlWordWrite 0 4 0, .setSliceLength 0 15, .setSliceLength 0 25, .setBatchThreshold 0 0, .setBatchThreshold 0 257, .setShareGroup 0 256,
      .virtualFunctionEnable 1 0x100 0, .virtualFunctionEnable 1 0 0x100, .pageTableUpdate 4 0, .windowDefinition 0 none, .windowDefinition 4096 none,
      .windowDefinition 1 (some (.host 16 0)), .windowDefinition 1 (some (.host 0 8)), .windowDefinition 1 (some (.peer 12 0)),
      .pageEvacuation 0 17 0x20000, .pageEvacuation 0x100 16 0, .pageEvacuation 0 16 0x100, .hostMemoryAccess (.read 0 0), .hostMemoryAccess (.read 120 16),
      .hostMemoryAccess (.write 0 []), .hostMemoryAccess (.atomic 4 true 0 0 0), .hostMemoryAccess (.atomic 0 false 11 0 0),
      .peerAccess 0 (.access 7 (.read 120 16))].all fun i => !i.wf) = true := by decide +kernel

/-! ### Words of the spec -/

/-- Words of the control and arithmetic families, from the examples of spec/02, spec/04 and spec/05. -/
theorem test_registerWords :
    ([(0x000700000000000000000000#96, Instr.nop plainA),
      (0x030701580008008000000000#96, .iadd { plainA with dst := .v 5, clamp := 3, a := ofV 1, b := ofV 2 }),
      (0x030701C00008844000000000#96, .iadd { plainA with dst := .v 7, a := ofV 1, b := ofConst 0x11 }),
      (0x10070180800084C000200000#96, .shl { plainA with dst := .v 6, a := .latch 0 false false, b := ofConst 0x13, ty := .u32 }),
      (0x43070100000A008006C80000#96, .ffma { plainA with dst := .v 4, a := ofV 1, b := .reg (.v 2) true false, c := ofV 3, ty := .f32, rm := .rtz }),
      (0x2607024000000000FFFFFFF9#96, .loops { plainB with link := .v 9, disp := -7 }),
      (0x800750C00810850000600000#96, .kput { plainA with dst := .k 3, a := ofS 2, b := ofConst 0x14, ty := .u64 }),
      (0xF00700000000002A00000000#96, .trap ⟨.always, .v 0, 0, 0, 0x2A, 0⟩)].all fun e => Decodes e.1 e.2 && encode e.2 == some e.1) = true := by
  decide +kernel
/-- Words of the memory, queue, group, sampling and system families, from the examples of spec/07 to spec/15. -/
theorem test_unitWords :
    ([(0x900701110811000700000040#96,
        Instr.ld false { plainM with data := .v 4, size := 2, scope := 1, base := ofS 2, order := 1, index := ofV 7, offset := 0x40 }),
      (0x970740030004000000000000#96, .fence { plainM with data := .s 0, scope := 3, order := 4 }),
      (0xD817411C0811021000000000#96, .waitc .ne { plainM with data := .s 4, size := 3, scope := 4, base := ofS 2, order := 1, index := ofConst 0x10 }),
      (0xB80742400820414420268000#96, .mplane { plainE with token := .s 9, s1 := ofS 4, s2 := ofS 5, s3 := ofConst 0x10, params := 0x0268000 }),
      (0xC00742400820000000000000#96, .launch { plainE with token := .s 9, s1 := ofS 4 }),
      (0xD00760800820000000000000#96, .gopen { plainA with dst := .h 2, a := ofS 4 }),
      (0xE20702000C08000000206004#96, .sqmatch { plainA with dst := .v 8, a := ofH 1, ty := .u32, ext := 0x06004 }),
      (0xEA0740C00C50850000000000#96, .awaitGe { plainA with dst := .s 3, a := .reg (.a 2) false false, b := ofConst 0x14 }),
      (0xF20740C01980000000600000#96, .mfs { plainA with dst := .s 3, a := .reg (.special .xcause) false false, ty := .u64 })].all fun e =>
      Decodes e.1 e.2 && encode e.2 == some e.1) = true := by decide +kernel
/-- R52, and the line that spec/02 assembles: its bytes and its PAR. -/
theorem test_lineAssembled :
    (let w1 := 0x030701580008008000000000#96
     let line : BitVec 512 := nopWord ++ nopWord ++ 0x030701C00008844000000000#96 ++ 0x10070180800084C000200000#96 ++ w1 ++ 0x090000AE#32
     (bytesOf 16 line.toNat).map (·.toNat) == [0xAE, 0, 0, 9, 0, 0, 0, 0, 0x80, 0, 8, 0, 0x58, 1, 7, 3] && parOk line && reservedOk line &&
       slotWord line 0 == w1 && !parOk (line ^^^ 1)) = true := by decide +kernel
/-- The table's word of a row, alone: IADD, and an opcode that no row has. -/
theorem test_tableWords :
    ((decodeTableWord 96 0x030701580008008000000000 == some (.iadd { plainA with dst := .v 5, clamp := 3, a := ofV 1, b := ofV 2 })) &&
      (decodeTableWord 96 0xFF0700000000000000000000).isNone) = true := by decide +kernel

/-! ### One step: values that the spec works out -/

/-- A register of a lane after an instruction of the warp of pack 1. -/
def laneAfter (i : Instr) (s : State) (l n : Nat) : Option Nat :=
  match exec i s with
  | .next t => (t.party 1 0).map fun p => (p.regs.readV l n).toNat
  | .fault _ | .refused _ => none
def partyAfter (i : Instr) (s : State) (f : Party → Bool) : Bool :=
  match exec i s with
  | .next t => match t.party 1 0 with | some p => f p | none => false
  | .fault _ | .refused _ => false
/-- Lane 0 with v1 and v2. -/
def two (x y : Word32) : State := stand { Regs.zero with v := [(1, x), (2, y)] } 1

/-- spec/02: the sum 2^31 + 0x10 saturates, and the latch holds what the register does. -/
theorem test_saturatingSum :
    (partyAfter (.iadd { plainA with dst := .v 5, clamp := 3, a := ofV 1, b := ofV 2 }) (two 0x7FFFFFF0 0x20) fun p =>
      p.regs.readV 0 5 == 0x7FFFFFFF && p.pcOf 0 == u64 (codeVa + 1)) = true := by decide +kernel
/-- spec/04: IMULH.I32 of 0x8000_0000 and 3, and SAR.I8X4. -/
theorem test_highProduct : laneAfter (.imulh { plainA with dst := .v 3, a := ofV 1, b := ofV 2 }) (two 0x80000000 3) 0 3 = some 0xFFFFFFFE := by
  decide +kernel
theorem test_packedShift :
    laneAfter (.sar { plainA with dst := .v 3, a := ofV 1, b := ofV 2, ty := .i8x4 }) (two 0x80F0107F 0x09010203) 0 3 = some 0xFFF8040F := by
  decide +kernel
/-- R135: table 0xE8 is the majority of p0, p1 and p2, here true, true and false. -/
theorem test_majority :
    (partyAfter (.plop ⟨.always, .v 0, false, 0, 0, 0xE8, 0, .i32, .mode, 0x48C⟩) (stand { Regs.zero with p := [(0, 1), (1, 1)] } 1) fun p =>
      p.regs.readP 0 3) = true := by decide +kernel
/-- R94: the divisor 0, and the quotient that does not fit. -/
theorem test_divisionCorners :
    laneAfter (.idivQ { plainA with dst := .v 3, a := ofV 1, b := ofV 2 }) (two 7 0) 0 3 = some 0xFFFFFFFF ∧
      laneAfter (.idivQ { plainA with dst := .v 3, a := ofV 1, b := ofV 2 }) (two 0x80000000 0xFFFFFFFF) 0 3 = some 0x80000000 ∧
      laneAfter (.idivR { plainA with dst := .v 3, a := ofV 1, b := ofV 2 }) (two 0xFFFFFFF9 2) 0 3 = some 0xFFFFFFFF := by decide +kernel
/-- R47: from line 0x2080, slot 3, back by 7 slots. -/
theorem test_loopTarget : dispAddr 0x2083 (-7) = 0x2041 ∧ posOf 0x2083 = 653 ∧ posOf 0x2041 = 646 := by decide +kernel
/-- spec/01: the work identifier of lane 37 of warp 5 of workgroup 2 of the pack at f3 = 200, f4 = 9. -/
theorem test_workIdentifier : packFields ([6, 3, 2, 8, 4, 0].zip [37, 5, 2, 200, 9, 0]) = 0x4E4565 := by decide
/-- spec/05: the tree gives 2^24 + 2 where a serial sum would give 2^24. -/
theorem test_reductionTree :
    (partyAfter (.wredAdd { plainA with dst := .v 3, a := ofV 1, ty := .f32, rm := .rne })
      (stand { Regs.zero with v := [(1, 0x4B800000), (257, 0x3F800000), (513, 0x3F800000), (769, 0x3F800000)] } 15) fun p =>
      p.regs.readV 0 3 == 0x4B800001 && p.regs.readV 3 3 == 0x4B800001 && p.regs.fpflags == 0x10) = true := by decide +kernel
/-- spec/05: the map 0x3807 gives lane 13 the value of lane 15. -/
theorem test_shuffleMap :
    laneAfter (.shflMap { plainA with dst := .v 2, a := ofV 1, b := ofS 4, ty := .u32 })
      (stand { Regs.zero with v := [(256 * 13 + 1, 13), (256 * 15 + 1, 15)], s := [(4, 0x3807)] } (BitVec.allOnes 64)) 13 2 = some 15 := by
  decide +kernel
/-- spec/03, spec/05: the S8 block of 3.0, −1.0 and 0.5, and its values again. -/
theorem test_quantisedBlock :
    (partyAfter (.bqnt { plainA with dst := .v 2, a := ofV 1, ty := .f32, rm := .rne, ext := 0x1A000 })
      (stand { Regs.zero with v := [(1, 0x40400000), (257, 0xBF800000), (513, 0x3F000000)] } 0xFFFFFFFF) fun p =>
      p.regs.readV 0 2 == 0x0012DB6E && p.regs.readV 1 2 == 0 && p.regs.readV 31 2 == 0x1E7) = true := by decide +kernel
theorem test_dequantisedBlock :
    (partyAfter (.bdeq { plainA with dst := .v 2, a := ofV 1, ty := .f32, rm := .rne, ext := 0x1A000 })
      (stand { Regs.zero with v := [(1, 0x0012DB6E), (256 * 31 + 1, 0x1E7)] } 7) fun p =>
      p.regs.readV 0 2 == 0x40408000 && p.regs.readV 1 2 == 0xBF818000 && p.regs.readV 2 2 == 0x3EFC0000 && p.regs.fpflags == 0) = true := by
  decide +kernel
/-- spec/03: the accumulator of the two blocks, in each rounding mode. -/
theorem test_scaledSums :
    ([(Mode.rne, 0x3F7A0002), (.rup, 0x3F7A0002), (.rtz, 0x3F7A0001), (.rdn, 0x3F7A0001)].all fun e =>
      (scaleStep e.1 0 0 100 0x1FC 0x1E1).1 == 0x3F7A0000 && (scaleStep e.1 0 0 100 0x1FC 0x1E1).2 == 0 &&
        (scaleStep e.1 0 0x3F7A0000 3 0x1FD 0x197).1 == e.2) = true := by decide +kernel
/-- R417, R420: TRAP saves its own address and its code, and goes to the vector. -/
theorem test_trapEntry :
    (partyAfter (.trap ⟨.always, .v 0, 0, 0, 0x2A, 0⟩) (stand { Regs.zero with xvec := 0x10002 } 3) fun p =>
      p.intrap && p.pcOf 0 == 0x10002 && p.regs.xcause == 0x2A00000014 && p.regs.xpc == u64 codeVa) = true := by decide +kernel
/-- Little-endian loads and stores of a word at 0x10404. -/
theorem test_loadBytes :
    laneAfter (.ld false { plainM with data := .v 4, size := 2, base := ofV 8, offset := 4 }) (s0.putHome 0x10404 [1, 2, 3, 4]) 0 4 = some 0x04030201 := by
  decide +kernel
theorem test_storedBytes :
    (match exec (.st { plainM with data := .v 12, size := 2, base := ofV 8, offset := 4 }) (stand { regs0 with v := [(8, 0x10400), (12, 0x04030201)] } 1) with
     | .next t => t.byteAt 0x10404 == 1 && t.byteAt 0x10407 == 4 && t.byteAt 0x10403 == 0 && t.byteAt 0x10408 == 0
     | .fault _ | .refused _ => false) = true := by decide +kernel
/-- spec/13: four and eight drafts behind the match of length 3 at place 4. -/
theorem test_longestMatch :
    (let h : List Word32 := [7, 3, 9, 4, 7, 3, 9, 5, 8, 7, 3, 9]
     matchOf h 3 4 == (3, [5, 8, 7, 3]) && matchOf h 3 8 == (3, [5, 8, 7, 3, 9]) && matchOf (h ++ [5, 8]) 3 4 == (5, [7, 3, 9, 5])) = true := by
  decide +kernel
/-- R379: CRC-32C of the digits 1 to 9. -/
theorem test_checkWord : crc32c [0x31, 0x32, 0x33, 0x34, 0x35, 0x36, 0x37, 0x38, 0x39] = 0xE3069283 := by decide +kernel
/-- spec/18: posting packet 300 while 44 are done freezes the function with reason 1; with 45 it does not. -/
theorem test_postTooFar :
    ([(44, [1]), (45, [])].all fun e =>
      match exec (.hostSubmissionPost 0 301) (sTables.putHome 0x20008 [BitVec.ofNat 8 e.1]) with
      | .next t => (t.context 0).frozen == e.2
      | .fault _ | .refused _ => false) = true := by decide +kernel
/-- spec/11: the packs of its producer that pack 5 requires under each mapping. -/
theorem test_dependence :
    (let p : BitVec 1024 := BitVec.ofNat 1024 (4 * 2 ^ (8 * 0x20) + 2 * 2 ^ (8 * 0x24) + 4 * 2 ^ (8 * 0x50) + 8 * 2 ^ (8 * 0x54))
     let map (n : Nat) : BitVec 1024 := BitVec.ofNat 1024 (n * 2 ^ (8 * 0x1C + 1) + 1 * 2 ^ (8 * 0x1C + 4)) ||| p
     [(1, [5]), (2, [1, 5]), (3, [4, 5, 6]), (4, List.range 8)].all fun e => (List.range 8).filter (requires (map e.1) 5) == e.2) = true := by decide +kernel

/-! ### The litmus examples of spec/08 -/

open Ordering in
/-- A lane of workgroup 0 of a pack, a spine thread, and a cluster's streamer. -/
def litLane (p die cl pack warp : Nat) : Standing := ⟨p, .lane, die, cl, pack, 0, warp, false, [], 0⟩
open Ordering in
def litSpine (p die cl pack : Nat) : Standing := ⟨p, .spine, die, cl, pack, 0, 0, false, [], 0⟩
open Ordering in
def litOp (a : Standing) (k : OpKind) (o : Order) (s : Scope) (locs : List Nat) : Op := ⟨[a.party], a, k, o, s, .device, locs, none⟩
open Ordering in
/-- What a party does at an object of a mechanism. -/
def litAct (a : Standing) (x : Act) (n : Nat) : Op := ⟨[a.party], a, .point, .rlx, .sys, .device, [], some (x, n)⟩
open Ordering in
/-- R226: sixteen bytes are read whole from device memory; from a peer window in two halves, each whole. -/
theorem test_R226 :
    (let bytes := List.range 16
     let run (area : Area) (f : Nat → Option Nat) : Execution :=
       { ops := [{ litOp (litLane 0 0 0 1 0) .write .rlx .sys bytes with area := area }, { litOp (litLane 1 4 48 2 0) .read .rlx .sys bytes with area := area }],
         rf := bytes.map fun l => (1, l, f l), co := bytes.map fun l => (l, [0]), served := [], deps := [] }
     let torn (l : Nat) : Option Nat := if l < 8 then some 0 else none
     (run .device fun _ => some 0).allowed && !(run .device torn).allowed && !(run .hostWindow torn).allowed && (run .peerWindow torn).allowed) =
    true := by decide +kernel
open Ordering in
/-- R237: `.REL` keeps the read before it ahead of the write behind it. -/
theorem test_R237 :
    (let a := litLane 0 0 0 1 0
     let b := litSpine 1 4 48 2
     let run (f : Op) : Execution :=
       { ops := [litOp a .read .rlx .sys [2], f, litOp a .write .rlx .sys [1], litOp b .read .rlx .sys [1], litOp b .write .rlx .sys [2]],
         rf := [(0, 2, some 4), (3, 1, some 2)], co := [(1, [2]), (2, [4])], served := [], deps := [(3, 4)] }
     (run (litOp a .point .rlx .sys [])).allowed && !(run (litOp a .fence .rel .dev [])).allowed && (run (litOp a .fence .rel .cl [])).allowed) = true := by
  decide +kernel
open Ordering in
/-- R247: the spine thread stores x and puts; the warp gets and loads. -/
theorem test_R247 :
    (let a := litSpine 0 0 3 1
     let b := litLane 1 0 3 1 0
     let run (v : Option Nat) : Execution :=
       { ops := [litOp a .write .rlx .sys [1], litAct a .kput 5, litAct b .kget 5, litOp b .read .rlx .sys [1]],
         rf := [(3, 1, v)], co := [(1, [0])], served := [(5, [1, 2])], deps := [] }
     (run (some 0)).allowed && !(run none).allowed) = true := by decide +kernel
open Ordering in
/-- R248: both loads read 0, in the four variants. -/
theorem test_R248 :
    (let a := litSpine 0 0 0 1
     let b := litSpine 1 4 48 2
     let run (st ld : Order) (fence : Option Scope) : Execution :=
       let f (x : Standing) : List Op := match fence with | some s => [litOp x .fence .sc s []] | none => [litOp x .point .rlx .sys []]
       { ops := litOp a .write st .dev [1] :: f a ++ litOp a .read ld .dev [2] :: litOp b .write st .dev [2] :: f b ++ [litOp b .read ld .dev [1]],
         rf := [(2, 2, none), (5, 1, none)], co := [(1, [0]), (2, [3])], served := [], deps := [] }
     (run .rlx .rlx none).allowed && (run .rel .acq none).allowed && !(run .sc .sc none).allowed && !(run .rlx .rlx (some .dev)).allowed &&
       (run .rlx .rlx (some .cl)).allowed) = true := by decide +kernel
open Ordering in
/-- R249: the readers see the two stores in different orders. -/
theorem test_R249 :
    (let w (n die : Nat) : Standing := litLane n die (12 * die) n 0
     let run (st ld : Order) : Execution :=
       { ops := [litOp (w 0 0) .write st .dev [1], litOp (w 1 2) .write st .dev [2], litOp (w 2 4) .read ld .dev [1], litOp (w 2 4) .read ld .dev [2],
           litOp (w 3 6) .read ld .dev [2], litOp (w 3 6) .read ld .dev [1]],
         rf := [(2, 1, some 0), (3, 2, none), (4, 2, some 1), (5, 1, none)], co := [(1, [0]), (2, [1])], served := [], deps := [] }
     (run .rel .acq).allowed && !(run .sc .sc).allowed) = true := by decide +kernel
open Ordering in
/-- R250: the flag is read as 1 and the data as 0; allowed at `.WG`, forbidden at `.DEV`. -/
theorem test_R250 :
    (let a := litLane 0 0 0 1 0
     let b := litSpine 1 3 36 2
     let run (s : Scope) (v : Option Nat) : Execution :=
       { ops := [litOp a .write .rlx .sys [1], litOp a .rmw .rel s [2], litOp b .read .acq .dev [2], litOp b .read .rlx .sys [1]],
         rf := [(1, 2, none), (2, 2, some 1), (3, 1, v)], co := [(1, [0]), (2, [1])], served := [], deps := [] }
     (run .wg none).allowed && (run .wg (some 0)).allowed && !(run .dev none).allowed && (run .dev (some 0)).allowed) = true := by decide +kernel
open Ordering in
/-- R251: a copy, its token, a barrier and a reader; without the token's read nothing orders the copy. -/
theorem test_R251 :
    (let s : Standing := ⟨9, .streamer, 0, 0, 1, 0, 0, false, [0], 0⟩
     let a := litLane 0 0 0 1 0
     let b := litLane 1 0 0 1 2
     let run (ps : List (Nat × List Nat)) (v : Option Nat) : Execution :=
       { ops := [litOp s .write .rlx .sys [1], litAct s (.copyToken .wg) 9, litAct a (.tokenRead .wg) 9, litAct a .barArrive 2,
           litAct b .barLeave 2, litOp b .read .rlx .sys [1]],
         rf := [(5, 1, v)], co := [(1, [0])], served := ps, deps := [] }
     (run [(9, [1, 2]), (2, [3, 4])] (some 0)).allowed && !(run [(9, [1, 2]), (2, [3, 4])] none).allowed && (run [(2, [3, 4])] none).allowed) = true := by decide +kernel
open Ordering in
/-- R252: a chain through a third party; a third die that reads the narrow release itself. -/
theorem test_R252 :
    (let a := litLane 0 1 17 1 0
     let b := litLane 1 1 17 2 0
     let c := litLane 2 6 72 3 0
     let run (v : Option Nat) : Execution :=
       { ops := [litOp a .write .rlx .sys [1], litOp a .write .rel .cl [2], litOp b .read .acq .cl [2], litOp b .write .rel .dev [3],
           litOp c .read .acq .dev [3], litOp c .read .rlx .sys [1]],
         rf := [(2, 2, some 1), (4, 3, some 3), (5, 1, v)], co := [(1, [0]), (2, [1]), (3, [3])], served := [], deps := [(2, 3)] }
     let short : Execution :=
       { ops := [litOp a .write .rlx .sys [1], litOp a .write .rel .cl [2], litOp c .read .acq .dev [2], litOp c .read .rlx .sys [1]],
         rf := [(2, 2, some 1), (3, 1, none)], co := [(1, [0]), (2, [1])], served := [], deps := [] }
     (run (some 0)).allowed && !(run none).allowed && short.allowed) = true := by decide +kernel
open Ordering in
/-- R226: no byte of a 64-bit half of a peer window is read without the others of that half. -/
theorem test_R226_half :
    (let bytes := List.range 16
     let run (f : Nat → Option Nat) : Execution :=
       { ops := [{ litOp (litLane 0 0 0 1 0) .write .rlx .sys bytes with area := .peerWindow }, { litOp (litLane 1 4 48 2 0) .read .rlx .sys bytes with area := .peerWindow }],
         rf := bytes.map fun l => (1, l, f l), co := bytes.map fun l => (l, [0]), served := [], deps := [] }
     !(run fun l => if l < 4 then some 0 else none).allowed && (run fun l => if l < 8 then some 0 else none).allowed) = true := by
  decide +kernel
open Ordering in
/-- R237: a third party that is out of the fence's scope does not lift what the fence keeps for the one in it; `.AR` keeps a
store ahead of a load; readers that fence between two loads may still see two stores in different orders. -/
theorem test_R237_parties :
    (let a := litLane 0 0 0 1 0
     let b := litSpine 1 0 0 2
     let d := litSpine 2 4 48 3
     let third (f : Op) : Execution :=
       { ops := [litOp a .read .rlx .sys [2], f, litOp a .write .rlx .sys [1], litOp b .read .rlx .sys [1], litOp b .write .rlx .sys [2],
           litOp d .read .rlx .sys [1]],
         rf := [(0, 2, some 4), (3, 1, some 2), (5, 1, none)], co := [(1, [2]), (2, [4])], served := [], deps := [(3, 4)] }
     let sb (o : Order) (s : Scope) : Execution :=
       { ops := [litOp a .write .rlx .sys [1], litOp a .fence o s [], litOp a .read .rlx .sys [2],
           litOp d .write .rlx .sys [2], litOp d .fence o s [], litOp d .read .rlx .sys [1]],
         rf := [(2, 2, none), (5, 1, none)], co := [(1, [0]), (2, [3])], served := [], deps := [] }
     let w (n die : Nat) : Standing := litLane n die (12 * die) n 0
     let iriw : Execution :=
       { ops := [litOp (w 0 0) .write .rlx .sys [1], litOp (w 1 2) .write .rlx .sys [2], litOp (w 2 4) .read .rlx .sys [1], litOp (w 2 4) .fence .ar .dev [],
           litOp (w 2 4) .read .rlx .sys [2], litOp (w 3 6) .read .rlx .sys [2], litOp (w 3 6) .fence .ar .dev [], litOp (w 3 6) .read .rlx .sys [1]],
         rf := [(2, 1, some 0), (4, 2, none), (5, 2, some 1), (7, 1, none)], co := [(1, [0]), (2, [1])], served := [], deps := [] }
     !(third (litOp a .fence .rel .cl [])).allowed && (third (litOp a .point .rlx .sys [])).allowed &&
       !(sb .ar .dev).allowed && (sb .ar .cl).allowed && (sb .rel .dev).allowed && iriw.allowed) = true := by
  decide +kernel
open Ordering in
/-- R239, R201: an SMARK.F on a FULL line leaves the copy's release standing; a line made EMPTY in between does not. -/
theorem test_R239_smarkF :
    (let s : Standing := ⟨9, .streamer, 0, 0, 1, 0, 0, false, [0], 0⟩
     let a := litLane 0 0 0 1 0
     let b := litLane 1 0 0 1 2
     let run (ps : List Nat) (v : Option Nat) : Execution :=
       { ops := [litOp s .write .rlx .sys [1], litAct s (.lineFull .wg) 9, litAct a .lineEmpty 9, litAct a (.smarkF .wg) 9,
           litAct b (.lineRead .wg) 9, litOp b .read .rlx .sys [1]],
         rf := [(5, 1, v)], co := [(1, [0])], served := [(9, ps)], deps := [] }
     (run [1, 3, 4] (some 0)).allowed && !(run [1, 3, 4] none).allowed && (run [1, 2, 3, 4] none).allowed) = true := by decide +kernel
open Ordering in
/-- R373, R238: a unit's SQLOAD reads what its issuer stored before it. -/
theorem test_R373 :
    (let a := litLane 0 0 0 1 0
     let u : Standing := ⟨7, .dieUnit, 0, 0, 0, 0, 0, false, [], 0⟩
     let run (ps : List Nat) (v : Option Nat) : Execution :=
       { ops := [litOp a .write .rlx .sys [1], litAct a .unitIssue 4, litAct u .unitReceipt 4, litOp u .read .rlx .sys [1],
           litAct u .unitReport 4, litAct a .unitDone 4],
         rf := [(3, 1, v)], co := [(1, [0])], served := [(4, ps)], deps := [] }
     (run [1, 2, 4, 5] (some 0)).allowed && !(run [1, 2, 4, 5] none).allowed && (run [] none).allowed) = true := by decide +kernel

end Sys2Proof.Tests
end

section
/-! PROOFS. The state right after reset (R8, R194, R365, R411, R451, R455). -/

namespace Sys2Proof.Machine

/-! ### Reads of the tables of reset: each table is empty, so that a read gives its default -/

@[simp] theorem State.die_reset (d : Nat) : State.reset.die d = Die.zero := rfl
@[simp] theorem State.cluster_reset (c : Nat) : State.reset.cluster c = Cluster.zero := rfl
@[simp] theorem State.group_reset (g : Nat) : State.reset.group g = GroupEntry.zero := rfl
@[simp] theorem State.slot_reset (n : Nat) : State.reset.slot n = Slot.zero := rfl
@[simp] theorem State.line_reset (l : Nat) : State.reset.line l = Line.zero := rfl
@[simp] theorem State.byteAt_reset (a : Nat) : State.reset.byteAt a = 0 := rfl
@[simp] theorem State.layoutEntry_reset (c h : Nat) : State.reset.layoutEntry c h = 0 := rfl
@[simp] theorem State.context_reset_enabled (c : Nat) : (State.reset.context c).enabled = false := rfl
@[simp] theorem Cluster.bank_zero (b : Nat) : Cluster.zero.bank b = bankReset b := rfl

/-- Settles O58: every table of reset is empty, so that each read gives the default of its table. -/
theorem resetState : Obligations.ResetState := by
  unfold Obligations.ResetState
  refine ⟨fun d => ?_, fun n b => ?_, fun n => ?_, fun g => ?_, fun n => ?_, State.byteAt_reset, State.line_reset,
    State.layoutEntry_reset, State.context_reset_enabled, ?_⟩
  · rw [State.die_reset]; simp [Die.zero]
  · rw [State.cluster_reset, Cluster.bank_zero]; rfl
  · rw [State.cluster_reset]; simp [Cluster.zero, rd, cget]
  · rw [State.group_reset]; simp [GroupEntry.zero]
  · rw [State.slot_reset]; simp [Slot.zero]
  · simp [State.reset, State.up, baseUnits]

end Sys2Proof.Machine
end

section
/-! PROOFS. Sparse tables: what a key reads, what is listed, and what writes at several keys give. -/

namespace Sys2Proof.Machine

theorem mem_of_cget {α : Type} {c : Cells α} {k : Nat} {v : α} (h : cget c k = some v) : (k, v) ∈ c := by
  induction c with
  | nil => cases h
  | cons e r ih =>
    rw [cget] at h
    split at h
    · rename_i hk; rw [← hk, ← Option.some.inj h]; exact List.mem_cons_self
    · exact List.mem_cons_of_mem _ (ih h)

theorem cget_of_mem {α : Type} {c : Cells α} {lo : Nat} (h : risingFrom lo c = true) {e : Nat × α} (he : e ∈ c) :
    cget c e.1 = some e.2 := by
  have above (c : Cells α) : ∀ lo, risingFrom lo c = true → ∀ e ∈ c, lo ≤ e.1 := by
    induction c with
    | nil => exact fun _ _ e he => absurd he List.not_mem_nil
    | cons x r ih =>
      intro lo h e he
      simp only [risingFrom, Bool.and_eq_true, decide_eq_true_eq] at h
      rcases List.mem_cons.1 he with rfl | he
      · exact h.1
      · exact Nat.le_trans (Nat.le_succ_of_le h.1) (ih _ h.2 e he)
  induction c generalizing lo with
  | nil => exact absurd he List.not_mem_nil
  | cons x r ih =>
    simp only [risingFrom, Bool.and_eq_true] at h
    rcases List.mem_cons.1 he with rfl | he
    · exact if_pos rfl
    · exact (if_neg (Nat.ne_of_lt (above r _ h.2 e he))).trans (ih h.2 he)

theorem cget_map_snd {α β : Type} (c : Cells α) (g : α → β) (k : Nat) :
    cget (c.map fun e => (e.1, g e.2)) k = (cget c k).map g := by
  induction c with
  | nil => rfl
  | cons e r ih =>
    simp only [List.map_cons, cget, ih]
    split <;> rfl

theorem cget_append_single {α : Type} (c : Cells α) (k j : Nat) (v : α) :
    cget (c ++ [(k, v)]) j = (cget c j).or (if k = j then some v else none) := by
  induction c with
  | nil => simp [cget]
  | cons e r ih =>
    simp only [List.cons_append, cget, ih]
    split <;> simp
theorem cget_map_range {α : Type} (f : Nat → α) (n j : Nat) :
    cget ((List.range n).map fun l => (l, f l)) j = if j < n then some (f j) else none := by
  induction n with
  | zero => simp [cget]
  | succ n ih =>
    rw [List.range_succ, List.map_append, List.map_singleton, cget_append_single, ih]
    rcases Nat.lt_trichotomy j n with h | rfl | h
    · simp [h, Nat.lt_succ_of_lt h]
    · simp
    · simp [Nat.not_lt_of_gt h, Nat.ne_of_lt h, show ¬ j < n + 1 by omega]

/-- What a table holds at a key after entries are written at new keys: each that is written there agrees on what it is, and one
is, or it was so before. -/
theorem rd_foldl_wr (es : List Host.Cell) (g : Nat → Nat) (m : List Host.Cell) (a : Nat) (v : Byte)
    (agree : ∀ e ∈ es, g e.1 = a → e.2 = v) (covered : (∃ e ∈ es, g e.1 = a) ∨ rd 0 m a = v) :
    rd 0 (es.foldl (fun m e => wr 0 m (g e.1) e.2) m) a = v := by
  induction es generalizing m with
  | nil => exact covered.resolve_left (by simp)
  | cons e r ih =>
    refine ih _ (fun x hx => agree x (List.mem_cons_of_mem _ hx)) ?_
    by_cases h : g e.1 = a
    · refine .inr ?_
      dsimp only
      rw [h, rd_wr_self]
      exact agree e List.mem_cons_self h
    · dsimp only
      rw [rd_wr_ne _ _ _ h]
      rcases covered with ⟨x, hx, hg⟩ | old
      · rcases List.mem_cons.1 hx with rfl | hr
        · exact absurd hg h
        · exact .inl ⟨x, hr, hg⟩
      · exact .inr old

end Sys2Proof.Machine
end

section
/-! PROOFS. A full L2 whose every line is retained: the line that leaves for a snooped one loses its mark (R2, R205, R206). -/

namespace Sys2Proof.Machine

/-- Line `l` of device memory in the L1 of cluster `l / 8192`, at way `l / 1024 % 8` of its set, and in L2, retained in both
(R205). -/
def keptLine (l : Nat) : Line :=
  { Line.zero with
    owner := some (l / 8192), inL2 := true, l2Keep := true
    copies := [(l / 8192, { way := l / 1024 % 8, chk := Checks.zero, rank := 2 })] }
/-- A line that cluster 95 has written and L2 does not hold. -/
def writtenLine : Line :=
  { Line.zero with owner := some 95, dirty := true, copies := [(95, { way := 0, chk := Checks.zero, rank := 1 })] }
/-- The first line of window 1. -/
def windowLine : Nat := 2 ^ 33
/-- The slices of die 0 hold the first `n` lines of device memory, each of them retained; cluster 95 has written a line of a host
window that is homed there. -/
def keptState (n : Nat) : State :=
  { State.reset with
    windows := [(1, .host 0 0)], lines := (List.range n).map (fun l => (l, keptLine l)) ++ [(windowLine, writtenLine)] }

theorem line_keptState (n l : Nat) (h : l < n) : (keptState n).line l = keptLine l := by
  simp [State.line, rd, keptState, cget_append_single, cget_map_range, h]
theorem line_keptState_window (n : Nat) (h : n ≤ windowLine) : (keptState n).line windowLine = writtenLine := by
  simp [State.line, rd, keptState, cget_append_single, cget_map_range, Nat.not_lt_of_ge h]

theorem homeDie_keptState (n l : Nat) (h : l < l2Capacity) : (keptState n).homeDie (128 * l) = some 0 := by
  unfold l2Capacity at h
  have hd : 128 * l / 2 ^ 36 = 0 := by omega
  have hw : 128 * l / 2 ^ 40 = 0 := by omega
  simp only [State.homeDie, State.target, hd, hw, ↓reduceIte]
  rw [if_pos (by omega)]
theorem target_keptState_window (n : Nat) : (keptState n).target (128 * windowLine) = .host 0 := rfl
theorem up_keptState (n : Nat) : (keptState n).up = true := rfl

theorem l2Lines_keptState (n : Nat) (h : n ≤ l2Capacity) : (keptState n).l2Lines 0 = List.range n := by
  have kept : ((List.range n).map fun l => (l, keptLine l)).filter
      (fun e => e.2.inL2 && (keptState n).homeDie (128 * e.1) == some 0) = (List.range n).map fun l => (l, keptLine l) := by
    refine List.filter_eq_self.2 fun e he => ?_
    obtain ⟨l, hl, rfl⟩ := List.mem_map.1 he
    simp [keptLine, homeDie_keptState n l (by have := List.mem_range.1 hl; omega)]
  have out : [(windowLine, writtenLine)].filter (fun e => e.2.inL2 && (keptState n).homeDie (128 * e.1) == some 0) = [] := rfl
  unfold State.l2Lines
  rw [show (keptState n).lines = (List.range n).map (fun l => (l, keptLine l)) ++ [(windowLine, writtenLine)] from rfl,
    List.filter_append, kept, out]
  simp [Function.comp_def]
/-- Where every line is retained, every line may leave (R205). -/
theorem l2Victims_keptState (n : Nat) (h : n ≤ l2Capacity) : (keptState n).l2Victims 0 = List.range n := by
  have none_plain : ((List.range n).filter fun l => !((keptState n).line l).l2Keep) = [] := by
    refine List.filter_eq_nil_iff.2 fun l hl => ?_
    rw [line_keptState n l (List.mem_range.1 hl)]
    simp [keptLine]
  simp [State.l2Victims, l2Lines_keptState n h, none_plain]

/-- A retained line of a full L2 leaves for the written line. -/
theorem roomL2_keptState : ∃ v, v < l2Capacity ∧
    (keptState l2Capacity).roomL2 windowLine = { keptState l2Capacity with choices := 1 }.evictL2 v := by
  have pos : 0 < (List.range l2Capacity).length := by simp [l2Capacity]
  refine ⟨Config.choose 0 % (List.range l2Capacity).length, by simpa using Nat.mod_lt _ pos, ?_⟩
  have home : (keptState l2Capacity).homeDie (128 * windowLine) = some 0 := rfl
  simp only [State.roomL2, home, l2Lines_keptState _ (Nat.le_refl _), l2Victims_keptState _ (Nat.le_refl _)]
  rw [if_neg (by simp), List.getElem?_eq_getElem (Nat.mod_lt _ pos), List.getElem_range]
  rfl

/-- A line that L2 drops, where it does not differ from DRAM. -/
theorem State.line_evictL2_clean (s : State) (l : Nat) (h : (s.line l).l2Dirty = false) :
    (s.evictL2 l).line l = { s.line l with inL2 := false, l2Dirty := false, l2 := Checks.zero, l2Keep := false } := by
  simp [State.evictL2, State.cleanL2, h, State.line_setLine]

theorem State.line_writeBack_other (s : State) (l v : Nat) (y : Nat) (hv : v ≠ l) (ho : (s.line l).owner = some y)
    (hd : (s.line l).dirty = true) (hi : (s.line l).inL2 = false) :
    (s.writeBack l).line v = ((s.readL1 y l 15).roomL2 l).line v := by
  simp only [State.writeBack, ho, hd, hi, ↓reduceIte]
  exact (State.line_setLine _ _ _ _).trans (if_neg hv.symm)

/-- The snoop of the written line takes a retained line out of L2, though its L1 copy stays. -/
theorem recall_keptState : ∃ v, v < l2Capacity ∧ ((keptState l2Capacity).recall windowLine).line v =
    { keptLine v with inL2 := false, l2Dirty := false, l2 := Checks.zero, l2Keep := false } := by
  obtain ⟨v, hv, room⟩ := roomL2_keptState
  have ne : v ≠ windowLine := by unfold l2Capacity at hv; unfold windowLine; omega
  have w := line_keptState_window l2Capacity (by decide)
  have clean : (keptState l2Capacity).readL1 95 windowLine 15 = keptState l2Capacity := by
    simp only [State.readL1, w]; rfl
  refine ⟨v, hv, ?_⟩
  simp only [State.recall, w, show writtenLine.dirty = true from rfl, ↓reduceIte]
  rw [State.line_setLine, if_neg ne.symm,
    State.line_writeBack_other _ _ _ 95 ne (by rw [w]; rfl) (by rw [w]; rfl) (by rw [w]; rfl), clean, room]
  have old : ({ keptState l2Capacity with choices := 1 } : State).line v = keptLine v := line_keptState _ _ hv
  rw [State.line_evictL2_clean _ _ (by rw [old]; rfl), old]

/-- Refutes O52 (its part on accesses from outside): a snoop of a line that an L1 has written takes a line out of a full L2. Where
every line there is retained (R205), a retained one leaves and loses its mark, while its L1 copy stays: none of the three
things that `OtherLine` lets an access do to another line. -/
theorem not_linksAndPower : ¬ Obligations.LinksAndPower := by
  unfold Obligations.LinksAndPower Claims.OutsideAccesses
  rintro ⟨⟨-, -, h⟩, -⟩
  obtain ⟨-, -, snoop⟩ := h (keptState l2Capacity) (.read 0 1) (up_keptState _)
  obtain ⟨t, ht, -, -, -, -, others⟩ := snoop (128 * windowLine) 0 (target_keptState_window _)
  obtain ⟨v, hv, after⟩ := recall_keptState
  have eff : exec (.hostSnoop (128 * windowLine)) (keptState l2Capacity) =
      .next ((keptState l2Capacity).recall (128 * windowLine / 128)) := rfl
  rw [eff] at ht
  obtain rfl := Host.Outcome.next.inj ht
  rw [Nat.mul_div_cancel_left _ (by decide)] at others
  have bad := others v (by unfold l2Capacity at hv; unfold windowLine; omega)
  rw [after, line_keptState _ _ hv] at bad
  rcases bad with same | ⟨unowned, -, -⟩ | ⟨marked, -⟩
  · exact absurd (congrArg Line.inL2 same) (by simp [keptLine])
  · simp [keptLine] at unowned
  · exact absurd (congrArg Line.l2Keep marked) (by simp [keptLine])

end Sys2Proof.Machine
end

section
/-! PROOFS. What the machinery of memory leaves alone: the moves of lines among caches, the correction of errors, the waking of
waiters and the writes at the home slice change no page on its way to host ownership, no context, no window and no link; of a
die at most its counts of soft errors; and no monitor comes to watch another word. -/

namespace Sys2Proof.Machine

/-- A die without its counts of soft errors (R398). -/
def Die.uncounted (x : Die) : Die := { x with softL2 := 0, softDram := 0 }
@[simp] theorem Die.uncounted_faults (x : Die) : x.uncounted.faults = x.faults := rfl
@[simp] theorem Die.uncounted_faultWait (x : Die) : x.uncounted.faultWait = x.faultWait := rfl
@[simp] theorem Die.uncounted_faultBase (x : Die) : x.uncounted.faultBase = x.faultBase := rfl

structure MemoryOnly (s t : State) : Prop where
  flips : t.flips = s.flips
  ctxs : t.ctxs = s.ctxs
  windows : t.windows = s.windows
  linkDown : t.linkDown = s.linkDown
  linkFrozen : t.linkFrozen = s.linkFrozen
  dies : ∀ d, (t.die d).uncounted = (s.die d).uncounted
  monitors : ∀ m ∈ t.monitors, ∃ x ∈ s.monitors, x.pa = m.pa

namespace MemoryOnly
variable {s t r : State}

theorem refl (s : State) : MemoryOnly s s := ⟨rfl, rfl, rfl, rfl, rfl, fun _ => rfl, fun m h => ⟨m, h, rfl⟩⟩
theorem trans (h : MemoryOnly s t) (g : MemoryOnly t r) : MemoryOnly s r where
  flips := g.flips.trans h.flips
  ctxs := g.ctxs.trans h.ctxs
  windows := g.windows.trans h.windows
  linkDown := g.linkDown.trans h.linkDown
  linkFrozen := g.linkFrozen.trans h.linkFrozen
  dies d := (g.dies d).trans (h.dies d)
  monitors m hm := by
    obtain ⟨x, hx, ex⟩ := g.monitors m hm
    obtain ⟨y, hy, ey⟩ := h.monitors x hx
    exact ⟨y, hy, ey.trans ex⟩
theorem foldl {α : Type} (f : State → α → State) (hf : ∀ s x, MemoryOnly s (f s x)) (l : List α) (s : State) :
    MemoryOnly s (l.foldl f s) := by
  induction l generalizing s with
  | nil => exact refl s
  | cons x r ih => exact (hf s x).trans (ih (f s x))

/-- An address leads where it did. -/
theorem target (h : MemoryOnly s t) (pa : Nat) : t.target pa = s.target pa := by
  simp only [State.target, h.windows, h.linkDown, h.linkFrozen]
theorem reservedAt (h : MemoryOnly s t) (pa : Nat) : t.reservedAt pa = s.reservedAt pa :=
  State.reservedAt_of_ctxs h.ctxs pa
theorem faults (h : MemoryOnly s t) (d : Nat) : (t.die d).faults = (s.die d).faults := by
  simpa using congrArg Die.faults (h.dies d)
theorem faultWait (h : MemoryOnly s t) (d : Nat) : (t.die d).faultWait = (s.die d).faultWait := by
  simpa using congrArg Die.faultWait (h.dies d)
theorem faultBase (h : MemoryOnly s t) (d : Nat) : (t.die d).faultBase = (s.die d).faultBase := by
  simpa using congrArg Die.faultBase (h.dies d)

/-! ### The plain updates -/

theorem setLine (s : State) (l : Nat) (x : Line) : MemoryOnly s (s.setLine l x) :=
  ⟨rfl, rfl, rfl, rfl, rfl, fun _ => rfl, fun m h => ⟨m, h, rfl⟩⟩
theorem setDramChecks (s : State) (l : Nat) (x : Checks) : MemoryOnly s (s.setDramChecks l x) :=
  ⟨rfl, rfl, rfl, rfl, rfl, fun _ => rfl, fun m h => ⟨m, h, rfl⟩⟩
theorem modCluster (s : State) (c : Nat) (f : Cluster → Cluster) : MemoryOnly s (s.modCluster c f) :=
  ⟨rfl, rfl, rfl, rfl, rfl, fun _ => rfl, fun m h => ⟨m, h, rfl⟩⟩
theorem modParty (s : State) (u w : Nat) (f : Party → Party) : MemoryOnly s (s.modParty u w f) where
  flips := by simp
  ctxs := by simp
  windows := by simp
  linkDown := by simp
  linkFrozen := by simp
  dies d := by simp [State.die]
  monitors m h := ⟨m, by simpa using h, rfl⟩
theorem modDie (s : State) (d : Nat) (f : Die → Die) (hf : ∀ x, (f x).uncounted = x.uncounted) :
    MemoryOnly s (s.modDie d f) where
  flips := rfl
  ctxs := rfl
  windows := rfl
  linkDown := rfl
  linkFrozen := rfl
  dies e := by
    rw [State.die_modDie]
    split
    · rename_i h; rw [hf, h]
    · rfl
  monitors m h := ⟨m, h, rfl⟩
theorem setMonitors (s : State) (ms : List Monitor) (h : ∀ m ∈ ms, ∃ x ∈ s.monitors, x.pa = m.pa) :
    MemoryOnly s { s with monitors := ms } := ⟨rfl, rfl, rfl, rfl, rfl, fun _ => rfl, h⟩

/-! ### Lines in caches (R203 to R205, R209) -/

theorem readL1 (s : State) (c l : Nat) (m : BitVec 4) : MemoryOnly s (s.readL1 c l m) := by
  simp only [State.readL1]
  split
  · exact refl s
  · exact (setLine s l _).trans (modCluster _ c _)
theorem readL2 (s : State) (l : Nat) (m : BitVec 4) : MemoryOnly s (s.readL2 l m) := by
  simp only [State.readL2]
  split
  · exact refl s
  · split
    · exact setLine s l _
    · exact (setLine s l _).trans (modDie _ _ _ fun _ => rfl)
theorem readDram (s : State) (l : Nat) (m : BitVec 4) : MemoryOnly s (s.readDram l m) := by
  simp only [State.readDram]
  split
  · exact refl s
  · split
    · exact (setDramChecks s l _).trans (modDie _ _ _ fun _ => rfl)
    all_goals exact setDramChecks s l _
theorem cleanL2 (s : State) (l : Nat) : MemoryOnly s (s.cleanL2 l) := by
  simp only [State.cleanL2]
  split
  · exact ((readL2 s l 15).trans (setDramChecks _ l _)).trans (setLine _ l _)
  · exact refl s
theorem evictL2 (s : State) (l : Nat) : MemoryOnly s (s.evictL2 l) := (cleanL2 s l).trans (setLine _ l _)
theorem choices (s : State) (n : Nat) : MemoryOnly s { s with choices := n } :=
  ⟨rfl, rfl, rfl, rfl, rfl, fun _ => rfl, fun m h => ⟨m, h, rfl⟩⟩
theorem roomL2 (s : State) (l : Nat) : MemoryOnly s (s.roomL2 l) := by
  simp only [State.roomL2]
  split
  · exact refl s
  · split
    · exact refl s
    · split
      · exact refl s
      · exact (choices s _).trans (evictL2 _ _)
theorem fillL2 (s : State) (l : Nat) : MemoryOnly s (s.fillL2 l) := by
  simp only [State.fillL2]
  split
  · exact refl s
  · exact ((roomL2 s l).trans (readDram _ l 15)).trans (setLine _ l _)
theorem stale (s : State) (x : Cells Byte) : MemoryOnly s { s with stale := x } :=
  ⟨rfl, rfl, rfl, rfl, rfl, fun _ => rfl, fun m h => ⟨m, h, rfl⟩⟩
theorem writeBack (s : State) (l : Nat) : MemoryOnly s (s.writeBack l) := by
  have corrected (y : Nat) : MemoryOnly s (if (s.line l).dirty then s.readL1 y l 15 else s) := by
    split
    · exact readL1 s y l 15
    · exact refl s
  have room {t : State} (h : MemoryOnly s t) : MemoryOnly s (if (s.line l).inL2 then t else t.roomL2 l) := by
    split
    · exact h
    · exact h.trans (roomL2 t l)
  simp only [State.writeBack]
  refine .trans ?_ ((setLine _ l _).trans (stale _ _))
  cases (s.line l).owner with
  | none => exact room (refl s)
  | some y => exact room (corrected y)
theorem recalled (s : State) (l : Nat) : MemoryOnly s (s.recall l) := by
  simp only [State.recall]
  refine .trans ?_ (setLine _ l _)
  split
  · exact writeBack s l
  · exact refl s
theorem flushRange (s : State) (pa n : Nat) : MemoryOnly s (s.flushRange pa n) :=
  foldl _ (fun s l => (recalled s l).trans (cleanL2 _ l)) _ s
theorem correct (s : State) (pa n : Nat) : MemoryOnly s (s.correct pa n) := by
  simp only [State.correct]
  split
  · exact refl s
  · exact refl s
  all_goals
    refine foldl _ (fun s l => ?_) _ s
    split
    · exact readL1 s _ l _
    · split
      · exact readL2 s l _
      · exact readDram s l _
theorem correctWalk (s : State) (ctx va : Nat) : MemoryOnly s (s.correctWalk ctx va) :=
  foldl _ (fun s a => correct s a 8) _ s

/-! ### Waiters (R350, R353, R354) -/

theorem wakeMonitor (s : State) (m : Monitor) (w : Word64) (code : Nat) : MemoryOnly s (s.wakeMonitor m w code) := by
  simp only [State.wakeMonitor]
  refine (modParty s m.pack m.who fun p => p.serve m.lanes [w, u64 code]).trans ?_
  split
  · refine setMonitors _ _ fun y hy => ?_
    obtain ⟨x, hx, rfl⟩ := List.mem_map.1 hy
    exact ⟨x, hx, by split <;> rfl⟩
  · exact setMonitors _ _ fun x hx => ⟨x, (List.mem_filter.1 hx).1, rfl⟩
theorem moveIn (s : State) (slice k : Nat) : MemoryOnly s (s.moveIn slice k) := by
  induction k generalizing s with
  | zero => exact refl s
  | succ k ih =>
    simp only [State.moveIn]
    split
    · exact refl s
    · split
      · exact refl s
      · rename_i m hm
        have entered : MemoryOnly s { s with monitors := s.monitors.map (fun (x : Monitor) =>
            if x.same m then { m with overflow := false } else x) } := by
          refine setMonitors _ _ fun y hy => ?_
          obtain ⟨x, hx, rfl⟩ := List.mem_map.1 hy
          split
          · exact ⟨m, List.mem_of_find?_eq_some hm, rfl⟩
          · exact ⟨x, hx, rfl⟩
        have woken {t : State} (h : MemoryOnly s t) (b : Bool) (y : Monitor) (w : Word64) :
            MemoryOnly s (if b then t.wakeMonitor y w 2 else t) := by
          split
          · exact h.trans (wakeMonitor t y w 2)
          · exact h
        exact (woken (entered.trans (recalled _ _)) _ _ _).trans (ih _)
theorem evalMonitors (s : State) (pa n : Nat) (ms : List Monitor) : MemoryOnly s (s.evalMonitors pa n ms) := by
  induction ms generalizing s with
  | nil => exact refl s
  | cons m r ih =>
    simp only [State.evalMonitors]
    refine .trans ?_ (ih _)
    split
    · exact refl s
    · exact wakeMonitor s _ _ _
theorem notify (s : State) (pa n : Nat) : MemoryOnly s (s.notify pa n) := by
  simp only [State.notify]
  split
  · exact refl s
  · exact (evalMonitors s pa n _).trans (moveIn _ _ _)
theorem notifyRange (s : State) (pa n : Nat) : MemoryOnly s (s.notifyRange pa n) := by
  simp only [State.notifyRange]
  split
  · exact refl s
  · exact (evalMonitors s pa n _).trans (foldl _ (fun s x => moveIn s x _) _ _)

/-! ### Writes at the home slice -/

theorem openHome (s : State) (alloc : Bool) (pa n l : Nat) : MemoryOnly s (s.openHome alloc pa n l) := by
  simp only [State.openHome]
  refine (recalled s l).trans ?_
  split
  · refine .trans ?_ (setLine _ l _)
    split
    · split
      · exact refl _
      · exact roomL2 _ l
    · exact fillL2 _ l
  · exact setDramChecks _ l _
theorem putHome (s : State) (pa : Nat) (bs : List Byte) : MemoryOnly s (s.putHome pa bs) := by
  induction bs generalizing s pa with
  | nil => exact refl s
  | cons b r ih =>
    have first : MemoryOnly s { s with mem := wr 0 s.mem pa b, stale := cdel s.stale pa } :=
      ⟨rfl, rfl, rfl, rfl, rfl, fun _ => rfl, fun m h => ⟨m, h, rfl⟩⟩
    exact first.trans (ih _ (pa + 1))
theorem landHome (s : State) (alloc : Bool) (pa : Nat) (bs : List Byte) : MemoryOnly s (s.landHome alloc pa bs) := by
  simp only [State.landHome]
  refine .trans (.trans ?_ (putHome _ pa bs)) (notify _ pa _)
  split
  · exact foldl _ (fun s l => openHome s alloc pa _ l) _ s
  · exact foldl _ (fun s l => openHome s alloc pa _ l) _ s
  · exact refl s
  · exact refl s
theorem writeHome (s : State) (pa : Nat) (bs : List Byte) : MemoryOnly s (s.writeHome pa bs) :=
  landHome s true pa _

end MemoryOnly

end Sys2Proof.Machine
end

section
/-! PROOFS. The dirty lines of a range are written back (R208, step 3). -/

namespace Sys2Proof.Machine

/-- No L1 holds the line, and its L2 copy does not differ from DRAM. -/
structure Line.Settled (x : Line) : Prop where
  owner : x.owner = none
  sharers : x.sharers = 0
  dirty : x.dirty = false
  l2Dirty : x.l2Dirty = false
theorem Line.settled_zero : Line.zero.Settled := ⟨rfl, rfl, rfl, rfl⟩

@[simp] theorem State.line_modDie (s : State) (d m : Nat) (f : Die → Die) : (s.modDie d f).line m = s.line m := rfl
@[simp] theorem State.line_setLine_self (s : State) (l : Nat) (x : Line) : (s.setLine l x).line l = x := by
  simp [State.line_setLine]

/-- Lines that are settled stay so. -/
def KeepsSettled (s t : State) : Prop := ∀ l, (s.line l).Settled → (t.line l).Settled

namespace KeepsSettled
variable {s t r : State}

theorem refl (s : State) : KeepsSettled s s := fun _ h => h
theorem trans (h : KeepsSettled s t) (g : KeepsSettled t r) : KeepsSettled s r := fun l hl => g l (h l hl)
theorem setLine (s : State) (l : Nat) (x : Line) (h : (s.line l).Settled → x.Settled) : KeepsSettled s (s.setLine l x) := by
  intro m hm
  rw [State.line_setLine]
  split
  · rename_i e; exact h (e ▸ hm)
  · exact hm

theorem readL1 (s : State) (c l : Nat) (m : BitVec 4) : KeepsSettled s (s.readL1 c l m) := by
  simp only [State.readL1]
  split
  · exact refl s
  · exact setLine s l _ fun h => ⟨h.owner, h.sharers, h.dirty, h.l2Dirty⟩
theorem readL2 (s : State) (l : Nat) (m : BitVec 4) : KeepsSettled s (s.readL2 l m) := by
  simp only [State.readL2]
  split
  · exact refl s
  · split
    · exact setLine s l _ fun h => ⟨h.owner, h.sharers, h.dirty, h.l2Dirty⟩
    · exact setLine s l _ fun h => ⟨h.owner, h.sharers, h.dirty, h.l2Dirty⟩
theorem cleanL2 (s : State) (l : Nat) : KeepsSettled s (s.cleanL2 l) := by
  simp only [State.cleanL2]
  split
  · refine (readL2 s l 15).trans ?_
    exact setLine _ l _ fun h => ⟨h.owner, h.sharers, h.dirty, rfl⟩
  · exact refl s
theorem evictL2 (s : State) (l : Nat) : KeepsSettled s (s.evictL2 l) :=
  (cleanL2 s l).trans (setLine _ l _ fun h => ⟨h.owner, h.sharers, h.dirty, rfl⟩)
theorem roomL2 (s : State) (l : Nat) : KeepsSettled s (s.roomL2 l) := by
  simp only [State.roomL2]
  split
  · exact refl s
  · split
    · exact refl s
    · split
      · exact refl s
      · rename_i v _
        exact fun k hk => evictL2 { s with choices := s.choices + 1 } v k hk
theorem writeBack (s : State) (l : Nat) : KeepsSettled s (s.writeBack l) := by
  have corrected (y : Nat) : KeepsSettled s (if (s.line l).dirty then s.readL1 y l 15 else s) := by
    split
    · exact readL1 s y l 15
    · exact refl s
  have room {t : State} (h : KeepsSettled s t) : KeepsSettled s (if (s.line l).inL2 then t else t.roomL2 l) := by
    split
    · exact h
    · exact h.trans (roomL2 t l)
  have written (t : State) (x : Checks) (k : Bool) : KeepsSettled t (t.setLine l { t.line l with
      dirty := false, inL2 := true, l2Dirty := (t.line l).l2Dirty || (t.line l).dirty, l2 := x, l2Keep := k }) :=
    setLine t l _ fun h => ⟨h.owner, h.sharers, rfl, by simp [h.dirty, h.l2Dirty]⟩
  simp only [State.writeBack]
  refine .trans ?_ (written _ _ _)
  cases (s.line l).owner with
  | none => exact room (refl s)
  | some y => exact room (corrected y)
theorem recalled (s : State) (l : Nat) : KeepsSettled s (s.recall l) := by
  simp only [State.recall]
  refine .trans ?_ (setLine _ l _ fun h => ⟨rfl, rfl, rfl, h.l2Dirty⟩)
  split
  · exact writeBack s l
  · exact refl s
end KeepsSettled

/-- A read in L2 corrects the copy there, and changes nothing else of the line. -/
theorem State.line_readL2 (s : State) (l : Nat) (m : BitVec 4) :
    ∃ x, (s.readL2 l m).line l = { s.line l with l2 := x } := by
  simp only [State.readL2]
  split
  · exact ⟨(s.line l).l2, rfl⟩
  · split
    · exact ⟨_, State.line_setLine_self _ _ _⟩
    · exact ⟨_, (State.line_modDie _ _ _ _).trans (State.line_setLine_self _ _ _)⟩
/-- A recalled line that is then cleaned is settled. -/
theorem State.settled_recall_cleanL2 (s : State) (l : Nat) : (((s.recall l).cleanL2 l).line l).Settled := by
  have free : ((s.recall l).line l).owner = none ∧ ((s.recall l).line l).sharers = 0 ∧ ((s.recall l).line l).dirty = false := by
    simp [State.recall]
  obtain ⟨owner, sharers, dirty⟩ := free
  simp only [State.cleanL2]
  split
  · obtain ⟨x, hx⟩ := (s.recall l).line_readL2 l 15
    rw [State.line_setLine_self, hx]
    exact ⟨owner, sharers, dirty, rfl⟩
  · rename_i clean
    exact ⟨owner, sharers, dirty, Bool.eq_false_iff.2 clean⟩

/-- A line that a cache holds stands in the directory. -/
theorem State.settled_or_mem_linesIn (s : State) (pa n l : Nat) (hlo : pa < 128 * l + 128) (hhi : 128 * l < pa + n) :
    (s.line l).Settled ∨ l ∈ s.linesIn pa n := by
  rcases h : cget s.lines l with _ | x
  · left
    rw [State.line, rd, h]; exact Line.settled_zero
  · right
    refine List.mem_map.2 ⟨(l, x), List.mem_filter.2 ⟨mem_of_cget h, ?_⟩, rfl⟩
    simp only [Bool.and_eq_true, decide_eq_true_eq]
    omega

/-- After the lines of a range are written back, no L1 holds one, and no L2 a dirty one (R208, step 3). -/
theorem State.flushed_flushRange (s : State) (pa n : Nat) : Claims.Flushed (s.flushRange pa n) pa n := by
  have all (ls : List Nat) : ∀ (s : State) (l : Nat), (s.line l).Settled ∨ l ∈ ls →
      ((ls.foldl (fun s l => (s.recall l).cleanL2 l) s).line l).Settled := by
    induction ls with
    | nil => exact fun s l h => h.resolve_right (List.not_mem_nil)
    | cons k r ih =>
      intro s l h
      refine ih _ l ?_
      rcases h with h | h
      · exact .inl (((KeepsSettled.recalled s k).trans (.cleanL2 _ k)) l h)
      · rcases List.mem_cons.1 h with rfl | h
        · exact .inl (s.settled_recall_cleanL2 l)
        · exact .inr h
  intro l hlo hhi
  have h := all _ s l (s.settled_or_mem_linesIn pa n l hlo hhi)
  exact ⟨h.owner, h.sharers, h.dirty, h.l2Dirty⟩

end Sys2Proof.Machine
end

section
/-! PROOFS. Words that are written one after another: what a byte and a word read as afterwards. -/

namespace Sys2Proof.Machine

/-! ### Bytes and words -/

theorem length_bytesOf (n v : Nat) : (bytesOf n v).length = n := by simp [bytesOf]
theorem getElem?_bytesOf (n v i : Nat) (h : i < n) : (bytesOf n v)[i]? = some (BitVec.ofNat 8 (v >>> (8 * i))) := by
  simp [bytesOf, h]
/-- A byte of a 64-bit word. -/
theorem byte_of_word (e : Word64) (i : Nat) : BitVec.ofNat 8 (e.toNat >>> (8 * i)) = e.extractLsb' (8 * i) 8 := by
  apply BitVec.eq_of_toNat_eq
  simp [BitVec.extractLsb'_toNat]

theorem bytesOf_succ (n v : Nat) : bytesOf (n + 1) v = BitVec.ofNat 8 v :: bytesOf n (v / 256) := by
  simp only [bytesOf, List.range_succ_eq_map, List.map_cons, List.map_map, Nat.mul_zero, Nat.shiftRight_zero]
  congr 1
  refine List.map_congr_left fun i _ => ?_
  simp only [Function.comp_apply, Nat.mul_succ, Nat.add_comm (8 * i) 8, Nat.shiftRight_add, Nat.shiftRight_eq_div_pow v 8]
theorem ofBytes_bytesOf (n v : Nat) : ofBytes (bytesOf n v) = v % 256 ^ n := by
  induction n generalizing v with
  | zero => simp [bytesOf, ofBytes, Nat.mod_one]
  | succ n ih =>
    rw [bytesOf_succ, ofBytes, ih, Nat.pow_succ, Nat.mul_comm (256 ^ n), Nat.mod_mul]
    rfl

/-- A word reads what its bytes are. -/
theorem State.readNat_word (s : State) (a : Nat) (e : Word64)
    (h : ∀ i, i < 8 → some (s.byteAt (a + i)) = (bytesOf 8 e.toNat)[i]?) : s.readNat a 8 = e.toNat := by
  have bytes : (List.range 8).map (fun i => s.byteAt (a + i)) = bytesOf 8 e.toNat := by
    refine List.ext_getElem? fun i => ?_
    by_cases hi : i < 8
    · simp [h i hi, hi]
    · simp [hi, length_bytesOf]
  rw [State.readNat, bytes, ofBytes_bytesOf]
  exact Nat.mod_eq_of_lt e.isLt
theorem State.readNat_congr {s t : State} {a n : Nat} (h : ∀ i, i < n → t.byteAt (a + i) = s.byteAt (a + i)) :
    t.readNat a n = s.readNat a n := by
  simp only [State.readNat]
  congr 1
  exact List.map_congr_left fun i hi => h i (List.mem_range.1 hi)
theorem u64_toNat (e : Word64) : u64 e.toNat = e := by simp [u64]

/-! ### Words written at the home slice -/

theorem State.byteAt_writeHome_inside (s : State) {pa a : Nat} {bs : List Byte} (h : pa ≤ a ∧ a < pa + bs.length)
    (free : s.reservedAt a = false) : bs[a - pa]? = some ((s.writeHome pa bs).byteAt a) := by
  rw [State.byteAt_writeHome, dif_pos ⟨h, free⟩, List.getElem?_eq_getElem (by omega)]
theorem State.byteAt_writeHome_outside (s : State) {pa a : Nat} {bs : List Byte} (h : ¬ (pa ≤ a ∧ a < pa + bs.length)) :
    (s.writeHome pa bs).byteAt a = s.byteAt a := by
  rw [State.byteAt_writeHome, dif_neg fun x => h x.1]

/-- 64-bit words written at their addresses, one after another. -/
def State.writeWords (s : State) (ws : List (Nat × Word64)) : State :=
  ws.foldl (fun s w => s.writeHome w.1 (bytesOf 8 w.2.toNat)) s
@[simp] theorem State.writeWords_nil (s : State) : s.writeWords [] = s := rfl
theorem State.writeWords_cons (s : State) (w : Nat × Word64) (ws : List (Nat × Word64)) :
    s.writeWords (w :: ws) = (s.writeHome w.1 (bytesOf 8 w.2.toNat)).writeWords ws := rfl

theorem State.memoryOnly_writeWords (s : State) (ws : List (Nat × Word64)) : MemoryOnly s (s.writeWords ws) := by
  induction ws generalizing s with
  | nil => exact .refl s
  | cons w r ih => rw [State.writeWords_cons]; exact (MemoryOnly.writeHome s _ _).trans (ih _)
theorem State.writeWords_wf (s : State) (ws : List (Nat × Word64)) (h : Memory.wf s.mem = true) :
    Memory.wf (s.writeWords ws).mem = true := by
  induction ws generalizing s with
  | nil => exact h
  | cons w r ih => rw [State.writeWords_cons]; exact ih _ (s.writeHome_wf _ _ h)

/-- A byte after words are written where nothing is reserved (R5): each word that covers it agrees on what it is, and one
covers it, or it was so before. -/
theorem State.byteAt_writeWords (s : State) (ws : List (Nat × Word64)) (a : Nat) (v : Byte)
    (openW : ∀ w ∈ ws, ∀ j, j < 8 → s.reservedAt (w.1 + j) = false)
    (agree : ∀ w ∈ ws, Claims.inPage w.1 8 a → (bytesOf 8 w.2.toNat)[a - w.1]? = some v)
    (covered : (∃ w ∈ ws, Claims.inPage w.1 8 a) ∨ s.byteAt a = v) : (s.writeWords ws).byteAt a = v := by
  induction ws generalizing s with
  | nil => exact covered.resolve_left (by simp)
  | cons w r ih =>
    have m := MemoryOnly.writeHome s w.1 (bytesOf 8 w.2.toNat)
    rw [State.writeWords_cons]
    refine ih _
      (fun x hx j hj => (m.reservedAt _).trans (openW x (List.mem_cons_of_mem _ hx) j hj))
      (fun x hx => agree x (List.mem_cons_of_mem _ hx)) ?_
    by_cases here : Claims.inPage w.1 8 a
    · right
      have free := openW w List.mem_cons_self (a - w.1) (by have := here.2; omega)
      rw [Nat.add_sub_cancel' here.1] at free
      refine Option.some.inj ?_
      rw [← agree w List.mem_cons_self here]
      exact (s.byteAt_writeHome_inside (by rwa [length_bytesOf]) free).symm
    · rw [s.byteAt_writeHome_outside (by rwa [length_bytesOf])]
      rcases covered with ⟨x, hx, cx⟩ | old
      · rcases List.mem_cons.1 hx with rfl | hr
        · exact absurd cx here
        · exact .inl ⟨x, hr, cx⟩
      · exact .inr old

/-- A byte that no written word covers. -/
theorem State.byteAt_writeWords_other (s : State) (ws : List (Nat × Word64)) (a : Nat)
    (openW : ∀ w ∈ ws, ∀ j, j < 8 → s.reservedAt (w.1 + j) = false) (h : ∀ w ∈ ws, ¬ Claims.inPage w.1 8 a) :
    (s.writeWords ws).byteAt a = s.byteAt a :=
  s.byteAt_writeWords ws a _ openW (fun w hw c => absurd c (h w hw)) (.inr rfl)

/-- Words at places that are the same or apart: each reads as it was written. -/
theorem State.readNat_writeWords (s : State) (ws : List (Nat × Word64))
    (openW : ∀ w ∈ ws, ∀ j, j < 8 → s.reservedAt (w.1 + j) = false)
    (apart : ∀ w ∈ ws, ∀ x ∈ ws, w = x ∨ w.1 + 8 ≤ x.1 ∨ x.1 + 8 ≤ w.1) {w : Nat × Word64} (hw : w ∈ ws) :
    (s.writeWords ws).readNat w.1 8 = w.2.toNat := by
  refine State.readNat_word _ _ _ fun i hi => ?_
  rw [getElem?_bytesOf _ _ _ hi]
  congr 1
  refine s.byteAt_writeWords ws _ _ openW (fun x hx hc => ?_) (.inl ⟨w, hw, ⟨by omega, by omega⟩⟩)
  obtain ⟨lo, hi'⟩ := hc
  rcases apart w hw x hx with rfl | h | h
  · rw [Nat.add_sub_cancel_left, getElem?_bytesOf _ _ _ hi]
  · omega
  · omega

end Sys2Proof.Machine
end

section
/-! PROOFS. Page tables (R357, R358): the firmware's update of an entry, the entries of the tables of all contexts, and what an entry
becomes when the page that it leads into moves (R434). -/

namespace Sys2Proof.Machine

theorem exec_pageTableUpdate (s : State) (pa : Nat) (e : Word64) :
    exec (.pageTableUpdate pa e) s = execPageTableUpdate pa e s := by rfl
theorem occurUp_some {s t : State} (h : s.up = true) : occurUp s (some t) = .next t := by simp [occurUp, h, occur]

theorem pageTableUpdates : Claims.PageTableUpdates := by
  intro s pa d e up dram aligned
  refine ⟨s.writeHome pa (bytesOf 8 e.toNat), ?_, fun i hi free => ?_, fun a ha => ?_⟩
  · rw [exec_pageTableUpdate, execPageTableUpdate, dram]
    simp only [aligned, ↓reduceIte]
    exact occurUp_some up
  · have byte := s.byteAt_writeHome_inside (pa := pa) (a := pa + i) (bs := bytesOf 8 e.toNat)
      ⟨by omega, by rw [length_bytesOf]; omega⟩ free
    rw [Nat.add_sub_cancel_left, getElem?_bytesOf _ _ _ hi, byte_of_word, Option.some.injEq] at byte
    exact byte.symm
  · rw [State.byteAt_writeHome, dif_neg]
    rw [length_bytesOf]
    rintro ⟨⟨lo, hi⟩, free⟩
    rcases ha with h | h | h
    · omega
    · omega
    · rw [h] at free; cases free

/-- An entry of a table is the word at its address. -/
theorem entriesFrom_word (s : State) (k level t : Nat) (e : Nat × Word64) (h : e ∈ entriesFrom s k level t) :
    e.2 = u64 (s.readNat e.1 8) := by
  induction k generalizing level t with
  | zero => simp [entriesFrom] at h
  | succ k ih =>
    rw [entriesFrom] at h
    obtain ⟨i, -, hi⟩ := List.mem_flatMap.1 h
    dsimp only at hi
    split at hi
    · simp at hi
    · rcases List.mem_cons.1 hi with rfl | below
      · rfl
      · split at below
        · simp at below
        · exact ih _ _ below
theorem State.allEntries_word (s : State) {e : Nat × Word64} (h : e ∈ s.allEntries) : e.2 = u64 (s.readNat e.1 8) := by
  obtain ⟨c, -, hc⟩ := List.mem_flatMap.1 h
  exact entriesFrom_word s _ _ _ e hc
/-- Two entries at one address are one. -/
theorem State.allEntries_eq (s : State) {e x : Nat × Word64} (he : e ∈ s.allEntries) (hx : x ∈ s.allEntries) (h : e.1 = x.1) :
    e = x := Prod.ext h (by rw [s.allEntries_word he, s.allEntries_word hx, h])
theorem apart_entries {s : State} {e x : Nat × Word64} (he : e ∈ s.allEntries) (hx : x ∈ s.allEntries)
    (h : Claims.Apart e.1 x.1) : e = x ∨ e.1 + 8 ≤ x.1 ∨ x.1 + 8 ≤ e.1 := h.imp_left (s.allEntries_eq he hx)

/-! ### The entry of a page that has moved -/

/-- The masks of the address and of the home of an entry (R358). -/
theorem getLsbD_addrMask (b : Nat) : (u64 (2 ^ 52 - 256)).getLsbD b = (decide (8 ≤ b) && decide (b < 52)) := by
  rw [u64, BitVec.getLsbD_ofNat, show 2 ^ 52 - 256 = (2 ^ 44 - 1) * 2 ^ 8 by decide, Nat.testBit_mul_two_pow,
    Nat.testBit_two_pow_sub_one]
  by_cases h : b < 64 <;> by_cases g : 8 ≤ b <;> simp [h, g] <;> omega
theorem getLsbD_homeMask (b : Nat) : (u64 (15 * 2 ^ 56)).getLsbD b = (decide (56 ≤ b) && decide (b < 60)) := by
  rw [u64, BitVec.getLsbD_ofNat, show 15 = 2 ^ 4 - 1 by decide, Nat.testBit_mul_two_pow, Nat.testBit_two_pow_sub_one]
  by_cases h : b < 64 <;> by_cases g : 56 ≤ b <;> simp [h, g] <;> omega

/-- An entry with another address and another home (R358). -/
def readdressed (e : Word64) (a home : Nat) : Word64 :=
  (e &&& ~~~(u64 (2 ^ 52 - 256)) &&& ~~~(u64 (15 * 2 ^ 56))) ||| u64 (a / 256 * 256) ||| u64 (home * 2 ^ 56)

theorem getLsbD_readdressed (e : Word64) (a home b : Nat) (hb : b < 64) (ha : a < 2 ^ 52) (hh : home < 16) :
    (readdressed e a home).getLsbD b =
      if 8 ≤ b ∧ b < 52 then a.testBit b else if 56 ≤ b ∧ b < 60 then home.testBit (b - 56) else e.getLsbD b := by
  have page : (u64 (a / 256 * 256)).getLsbD b = (decide (8 ≤ b ∧ b < 52) && a.testBit b) := by
    rw [u64, BitVec.getLsbD_ofNat, show 256 = 2 ^ 8 by decide, Nat.testBit_mul_two_pow]
    by_cases h8 : 8 ≤ b
    · rw [Nat.testBit_div_two_pow, Nat.sub_add_cancel h8]
      by_cases h52 : b < 52
      · simp [h8, h52, hb]
      · simp [h52, Nat.testBit_lt_two_pow (Nat.lt_of_lt_of_le ha (Nat.pow_le_pow_right (by decide) (Nat.le_of_not_lt h52)))]
    · simp [h8]
  have die : (u64 (home * 2 ^ 56)).getLsbD b = (decide (56 ≤ b ∧ b < 60) && home.testBit (b - 56)) := by
    rw [u64, BitVec.getLsbD_ofNat, Nat.testBit_mul_two_pow]
    by_cases h56 : 56 ≤ b
    · by_cases h60 : b < 60
      · simp [h56, h60, hb]
      · have out : home < 2 ^ (b - 56) :=
          Nat.lt_of_lt_of_le hh (Nat.pow_le_pow_right (n := 2) (by decide) (show 4 ≤ b - 56 by omega))
        simp [h60, Nat.testBit_lt_two_pow out]
    · simp [h56]
  simp only [readdressed, BitVec.getLsbD_or, BitVec.getLsbD_and, BitVec.getLsbD_not, getLsbD_addrMask, getLsbD_homeMask, page, die]
  by_cases inAddr : 8 ≤ b ∧ b < 52
  · have : ¬ 56 ≤ b := by omega
    simp [inAddr, this]
  · by_cases inHome : 56 ≤ b ∧ b < 60
    · have : ¬ b < 52 := by omega
      simp [inHome, this]
    · have m1 : (decide (8 ≤ b) && decide (b < 52)) = false := by simpa using inAddr
      have m2 : (decide (56 ≤ b) && decide (b < 60)) = false := by simpa using inHome
      simp only [m1, m2, inAddr, inHome]
      simp [hb]

/-- A field of an entry from the bits of a number. -/
theorem extract_of_testBit (x : Word64) (lo n a : Nat) (h : ∀ i, i < n → x.getLsbD (lo + i) = a.testBit i) (ha : a < 2 ^ n) :
    (x.extractLsb' lo n).toNat = a := by
  have field : x.extractLsb' lo n = BitVec.ofNat n a := by
    refine BitVec.eq_of_getLsbD_eq fun i hi => ?_
    rw [BitVec.getLsbD_extractLsb', BitVec.getLsbD_ofNat, h i hi]
  rw [field, BitVec.toNat_ofNat, Nat.mod_eq_of_lt ha]

theorem pteAddr_readdressed (e : Word64) (a home : Nat) (ha : a < 2 ^ 52) (aligned : a % 256 = 0) (hh : home < 16) :
    pteAddr (readdressed e a home) = a := by
  have field : ((readdressed e a home).extractLsb' 8 44).toNat = a / 256 := by
    refine extract_of_testBit _ _ _ _ (fun i hi => ?_) (by omega)
    rw [getLsbD_readdressed e a home _ (by omega) ha hh, if_pos (by omega), show 256 = 2 ^ 8 by decide,
      Nat.testBit_div_two_pow, Nat.add_comm]
  rw [pteAddr, field]
  omega
theorem pteHome_readdressed (e : Word64) (a home : Nat) (ha : a < 2 ^ 52) (hh : home < 16) :
    pteHome (readdressed e a home) = home := by
  refine extract_of_testBit _ _ _ _ (fun i hi => ?_) (by omega)
  rw [getLsbD_readdressed e a home _ (by omega) ha hh, if_neg (by omega), if_pos (by omega), Nat.add_sub_cancel_left]

theorem movedEntry_eq (s : State) (pa n new home : Nat) (e : Word64) (inside : Claims.inPage pa n (pteAddr e))
    (h : s.target (new + (pteAddr e - pa)) = .dram home) :
    movedEntry s pa n new e = readdressed e (new + (pteAddr e - pa)) home := by
  obtain ⟨lo, hi⟩ := inside
  simp only [movedEntry, movedTo, lo, hi, and_self, ↓reduceIte, h]
  rfl

/-- An entry leads to where its page has moved, and is otherwise as it was. -/
theorem movedEntry_readdressed (e : Word64) (pa new home : Nat) (haligned : pa % 256 = 0) (naligned : new % 256 = 0)
    (lo : pa ≤ pteAddr e) (ha : new + (pteAddr e - pa) < 2 ^ 52) (hh : home < 16) :
    Claims.MovedEntry pa new home e (readdressed e (new + (pteAddr e - pa)) home) := by
  have entryAligned : pteAddr e % 256 = 0 := by simp [pteAddr]
  refine ⟨pteAddr_readdressed e _ home ha (by omega) hh, pteHome_readdressed e _ home ha hh, fun b outAddr outHome => ?_⟩
  by_cases hb : b < 64
  · rw [getLsbD_readdressed e _ home b hb ha hh, if_neg (by omega), if_neg (by omega)]
  · rw [BitVec.getLsbD_of_ge _ _ (by omega), BitVec.getLsbD_of_ge _ _ (by omega)]

end Sys2Proof.Machine
end

section
/-! PROOFS. A page on its way to host ownership (R208). -/

namespace Sys2Proof.Machine

theorem exec_ownershipFlip (s : State) (ctx va : Nat) (entry : Word64) :
    exec (.ownershipFlip ctx va entry) s = execOwnershipFlip ctx va entry s := by rfl

/-! ### The first step -/

theorem flipStarts (s : State) (ctx va place : Nat) (old entry : Word64) (up : s.up = true)
    (leaf : walk s ctx va = (.leaf, place, old))
    (apart : ∀ f ∈ s.flips, ¬ Claims.overlap f.pa (2 ^ f.log) (pteAddr old) (2 ^ pteLog old)) :
    exec (.ownershipFlip ctx va entry) s = .next { s.dropInto (pteAddr old) (2 ^ pteLog old) with
      flips := s.flips ++ [{ pa := pteAddr old, log := pteLog old, place, entry, stage := .invalidated }] } := by
  have free : (s.flips.any fun f =>
      decide (f.pa < pteAddr old + 2 ^ pteLog old) && decide (pteAddr old < f.pa + 2 ^ f.log)) = false := by
    refine List.any_eq_false.2 fun f hf => ?_
    simpa [Claims.overlap] using apart f hf
  rw [exec_ownershipFlip, execOwnershipFlip, State.startFlip, leaf]
  simp only [free]
  exact occurUp_some up

/-! ### Present for nobody -/

theorem permit_ok {s : State} {va log pa : Nat} {e x : Word64} {acc : Acc} (h : permit s va log e acc = .ok pa x) :
    s.flipping pa = false := by
  simp only [permit] at h
  split at h
  · cases h
  · rename_i free
    split at h
    · cases h
    · split at h
      · cases h
      · obtain ⟨rfl, -⟩ := Trans.ok.inj h
        exact Bool.eq_false_iff.2 free
theorem MemoryOnly.flipping {s t : State} (h : MemoryOnly s t) (pa : Nat) : t.flipping pa = s.flipping pa := by
  simp only [State.flipping, h.flips]

/-- A translation once its miss of a cluster's TLBs is counted. -/
def translateFrom (s : State) (a : Asker) (va : Nat) (acc : Acc) : State × Trans :=
  match (a.units.filterMap fun u => tlbFind s u a.ctx va).head? with
  | some e => (s.tlbFillAll a.units a.ctx va e.log e.entry, permit s va e.log e.entry acc)
  | none =>
    let w := walk s a.ctx va
    let s := s.correctWalk a.ctx va
    match w with
    | (.missing hint, _, _) => (s, .fault 0x0B 0 hint)
    | (.malformed, _, _) => (s, .fault 0x0C 4 0)
    | (.leaf, at', e) =>
      match permit s va (pteLog e) e acc with
      | .fault c sub h => (s, .fault c sub h)
      | .ok pa _ =>
        let e' := e ||| u64 (128 + if acc.writes then 2 ^ 52 else 0)
        let s := if e' = e then s else s.writeHome at' (bytesOf 8 e'.toNat)
        (s.tlbFillAll a.units a.ctx va (pteLog e) e', .ok pa e')
theorem translate_from (s : State) (a : Asker) (va : Nat) (acc : Acc) :
    translate s a va acc = (s, .fault 0x0C 2 0) ∨
      ∃ x, MemoryOnly s x ∧ translate s a va acc = translateFrom x a va acc := by
  rw [translate]
  split
  · exact .inl rfl
  · right
    cases a.cluster with
    | none => exact ⟨s, .refl s, rfl⟩
    | some c =>
      refine ⟨_, ?_, rfl⟩
      dsimp only
      split
      · exact .refl s
      · exact .modCluster s c _
theorem translateFrom_ok {s t : State} {a : Asker} {va pa : Nat} {acc : Acc} {e : Word64}
    (h : translateFrom s a va acc = (t, .ok pa e)) : s.flipping pa = false := by
  simp only [translateFrom] at h
  split at h
  · exact permit_ok (Prod.ext_iff.1 h).2
  · split at h
    · cases (Prod.ext_iff.1 h).2
    · cases (Prod.ext_iff.1 h).2
    · split at h
      · cases (Prod.ext_iff.1 h).2
      · rename_i there
        obtain ⟨rfl, -⟩ := Trans.ok.inj (Prod.ext_iff.1 h).2
        rw [← (MemoryOnly.correctWalk s a.ctx va).flipping]
        exact permit_ok there
/-- No translation gives an address in a page on its way to host ownership (R208, step 1). -/
theorem translate_ok_unflipped {s t : State} {a : Asker} {va pa : Nat} {acc : Acc} {e : Word64}
    (h : translate s a va acc = (t, .ok pa e)) : ∀ f ∈ s.flips, ¬ Claims.inPage f.pa (2 ^ f.log) pa := by
  have free : s.flipping pa = false := by
    rcases translate_from s a va acc with bad | ⟨x, same, eq⟩
    · rw [bad] at h; cases (Prod.ext_iff.1 h).2
    · rw [← same.flipping]; exact translateFrom_ok (eq ▸ h)
  intro f hf
  simpa [Flip.covers, Claims.inPage] using List.any_eq_false.1 free f hf

/-! ### The steps between -/

section
variable {s : State} {pre post : List Flip} {f : Flip}

theorem find_flip (h : s.flips = pre ++ f :: post) (only : ∀ y ∈ pre ++ post, y.pa ≠ f.pa) :
    s.flips.find? (fun x => x.pa == f.pa) = some f := by
  have before : pre.find? (fun x => x.pa == f.pa) = none :=
    List.find?_eq_none.2 fun y hy => by simpa using only y (List.mem_append_left _ hy)
  rw [h, List.find?_append, before]
  simp
theorem map_flip (only : ∀ y ∈ pre ++ post, y.pa ≠ f.pa) (st : FlipStage) :
    (pre ++ f :: post).map (fun x => if x.pa = f.pa then { x with stage := st } else x) = pre ++ { f with stage := st } :: post := by
  have other (l : List Flip) (hl : ∀ y ∈ l, y.pa ≠ f.pa) :
      l.map (fun x => if x.pa = f.pa then { x with stage := st } else x) = l :=
    (List.map_congr_left fun y hy => if_neg (hl y hy)).trans (List.map_id _)
  rw [List.map_append, List.map_cons, other pre fun y hy => only y (List.mem_append_left _ hy),
    other post fun y hy => only y (List.mem_append_right _ hy), if_pos rfl]
theorem erase_flip (only : ∀ y ∈ pre ++ post, y.pa ≠ f.pa) : (pre ++ f :: post).erase f = pre ++ post := by
  have : f ∉ pre := fun hf => only f (List.mem_append_left _ hf) rfl
  rw [List.erase_append_right _ this, List.erase_cons_head]

theorem inFlight_iff (s : State) (f : Flip) : s.inFlight f = true ↔
    ∃ e ∈ s.packs, ∃ c ∈ e.2.lcopies, ∃ m ∈ c.moves, Claims.overlap m.1 m.2.1 f.pa (2 ^ f.log) := by
  simp only [State.inFlight, List.any_eq_true, Bool.and_eq_true, decide_eq_true_eq, Claims.overlap]

theorem stepFlip_invalidated (h : s.flips = pre ++ f :: post) (only : ∀ y ∈ pre ++ post, y.pa ≠ f.pa) (st : f.stage = .invalidated) :
    s.stepFlip f.pa = if s.inFlight f then none else some { s with flips := pre ++ { f with stage := .quiet } :: post } := by
  simp only [State.stepFlip, find_flip h only, st]
  rw [h, map_flip only]
theorem stepFlip_quiet (h : s.flips = pre ++ f :: post) (only : ∀ y ∈ pre ++ post, y.pa ≠ f.pa) (st : f.stage = .quiet) :
    s.stepFlip f.pa = some { s.flushRange f.pa (2 ^ f.log) with flips := pre ++ { f with stage := .written } :: post } := by
  simp only [State.stepFlip, find_flip h only, st]
  rw [(MemoryOnly.flushRange s f.pa (2 ^ f.log)).flips, h, map_flip only]
theorem stepFlip_written (h : s.flips = pre ++ f :: post) (only : ∀ y ∈ pre ++ post, y.pa ≠ f.pa) (st : f.stage = .written) :
    s.stepFlip f.pa = some { s with flips := pre ++ { f with stage := .transferred } :: post } := by
  simp only [State.stepFlip, find_flip h only, st]
  rw [h, map_flip only]
theorem stepFlip_transferred (h : s.flips = pre ++ f :: post) (only : ∀ y ∈ pre ++ post, y.pa ≠ f.pa)
    (st : f.stage = .transferred) : s.stepFlip f.pa = some (s.endFlip f) := by
  simp only [State.stepFlip, find_flip h only, st]
end

end Sys2Proof.Machine
end

section
/-! PROOFS. The last step of a page on its way to host ownership (R208, step 5). -/

namespace Sys2Proof.Machine

theorem foldl_keeps {α β : Type} (π : State → β) (f : State → α → State) (l : List α)
    (hf : ∀ x ∈ l, ∀ s, π (f s x) = π s) (s : State) : π (l.foldl f s) = π s := by
  induction l generalizing s with
  | nil => rfl
  | cons x r ih =>
    rw [List.foldl_cons, ih (fun y hy => hf y (List.mem_cons_of_mem _ hy)), hf x List.mem_cons_self]

/-! ### Requesters resume -/

/-- A requester that is no streamer copy. -/
def Requester.plain (r : Requester) : Prop := ∀ cl id, r ≠ .copy cl id

theorem State.replay_keeps {β : Type} (π : State → β) (hπ : ∀ s u w g, π (State.modParty s u w g) = π s) {r : Requester}
    (h : r.plain) (s : State) : π (s.replay r) = π s := by
  cases r with
  | party u w lanes => exact hπ s u w _
  | copy cl id => exact absurd rfl (h cl id)
  | agent => rfl

/-- None of the lanes of a party waits for a page. -/
def State.Replayed (s : State) (u w : Nat) (lanes : Lanes) : Prop :=
  ∀ p, s.party u w = some p → p.replay &&& lanes = 0

theorem without_and (a m lanes : Lanes) (h : a &&& lanes = 0) : a &&& ~~~m &&& lanes = 0 := by
  rw [BitVec.and_assoc, BitVec.and_comm (~~~m), ← BitVec.and_assoc, h]; simp
theorem without_and_self (a m : Lanes) : a &&& ~~~m &&& m = 0 := by
  rw [BitVec.and_assoc, BitVec.and_comm (~~~m), BitVec.and_not_self]; simp

theorem State.replay_replayed {s : State} {u w : Nat} {lanes : Lanes} (h : s.Replayed u w lanes) {r : Requester} (hr : r.plain) :
    (s.replay r).Replayed u w lanes := by
  cases r with
  | copy cl id => exact absurd rfl (hr cl id)
  | agent => exact h
  | party u' w' m =>
    intro p hp
    rw [State.replay, State.party_modParty] at hp
    split at hp
    · rename_i same
      obtain ⟨rfl, rfl⟩ := same
      obtain ⟨q, hq, rfl⟩ := Option.map_eq_some_iff.1 hp
      exact without_and _ _ _ (h q hq)
    · exact h p hp
theorem State.replay_party (s : State) (u w : Nat) (lanes : Lanes) : (s.replay (.party u w lanes)).Replayed u w lanes := by
  intro p hp
  rw [State.replay, State.party_modParty, if_pos ⟨rfl, rfl⟩] at hp
  obtain ⟨q, -, rfl⟩ := Option.map_eq_some_iff.1 hp
  exact without_and_self _ _
theorem State.foldl_replay_replayed {s : State} {u w : Nat} {lanes : Lanes} (rs : List Requester) (plain : ∀ r ∈ rs, r.plain)
    (h : s.Replayed u w lanes ∨ .party u w lanes ∈ rs) : (rs.foldl State.replay s).Replayed u w lanes := by
  induction rs generalizing s with
  | nil => exact h.resolve_right List.not_mem_nil
  | cons r rs ih =>
    refine ih (fun x hx => plain x (List.mem_cons_of_mem _ hx)) ?_
    rcases h with h | h
    · exact .inl (State.replay_replayed h (plain r List.mem_cons_self))
    · rcases List.mem_cons.1 h with rfl | h
      · exact .inl (State.replay_party s u w lanes)
      · exact .inr h

/-! ### The parts of the step -/

/-- The entry of a page of 32 MiB stands at the 16 places of its block (R357). -/
def Flip.own (f : Flip) : List Nat :=
  if f.log = 25 ∨ (pteLeaf f.entry = true ∧ pteSize f.entry = 2) then (List.range 16).map (f.place / 128 * 128 + 8 * ·) else [f.place]
theorem Flip.own_eq (f : Flip) : f.own =
    if f.log == 25 || pteWide f.entry then (List.range 16).map (f.place / 128 * 128 + 8 * ·) else [f.place] := by
  simp [Flip.own, pteWide]
/-- An entry at another place that maps the page. -/
def Flip.Maps (f : Flip) (e : Nat × Word64) : Prop :=
  pteLeaf e.2 = true ∧ Claims.inPage f.pa (2 ^ f.log) (pteAddr e.2) ∧
    if f.log = 25 then e.1 / 128 ≠ f.place / 128 else e.1 ≠ f.place
def Flip.maps (f : Flip) (e : Nat × Word64) : Bool :=
  pteLeaf e.2 && (decide (f.pa ≤ pteAddr e.2) && decide (pteAddr e.2 < f.pa + 2 ^ f.log)) &&
    !(if f.log = 25 then e.1 / 128 == f.place / 128 else e.1 == f.place)
theorem Flip.maps_iff (f : Flip) (e : Nat × Word64) : f.maps e = true ↔ f.Maps e := by
  by_cases h : f.log = 25 <;> simp [Flip.maps, Flip.Maps, Claims.inPage, h, and_assoc]
/-- What becomes of the entries: those of the page are replaced, others that map it are not present. -/
def State.flipWords (s : State) (f : Flip) : List (Nat × Word64) :=
  f.own.map (·, f.entry) ++ (s.allEntries.filter f.maps).map fun e => (e.1, e.2 &&& ~~~1#64)
/-- The accesses that met the page. -/
def State.met (s : State) (f : Flip) (y : FaultEntry) : Bool :=
  s.vaFlips (fun a => decide (f.pa ≤ a) && decide (a < f.pa + 2 ^ f.log)) y
def State.dropMet (s : State) (f : Flip) : State :=
  (List.range 8).foldl (fun t d => t.modDie d fun x => x.dropFaults (s.met f)) s
/-- Those that resume. -/
def State.resumed (s : State) (f : Flip) : List Requester :=
  ((List.range 8).flatMap fun d => ((s.die d).faults ++ (s.die d).faultWait).filter (s.met f)).flatMap (·.list)

theorem State.writePlaces_eq (s : State) (f : Flip) :
    s.writePlaces (f.log == 25 || pteWide f.entry) f.place f.entry = s.writeWords (f.own.map (·, f.entry)) := by
  rw [Flip.own_eq, State.writePlaces]
  split
  · rw [State.writeWords, List.map_map, List.foldl_map]; rfl
  · rfl
theorem State.endFlip_eq (s : State) (f : Flip) : s.endFlip f =
    (s.resumed f).foldl State.replay
      { (s.dropMet f).writeWords (s.flipWords f) with flips := ((s.dropMet f).writeWords (s.flipWords f)).flips.erase f } := by
  have words : (s.dropMet f).writeWords (s.flipWords f) =
      (s.allEntries.filter f.maps).foldl (fun s e => s.writeHome e.1 (bytesOf 8 (e.2 &&& ~~~1#64).toNat))
        ((s.dropMet f).writePlaces (f.log == 25 || pteWide f.entry) f.place f.entry) := by
    rw [State.writePlaces_eq, State.writeWords, State.flipWords, List.foldl_append, List.foldl_map]
    rfl
  rw [words]
  rfl

theorem State.dropMet_keeps {β : Type} (π : State → β) (hπ : ∀ s d g, π (State.modDie s d g) = π s) (s : State) (f : Flip) :
    π (s.dropMet f) = π s := foldl_keeps π _ _ (fun d _ t => hπ t d _) s
theorem State.die_foldl_modDie (g : Die → Die) (n d : Nat) (s : State) :
    ((List.range n).foldl (fun t d => t.modDie d g) s).die d = if d < n then g (s.die d) else s.die d := by
  induction n with
  | zero => rfl
  | succ n ih =>
    rw [List.range_succ, List.foldl_append, List.foldl_cons, List.foldl_nil, State.die_modDie]
    by_cases h : n = d
    · subst h
      rw [if_pos rfl, ih, if_neg (Nat.lt_irrefl n), if_pos (Nat.lt_succ_self n)]
    · rw [if_neg h, ih]
      by_cases hd : d < n
      · rw [if_pos hd, if_pos (by omega)]
      · rw [if_neg hd, if_neg (by omega)]
theorem State.die_dropMet (s : State) (f : Flip) {d : Nat} (h : d < 8) :
    (s.dropMet f).die d = (s.die d).dropFaults (s.met f) :=
  (State.die_foldl_modDie _ 8 d s).trans (if_pos h)

theorem State.met_iff {s : State} {f : Flip} (hf : f ∈ s.flips) (y : FaultEntry) :
    s.met f y = true ↔ Claims.Meets s (· = f) y := by
  rw [State.met, State.vaFlips]
  unfold Claims.Meets
  rcases hw : walk s y.ctx (y.va.toNat % 2 ^ 52) with ⟨_ | _ | _, place, e⟩
  · simp
  · simp
  · constructor
    · intro h
      simp only [Bool.and_eq_true, decide_eq_true_eq] at h
      exact ⟨place, e, f, rfl, hf, rfl, h⟩
    · rintro ⟨place', e', f', same, -, rfl, h⟩
      cases same
      simpa using h

theorem Flip.own_apart (f : Flip) : ∀ p ∈ f.own, ∀ q ∈ f.own, p = q ∨ p + 8 ≤ q ∨ q + 8 ≤ p := by
  unfold Flip.own
  split
  · intro p hp q hq
    obtain ⟨i, -, rfl⟩ := List.mem_map.1 hp
    obtain ⟨j, -, rfl⟩ := List.mem_map.1 hq
    omega
  · intro p hp q hq
    exact .inl ((List.mem_singleton.1 hp).trans (List.mem_singleton.1 hq).symm)

section
variable {s : State} {f : Flip}
  (openOwn : ∀ p ∈ f.own, ∀ j, j < 8 → s.reservedAt (p + j) = false)
  (openMaps : ∀ e ∈ s.allEntries, f.Maps e → ∀ j, j < 8 → s.reservedAt (e.1 + j) = false)
  (apart : ∀ e ∈ s.allEntries, f.Maps e →
    (∀ p ∈ f.own, e.1 + 8 ≤ p ∨ p + 8 ≤ e.1) ∧ ∀ x ∈ s.allEntries, f.Maps x → Claims.Apart e.1 x.1)

/-- A word that the step writes is the entry of the page, or an entry that maps it and is not present any more. -/
theorem mem_flipWords {w : Nat × Word64} (h : w ∈ s.flipWords f) :
    (w.1 ∈ f.own ∧ w.2 = f.entry) ∨ ∃ e ∈ s.allEntries, f.Maps e ∧ w = (e.1, e.2 &&& ~~~1#64) := by
  rcases List.mem_append.1 h with h | h
  · obtain ⟨p, hp, rfl⟩ := List.mem_map.1 h
    exact .inl ⟨hp, rfl⟩
  · obtain ⟨e, he, rfl⟩ := List.mem_map.1 h
    obtain ⟨he, hm⟩ := List.mem_filter.1 he
    exact .inr ⟨e, he, (f.maps_iff e).1 hm, rfl⟩
theorem own_mem_flipWords {p : Nat} (h : p ∈ f.own) : (p, f.entry) ∈ s.flipWords f :=
  List.mem_append_left _ (List.mem_map_of_mem h)
theorem maps_mem_flipWords {e : Nat × Word64} (he : e ∈ s.allEntries) (hm : f.Maps e) : (e.1, e.2 &&& ~~~1#64) ∈ s.flipWords f :=
  List.mem_append_right _ (List.mem_map.2 ⟨e, List.mem_filter.2 ⟨he, (f.maps_iff e).2 hm⟩, rfl⟩)

include openOwn openMaps in
theorem flipWords_open : ∀ w ∈ s.flipWords f, ∀ j, j < 8 → (s.dropMet f).reservedAt (w.1 + j) = false := by
  intro w hw j hj
  rw [s.dropMet_keeps (fun s => s.reservedAt (w.1 + j)) (fun _ _ _ => rfl)]
  rcases mem_flipWords hw with ⟨hp, -⟩ | ⟨e, he, hm, rfl⟩
  · exact openOwn _ hp j hj
  · exact openMaps e he hm j hj
include apart in
theorem flipWords_apart : ∀ w ∈ s.flipWords f, ∀ x ∈ s.flipWords f, w = x ∨ w.1 + 8 ≤ x.1 ∨ x.1 + 8 ≤ w.1 := by
  intro w hw x hx
  rcases mem_flipWords hw with ⟨hp, ew⟩ | ⟨e, he, hm, rfl⟩ <;> rcases mem_flipWords hx with ⟨hq, ex⟩ | ⟨e', he', hm', rfl⟩
  · exact (f.own_apart _ hp _ hq).imp_left fun h => Prod.ext h (ew.trans ex.symm)
  · exact .inr ((apart e' he' hm').1 _ hp).symm
  · exact .inr ((apart e he hm).1 _ hq)
  · exact (apart_entries he he' ((apart e he hm).2 e' he' hm')).imp_left fun h => by rw [h]

variable (plain : ∀ r ∈ s.resumed f, r.plain)

include plain in
/-- The bytes, the dies and the flips that the step leaves are those after its words are written. -/
theorem endFlip_keeps {β : Type} (π : State → β) (hπ : ∀ s u w g, π (State.modParty s u w g) = π s) :
    π (s.endFlip f) = π { (s.dropMet f).writeWords (s.flipWords f) with
      flips := ((s.dropMet f).writeWords (s.flipWords f)).flips.erase f } := by
  rw [State.endFlip_eq]
  exact foldl_keeps π _ _ (fun r hr t => t.replay_keeps π hπ (plain r hr)) _

include plain in
theorem byteAt_endFlip (a : Nat) : (s.endFlip f).byteAt a = ((s.dropMet f).writeWords (s.flipWords f)).byteAt a :=
  endFlip_keeps plain (fun s => s.byteAt a) fun s u w g => by simp [State.byteAt]

include openOwn openMaps apart plain in
/-- A word that the step writes reads as it was written. -/
theorem readNat_endFlip {w : Nat × Word64} (hw : w ∈ s.flipWords f) : (s.endFlip f).readNat w.1 8 = w.2.toNat := by
  rw [State.readNat_congr fun i _ => byteAt_endFlip plain (w.1 + i)]
  exact State.readNat_writeWords _ _ (flipWords_open openOwn openMaps) (flipWords_apart apart) hw

include openOwn openMaps plain in
theorem byteAt_endFlip_other {a : Nat} (own : ∀ p ∈ f.own, ¬ Claims.inPage p 8 a)
    (others : ∀ e ∈ s.allEntries, f.Maps e → ¬ Claims.inPage e.1 8 a) : (s.endFlip f).byteAt a = s.byteAt a := by
  rw [byteAt_endFlip plain, State.byteAt_writeWords_other _ _ _ (flipWords_open openOwn openMaps),
    s.dropMet_keeps (fun s => s.byteAt a) (fun _ _ _ => rfl)]
  intro w hw
  rcases mem_flipWords hw with ⟨hp, -⟩ | ⟨e, he, hm, rfl⟩
  · exact own _ hp
  · exact others e he hm

include plain in
/-- The accesses that met the page leave the fault queues. -/
theorem faults_endFlip {d : Nat} (hd : d < 8) {y : FaultEntry} (hy : s.met f y = true) :
    y ∉ ((s.endFlip f).die d).faults ++ ((s.endFlip f).die d).faultWait := by
  have m := State.memoryOnly_writeWords (s.dropMet f) (s.flipWords f)
  have die (q : Die → List FaultEntry) : q ((s.endFlip f).die d) = q (((s.dropMet f).writeWords (s.flipWords f)).die d) :=
    endFlip_keeps plain (fun s => q (s.die d)) fun s u w g => by simp [State.die]
  rw [die Die.faults, die Die.faultWait, m.faults, m.faultWait, s.die_dropMet f hd]
  simp [Die.dropFaults, hy]
end

end Sys2Proof.Machine
end

section
/-! PROOFS. The steps of R208, put together. -/

namespace Sys2Proof.Machine

/-- The accesses that met the page wait no more. -/
theorem replayed_endFlip {s : State} {f : Flip} (plain : ∀ r ∈ s.resumed f, r.plain) {d : Nat} (hd : d < 8) {y : FaultEntry}
    (hy : y ∈ (s.die d).faults ++ (s.die d).faultWait) (met : s.met f y = true) {u who : Nat} {lanes : Lanes}
    (hr : Requester.party u who lanes ∈ y.list) : (s.endFlip f).Replayed u who lanes := by
  rw [State.endFlip_eq]
  refine State.foldl_replay_replayed _ plain (.inr (List.mem_flatMap.2 ⟨y, ?_, hr⟩))
  exact List.mem_flatMap.2 ⟨d, List.mem_range.2 hd, List.mem_filter.2 ⟨hy, met⟩⟩

theorem flips_endFlip {s : State} {pre post : List Flip} {f : Flip} (h : s.flips = pre ++ f :: post)
    (only : ∀ y ∈ pre ++ post, y.pa ≠ f.pa) (plain : ∀ r ∈ s.resumed f, r.plain) : (s.endFlip f).flips = pre ++ post := by
  rw [endFlip_keeps plain State.flips fun s u w g => by simp]
  dsimp only
  rw [(State.memoryOnly_writeWords _ _).flips, s.dropMet_keeps State.flips (fun _ _ _ => rfl), h, erase_flip only]

theorem ownershipFlips : Claims.OwnershipFlips := by
  refine ⟨fun s ctx va place old entry up leaf apart => ?_, fun s t a va pa acc e h => translate_ok_unflipped h, ?_⟩
  · refine ⟨_, flipStarts s ctx va place old entry up leaf apart, rfl, fun x => ?_, rfl⟩
    simp only [State.dropInto, List.mem_filter, Claims.overlap, Bool.not_eq_true', ← Bool.not_eq_true, Bool.and_eq_true,
      decide_eq_true_eq]
  intro s pre post f h only
  refine ⟨fun st => ⟨fun under => ?_, fun quiet => ?_⟩, fun st => ?_, stepFlip_written h only, fun st => ?_⟩
  · rw [stepFlip_invalidated h only st, if_pos ((inFlight_iff s f).2 under)]
  · rw [stepFlip_invalidated h only st, if_neg fun g => quiet ((inFlight_iff s f).1 g)]
  · refine ⟨_, stepFlip_quiet h only st, s.flushed_flushRange _ _, ?_, rfl⟩
    exact s.flushRange_mem _ _
  · intro block own maps open8 openOwn openMaps apart hit noCopy
    have mem : f ∈ s.flips := h ▸ List.mem_append_right _ List.mem_cons_self
    have plain : ∀ r ∈ s.resumed f, r.plain := by
      rintro r hr cl id rfl
      obtain ⟨y, hy, hr⟩ := List.mem_flatMap.1 hr
      obtain ⟨d, hd, hy⟩ := List.mem_flatMap.1 hy
      obtain ⟨queued, met⟩ := List.mem_filter.1 hy
      exact noCopy d (List.mem_range.1 hd) y ⟨queued, (State.met_iff mem y).1 met⟩ cl id hr
    refine ⟨s.endFlip f, stepFlip_transferred h only st, flips_endFlip h only plain, fun p hp => ?_, fun e he hm => ?_,
      fun a outOwn outMaps => byteAt_endFlip_other openOwn openMaps plain outOwn outMaps, fun d hd y hy => ?_⟩
    · exact readNat_endFlip (w := (p, f.entry)) openOwn openMaps apart plain (own_mem_flipWords hp)
    · have word := readNat_endFlip openOwn openMaps apart plain (maps_mem_flipWords he hm)
      dsimp only at word
      rw [word, u64_toNat]
      simp
    · obtain ⟨queued, meets⟩ := hy
      have met := (State.met_iff mem y).2 meets
      exact ⟨faults_endFlip plain hd met, fun u who lanes hr => replayed_endFlip plain hd queued met hr⟩

end Sys2Proof.Machine
end

section
/-! PROOFS. A page that moves (R434): its bytes, its monitors and the words that name it. -/

namespace Sys2Proof.Machine

/-! ### The bytes of a page that moves -/

theorem State.mem_byteAt {s : State} (wf : Memory.wf s.mem = true) {e : Host.Cell} (he : e ∈ s.mem) : e.2 = s.byteAt e.1 := by
  simp only [Memory.wf, canonical, Bool.and_eq_true] at wf
  rw [State.byteAt, rd, cget_of_mem wf.1 he, Option.getD_some]
theorem State.byteAt_eq_zero_or_mem (s : State) (a : Nat) : s.byteAt a = 0 ∨ (a, s.byteAt a) ∈ s.mem := by
  rw [State.byteAt, rd]
  rcases h : cget s.mem a with _ | v
  · exact .inl rfl
  · exact .inr (mem_of_cget h)

theorem State.byteAt_clearRange (s : State) (pa n a : Nat) :
    (s.clearRange pa n).byteAt a = if pa ≤ a ∧ a < pa + n then 0 else s.byteAt a := by
  have kept := cget_filter s.mem (fun x => !(decide (pa ≤ x) && decide (x < pa + n))) a
  rw [State.byteAt, State.clearRange, rd, kept, ← Bool.decide_and]
  by_cases h : pa ≤ a ∧ a < pa + n
  · rw [if_pos h, decide_eq_true h]
    rfl
  · rw [if_neg h, decide_eq_false h]
    rfl

theorem movedTo_inside {pa n new a : Nat} (h : Claims.inPage pa n a) : movedTo pa n new a = new + (a - pa) := if_pos h
theorem movedTo_outside {pa n new a : Nat} (h : ¬ Claims.inPage pa n a) : movedTo pa n new a = a := if_neg h

section
variable {s : State} {pa n new : Nat}

/-- A byte after a page has moved: each byte of the page that comes to it agrees on what it is, and one does, or it is so outside
the two pages. -/
theorem State.byteAt_moveRange (a : Nat) (v : Byte)
    (agree : ∀ e ∈ s.mem, Claims.inPage pa n e.1 → new + (e.1 - pa) = a → e.2 = v)
    (covered : (∃ e ∈ s.mem, Claims.inPage pa n e.1 ∧ new + (e.1 - pa) = a) ∨
      ((s.clearRange new n).clearRange pa n).byteAt a = v) : (s.moveRange pa n new).byteAt a = v := by
  have mem_page {e : Host.Cell} : e ∈ s.mem.filter (fun e => decide (pa ≤ e.1) && decide (e.1 < pa + n)) ↔
      e ∈ s.mem ∧ Claims.inPage pa n e.1 := by simp [Claims.inPage]
  refine rd_foldl_wr _ (movedTo pa n new) _ a v (fun e he hg => ?_) (covered.imp_left ?_)
  · obtain ⟨he, inside⟩ := mem_page.1 he
    exact agree e he inside ((movedTo_inside inside).symm.trans hg)
  · rintro ⟨e, he, inside, hg⟩
    exact ⟨e, mem_page.2 ⟨he, inside⟩, (movedTo_inside inside).trans hg⟩

theorem State.byteAt_moveRange_new (wf : Memory.wf s.mem = true) {j : Nat} (hj : j < n) :
    (s.moveRange pa n new).byteAt (new + j) = s.byteAt (pa + j) := by
  refine State.byteAt_moveRange _ _ (fun e he inside h => ?_) ?_
  · rw [State.mem_byteAt wf he]
    congr 1
    have := inside.1
    omega
  · rcases s.byteAt_eq_zero_or_mem (pa + j) with zero | listed
    · right
      rw [State.byteAt_clearRange, State.byteAt_clearRange, zero, if_pos (show new ≤ new + j ∧ new + j < new + n by omega)]
      exact ite_self _
    · exact .inl ⟨_, listed, ⟨by omega, by omega⟩, by omega⟩
theorem State.byteAt_moveRange_old (apart : ¬ Claims.overlap new n pa n) {j : Nat} (hj : j < n) :
    (s.moveRange pa n new).byteAt (pa + j) = 0 := by
  refine State.byteAt_moveRange _ _ (fun e he inside h => ?_) (.inr ?_)
  · obtain ⟨lo, hi⟩ := inside
    exact absurd ⟨by omega, by omega⟩ apart
  · rw [State.byteAt_clearRange, if_pos ⟨by omega, by omega⟩]
theorem State.byteAt_moveRange_other {a : Nat} (outOld : ¬ Claims.inPage pa n a) (outNew : ¬ Claims.inPage new n a) :
    (s.moveRange pa n new).byteAt a = s.byteAt a := by
  refine State.byteAt_moveRange _ _ (fun e he inside h => ?_) (.inr ?_)
  · obtain ⟨lo, hi⟩ := inside
    exact absurd ⟨by omega, by omega⟩ outNew
  · rw [State.byteAt_clearRange, if_neg (show ¬ (pa ≤ a ∧ a < pa + n) from outOld),
      State.byteAt_clearRange, if_neg (show ¬ (new ≤ a ∧ a < new + n) from outNew)]
end

theorem MemoryOnly.moveRange (s : State) (pa n new : Nat) : MemoryOnly s (s.moveRange pa n new) :=
  ⟨rfl, rfl, rfl, rfl, rfl, fun _ => rfl, fun m h => ⟨m, h, rfl⟩⟩

/-! ### The monitors of a page that moves -/

/-- Entries that move to an overflow list watch the words that they watched. -/
theorem State.spread_pa (s : State) (ms : List Monitor) : ∀ m ∈ s.spread ms, ∃ x ∈ ms, x.pa = m.pa := by
  have all (rest acc : List Monitor) (hr : ∀ m ∈ rest, ∃ x ∈ ms, x.pa = m.pa) (ha : ∀ m ∈ acc, ∃ x ∈ ms, x.pa = m.pa) :
      ∀ m ∈ rest.foldl (fun acc m =>
        let here := acc.filter fun x => !x.overflow && s.sliceOf x.pa == s.sliceOf m.pa
        acc ++ [if 256 ≤ here.length then { m with overflow := true } else m]) acc, ∃ x ∈ ms, x.pa = m.pa := by
    induction rest generalizing acc with
    | nil => exact ha
    | cons y r ih =>
      refine ih _ (fun m hm => hr m (List.mem_cons_of_mem _ hm)) fun m hm => ?_
      rcases List.mem_append.1 hm with hm | hm
      · exact ha m hm
      · obtain ⟨x, hx, ex⟩ := hr y List.mem_cons_self
        refine ⟨x, hx, ex.trans ?_⟩
        rw [List.mem_singleton.1 hm]
        split <;> rfl
  exact all ms [] (fun m hm => ⟨m, hm, rfl⟩) (fun m hm => absurd hm List.not_mem_nil)

/-- The state in which every monitor of a page watches the page's new place. -/
def State.rewatched (s : State) (pa n new : Nat) : State :=
  { s with monitors := s.spread (s.monitors.map fun (m : Monitor) => { m with pa := movedTo pa n new m.pa }) }
theorem State.memoryOnly_moveMonitors (s : State) (pa n new : Nat) : MemoryOnly (s.rewatched pa n new) (s.moveMonitors pa n new) := by
  simp only [State.moveMonitors]
  exact (MemoryOnly.foldl _ (fun s x => MemoryOnly.moveIn s x _) _ _).trans (MemoryOnly.notifyRange _ new n)
@[simp] theorem State.moveMonitors_mem (s : State) (pa n new : Nat) : (s.moveMonitors pa n new).mem = s.mem := by
  simp only [State.moveMonitors, State.notifyRange_mem]
  exact foldl_mem _ (fun s x => s.moveIn_mem x _) _ _

/-- No monitor watches the page that has moved. -/
theorem State.moveMonitors_outside (s : State) {pa n new : Nat} (apart : ¬ Claims.overlap new n pa n) :
    ∀ m ∈ (s.moveMonitors pa n new).monitors, ¬ Claims.inPage pa n m.pa := by
  intro m hm
  obtain ⟨x, hx, ex⟩ := (s.memoryOnly_moveMonitors pa n new).monitors m hm
  obtain ⟨y, hy, ey⟩ := s.spread_pa _ x hx
  obtain ⟨z, -, rfl⟩ := List.mem_map.1 hy
  rw [← ex, ← ey]
  dsimp only
  by_cases h : Claims.inPage pa n z.pa
  · rw [movedTo_inside h]
    rintro ⟨lo, hi⟩
    obtain ⟨zlo, zhi⟩ := h
    exact apart ⟨by omega, by omega⟩
  · rwa [movedTo_outside h]

/-! ### The words that name a page that moves -/

def movedContext (pa n new : Nat) (x : Context) : Context :=
  { x with root := if x.enabled || x.root != 0 then movedTo pa n new x.root else 0
           area := if x.area = 0 then 0 else movedTo pa n new x.area }
def movedPlace (pa n new a : Nat) : Nat := if a = 0 then 0 else movedTo pa n new a
def movedDie (pa n new : Nat) (x : Die) : Die :=
  { x with faultBase := movedPlace pa n new x.faultBase
           faults := x.faults.map fun y => { y with place := movedPlace pa n new y.place } }
def movedPack (pa n new : Nat) (k : Pack) : Pack :=
  { k with lcopies := k.lcopies.map fun x => { x with moves := x.moves.map fun m => (movedTo pa n new m.1, m.2) } }
/-- The state in which what the package holds names a page by its new place. -/
def State.renamed (s : State) (pa n new : Nat) : State :=
  { s with ctxs := s.ctxs.map fun e => (e.1, movedContext pa n new e.2)
           packs := s.packs.map fun e => (e.1, movedPack pa n new e.2)
           dies := s.dies.map fun e => (e.1, movedDie pa n new e.2) }
/-- The state in which no translation leads into a page, and no cache holds bytes of it. -/
def State.emptied (s : State) (pa n : Nat) : State := ((s.dropInto pa n).flushRange pa n).dropCode pa n
/-- The entries that lead into a page. -/
def State.entriesInto (s : State) (pa n : Nat) : List (Nat × Word64) :=
  s.allEntries.filter fun e => decide (pa ≤ pteAddr e.2) && decide (pteAddr e.2 < pa + n)
def State.movedWords (s : State) (pa n new : Nat) : List (Nat × Word64) :=
  (s.entriesInto pa n).map fun e => (e.1, movedEntry s pa n new e.2)
/-- The state of the package after a page has moved. -/
def State.evacuated (s : State) (pa n new : Nat) : State :=
  ((((s.emptied pa n).writeWords (s.movedWords pa n new)).moveRange pa n new).renamed pa n new).moveMonitors pa n new

theorem mem_entriesInto {s : State} {pa n : Nat} {e : Nat × Word64} :
    e ∈ s.entriesInto pa n ↔ e ∈ s.allEntries ∧ Claims.inPage pa n (pteAddr e.2) := by
  simp [State.entriesInto, Claims.inPage]
theorem State.memoryOnly_emptied (s : State) (pa n : Nat) : MemoryOnly s (s.emptied pa n) := by
  have dropped : MemoryOnly s (s.dropInto pa n) := ⟨rfl, rfl, rfl, rfl, rfl, fun _ => rfl, fun m h => ⟨m, h, rfl⟩⟩
  have code (t : State) : MemoryOnly t (t.dropCode pa n) := ⟨rfl, rfl, rfl, rfl, rfl, fun _ => rfl, fun m h => ⟨m, h, rfl⟩⟩
  exact (dropped.trans (MemoryOnly.flushRange _ pa n)).trans (code _)
@[simp] theorem State.emptied_mem (s : State) (pa n : Nat) : (s.emptied pa n).mem = s.mem :=
  ((s.dropInto pa n).flushRange_mem pa n).trans (s.dropInto_mem pa n)

theorem movedEntry_congr {s t : State} (h : MemoryOnly s t) (pa n new : Nat) (e : Word64) :
    movedEntry t pa n new e = movedEntry s pa n new e := by
  simp only [movedEntry, h.target]
/-- The entries are rewritten one after another, each from what the package was before. -/
theorem foldl_movedEntry {s t : State} (h : MemoryOnly s t) (pa n new : Nat) (es : List (Nat × Word64)) :
    es.foldl (fun s e => s.writeHome e.1 (bytesOf 8 (movedEntry s pa n new e.2).toNat)) t =
      t.writeWords (es.map fun e => (e.1, movedEntry s pa n new e.2)) := by
  induction es generalizing t with
  | nil => rw [List.foldl_nil, List.map_nil, State.writeWords_nil]
  | cons e r ih =>
    rw [List.foldl_cons, List.map_cons, State.writeWords_cons, movedEntry_congr h]
    exact ih (h.trans (MemoryOnly.writeHome t _ _))

theorem State.evacuate_eq (s : State) {pa log new d d' : Nat} (dram : s.target pa = .dram d) (draining : (s.die d).status = .draining)
    (dram' : s.target new = .dram d') (online : (s.die d').status = .online)
    (noFlip : ∀ f ∈ s.flips, ¬ Claims.overlap f.pa (2 ^ f.log) pa (2 ^ log))
    (fits : ∀ e ∈ s.entriesInto pa (2 ^ log), pteLeaf e.2 = true → pteLog e.2 ≤ log) :
    s.evacuate pa log new = some (s.evacuated pa (2 ^ log) new) := by
  have flips : (s.flips.any fun f => decide (f.pa < pa + 2 ^ log) && decide (pa < f.pa + 2 ^ f.log)) = false :=
    List.any_eq_false.2 fun f hf => by simpa [Claims.overlap] using noFlip f hf
  have small : ((s.entriesInto pa (2 ^ log)).any fun e => pteLeaf e.2 && decide (log < pteLog e.2)) = false :=
    List.any_eq_false.2 fun e he => by simpa using fits e he
  have words := foldl_movedEntry (s.memoryOnly_emptied pa (2 ^ log)) pa (2 ^ log) new (s.entriesInto pa (2 ^ log))
  unfold State.entriesInto at small words
  unfold State.emptied at words
  simp only [State.evacuate, dram, dram', draining, online, flips, small, words]
  exact if_neg (by decide)

end Sys2Proof.Machine
end

section
/-! PROOFS. Evacuation of a page (R434), and the obligation on page tables, flips and evacuation. -/

namespace Sys2Proof.Machine

theorem exec_pageEvacuation (s : State) (pa log new : Nat) :
    exec (.pageEvacuation pa log new) s = execPageEvacuation pa log new s := by rfl

/-! ### What stands after a page has moved -/

theorem movedContext_eq (pa n new : Nat) (x : Context) : movedContext pa n new x = { x with
    root := if x.enabled = true ∨ x.root ≠ 0 then movedTo pa n new x.root else 0
    area := if x.area = 0 then 0 else movedTo pa n new x.area } := by
  simp [movedContext]

/-- The state in which the entries that lead into the page are rewritten. -/
def State.rewritten (s : State) (pa n new : Nat) : State := (s.emptied pa n).writeWords (s.movedWords pa n new)
theorem State.memoryOnly_rewritten (s : State) (pa n new : Nat) : MemoryOnly s (s.rewritten pa n new) :=
  (s.memoryOnly_emptied pa n).trans (State.memoryOnly_writeWords _ _)
theorem State.rewritten_wf {s : State} (wf : s.memWf) (pa n new : Nat) : Memory.wf (s.rewritten pa n new).mem = true :=
  State.writeWords_wf _ _ (by rw [State.emptied_mem]; exact wf)
theorem State.evacuated_eq (s : State) (pa n new : Nat) :
    s.evacuated pa n new = (((s.rewritten pa n new).moveRange pa n new).renamed pa n new).moveMonitors pa n new := rfl
theorem State.byteAt_evacuated (s : State) (pa n new a : Nat) :
    (s.evacuated pa n new).byteAt a = ((s.rewritten pa n new).moveRange pa n new).byteAt a := by
  rw [State.evacuated_eq, State.byteAt, State.moveMonitors_mem]
  rfl

theorem State.ctxs_evacuated (s : State) (pa n new : Nat) :
    (s.evacuated pa n new).ctxs = s.ctxs.map fun e => (e.1, movedContext pa n new e.2) := by
  rw [State.evacuated_eq, (State.memoryOnly_moveMonitors _ _ _ _).ctxs]
  show (s.rewritten pa n new).ctxs.map _ = _
  rw [(s.memoryOnly_rewritten pa n new).ctxs]
theorem State.faultBase_renamed (s : State) (pa n new d : Nat) :
    ((s.renamed pa n new).die d).faultBase = movedPlace pa n new (s.die d).faultBase := by
  have moved := cget_map_snd s.dies (movedDie pa n new) d
  simp only [State.die, State.renamed, rd, moved]
  cases cget s.dies d <;> rfl
theorem State.faultBase_evacuated (s : State) (pa n new d : Nat) :
    ((s.evacuated pa n new).die d).faultBase = movedPlace pa n new (s.die d).faultBase := by
  rw [State.evacuated_eq, (State.memoryOnly_moveMonitors _ _ _ _).faultBase]
  show (State.die (State.renamed _ pa n new) d).faultBase = _
  rw [State.faultBase_renamed, (MemoryOnly.moveRange _ pa n new).faultBase, (s.memoryOnly_rewritten pa n new).faultBase]

section
variable {s : State} {pa n new home : Nat}
  (room : ∀ a, Claims.inPage new n a → s.target a = .dram home)
  (apart : ∀ e ∈ s.entriesInto pa n, ¬ Claims.overlap e.1 8 pa n ∧ ¬ Claims.overlap e.1 8 new n ∧
    ∀ x ∈ s.entriesInto pa n, Claims.Apart e.1 x.1)
  (openE : ∀ e ∈ s.entriesInto pa n, ∀ j, j < 8 → s.reservedAt (e.1 + j) = false)

/-- A word that is rewritten is an entry that leads into the page. -/
theorem mem_movedWords {w : Nat × Word64} (h : w ∈ s.movedWords pa n new) :
    ∃ e ∈ s.entriesInto pa n, w = (e.1, movedEntry s pa n new e.2) := by
  obtain ⟨e, he, rfl⟩ := List.mem_map.1 h
  exact ⟨e, he, rfl⟩
theorem movedWord_mem {e : Nat × Word64} (h : e ∈ s.entriesInto pa n) :
    (e.1, movedEntry s pa n new e.2) ∈ s.movedWords pa n new := List.mem_map_of_mem (f := fun e => (e.1, movedEntry s pa n new e.2)) h

include openE in
theorem movedWords_open : ∀ w ∈ s.movedWords pa n new, ∀ j, j < 8 → (s.emptied pa n).reservedAt (w.1 + j) = false := by
  intro w hw j hj
  obtain ⟨e, he, rfl⟩ := mem_movedWords hw
  exact ((s.memoryOnly_emptied pa n).reservedAt _).trans (openE e he j hj)
include apart in
theorem movedWords_apart :
    ∀ w ∈ s.movedWords pa n new, ∀ x ∈ s.movedWords pa n new, w = x ∨ w.1 + 8 ≤ x.1 ∨ x.1 + 8 ≤ w.1 := by
  intro w hw x hx
  obtain ⟨e, he, rfl⟩ := mem_movedWords hw
  obtain ⟨e', he', rfl⟩ := mem_movedWords hx
  have places := apart_entries (mem_entriesInto.1 he).1 (mem_entriesInto.1 he').1 ((apart e he).2.2 e' he')
  exact places.imp_left fun h => by rw [h]

include openE in
/-- The bytes that no entry covers stand as they were. -/
theorem byteAt_rewritten_other {a : Nat} (h : ∀ e ∈ s.entriesInto pa n, ¬ Claims.inPage e.1 8 a) :
    (s.rewritten pa n new).byteAt a = s.byteAt a := by
  rw [State.rewritten, State.byteAt_writeWords_other _ _ _ (movedWords_open openE), State.byteAt, State.emptied_mem]
  · rfl
  · intro w hw
    obtain ⟨e, he, rfl⟩ := mem_movedWords hw
    exact h e he
include apart openE in
theorem byteAt_rewritten_page {a : Nat} (h : Claims.inPage pa n a) : (s.rewritten pa n new).byteAt a = s.byteAt a := by
  refine byteAt_rewritten_other openE fun e he hc => (apart e he).1 ?_
  obtain ⟨lo, hi⟩ := h
  obtain ⟨clo, chi⟩ := hc
  exact ⟨by omega, by omega⟩
include apart openE in
/-- An entry reads what it has become, also once the page's bytes have moved. -/
theorem readNat_evacuated {e : Nat × Word64} (he : e ∈ s.entriesInto pa n) :
    (s.evacuated pa n new).readNat e.1 8 = (movedEntry s pa n new e.2).toNat := by
  obtain ⟨outOld, outNew, -⟩ := apart e he
  have still (i : Nat) (hi : i < 8) : (s.evacuated pa n new).byteAt (e.1 + i) = (s.rewritten pa n new).byteAt (e.1 + i) := by
    rw [State.byteAt_evacuated]
    refine State.byteAt_moveRange_other (fun h => outOld ?_) (fun h => outNew ?_)
    · obtain ⟨lo, hi'⟩ := h; exact ⟨by omega, by omega⟩
    · obtain ⟨lo, hi'⟩ := h; exact ⟨by omega, by omega⟩
  rw [State.readNat_congr still]
  have word := State.readNat_writeWords (s.emptied pa n) _ (movedWords_open openE) (movedWords_apart apart)
    (movedWord_mem (new := new) he)
  exact word

include room apart openE in
theorem movedEntry_evacuated (aligned : pa % 256 = 0) (aligned' : new % 256 = 0) (inside : new + n ≤ 2 ^ 52) (hh : home < 16)
    {e : Nat × Word64} (he : e ∈ s.entriesInto pa n) :
    Claims.MovedEntry pa new home e.2 (u64 ((s.evacuated pa n new).readNat e.1 8)) := by
  have page := (mem_entriesInto.1 he).2
  obtain ⟨lo, hi⟩ := page
  rw [readNat_evacuated apart openE he, u64_toNat,
    movedEntry_eq s pa n new home e.2 ⟨lo, hi⟩ (room _ ⟨by omega, by omega⟩)]
  exact movedEntry_readdressed e.2 pa new home aligned aligned' lo (by omega) hh
end

theorem State.target_dram_lt {s : State} {pa d : Nat} (h : s.target pa = .dram d) : d < 8 := by
  rw [State.target] at h
  split at h
  · split at h
    · rename_i range
      obtain rfl := Target.dram.inj h
      exact range.1
    · cases h
  · split at h
    · cases h
    · cases h
    · split at h <;> cases h

theorem pageEvacuation : Claims.PageEvacuation := by
  intro s pa log new d d' up wf dram draining dram' online aligned aligned' inside n into noOverlap noFlip room fits apart openE moved
  have into_iff (e : Nat × Word64) : e ∈ s.entriesInto pa n ↔ into e := mem_entriesInto
  have apart' : ∀ e ∈ s.entriesInto pa n, ¬ Claims.overlap e.1 8 pa n ∧ ¬ Claims.overlap e.1 8 new n ∧
      ∀ x ∈ s.entriesInto pa n, Claims.Apart e.1 x.1 := by
    intro e he
    obtain ⟨old, fresh, others⟩ := apart e ((into_iff e).1 he)
    exact ⟨old, fresh, fun x hx => others x ((into_iff x).1 hx)⟩
  have openE' : ∀ e ∈ s.entriesInto pa n, ∀ j, j < 8 → s.reservedAt (e.1 + j) = false :=
    fun e he => openE e ((into_iff e).1 he)
  have eff := s.evacuate_eq dram draining dram' online noFlip fun e he => fits e ((into_iff e).1 he)
  have home : d' < 16 := Nat.lt_trans (State.target_dram_lt dram') (by decide)
  refine ⟨s.evacuated pa n new, ?_, fun j hj => ⟨?_, ?_⟩, fun e he => ?_, fun a outOld outNew outEntries => ?_, fun c x hx => ?_,
    fun c _ => State.faultBase_evacuated s pa n new c, ?_⟩
  · rw [exec_pageEvacuation, execPageEvacuation, eff]
    exact occurUp_some up
  · rw [State.byteAt_evacuated, State.byteAt_moveRange_new (State.rewritten_wf wf pa n new) hj]
    exact byteAt_rewritten_page apart' openE' ⟨by omega, by omega⟩
  · rw [State.byteAt_evacuated]
    exact State.byteAt_moveRange_old noOverlap hj
  · exact movedEntry_evacuated room apart' openE' aligned aligned' inside home ((into_iff e).2 he)
  · rw [State.byteAt_evacuated, State.byteAt_moveRange_other outOld outNew]
    exact byteAt_rewritten_other openE' fun e he => outEntries e ((into_iff e).1 he)
  · rw [State.ctxs_evacuated, cget_map_snd, hx, Option.map_some, movedContext_eq]
    rfl
  · rw [State.evacuated_eq]
    exact State.moveMonitors_outside _ noOverlap

/-- Settles O51: the firmware's write of an entry, the steps of R208 one by one, and the move of a page with all that names it. -/
theorem pageOwnership : Obligations.PageOwnership := ⟨pageTableUpdates, ownershipFlips, pageEvacuation⟩

end Sys2Proof.Machine
end
